-- ==== Sys2Proof/Word.lean ====
section
/-! DEFINITION. The words the SN-4860 works on, and the small closed types its instruction words name:
operand classes (R57), guards (R61) and the modifiers that SUB carries (R62, R68). -/

namespace Sys2Proof

/-- A byte of memory. -/
abbrev Byte := BitVec 8
/-- A 32-bit register lane. -/
abbrev W32 := BitVec 32
/-- A 64-bit register. -/
abbrev W64 := BitVec 64
/-- One bit per lane of a group (R19: 32 lanes). -/
abbrev Mask := BitVec 32

/-- A sparse table: key and entry, keys strictly rising. Its operations stand in Machine/Store.lean. -/
abbrev SMap (α : Type) := List (Nat × α)

/-- What an operand field names, by its class code (R57). The widths admit exactly the legal values. -/
inductive Opd where
  | none
  | v (n : BitVec 8)
  | k (n : BitVec 6)
  | p (n : BitVec 3)
  | m (n : BitVec 6)
  | z (n : BitVec 4)
  | t (n : BitVec 4)
  | j (n : BitVec 3)
  /-- class 8: an 8-bit immediate in the field -/
  | i8 (x : BitVec 8)
  /-- class 9: the operand is IMM -/
  | imm
  /-- class 0xA: a system register index -/
  | sys (x : BitVec 8)
deriving DecidableEq, Repr, Inhabited

/-- The guard: predicate number and negation (R61). -/
structure Guard where
  neg : Bool
  pred : BitVec 3
deriving DecidableEq, Repr, Inhabited

/-- The operands every instruction word carries (R56). -/
structure Opds where
  guard : Guard
  d : Opd
  a : Opd
  b : Opd
  c : Opd
  imm : W32
deriving DecidableEq, Repr, Inhabited

/-- Form T: the integer types (R62). -/
inductive IType where
  | s32 | n32 | s64 | n64
deriving DecidableEq, Repr, Inhabited

/-- Forms F and H: the floating formats (R62, R84). -/
inductive FFmt where
  | f32 | f16 | bf16
deriving DecidableEq, Repr, Inhabited

/-- The rounding modes (R87). -/
inductive Rnd where
  | rn | rz | rp | rm
deriving DecidableEq, Repr, Inhabited

/-- Form M: the scopes (R214). -/
inductive Scope where
  | team | cluster | module | system
deriving DecidableEq, Repr, Inhabited

/-- Form B: the branch hints (R315). -/
inductive Hint where
  | none | likely | unlikely | uniform
deriving DecidableEq, Repr, Inhabited

/-- The three forms of MOVI (R114). -/
inductive MoviForm where
  | whole | lo | hi
deriving DecidableEq, Repr, Inhabited

/-- QSWP's exchanges (R126). -/
inductive QDir where
  | horiz | vert | diag
deriving DecidableEq, Repr, Inhabited

/-- XSHFL's source lanes (R128). -/
inductive ShMode where
  | idx | up | down | xor
deriving DecidableEq, Repr, Inhabited

/-- The combining operations of XSCAN and XRED (R129), in SUB order. -/
inductive XOp where
  | addS | addN | addF | minS | maxS | minN | maxN | minF | maxF | and | or | xor
deriving DecidableEq, Repr, Inhabited

/-- VOTE's variants (R130). -/
inductive VoteOp where
  | all | any | ballot
deriving DecidableEq, Repr, Inhabited

/-- MCOL's variants (R169). -/
inductive MCol where
  | mean | var | sd | msd | sample
deriving DecidableEq, Repr, Inhabited

/-- ATOM's operations (R68, R246), in SUB order. -/
inductive AtomOp where
  | add | minS | maxS | minN | maxN | and | or | xor | exch | cas | fadd
deriving DecidableEq, Repr, Inhabited

/-- CRED's reductions (R404), in SUB order. -/
inductive CredOp where
  | addF | addS | maxF | minF
deriving DecidableEq, Repr, Inhabited

/-- What a scrub read or a read of DRAM met (R370, R382). -/
inductive ReadOutcome where
  | clean | correctable | uncorrectable
deriving DecidableEq, Repr, Inhabited

/-- An access by a peer, a host or an engine (R347, R395). -/
inductive AccKind where
  | read | write | atomic (op : AtomOp) | fetch
deriving DecidableEq, Repr, Inhabited

end Sys2Proof
end

