-- ==== Sys2Proof/Machine/Bits.lean ====
section
/-! DEFINITION. Helpers over bits: masks of lanes, fields of words, sign extension, byte order (R1, R58, R105). -/

namespace Sys2Proof.Bits

/-- Bits `hi:lo` of a word as a number (R1 numbers bits from 0, the least significant). -/
def field {w : Nat} (x : BitVec w) (hi lo : Nat) : Nat := (x.toNat >>> lo) % 2 ^ (hi + 1 - lo)

/-- Whether bits `hi:lo` are all zero. -/
def fieldZero {w : Nat} (x : BitVec w) (hi lo : Nat) : Bool := field x hi lo == 0

/-- The lanes 0 to 31 in ascending order. -/
def lanes : List Nat := List.range 32

/-- Whether lane `i` is in the mask. -/
def has (m : Mask) (i : Nat) : Bool := m.getLsbD i

/-- The mask of lane `i` alone. -/
def bit (i : Nat) : Mask := 1#32 <<< i

/-- The mask of the lanes for which `f` holds. -/
def maskOf (f : Nat → Bool) : Mask := BitVec.ofNat 32 ((lanes.filter f).foldl (fun acc i => acc + 2 ^ i) 0)

/-- The lanes of a mask in ascending order. -/
def members (m : Mask) : List Nat := lanes.filter (has m)

/-- The lowest lane of a mask. -/
def lowest (m : Mask) : Option Nat := (members m).head?

/-- How many lanes a mask holds. -/
def count (m : Mask) : Nat := (members m).length

/-- The four lanes of quad `q` as a mask of the group (R19). -/
def quadMask (q : Nat) (l : BitVec 4) : Mask := (l.zeroExtend 32) <<< (4 * q)

/-- The lanes of quad `q` in a mask of the group. -/
def quadLanes (m : Mask) (q : Nat) : BitVec 4 := (m >>> (4 * q)).truncate 4

/-- Sign-extend a 32-bit value to 64 bits. -/
def sext64 (x : W32) : W64 := x.signExtend 64

/-- Zero-extend a 32-bit value to 64 bits. -/
def zext64 (x : W32) : W64 := x.zeroExtend 64

/-- The low and high halves of a 64-bit value. -/
def lo (x : W64) : W32 := x.truncate 32
def hi (x : W64) : W32 := (x >>> 32).truncate 32

/-- A 64-bit value from its halves. -/
def join (h l : W32) : W64 := h ++ l

/-- Byte `i` of a number, least significant first (R1: little-endian). -/
def byteAt (x i : Nat) : Byte := BitVec.ofNat 8 (x >>> (8 * i))

/-- The `n` bytes of a number, least significant first. -/
def bytesOf (n x : Nat) : List Byte := (List.range n).map (byteAt x)

/-- The number whose bytes are given, least significant first. -/
def ofBytes : List Byte → Nat
  | [] => 0
  | b :: r => b.toNat + 256 * ofBytes r

/-- The lowest set bit, counting from 0, of an `n`-bit field. -/
def firstSet (n x : Nat) : Option Nat := (List.range n).find? fun i => x.testBit i

/-- Round up to a multiple of `n` (R5: align). -/
def alignUp (x n : Nat) : Nat := (x + n - 1) / n * n

/-- Number of one bits below `n`. -/
def popcount (n x : Nat) : Nat := ((List.range n).filter fun i => x.testBit i).length

/-- Number of zero bits above the highest one bit of a `n`-bit value; `n` when it is zero. -/
def leadingZeros (n x : Nat) : Nat := if x = 0 then n else n - 1 - x.log2

/-- Bit `i` moved to bit `n - 1 - i`. -/
def reverse (n x : Nat) : Nat :=
  ((List.range n).filter fun i => x.testBit i).foldl (fun acc i => acc + 2 ^ (n - 1 - i)) 0

/-- Replace bits `hi:lo` of `x` by `y`. -/
def setField {w : Nat} (x : BitVec w) (hi lo y : Nat) : BitVec w :=
  let m := (2 ^ (hi + 1 - lo) - 1) * 2 ^ lo
  (x &&& ~~~(BitVec.ofNat w m)) ||| BitVec.ofNat w ((y % 2 ^ (hi + 1 - lo)) * 2 ^ lo)

end Sys2Proof.Bits
end

