-- ==== Sys2Proof/Machine/Float.lean ====
section
/-! DEFINITION. Floating values and their one rounding (R84 to R88): every operation forms an exact rational and
rounds it once. An irrational result stands as the middle of an interval of width 2^-151 that holds it, which no
rounding boundary of a format divides. -/

namespace Sys2Proof.Float

/-- An exact value: sign, numerator and denominator; a zero keeps its sign (R88). -/
structure Ex where
  neg : Bool
  num : Nat
  den : Nat
deriving DecidableEq, Repr, Inhabited

/-- What a floating operand holds. -/
inductive FV where
  | nan
  | inf (neg : Bool)
  | fin (x : Ex)
deriving DecidableEq, Repr, Inhabited

/-- R84: precision with the hidden bit, bias, width. -/
def prec : FFmt → Nat
  | .f32 => 24 | .f16 => 11 | .bf16 => 8
def bias : FFmt → Nat
  | .f16 => 15 | _ => 127
def width : FFmt → Nat
  | .f32 => 32 | _ => 16
/-- All ones in the exponent field. -/
def expOnes (f : FFmt) : Nat := 2 * bias f + 1

/-- R86: the default NaN. -/
def defaultNaN : FFmt → Nat
  | .f32 => 0x7FC00000 | .f16 => 0x7E00 | .bf16 => 0x7FC0

/-- The bits of an infinity, and of the largest finite value. -/
def infBits (f : FFmt) (neg : Bool) : Nat :=
  (if neg then 2 ^ (width f - 1) else 0) + expOnes f * 2 ^ (prec f - 1)
def maxBits (f : FFmt) (neg : Bool) : Nat := infBits f neg - 1
def zeroBits (f : FFmt) (neg : Bool) : Nat := if neg then 2 ^ (width f - 1) else 0

/-- A power of two with a possibly negative exponent, as an exact value times `n`. -/
def scaled (neg : Bool) (n : Nat) (e : Int) : Ex :=
  if 0 ≤ e then ⟨neg, n * 2 ^ e.toNat, 1⟩ else ⟨neg, n, 2 ^ (-e).toNat⟩

/-- The value that bits encode (R84, R85). -/
def toFV (f : FFmt) (b : Nat) : FV :=
  let p := prec f
  let neg := b.testBit (width f - 1)
  let e := b / 2 ^ (p - 1) % (expOnes f + 1)
  let m := b % 2 ^ (p - 1)
  if e = expOnes f then (if m = 0 then .inf neg else .nan)
  else if e = 0 then .fin (scaled neg m (1 - (bias f : Int) - (p - 1 : Nat)))
  else .fin (scaled neg (m + 2 ^ (p - 1)) ((e : Int) - bias f - (p - 1 : Nat)))

namespace Ex

def zero : Ex := ⟨false, 0, 1⟩
def one : Ex := ⟨false, 1, 1⟩
def ofInt (i : Int) : Ex := ⟨decide (i < 0), i.natAbs, 1⟩
def isZero (x : Ex) : Bool := x.num == 0
def negate (x : Ex) : Ex := { x with neg := !x.neg }
def abs (x : Ex) : Ex := { x with neg := false }

/-- The numerator over `x.den` with its sign. -/
def int (x : Ex) : Int := if x.neg then -(x.num : Int) else x.num

def mul (x y : Ex) : Ex := ⟨x.neg != y.neg, x.num * y.num, x.den * y.den⟩

/-- Division by a value that is not zero. -/
def div (x y : Ex) : Ex := ⟨x.neg != y.neg, x.num * y.den, x.den * y.num⟩

/-- The sum; where it is zero, `z` says the sign that R88 gives. -/
def addZ (z : Bool) (x y : Ex) : Ex :=
  let n := x.int * y.den + y.int * x.den
  if n = 0 then ⟨z, 0, 1⟩ else ⟨decide (n < 0), n.natAbs, x.den * y.den⟩

/-- The sum of exact values where the sign of a zero does not matter. -/
def add (x y : Ex) : Ex := addZ false x y
def sub (x y : Ex) : Ex := add x y.negate

def lt (x y : Ex) : Bool := decide (x.int * y.den < y.int * x.den)
def le (x y : Ex) : Bool := decide (x.int * y.den ≤ y.int * x.den)
def eq (x y : Ex) : Bool := decide (x.int * y.den = y.int * x.den)

/-- floor(log2 |x|) for x not zero. -/
def log2 (x : Ex) : Int :=
  let l : Int := (Nat.log2 x.num : Int) - Nat.log2 x.den
  let ok := if 0 ≤ l then decide (x.den * 2 ^ l.toNat ≤ x.num) else decide (x.den ≤ x.num * 2 ^ (-l).toNat)
  if ok then l else l - 1

/-- floor(|x| / 2^u) and whether a fraction remains, with its comparison to one half: lt, eq or gt. -/
def quo (x : Ex) (u : Int) : Nat × Nat × Nat :=
  let n := if 0 ≤ u then x.num else x.num * 2 ^ (-u).toNat
  let d := if 0 ≤ u then x.den * 2 ^ u.toNat else x.den
  (n / d, n % d, d)

end Ex

/-- Whether a magnitude with quotient `q`, remainder `r` over `d` is rounded up (R87). -/
def roundsUp (m : Rnd) (neg : Bool) (q r d : Nat) : Bool :=
  if r = 0 then false
  else match m with
    | .rn => decide (d < 2 * r) || (decide (d = 2 * r) && q % 2 == 1)
    | .rz => false
    | .rp => !neg
    | .rm => neg

/-- What overflow delivers (R87). -/
def overflow (f : FFmt) (m : Rnd) (neg : Bool) : Nat :=
  match m with
  | .rn => infBits f neg
  | .rz => maxBits f neg
  | .rp => if neg then maxBits f neg else infBits f neg
  | .rm => if neg then infBits f neg else maxBits f neg

/-- The exponent of the last place for a value of magnitude 2^l. -/
def lastPlace (f : FFmt) (l : Int) : Int :=
  let p := prec f
  max (l - (p - 1 : Nat)) (1 - (bias f : Int) - (p - 1 : Nat))

/-- Bits of the magnitude q·2^u, `q` at most 2^p and u a last place; none beyond the largest finite value. -/
def encodeMag (f : FFmt) (q : Nat) (u : Int) : Option Nat :=
  let p := prec f
  let (q, u) := if q = 2 ^ p then (2 ^ (p - 1), u + 1) else (q, u)
  if q < 2 ^ (p - 1) then some q
  else
    let e := (u + (p - 1 : Nat) + bias f).toNat
    if expOnes f ≤ e then none else some (e * 2 ^ (p - 1) + (q - 2 ^ (p - 1)))

/-- Round an exact value into a format (R87); a zero carries the sign of the exact result (R88). -/
def round (f : FFmt) (m : Rnd) (x : Ex) : Nat :=
  if x.num = 0 then zeroBits f x.neg
  else
    let u := lastPlace f x.log2
    let (q, r, d) := x.quo u
    let q := if roundsUp m x.neg q r d then q + 1 else q
    match encodeMag f q u with
    | some b => zeroBits f x.neg + b
    | none => overflow f m x.neg

/-- Round a value, NaN and infinities included. -/
def roundFV (f : FFmt) (m : Rnd) : FV → Nat
  | .nan => defaultNaN f
  | .inf n => infBits f n
  | .fin x => round f m x

/-! ### The four operations (R116) -/

def FV.neg : FV → Bool
  | .nan => false | .inf n => n | .fin x => x.neg

def FV.negate : FV → FV
  | .nan => .nan | .inf n => .inf (!n) | .fin x => .fin x.negate

/-- a + b, with R88's sign of a zero under the mode. -/
def addFV (m : Rnd) : FV → FV → FV
  | .nan, _ | _, .nan => .nan
  | .inf a, .inf b => if a == b then .inf a else .nan
  | .inf a, .fin _ => .inf a
  | .fin _, .inf b => .inf b
  | .fin x, .fin y =>
    let z := if x.num = 0 && y.num = 0 && x.neg == y.neg then x.neg else m == .rm
    .fin (x.addZ z y)

/-- a × b. -/
def mulFV : FV → FV → FV
  | .nan, _ | _, .nan => .nan
  | .inf a, .inf b => .inf (a != b)
  | .inf a, .fin y => if y.num = 0 then .nan else .inf (a != y.neg)
  | .fin x, .inf b => if x.num = 0 then .nan else .inf (x.neg != b)
  | .fin x, .fin y => .fin (x.mul y)

def add (f : FFmt) (m : Rnd) (a b : Nat) : Nat := roundFV f m (addFV m (toFV f a) (toFV f b))
def sub (f : FFmt) (m : Rnd) (a b : Nat) : Nat := roundFV f m (addFV m (toFV f a) (toFV f b).negate)
def mul (f : FFmt) (m : Rnd) (a b : Nat) : Nat := roundFV f m (mulFV (toFV f a) (toFV f b))
def fma (f : FFmt) (m : Rnd) (a b c : Nat) : Nat :=
  roundFV f m (addFV m (mulFV (toFV f a) (toFV f b)) (toFV f c))

/-- Comparison of two values that are not NaN, −0 and +0 equal. -/
def ltFV : FV → FV → Bool
  | .nan, _ | _, .nan => false
  | .inf a, .inf b => a && !b
  | .inf a, .fin _ => a
  | .fin _, .inf b => !b
  | .fin x, .fin y => x.lt y
def eqFV : FV → FV → Bool
  | .inf a, .inf b => a == b
  | .fin x, .fin y => x.eq y
  | _, _ => false
def isNaN (f : FFmt) (a : Nat) : Bool := toFV f a == .nan

/-- FMIN and FMAX (R117): −0 below +0; the operand that is no NaN, unchanged. -/
def minmax (f : FFmt) (wantMax : Bool) (a b : Nat) : Nat :=
  match toFV f a, toFV f b with
  | .nan, .nan => defaultNaN f
  | .nan, _ => b
  | _, .nan => a
  | x, y =>
    let less := ltFV x y || (eqFV x y && x.neg && !y.neg)
    if less != wantMax then a else b

/-- FCMP's codes (R118). -/
def compare (f : FFmt) (code : Nat) (a b : Nat) : Bool :=
  let x := toFV f a
  let y := toFV f b
  let nan := x == .nan || y == .nan
  match code with
  | 0 => !nan && eqFV x y
  | 1 => nan || !eqFV x y
  | 2 => ltFV x y
  | 3 => ltFV x y || eqFV x y
  | 4 => ltFV y x
  | 5 => ltFV y x || eqFV x y
  | 6 => !nan
  | _ => nan

/-! ### Integers and integral values (R102, R122) -/

/-- Round a value to an integer. -/
def toInt (m : Rnd) (x : Ex) : Int :=
  let (q, r, d) := x.quo 0
  let q := if roundsUp m x.neg q r d then q + 1 else q
  if x.neg then -(q : Int) else q

/-- The range of an integer type. -/
def intMin : Bool → Nat → Int
  | true, w => -(2 ^ (w - 1) : Nat) | false, _ => 0
def intMax : Bool → Nat → Int
  | true, w => (2 ^ (w - 1) : Nat) - 1 | false, w => (2 ^ w : Nat) - 1

/-- R102: into an integer type, rounded and clamped; the result as a w-bit pattern. -/
def toIntType (m : Rnd) (signed : Bool) (w : Nat) (v : FV) : Nat :=
  let c : Int := match v with
    | .nan => 0
    | .inf n => if n then intMin signed w else intMax signed w
    | .fin x => max (intMin signed w) (min (intMax signed w) (toInt m x))
  (c % (2 ^ w : Nat)).toNat

/-- FRND (R122). -/
def integral (f : FFmt) (m : Rnd) (a : Nat) : Nat :=
  match toFV f a with
  | .nan => defaultNaN f
  | .inf n => infBits f n
  | .fin x =>
    let i := toInt m x
    round f .rn ⟨x.neg, i.natAbs, 1⟩

/-! ### Stochastic rounding (R97, R98) -/

def mix64 (x : Nat) : Nat :=
  let m := 2 ^ 64
  let x := (x + 0x9E3779B97F4A7C15) % m
  let x := (x ^^^ (x >>> 30)) * 0xBF58476D1CE4E5B9 % m
  let x := (x ^^^ (x >>> 27)) * 0x94D049BB133111EB % m
  x ^^^ (x >>> 31)

def draw (seed idx : Nat) : Nat := mix64 (seed ^^^ mix64 (idx % 2 ^ 64)) >>> 40

/-- Whether a draw moves the magnitude up, the fraction being r/d. -/
def drawsUp (seed idx r d : Nat) : Bool := r != 0 && decide (draw seed idx < r * 2 ^ 24 / d)

/-- Stochastic rounding into a floating format (R98). -/
def roundStoch (f : FFmt) (seed idx : Nat) (x : Ex) : Nat :=
  if x.num = 0 then zeroBits f x.neg
  else
    let l := x.log2
    if (bias f : Int) < l then infBits f x.neg
    else
      let u := lastPlace f l
      let (q, r, d) := x.quo u
      let q := if drawsUp seed idx r d then q + 1 else q
      match encodeMag f q u with
      | some b => zeroBits f x.neg + b
      | none => infBits f x.neg

/-- Stochastic rounding to an integer (R98, R101). -/
def toIntStoch (seed idx : Nat) (x : Ex) : Int :=
  let (q, r, d) := x.quo 0
  let q := if drawsUp seed idx r d then q + 1 else q
  if x.neg then -(q : Int) else q

/-! ### Irrational results -/

/-- Fraction bits at which an irrational value is cut: finer than every rounding boundary of FP32. -/
def cut : Nat := 151

/-- The exact value that stands for an irrational one whose magnitude lies strictly between n and n + 1 units
of 2^-151. -/
def between (neg : Bool) (n : Nat) : Ex := ⟨neg, 2 * n + 1, 2 ^ (cut + 1)⟩

/-- floor of the square root. -/
def isqrt (n : Nat) : Nat :=
  -- one bit of the root at a time, from the highest
  (List.range (Nat.log2 n / 2 + 1)).reverse.foldl
    (fun r i => if (r + 2 ^ i) * (r + 2 ^ i) ≤ n then r + 2 ^ i else r) 0

/-- The square root of an exact value: itself where it is rational, else the interval that holds it. -/
def sqrtEx (x : Ex) : Ex :=
  -- √(num/den) = √(num·den)/den
  let s := isqrt (x.num * x.den)
  if s * s = x.num * x.den then ⟨false, s, x.den⟩
  else between false (isqrt (x.num * x.den * 2 ^ (2 * cut)) / x.den)

/-- Fixed point: `p` fraction bits. Each function below is within 2^20 units of its exact value. -/
def slack : Nat := 2 ^ 20

/-- exp(y/2^p) for y < 2^p. -/
def expFix (p y : Nat) : Nat :=
  ((List.range p).foldl (fun (acc : Nat × Nat) n =>
    let t := acc.1 * y / 2 ^ p / (n + 1)
    (t, acc.2 + t)) (2 ^ p, 2 ^ p)).2

/-- 2·artanh(z/2^p) for z at most a half: the sum of 2·z^(2k+1)/(2k+1). -/
def atanhFix (p z : Nat) : Nat :=
  let z2 := z * z / 2 ^ p
  2 * ((List.range (p / 2 + 1)).foldl (fun (acc : Nat × Nat) k =>
    (acc.1 * z2 / 2 ^ p, acc.2 + acc.1 / (2 * k + 1))) (z, 0)).2

/-- ln 2. -/
def ln2 (p : Nat) : Nat := atanhFix p (2 ^ p / 3)

/-- ln of a ratio n/d with d ≤ n < 2d. -/
def lnRatio (p n d : Nat) : Nat := atanhFix p ((n - d) * 2 ^ p / (n + d))

/-- arctan(1/n): the alternating sum of 1/((2k+1)·n^(2k+1)). -/
def atanInv (p n : Nat) : Nat :=
  ((List.range (p / 2 + 1)).foldl (fun (acc : Nat × Int) k =>
    let t : Int := (acc.1 / (2 * k + 1) : Nat)
    (acc.1 / (n * n), if k % 2 = 0 then acc.2 + t else acc.2 - t)) (2 ^ p / n, 0)).2.toNat

/-- π by Machin's formula. -/
def piFix (p : Nat) : Nat := 16 * atanInv p 5 - 4 * atanInv p 239

/-- sin or cos of y/2^p for y at most 2^p: terms from `first` on, alternating. -/
def trigFix (p y : Nat) (cosine : Bool) : Nat :=
  let start : Nat := if cosine then 2 ^ p else y
  ((List.range (p / 2 + 2)).foldl (fun (acc : Nat × Int) k =>
    let a := if cosine then 2 * k + 1 else 2 * k + 2
    let t := acc.1 * y / 2 ^ p * y / 2 ^ p / (a * (a + 1))
    (t, if k % 2 = 0 then acc.2 - t else acc.2 + t)) (start, (start : Int))).2.toNat

/-- Cut a fixed-point approximation `r` of a magnitude to 151 bits; none when the slack leaves it open. -/
def cutFix (p r : Nat) : Option Nat :=
  let k := p - cut
  let a := (r - slack) / 2 ^ k
  if a = (r + slack) / 2 ^ k then some a else none

/-- Try an approximation at growing precision. -/
def refine (neg : Bool) (f : Nat → Nat) : List Nat → Ex
  | [] => between neg 0
  | p :: r =>
    match cutFix p (f p) with
    | some n => between neg n
    | none => match r with
      | [] => between neg (f p / 2 ^ (p - cut))
      | _ => refine neg f r

/-- The precisions tried. -/
def precisions : List Nat := [256, 512, 1024, 2048]

/-- floor(x) and the fraction of an exact value as a ratio below 1. -/
def split (x : Ex) : Int × Nat × Nat :=
  let i := x.int / x.den
  (i, (x.int - i * x.den).toNat, x.den)

/-- 2^x for x within the range where it does not plainly overflow or vanish. -/
def exp2Ex (x : Ex) : Ex :=
  let (i, n, d) := split x
  if n = 0 then scaled false 1 i
  else refine false (fun p =>
    let p' := p + 160
    let y := expFix p' (n * 2 ^ p' / d * ln2 p' / 2 ^ p')
    if 0 ≤ i then y * 2 ^ i.toNat / 2 ^ 160 else y / 2 ^ 160 / 2 ^ (-i).toNat) precisions

/-- log2 of a positive value. -/
def log2Ex (x : Ex) : Ex :=
  let l := x.log2
  -- m = x / 2^l as a ratio
  let n := if 0 ≤ l then x.num else x.num * 2 ^ (-l).toNat
  let d := if 0 ≤ l then x.den * 2 ^ l.toNat else x.den
  if n = d then Ex.ofInt l
  else refine (decide (l < 0)) (fun p =>
    let fr : Int := (lnRatio p n d * 2 ^ p / ln2 p : Nat)
    (l * (2 ^ p : Nat) + fr).natAbs) precisions

/-- e^x as a fixed-point magnitude for 0 ≤ x, a ratio n/d below 128. -/
def expRatio (p n d : Nat) : Nat :=
  -- e^x = 2^k · e^(x - k ln2)
  let p' := p + 256
  let x := n * 2 ^ p' / d
  let k := x / ln2 p'
  expFix p' (x - k * ln2 p') * 2 ^ k / 2 ^ 256

/-- sin and cos of a finite value that is not zero: reduce by π/2 exactly enough, then the series. -/
def sinCosEx (x : Ex) (cosine : Bool) : Ex :=
  let sgn (p : Nat) : Nat × Nat :=
    -- quadrant and remainder at p fraction bits
    let p' := p + 160
    let h := piFix p' / 2
    let v := x.num * 2 ^ p' / x.den
    (v / h, v % h / 2 ^ 160)
  let quad := (sgn 512).1 + (if cosine then 1 else 0)
  let neg := if cosine then quad % 4 ≥ 2 else (quad % 4 ≥ 2) != x.neg
  refine neg (fun p =>
    let r := (sgn p).2
    -- an argument above one is taken from the other end of the quadrant
    let odd := quad % 2 == 1
    let half := piFix p / 4
    if decide (r ≤ half) then trigFix p r odd else trigFix p (piFix p / 2 - r) (!odd)) precisions

/-- tanh of a finite value that is not zero. -/
def tanhEx (x : Ex) : Ex :=
  if decide (64 * x.den ≤ x.num) then between x.neg (2 ^ cut - 1)
  else refine x.neg (fun p =>
    let e := expRatio p (2 * x.num) x.den
    (e - 2 ^ p) * 2 ^ p / (e + 2 ^ p)) precisions

/-! ### The special functions (R119) -/

def rcp (m : Rnd) (a : Nat) : Nat :=
  match toFV .f32 a with
  | .nan => defaultNaN .f32
  | .inf n => zeroBits .f32 n
  | .fin x => if x.num = 0 then infBits .f32 x.neg else round .f32 m (Ex.one.div x)

def rsq (a : Nat) : Nat :=
  match toFV .f32 a with
  | .nan => defaultNaN .f32
  | .inf n => if n then defaultNaN .f32 else zeroBits .f32 false
  | .fin x =>
    if x.num = 0 then infBits .f32 x.neg
    else if x.neg then defaultNaN .f32
    else round .f32 .rn (sqrtEx (Ex.one.div x))

def sqrt (m : Rnd) (a : Nat) : Nat :=
  match toFV .f32 a with
  | .nan => defaultNaN .f32
  | .inf n => if n then defaultNaN .f32 else infBits .f32 false
  | .fin x =>
    if x.num = 0 then zeroBits .f32 x.neg
    else if x.neg then defaultNaN .f32
    else round .f32 m (sqrtEx x)

def exp2 (a : Nat) : Nat :=
  match toFV .f32 a with
  | .nan => defaultNaN .f32
  | .inf n => if n then zeroBits .f32 false else infBits .f32 false
  | .fin x =>
    if (Ex.ofInt 128).le x then infBits .f32 false
    else if x.lt (Ex.ofInt (-151)) then zeroBits .f32 false
    else round .f32 .rn (exp2Ex x)

def log2 (a : Nat) : Nat :=
  match toFV .f32 a with
  | .nan => defaultNaN .f32
  | .inf n => if n then defaultNaN .f32 else infBits .f32 false
  | .fin x =>
    if x.num = 0 then infBits .f32 true
    else if x.neg then defaultNaN .f32
    else round .f32 .rn (log2Ex x)

def sinCos (cosine : Bool) (a : Nat) : Nat :=
  match toFV .f32 a with
  | .nan | .inf _ => defaultNaN .f32
  | .fin x =>
    if x.num = 0 then (if cosine then 0x3F800000 else zeroBits .f32 x.neg)
    else round .f32 .rn (sinCosEx x cosine)

def tanh (a : Nat) : Nat :=
  match toFV .f32 a with
  | .nan => defaultNaN .f32
  | .inf n => if n then 0xBF800000 else 0x3F800000
  | .fin x => if x.num = 0 then zeroBits .f32 x.neg else round .f32 .rn (tanhEx x)

/-! ### Short names for FP32 to nearest -/

def fadd (a b : W32) : W32 := BitVec.ofNat 32 (add .f32 .rn a.toNat b.toNat)
def fsub (a b : W32) : W32 := BitVec.ofNat 32 (sub .f32 .rn a.toNat b.toNat)
def fmul (a b : W32) : W32 := BitVec.ofNat 32 (mul .f32 .rn a.toNat b.toNat)
def fexp2 (a : W32) : W32 := BitVec.ofNat 32 (exp2 a.toNat)
def fval (a : W32) : FV := toFV .f32 a.toNat

end Sys2Proof.Float
end

