-- ==== Sys2Proof/Machine/Store.lean ====
section
/-! DEFINITION. Sparse tables: the one shape in which the model holds register files, memory, stamps and
units. Keys rise strictly; `set` also keeps no entry that equals what an unlisted key reads as. -/

namespace Sys2Proof.SMap

variable {α : Type}

/-- The entry at a key, if it is listed. -/
def get? : SMap α → Nat → Option α
  | [], _ => none
  | (k, x) :: r, i => if i = k then some x else get? r i

/-- The entry at a key; an unlisted key reads as `d`. -/
def get (d : α) (m : SMap α) (i : Nat) : α := (get? m i).getD d

/-- List `x` at key `i`. -/
def put : SMap α → Nat → α → SMap α
  | [], i, x => [(i, x)]
  | (k, y) :: r, i, x =>
    if i = k then (i, x) :: r else if i < k then (i, x) :: (k, y) :: r else (k, y) :: put r i x

/-- Unlist key `i`. -/
def erase (m : SMap α) (i : Nat) : SMap α := m.filter fun e => e.1 != i

/-- Write `x` at key `i` in a table whose unlisted keys read as `d`. -/
def set [DecidableEq α] (d : α) (m : SMap α) (i : Nat) (x : α) : SMap α :=
  if x = d then erase m i else put m i x

/-- Change the entry at a key, an unlisted one starting from `d`. -/
def modify (d : α) (m : SMap α) (i : Nat) (f : α → α) : SMap α := put m i (f (get d m i))

/-- The entries from `lo` up to, not including, `hi`. -/
def slice (m : SMap α) (lo hi : Nat) : SMap α := m.filter fun e => decide (lo ≤ e.1) && decide (e.1 < hi)

/-- `m` with every entry of `n` written over it. -/
def overlay (m n : SMap α) : SMap α := n.foldl (fun acc e => put acc e.1 e.2) m

/-- Keys rise strictly, from `lo` on. -/
def sortedFrom : Nat → SMap α → Bool
  | _, [] => true
  | lo, (k, _) :: r => decide (lo ≤ k) && sortedFrom (k + 1) r

/-- The canonical form: keys strictly rising, no entry equal to the default `d`. -/
def canonical [DecidableEq α] (d : α) (m : SMap α) : Bool :=
  sortedFrom 0 m && m.all fun e => decide (e.2 ≠ d)

end Sys2Proof.SMap
end

