-- ==== Sys2Proof/Syntax.lean ====
section
/-! DEFINITION. Every row of the opcode table as a constructor: first the instructions, each with the
modifiers of its SUB (R62, R68) and its operands (R56), then the steps of the hardware, each naming the
unit, group or operation it concerns. -/

namespace Sys2Proof

/-- One step of the part: an instruction, or a happening of the hardware. -/
inductive Instr where
  -- integer and address instructions (R108 to R115)
  | mov (ty : IType) (o : Opds)
  | movi (ty : IType) (form : MoviForm) (o : Opds)
  | iadd (ty : IType) (o : Opds)
  | isub (ty : IType) (o : Opds)
  | imul (ty : IType) (o : Opds)
  | imulh (ty : IType) (o : Opds)
  | imad (ty : IType) (o : Opds)
  | idiv (ty : IType) (o : Opds)
  | imin (ty : IType) (o : Opds)
  | imax (ty : IType) (o : Opds)
  | iabs (ty : IType) (o : Opds)
  | ineg (ty : IType) (o : Opds)
  | and (ty : IType) (o : Opds)
  | or (ty : IType) (o : Opds)
  | xor (ty : IType) (o : Opds)
  | shl (ty : IType) (o : Opds)
  | shr (ty : IType) (o : Opds)
  | sar (ty : IType) (o : Opds)
  | bfx (ty : IType) (o : Opds)
  | bfi (ty : IType) (o : Opds)
  | popc (ty : IType) (o : Opds)
  | clz (ty : IType) (o : Opds)
  | brev (ty : IType) (o : Opds)
  | icmp (ty : IType) (o : Opds)
  | sel (ty : IType) (o : Opds)
  | lea (ty : IType) (sh : BitVec 2) (o : Opds)
  -- floating instructions (R116 to R122)
  | fadd (f : FFmt) (r : Rnd) (o : Opds)
  | fsub (f : FFmt) (r : Rnd) (o : Opds)
  | fmul (f : FFmt) (r : Rnd) (o : Opds)
  | ffma (f : FFmt) (r : Rnd) (o : Opds)
  | fmin (f : FFmt) (r : Rnd) (o : Opds)
  | fmax (f : FFmt) (r : Rnd) (o : Opds)
  | fcmp (f : FFmt) (r : Rnd) (o : Opds)
  | frcp (f : FFmt) (r : Rnd) (o : Opds)
  | frsq (f : FFmt) (r : Rnd) (o : Opds)
  | fsqrt (f : FFmt) (r : Rnd) (o : Opds)
  | fexp2 (f : FFmt) (r : Rnd) (o : Opds)
  | flog2 (f : FFmt) (r : Rnd) (o : Opds)
  | fsin (f : FFmt) (r : Rnd) (o : Opds)
  | fcos (f : FFmt) (r : Rnd) (o : Opds)
  | ftanh (f : FFmt) (r : Rnd) (o : Opds)
  | hadd2 (f : FFmt) (r : Rnd) (o : Opds)
  | hmul2 (f : FFmt) (r : Rnd) (o : Opds)
  | hfma2 (f : FFmt) (r : Rnd) (o : Opds)
  | cvt (f : FFmt) (r : Rnd) (o : Opds)
  | cvtBlock (f : FFmt) (r : Rnd) (o : Opds)
  | frnd (f : FFmt) (r : Rnd) (o : Opds)
  -- quad and group instructions (R126 to R132)
  | qswp (dir : QDir) (o : Opds)
  | qbcst (lane : BitVec 2) (o : Opds)
  | xshfl (mode : ShMode) (o : Opds)
  | xscan (op : XOp) (o : Opds)
  | xred (op : XOp) (o : Opds)
  | vote (op : VoteOp) (o : Opds)
  | elect (o : Opds)
  | gsample (o : Opds)
  -- moment instructions (R161 to R171)
  | mset (o : Opds)
  | madd (o : Opds)
  | msub (o : Opds)
  | mmul (o : Opds)
  | mscl (o : Opds)
  | msqr (o : Opds)
  | mrcp (o : Opds)
  | mexp (o : Opds)
  | mrelu (o : Opds)
  | mlog (o : Opds)
  | mcol (kind : MCol) (o : Opds)
  | mchk (o : Opds)
  -- matrix instructions and the selection heap (R138 to R154)
  | mmaH (o : Opds)
  | mmaKb (o : Opds)
  | mmaMom (o : Opds)
  | mmaMomQn (o : Opds)
  | thnd (o : Opds)
  | zclr (o : Opds)
  | zrd (o : Opds)
  | zwr (o : Opds)
  | zepi (o : Opds)
  | zepiHeap (o : Opds)
  | zalloc (o : Opds)
  | zfree (o : Opds)
  | mxfence (o : Opds)
  | hpinit (o : Opds)
  | hpread (o : Opds)
  -- walks (R188 to R199)
  | wkbegin (o : Opds)
  | walkSnapshotComplete (cluster slot : Nat)
  | wknext (o : Opds)
  | wknextMerge (o : Opds)
  | walkBlockFetchComplete (cluster slot node : Nat)
  | wksubs (q : Bool) (o : Opds)
  | wksubsComplete (grp op : Nat)
  | wkpart (o : Opds)
  | wkpartComplete (grp op : Nat)
  | smxmerge (o : Opds)
  | smxmergeComplete (grp op : Nat)
  | wkdone (o : Opds)
  | wkdoneComplete (grp op : Nat)
  | wkend (o : Opds)
  | wkendComplete (grp op : Nat)
  | wkswap (o : Opds)
  -- memory (R234 to R248)
  | ld (sc : Scope) (acq : Bool) (o : Opds)
  | st (sc : Scope) (rel : Bool) (o : Opds)
  | gather (sc : Scope) (o : Opds)
  | scatter (sc : Scope) (o : Opds)
  | atom (wide : Bool) (op : AtomOp) (o : Opds)
  | fenceRel (sc : Scope) (o : Opds)
  | fenceAcq (sc : Scope) (o : Opds)
  | fenceAr (sc : Scope) (o : Opds)
  | wait (o : Opds)
  -- copies and local queues (R249 to R256)
  | cpLin (o : Opds)
  | cpTile (o : Opds)
  | cpGather (o : Opds)
  | copyComplete (grp op : Nat)
  | qpush (o : Opds)
  | queueSlotFill (team queue slot : Nat)
  | qpop (o : Opds)
  | qallow (o : Opds)
  | pref (o : Opds)
  -- bank units (R257 to R261)
  | bmv (o : Opds)
  | bmvComplete (grp op : Nat)
  | bfenceW (o : Opds)
  | bfenceR (o : Opds)
  | bfenceWr (o : Opds)
  | bstat (o : Opds)
  -- hypotheses (R262 to R281)
  | hopen (o : Opds)
  | henter (o : Opds)
  | hleave (o : Opds)
  | hresolveCfm (o : Opds)
  | hresolveCfx (o : Opds)
  | hresolveRef (o : Opds)
  | hstat (o : Opds)
  | resolveBroadcastArrival (rid core : Nat)
  | resolveCoreDrainReport (rid core : Nat)
  | resolveSlicePerform (rid slice : Nat)
  | resolveComplete (rid : Nat)
  | arenaReclaim (ctx : Nat)
  | orphanRedirect (grp : Nat)
  -- control (R312 to R334)
  | bra (h : Hint) (o : Opds)
  | brx (h : Hint) (o : Opds)
  | call (h : Hint) (o : Opds)
  | ret (o : Opds)
  | regang (o : Opds)
  | groupStuckRelease (grp : Nat)
  | exit (o : Opds)
  | groupRetire (grp : Nat)
  | bar (o : Opds)
  | barx (o : Opds)
  | barrierArrive (grp : Nat)
  | cbar (o : Opds)
  | gbar (o : Opds)
  | spawn (o : Opds)
  | launch (o : Opds)
  | lqsignal (o : Opds)
  | rangeInit (o : Opds)
  | rangeTake (o : Opds)
  | rangeTakeServe (grp op : Nat)
  | yield (o : Opds)
  | life (o : Opds)
  | rws (o : Opds)
  | nop (o : Opds)
  | trap (o : Opds)
  -- system (R359 to R367, R418)
  | rdsys (o : Opds)
  | wrsys (o : Opds)
  | tret (o : Opds)
  | tlbinvPage (o : Opds)
  | tlbinvCtx (o : Opds)
  | tlbinvAll (o : Opds)
  | tlbinvComplete (grp op : Nat)
  | cacheopL1inv (o : Opds)
  | cacheopIcinv (o : Opds)
  | ctxsave (o : Opds)
  | teamSave (team : Nat)
  | ctxsaveComplete (grp op : Nat)
  | ctxload (o : Opds)
  | groupRestoreResume (grp : Nat)
  -- collectives (R403 to R411)
  | cred (op : CredOp) (o : Opds)
  | cbcast (o : Opds)
  | cgather (o : Opds)
  | cwait (o : Opds)
  /-- `others`: what each other rank contributed, by rank -/
  | collectiveCommit (ctx ticket : Nat) (others : List (Nat × List W32))
  | collectiveTimeout (ctx ticket : Nat)
  | collectiveMemberFailure (ctx ticket rank : Nat)
  -- the matrix unit (R155 to R160)
  | skeinStart (core : Nat)
  | skeinComplete (core : Nat)
  | matrixPowerGate (core : Nat)
  -- the memory system (R207 to R219)
  | loadAtHomeSlice (grp op lane : Nat)
  /-- `lanes`: the lanes whose values reach their destinations in this step -/
  | loadComplete (grp op : Nat) (lanes : Mask)
  | storeAtHomeSlice (grp op lane : Nat)
  | storeStampReturn (grp op : Nat)
  | l1LeaseExpiry (core line : Nat)
  | ownershipGrant (grp op lane : Nat)
  | ownershipExpiry (line : Nat)
  | ownershipHandbackArrival (line : Nat)
  | releasePerform (grp op : Nat)
  | acquireWaitEnd (grp op : Nat)
  -- the dispatcher (R297 to R302)
  | dispatcherRecordRead (queue pos : Nat)
  /-- `cores`: one core for each team placed in this step -/
  | teamPlace (launch : Nat) (cores : List Nat)
  | placementAgeLimit (launch : Nat)
  | launchComplete (launch : Nat)
  -- the host (R394 to R399)
  | hostRingDoorbell (fn : Nat) (prod : W32)
  | hostRingBaseWrite (fn : Nat) (base : W64)
  | hostRingLogWrite (fn : Nat) (log : BitVec 4)
  | ringEntryConsume (fn : Nat)
  | hostBar2Write (fn : Nat) (off : Nat) (bytes : List Byte)
  | hostBar2Read (fn : Nat) (off len : Nat)
  | hostLinkTrainDown (width : Nat)
  -- peers and the fabric (R347 to R349, R400 to R402)
  | peerAccessArrival (port vc ctx : Nat) (va : W64) (kind : AccKind) (bytes : List Byte)
  | peerFlowTimeout (port vc : Nat)
  | peerAccessTimeout (grp op lane : Nat)
  | acountFlush (cluster entry : Nat)
  | eventPostRetry (ctx : Nat)
  | uluberFlitRetry (port : Nat)
  | uluberLaneSpare (port lane : Nat)
  | uluberPortHalve (port : Nat)
  | uluberPortDown (port : Nat)
  | gtimeOutOfSync
  -- the memory's own upkeep (R377 to R390)
  | scrubRead (channel row : Nat) (seen : ReadOutcome)
  | scrubPassEnd
  | rowReplace (channel row : Nat)
  | channelFail (channel : Nat)
  | channelRetireStart (channel : Nat)
  | channelLineMove (channel : Nat)
  | refreshForced (channel bank : Nat)
  | activationAlert (channel bank : Nat)
  | clusterFailure (cluster : Nat)
  | sliceRetire (slice : Nat)
  | sliceAbruptFailure (slice : Nat)
  -- bring-up, power and management (R412 to R417)
  | powerOnReset
  | hostModuleReset
  | powerLimitThrottle (cycles : Nat)
  | mgmtIdentity
  | mgmtAttest
  | mgmtErrorRecord
  | mgmtSetScrubber
  | mgmtSetMatrixIdle
  | mgmtPowerReading
  | gtimeBackInSync
  | collectiveMismatch (ctx ticket : Nat)
  | mgmtCommandRefused (word : W64)
deriving DecidableEq, Repr

end Sys2Proof
end

