-- ==== Sys2Proof/Machine/State.lean ====
section
/-! DEFINITION. The state of the SN-4860 as plain data: everything the spec gives the machine, and the few
fields of the model's own (turns, choice, nextId, cur). -/

namespace Sys2Proof.Machine

/-! ### Registers of a group (02 R21 to R29) -/

/-- A deferred entry of a join register (R26). -/
structure JEntry where
  pc : W64
  lanes : Mask
deriving DecidableEq, Repr, Inhabited

/-- A join register (R26). -/
structure JReg where
  expect : Mask := 0#32
  arrive : Mask := 0#32
  active : Bool := false
  entries : List JEntry := []
deriving DecidableEq, Repr, Inhabited

/-- STATE of a quad (R47). -/
inductive QState where
  | absent | ready | parkedGang | parkedBar | exited | orphanPending
deriving DecidableEq, Repr, Inhabited

/-- A quad table entry (R47). -/
structure Quad where
  pc : W64 := 0#64
  frag : Nat := 0
  lanes : BitVec 4 := 0#4
  st : QState := .absent
  waitno : Nat := 0
deriving DecidableEq, Repr, Inhabited

/-- Masks of granules and windows (R306, R331). -/
structure Granules where
  v : BitVec 32 := 0#32
  k : BitVec 8 := 0#8
  m : BitVec 8 := 0#8
  z : BitVec 16 := 0#16
deriving DecidableEq, Repr, Inhabited

/-- What is kept for each fragment of a group (R306, R307, R330, R355, R37). -/
structure FragRec where
  /-- masks of the last LIFE -/
  life : Granules := {}
  /-- issues since that LIFE, saturating at 65,535 -/
  count : Nat := 0
  /-- what the group has written since this fragment's last LIFE -/
  written : Granules := {}
  /-- stopped for pre-emption -/
  stopped : Bool := false
  /-- stopped because it could issue no more within the lifeline bound (R307) -/
  cut : Bool := false
  /-- not ready before this gtime (YIELD) -/
  notBefore : Nat := 0
  /-- passed over once (YIELD #0) -/
  skip : Bool := false
  /-- its first fetch is a checked transfer -/
  checkedFetch : Bool := false
  /-- the ticket that its held collective has taken (R406) -/
  ticket : Option Nat := none
  /-- its trap waits for handler mode to end (R355) -/
  trapWaits : Bool := false
  /-- reads of a peer that its held instruction has sent: address, and when (R401) -/
  asked : SMap Nat := []
deriving DecidableEq, Repr, Inhabited

/-! ### Operations under way (02 R34, 11) -/

/-- Where an address leads (R202, R203, R341). -/
inductive Loc where
  /-- a byte of this module's HBM, by physical address -/
  | hbm (p : Nat)
  /-- a byte of a team's local allocation -/
  | loc (team off : Nat)
  /-- memory of a peer module -/
  | peer (owner rctx va : Nat)
  /-- host memory -/
  | host (a : Nat)
deriving DecidableEq, Repr, Inhabited

/-- A leaf as the access uses it (R341). -/
structure Leaf where
  base : Nat
  size : Nat
  w0 : W64
  w1 : W64
  /-- physical address of the entry -/
  entry : Nat
deriving DecidableEq, Repr

/-- The dependence counters (R34); `none` for an ordering operation that counts on none. -/
inductive Cnt where
  | loads | stores | copies | matrix | bank | walk | none
deriving DecidableEq, Repr, Inhabited

/-- A write stamp: known, or still to come from the store named, by operation·64 + lane (R212). -/
inductive Stamp where
  | known (t : Nat)
  | pending (op : Nat)
deriving DecidableEq, Repr, Inhabited

/-- How far one lane's access has come. -/
inductive AccSt where
  /-- not performed -/
  | waiting
  /-- performed; the value or stamp is on its way back -/
  | performed
  /-- in its destination, or its stamp has returned -/
  | finished
deriving DecidableEq, Repr, Inhabited

/-- One lane's access. A 16-byte access is two, whose lanes differ by 32 (R205). -/
structure Access where
  lane : Nat
  va : Nat
  loc : Loc
  size : Nat
  /-- data stored, or value read -/
  value : Nat := 0
  /-- second operand of a compare and swap -/
  value2 : Nat := 0
  /-- stamps of the value read, or of the store -/
  stamps : List Stamp := []
  st : AccSt := .waiting
  /-- where a store stands in the order in which the core's L1 took its stores; 0 before it does -/
  l1At : Nat := 0
  /-- it reads only (a helper lane's atomic), or reads zero (a helper lane that fails the checks) -/
  readOnly : Bool := false
  /-- MLOCK was set in its leaf (R227), and the base and size of the page which that maps (R346) -/
  locked : Bool := false
  page : Nat × Nat := (0, 0)
  /-- the leaf by which it was translated, as long as no TLBINV has covered it (R344, R346) -/
  leaf : Option Leaf := none
  /-- the page takes versions (R267) -/
  hypPage : Bool := false
  /-- the tensor whose tile line it meets (R206) -/
  tile : Option Nat := none
  /-- stamp of an atomic's own write (R213) -/
  wrote : List Stamp := []
  /-- destination registers that already hold its value, counted from the first (R241) -/
  given : List Nat := []
  /-- when it was sent to a peer or to the host (R348, R401) -/
  sent : Option Nat := none
  /-- cause of a failure after issue (R240) -/
  fault : Option Nat := none
deriving DecidableEq, Repr, Inhabited

/-- How a loaded value fills its destination: class, number and width code (R236). -/
structure Dest where
  cls : Nat
  num : Nat
  code : Nat
deriving DecidableEq, Repr, Inhabited

/-- The four variants of MMA (R141). -/
inductive MmaKind where
  | h | kb | mom | momQn
deriving DecidableEq, Repr, Inhabited

/-- The parameters of an MMA once its issue checks have passed (R138 to R142, R155, R172 to R174). -/
structure MmaParams where
  kind : MmaKind
  window : Nat
  areg : Nat
  /-- element format of A: bf16 -/
  abf : Bool
  lanes : Mask
  tensor : Nat
  trow : Nat
  tcol : Nat
  /-- format slot: FMT, MANT, SEED -/
  fmt : Nat
  mant : Nat
  seed : W64
  cov : Nat
  /-- physical address of the first element or mantissa line, and of the first exponent line -/
  mphys : Nat
  ephys : Nat
  sharing : Bool
  elem : Nat
  /-- virtual address of the first element or mantissa line, and of the first exponent line -/
  mva : Nat
  eva : Nat
  /-- the tile's bytes as its reads at issue took them: elements or mantissas, then exponents -/
  bytes : List Byte
  /-- number, in stored order, of the first line that held uncorrectable data -/
  badLine : Option Nat
  deadline : Nat
deriving DecidableEq, Repr, Inhabited

/-- The pieces a copy moves (R249). -/
structure CopyJob where
  /-- source runs: virtual address, length -/
  src : List (Nat × Nat)
  /-- destination address -/
  dst : Nat
  len : Nat
  /-- the parts of the copy that have been read: place and length -/
  read : List (Nat × Nat) := []
  /-- bytes read and not yet written, by place -/
  buf : SMap Byte := []
  /-- the parts that have been written -/
  wrote : List (Nat × Nat) := []
  /-- completion: 0 none, 1 barrier, 2 queue -/
  kind : Nat := 0
  num : Nat := 0
  slot : Nat := 0
  /-- the place of the failing line at which it stops, with cause and TVAL -/
  stop : Option (Nat × Nat × Nat) := none
  /-- latest completion stamp of its writes -/
  stamp : Nat := 0
  /-- it was issued with the rights of the system kernel or a handler -/
  priv : Bool := false
deriving DecidableEq, Repr, Inhabited

/-- An aligned 8-byte word that a BMV has read: its value, why it cannot be used, and whether it was reconstructed. -/
structure BankWord where
  val : W64
  bad : Option (Nat × Nat) := none
  recon : Bool := false
deriving DecidableEq, Repr, Inhabited

/-- A BMV's operands (R257). -/
structure BmvJob where
  xoff : Nat
  yoff : Nat
  col0 : Nat
  ncol : Nat
  bf : Bool
  acc : Bool
  mant : Nat
  mbase : Nat
  ebase : Nat
  ktiles : Nat
  ntiles : Nat
  /-- words read so far, by virtual address / 8 (R224, R259) -/
  seen : SMap BankWord := []
  /-- columns whose results have been performed, with what each ended in: a fault, and whether it was reconstructed -/
  cols : SMap (Option (Nat × Nat) × Bool) := []
deriving DecidableEq, Repr, Inhabited

/-- What a walk operation does at its completion (R189 to R198). -/
inductive WalkAct where
  | begin
  /-- node, local offset of the list and of the rows, and what each rank's query entry gave: departed, row; none where the
  read failed -/
  | subs (node : Nat) (off : Nat) (rows : Option Nat) (ranks : List (Option Bool × Option (List Byte)))
  /-- node, and the 4-byte writes still to be made: address and value -/
  | part (node : Nat) (writes : List (Nat × W32))
  | merge (node : Nat)
  | done (node : Nat)
  | fin
deriving DecidableEq, Repr, Inhabited

/-- A walk operation: the walk by cluster, slot and SEQNO, and the rights it was issued with. -/
structure WalkOp where
  cluster : Nat
  slot : Nat
  seq : Nat
  priv : Bool
  act : WalkAct
deriving DecidableEq, Repr, Inhabited

/-- What an operation under way does. -/
inductive OpKind where
  | load (d : Dest)
  | gather (d : Dest)
  | store
  | atomic (op : AtomOp) (wide nr : Bool) (d : Dest)
  | take (d : Nat) (handle : W32)
  | copy (j : CopyJob)
  | mma (p : MmaParams)
  | bmv (j : BmvJob)
  | walk (w : WalkOp)
  | resolve (rid : Nat)
  | tlbinv (page : Option Nat) (ctx : Option Nat)
  /-- destination, context, manifest address, CODE, teams saved so far -/
  | ctxsave (dst ctx manifest code count : Nat)
  | fence
  | bfenceW (t : Nat)
  | bfenceR
deriving DecidableEq, Repr, Inhabited

/-- An operation under way, from issue until its counter has fallen for it. -/
structure Op where
  id : Nat := 0
  cls : Cnt
  /-- its number among the group's operations of its class -/
  ord : Nat := 0
  kind : OpKind
  /-- HCUR at issue, as resolves have moved it since (R221, R267, R271, R273) -/
  hyp : BitVec 16 := 0#16
  /-- it is an acquire at this scope -/
  acq : Option Scope := none
  /-- the wait of an acquire has ended -/
  acquired : Bool := false
  /-- it is a release at this scope -/
  rel : Option Scope := none
  /-- the condition of R214 has held for it -/
  released : Bool := false
  /-- its writes are dropped (R273) -/
  dropped : Bool := false
  /-- the resolve that has moved it to another hypothesis, and that it waits for (R271) -/
  after : Option Nat := none
  lanes : List Access := []
  time : Nat := 0
  /-- reads of a peer that its engine has sent: address, and when (R401) -/
  asked : SMap Nat := []
  /-- rows or lanes that R144 makes unpredictable -/
  spoiled : Mask := 0#32
  done : Bool := false
  /-- its unit has finished with it but for writes that a peer or the host has not answered -/
  ended : Bool := false
  /-- a failure to report at a WAIT (R240): cause and TVAL -/
  fault : Option (Nat × Nat) := none
  /-- a BMV that was served in part by reconstruction (R261) -/
  recon : Bool := false
  /-- PC of the instruction -/
  pc : Nat := 0
deriving DecidableEq, Repr, Inhabited

/-- A fault carried until a WAIT requires its operation (R240): the operation, its number in its class, CAUSE, TVAL,
and the PC of the instruction. -/
structure LateFault where
  cls : Cnt
  ord : Nat
  id : Nat
  cause : Nat
  tval : Nat
  pc : Nat
deriving DecidableEq, Repr, Inhabited

/-- An MMA that no WAIT has shown to be complete (R144): its registers and rows. -/
structure Exposed where
  op : Nat
  ord : Nat
  window : Nat
  lanes : Mask
  /-- class and first number of its A registers -/
  cls : Nat
  areg : Nat
deriving DecidableEq, Repr, Inhabited

/-- A group (R19, R27). -/
structure Group where
  team : Nat := 0
  gid : Nat := 0
  role : Nat := 0
  nv : Nat := 0
  nk : Nat := 0
  nm : Nat := 0
  present : Mask := 0#32
  helpers : Mask := 0#32
  /-- v registers, by number·32 + lane -/
  v : SMap W32 := []
  k : SMap W64 := []
  p : SMap Mask := []
  /-- m registers, by number·32 + lane: mean low, variance high -/
  m : SMap W64 := []
  t : SMap W64 := []
  j : SMap JReg := []
  quads : SMap Quad := []
  frags : SMap FragRec := []
  horizon : Nat := 0
  mcr : W32 := 0#32
  hcur : BitVec 16 := 0#16
  /-- it has executed MXFENCE (R145) -/
  fenced : Bool := false
  cause : W32 := 0#32
  tpc : W64 := 0#64
  tval : W64 := 0#64
  hmode : Bool := false
  hmask : Mask := 0#32
  uhmiss : W32 := 0#32
  /-- operations under way, in issue order -/
  ops : List Op := []
  /-- operations issued so far in each class -/
  seqs : SMap Nat := []
  faults : List LateFault := []
  exposed : List Exposed := []
  /-- stores whose pending stamps the group has read (R213) -/
  pending : List Nat := []
  /-- LAST of BSTAT, and whether that BMV was served in part by reconstruction (R261) -/
  bmvLast : Nat := 0
  bmvRecon : Bool := false
  /-- when orphaned, the nearest live ancestor (R273) -/
  orphan : Option (BitVec 16) := none
  partition : Nat := 0
  lastIssue : Nat := 0
  lastFrag : Nat := 0
  /-- uncorrectable register lanes: class and key (R370, R373) -/
  bad : List (Nat × Nat) := []
  /-- restored and not yet resumed (R226, R275) -/
  restoring : Bool := false
  /-- it rests for pre-emption and its operations have been pulled forward (R308); the model's own -/
  drawn : Bool := false
  exited : Bool := false
deriving DecidableEq, Repr, Inhabited

/-! ### Teams (02 R27, R40; 11 R252; 14 R321) -/

/-- A team barrier, or the phase state of CBAR and GBAR. -/
structure Barrier where
  /-- groups that have arrived: GROUPID, or group uid for CBAR and GBAR -/
  arrived : List Nat := []
  pend : Nat := 0
  phase : Bool := false
deriving DecidableEq, Repr, Inhabited

/-- A reserved slot of a local queue: whether it is filled, and the group and operation that fill it. -/
structure QSlot where
  slot : Nat
  filled : Bool
  grp : Nat
  op : Nat
  /-- an engine fills it at its completion -/
  engine : Bool
  /-- bytes of a push that are still to be performed -/
  data : List Byte := []
deriving DecidableEq, Repr, Inhabited

/-- A local queue (R252). -/
structure Queue where
  base : Nat
  nslot : Nat
  slotsz : Nat
  free : Nat
  head : Nat
  tail : Nat
  /-- reserved slots, oldest first -/
  slots : List QSlot
  /-- allowance by GROUPID; 255 is unlimited -/
  allow : SMap Nat
deriving DecidableEq, Repr, Inhabited

/-- A bound accumulator window: both planes, by row·128 + column, unlisted elements +0 (R140). -/
structure Window where
  mom : Bool
  mean : SMap W32
  var : SMap W32
deriving DecidableEq, Repr, Inhabited

structure Team where
  launch : Nat := 0
  id : Nat := 0
  core : Nat := 0
  /-- number of the set of CLTEAMS teams that it belongs to -/
  set : Nat := 0
  localsz : Nat := 0
  lmem : SMap Byte := []
  lstamp : SMap Nat := []
  windows : SMap Window := []
  barriers : SMap Barrier := []
  queues : SMap Queue := []
  /-- handles of ranges the team initialised -/
  ranges : List W32 := []
  /-- a pre-emption request is pending -/
  preempt : Bool := false
  /-- rows by window that MMAs of groups no longer there expose (R144) -/
  exposed : SMap Mask := []
  /-- uncorrectable units: class 0 and the 8-byte unit of local memory, class 5 and `unitKey` of a window's (R370) -/
  bad : List (Nat × Nat) := []
deriving DecidableEq, Repr, Inhabited

/-! ### Launches and queues (02 R35 to R43; 13 R295 to R302) -/

/-- A role entry (R37). -/
structure Role where
  entry : W64 := 0#64
  lanes : Nat := 0
  vregs : Nat := 0
  kregs : Nat := 0
  mregs : Nat := 0
deriving DecidableEq, Repr, Inhabited

/-- A format slot (R39). -/
structure Slot where
  fmt : Nat := 0
  mant : Nat := 0
  stochastic : Bool := false
  scale : W32 := 0#32
  seed : W64 := 0#64
deriving DecidableEq, Repr, Inhabited

/-- The fields of a launch record (R35, R36). -/
structure Record where
  args : W64 := 0#64
  orphanpc : W64 := 0#64
  savebase : Nat := 0
  localsz : Nat := 0
  zbudget : Nat := 0
  prio : Nat := 0
  gauge : Nat := 0
  clteams : Nat := 0
  zmom : BitVec 16 := 0#16
  cluster : Bool := false
  fusel1 : Bool := false
  gridbar : Bool := false
  strict : Bool := false
  roles : List Role := []
  slots : SMap Slot := []
  /-- the 256 bytes as read (R41, R366) -/
  raw : List Byte := []
deriving DecidableEq, Repr, Inhabited

/-- A place in the local memory of a team of a launch, by TEAMID (R203, R326). -/
structure Nook where
  launch : Nat
  team : Nat
  off : Nat
deriving DecidableEq, Repr, Inhabited

/-- State of a queue entry (R297). -/
inductive EntrySt where
  | waiting | ready | running
deriving DecidableEq, Repr, Inhabited

/-- A launch queue entry (R295). -/
structure QEntry where
  ctx : Nat
  record : Nat
  status : Nat
  gx : Nat
  gy : Nat
  gz : Nat
  count : Nat
  under : Bool
  st : EntrySt
  /-- when it became ready, in arrival order -/
  since : Nat
  /-- the dispatcher's horizon at enqueue -/
  launch : Nat
  /-- it was made with the rights of the system kernel or a handler (R326) -/
  priv : Bool := false
  /-- where the record and the status word lie, if in local memory (R203, R326) -/
  recordAt : Option Nook := none
  statusAt : Option Nook := none
deriving DecidableEq, Repr, Inhabited

/-- What the chip keeps of a saved group beside its record: faults not yet reported (R308), operations issued in each
class, and BSTAT's word. -/
structure Kept where
  gid : Nat
  faults : List LateFault
  seqs : SMap Nat
  bmvLast : Nat
  bmvRecon : Bool
  /-- live windows at the save (R310) -/
  z : BitVec 16
  /-- what its MMAs, and groups of its team that are gone, still expose (R144) -/
  exposed : List Exposed
  rows : SMap Mask
  fenced : Bool := true
deriving DecidableEq, Repr, Inhabited

/-- A running launch. -/
structure Launch where
  ctx : Nat := 0
  /-- queue·64 + position -/
  pos : Nat := 0
  handle : W32 := 0#32
  recaddr : W64 := 0#64
  status : Nat := 0
  gx : Nat := 1
  gy : Nat := 1
  gz : Nat := 1
  record : Record := {}
  nextTeam : Nat := 0
  /-- teams resident or saved -/
  live : Nat := 0
  /-- number in the order of starting -/
  order : Nat := 0
  /-- gtime since which its next team has waited -/
  waitSince : Nat := 0
  gbar : Barrier := {}
  cbars : SMap Barrier := []
  /-- horizon of its exited teams (R299) -/
  horizon : Nat := 0
  /-- saved teams by TEAMID -/
  saved : SMap (List Kept) := []
  /-- its next team has waited 65,536 cycles (R300) -/
  aged : Bool := false
  /-- its entry's rights, and where the status word lies, if in local memory -/
  priv : Bool := false
  statusAt : Option Nook := none
  /-- TEAMIDs of the teams that were lost with a cluster, and so never exit (R387) -/
  missing : List Nat := []
deriving DecidableEq, Repr, Inhabited

/-! ### Cores -/

/-- The selection heap (R151): entries in heap order, value and index. -/
structure Heap where
  owner : Option Nat := none
  entries : List (W32 × W32) := []
  ovf : Bool := false
  /-- places whose 8-byte unit is uncorrectable (R370) -/
  bad : List Nat := []
deriving DecidableEq, Repr, Inhabited

/-- A word held in an L1 (R209, R210, R267). -/
structure L1Word where
  val : W32
  /-- which of its bytes are valid -/
  valid : BitVec 4
  stamp : Stamp
  owned : Bool
  expiry : Nat
  /-- the store or the fill that put it there, as a number of the state's own: an access is served by words of one moment (R205) -/
  at' : Nat := 0
  /-- the tag under which it is held (R344) -/
  ctx : Nat
  va : Nat
  /-- the tensor of a tile line: it is held under that and its place, whoever filled it (R206, R344) -/
  tile : Option Nat := none
  /-- its 8-byte unit is uncorrectable as held here (R370, R371) -/
  bad : Bool := false
deriving DecidableEq, Repr, Inhabited

/-- A fetch line (R53). -/
structure FetchLine where
  ctx : Nat
  va : Nat
  line : Nat
deriving DecidableEq, Repr, Inhabited

/-- A line in the tile store (R145). -/
structure TileLine where
  phys : Nat
  /-- the tensor of a tile line: contexts share the entry through leaves that name it (R351) -/
  tile : Option Nat
  bytes : List Byte
  /-- when it was read, as a number of the state's own -/
  at' : Nat
  ctxs : List Nat
deriving DecidableEq, Repr, Inhabited

/-- An entry of the merge buffer: group and operation. -/
structure Cand where
  grp : Nat
  op : Nat
deriving DecidableEq, Repr, Inhabited

/-- An executing skein (R156). -/
structure Skein where
  members : List Cand
  ends : Nat
deriving DecidableEq, Repr, Inhabited

structure Core where
  heap : Heap := {}
  mbuf : List Cand := []
  skein : Option Skein := none
  gated : Bool := false
  lastSkein : Nat := 0
  tiles : List TileLine := []
  /-- by context: when it last executed MXFENCE here -/
  mxfence : SMap Nat := []
  /-- gauge table: entry to launch -/
  gauge : SMap Nat := []
  /-- kernels (launches) in the order in which they were placed here -/
  kernels : List Nat := []
  /-- by partition: one more than the gtime of its last issue -/
  issuedAt : SMap Nat := []
  /-- by partition: the kernel it last chose by lending -/
  lastLent : SMap Nat := []
  /-- by physical word·65536 + HCUR -/
  l1 : SMap L1Word := []
  fetch : List FetchLine := []
deriving DecidableEq, Repr, Inhabited

/-! ### Clusters -/

/-- A leaf held by a TLB, with the forwarded accesses not yet added to ACOUNT (R344, R348). -/
structure TlbLeaf where
  ctx : Nat
  base : Nat
  size : Nat
  w0 : W64
  w1 : W64
  /-- physical address of the entry -/
  at' : Nat
  count : Nat
deriving DecidableEq, Repr, Inhabited

/-- A next-node entry held by a TLB. -/
structure TlbNode where
  ctx : Nat
  level : Nat
  base : Nat
  node : Nat
deriving DecidableEq, Repr, Inhabited

/-- A range (R304). -/
structure Range where
  total : Nat
  next : Nat
  min : Nat
  d : Nat
  ctx : Nat
  launch : Nat
deriving DecidableEq, Repr, Inhabited

/-- A node of a walk's snapshot (R176, R182, R183). -/
structure SNode where
  n : Nat
  parent : Nat
  tokens : Nat
  leaf : Bool
  kt : Nat
  vt : Nat
  poff : Nat
  seq : Nat
  /-- sequence slots of its subscribers, ascending -/
  subs : List Nat
deriving DecidableEq, Repr, Inhabited

/-- How far a node has come within a walk (R184, R192 to R197). -/
structure WNode where
  given : Bool := false
  fetched : Bool := false
  faulted : Bool := false
  /-- group and rights of the hand-out, for the block fetch -/
  by' : Nat := 0
  priv : Bool := false
  /-- a completed WKSUBS has initialised its arena records (R194) -/
  inited : Bool := false
  done : Bool := false
  mgiven : Bool := false
  mstarted : Bool := false
  merged : Bool := false
  /-- reads of a peer that its block fetch has sent: address, and when (R401) -/
  asked : SMap Nat := []
deriving DecidableEq, Repr, Inhabited

/-- An open walk (R181, R182, R189). -/
structure Walk where
  ctx : Nat
  launch : Nat
  hyp : BitVec 16
  /-- its hypothesis was refuted: the nearest live ancestor -/
  orphan : Option (BitVec 16)
  seq : Nat
  /-- where the header lies, and which record is in use -/
  header : Loc
  live : Nat
  gen : W32
  step : Nat
  qbase : Nat
  pbase : Nat
  blen : Nat
  hdim : Nat
  nbase : Nat
  ncount : Nat
  root : Nat
  priv : Bool
  /-- words of the node table (even keys) and of the query table (odd keys) read so far -/
  read : SMap W64
  ready : Bool
  /-- cause and TVAL for every later instruction but WKEND -/
  fault : Option (Nat × Nat)
  /-- the snapshot, in preorder -/
  nodes : List SNode
  states : SMap WNode
  /-- completed WKSUBS: launch, team, group, node -/
  subsBy : List (Nat × Nat × Nat × Nat)
  /-- latest stamp of its arena writes -/
  horizon : Nat
  /-- a WKEND has issued, or the walk is to be closed -/
  ending : Bool
  /-- its launch has no team left: it closes when no operation names it any longer (R198) -/
  closing : Bool := false
deriving DecidableEq, Repr, Inhabited

structure Cluster where
  tlb : List TlbLeaf := []
  nodes : List TlbNode := []
  walks : SMap Walk := []
  walkSeq : SMap Nat := []
  ranges : SMap Range := []
  rangeSeq : SMap Nat := []
deriving DecidableEq, Repr, Inhabited

/-! ### Contexts, hypotheses, memory -/

/-- A context descriptor as the module last read it (R338, R339). -/
structure Desc where
  valid : Bool := false
  rlease : Nat := 256
  olease : Nat := 1024
  ptroot : Nat := 0
  ttbase : Nat := 0
  ttcount : Nat := 0
  qgrant : BitVec 16 := 0#16
  migthr : Nat := 0
  arenabase : Nat := 0
  arenasz : Nat := 0
  evbase : Nat := 0
  trapvec : W64 := 0#64
  /-- it has been read with VALID = 1 since reset -/
  everValid : Bool := false
deriving DecidableEq, Repr, Inhabited

/-- A hypothesis slot other than the root (R262, R263). -/
structure HSlot where
  used : Bool := false
  gen : Nat := 0
  parent : BitVec 16 := 0#16
  depth : Nat := 0
  /-- hypotheses between this one and its parent whose confirm is accepted and not complete, nearest first -/
  via : List (BitVec 16) := []
  /-- a resolve that makes its identifier stale has been accepted -/
  stale : Bool := false
  /-- how many saved groups pin it, and where they would be running (R275) -/
  pins : Nat := 0
  pinNow : BitVec 16 := 0#16
  pinOrphan : Bool := false
  /-- it is to be freed when its last pin goes -/
  freeDue : Bool := false
deriving DecidableEq, Repr, Inhabited

/-- The hypothesis state of a context (R262 to R269). -/
structure HypTree where
  slots : SMap HSlot := []
  free : List Nat := (List.range 1023).map (· + 1)
  /-- bytes of spilled versions in the arena -/
  arena : Nat := 0
  /-- arena values in use, the size in bytes (R276) -/
  arenabase : Nat := 0
  arenasz : Nat := 0
deriving DecidableEq, Repr, Inhabited

/-- A resolve under way (R271). -/
structure Resolve where
  ctx : Nat
  h : BitVec 16
  parent : BitVec 16
  confirm : Bool
  /-- identifiers of the refuted hypotheses -/
  refuted : List (BitVec 16)
  grp : Nat
  op : Nat
  /-- cores that the broadcast has reached, and that have reported -/
  reached : List Nat
  reported : List Nat
  slices : List Nat
  /-- words carried so far, by the key of the version or of the root that received them -/
  moved : List Nat
  time : Nat
deriving DecidableEq, Repr, Inhabited

/-- A version of a word under a hypothesis (R265). -/
structure Version where
  val : W32
  stamp : Nat
  /-- it lies in the arena (R268), and where its word does -/
  spilled : Bool := false
  at' : Nat := 0
  /-- its unit is uncorrectable (R370) -/
  bad : Bool := false
deriving DecidableEq, Repr, Inhabited

/-- Ownership of a line (R218, R219). -/
structure Own where
  core : Nat
  expiry : Nat
  /-- the tag under which the core holds it (R344) -/
  ctx : Nat := 0
  va : Nat := 0
  tile : Option Nat := none
  groups : List Nat
  /-- the hand-back is on its way -/
  hand : Bool
  /-- bytes written under the ownership -/
  bytes : SMap Byte
  /-- words written, with the store (operation·64 + lane) that wrote each last -/
  words : SMap Nat
  /-- every store performed under the ownership, whose stamp is pending until it ends -/
  stores : List Nat := []
  /-- its units that are uncorrectable as the L1 holds them (R370, R371) -/
  bad : List Nat := []
deriving DecidableEq, Repr, Inhabited

/-- An event record (R353). -/
structure Event where
  kind : Nat
  cause : Nat := 0
  ctx : Nat := 0
  team : Nat := 0
  value : Nat := 0
  pc : Nat := 0
  time : Nat := 0
deriving DecidableEq, Repr, Inhabited

/-! ### Host, peers, memory upkeep, management -/

/-- A host launch ring (R396, R399). -/
structure Ring where
  base : Nat := 0
  log : Nat := 0
  /-- RINGLOG at the last write of RINGBASE -/
  size : Nat := 0
  prod : W32 := 0#32
  cons : W32 := 0#32
  stopped : Bool := false
deriving DecidableEq, Repr, Inhabited

/-- Where a line lies in DRAM: a channel, and the row and column offset there (R374). -/
structure Place where
  chan : Nat
  off : Nat
deriving DecidableEq, Repr, Inhabited

/-- A channel of HBM (R376 to R383). -/
structure Channel where
  failed : Bool := false
  /-- its retirement was refused for want of reserve (R379) -/
  refused : Bool := false
  retiring : Bool := false
  retired : Bool := false
  /-- when it is a parity channel that is retired: the channel of its group that becomes the parity channel (R380) -/
  heir : Option Nat := none
  /-- offsets gone through so far in its retirement -/
  rebuilt : Nat := 0
  /-- rows replaced, each with the row of the reserve that stands in for it -/
  rows : SMap Nat := []
  /-- rows scrubbed in this pass -/
  scrubbed : List Nat := []
  /-- banks in which a read of this pass needed reconstruction (R378) -/
  banks : List Nat := []
  /-- when the back-off of an activation-count alert ends (R386) -/
  pause : Nat := 0
  /-- correctable errors of this pass by row -/
  errors : SMap Nat := []
deriving DecidableEq, Repr, Inhabited

/-- An Uluber port (R400, R401). -/
structure Port where
  lanes : Nat := 8
  spared : Bool := false
  up : Bool := true
  retries : Nat := 0
deriving DecidableEq, Repr, Inhabited

/-- A paused inbound flow, by port·8 + virtual channel (R349). -/
structure Flow where
  since : Nat
  held : List (Nat × W64 × AccKind × List Byte)
  /-- its event has been posted or is held (R352) -/
  posted : Bool
  /-- it waits for MLOCK to be cleared, which is no pause of R349 (R227) -/
  locked : Bool := false
deriving DecidableEq, Repr, Inhabited

/-- The answer to a peer's access: a value and its stamp, the stamp of a write, the expiry of the lease; or a cause. -/
structure Reply where
  value : Nat := 0
  stamp : Nat := 0
  expiry : Nat := 0
  cause : Option Nat := none
deriving DecidableEq, Repr, Inhabited

/-- A collective (R405 to R410). -/
inductive CollKind where
  | cred (op : CredOp)
  | bcast
  | gather
deriving DecidableEq, Repr, Inhabited

structure Ticket where
  kind : CollKind
  commid : Nat
  /-- which collective on COMMID it is, in order of arrival at the engine -/
  turn : Nat
  ranks : Nat
  rank : Nat
  dst : Nat
  count : Nat
  root : Nat
  grp : Nat
  launch : Nat
  priv : Bool
  /-- completion code once it is complete -/
  code : Option Nat
  /-- latest stamp of the writes to its destination -/
  doneAt : Nat
  /-- this rank's contribution, its words as they have been read so far (R406) -/
  mine : List W32
  /-- where its source lies, when the first rank contributed, and the limit of the descriptor (R409) -/
  src : Nat
  first : Nat
  timeout : Nat
  /-- the words of the destination, once the root node is complete: from then on it cannot fail -/
  result : Option (List W32) := none
  /-- it has reached the engine; until then its instruction is held for R214 -/
  entered : Bool := true
  /-- kD, and what that held before the ticket -/
  kd : Nat := 0
  was : W64 := 0#64
deriving DecidableEq, Repr, Inhabited

/-- The management window (R414). -/
structure Mgmt where
  ovr : Bool := false
  busy : Bool := false
  cmd : Nat := 0
  arg : Nat := 0
  result : Nat := 0
  boot : Nat := 1
  data : SMap Byte := []
  /-- DATA as the command that is executing found it when it started -/
  input : SMap Byte := []
  /-- what the last read of the window gave -/
  answer : W64 := 0#64
deriving DecidableEq, Repr, Inhabited

/-- An error record (R417). -/
structure ErrRec where
  kind : Nat
  unit : Nat
  /-- WHERE -/
  at' : Nat
  resets : Nat
  time : Nat
  value : Nat
deriving DecidableEq, Repr, Inhabited

/-! ### The model's own -/

/-- Whose move comes next. The rows of the opcode table are `happen`; the others have no row. -/
inductive Turn where
  /-- one issue cycle of a partition of a core (R294) -/
  | partition (core part : Nat)
  /-- a step of the hardware -/
  | happen (i : Instr)
  /-- gtime advances -/
  | tick (n : Nat)
  /-- an L1 drops a word it does not own -/
  | l1Evict (core word : Nat)
  /-- an L1 gives up a line it owns (R219) -/
  | ownEvict (line : Nat)
  /-- a TLB drops a leaf (R348) -/
  | tlbEvict (cluster entry : Nat)
  /-- the tile store drops a line -/
  | tileEvict (core line : Nat)
  /-- an aligned 8-byte word of a collective's source is read again (R406), and one of its destination written ahead of the
  rest (R410) -/
  | collRead (ctx ticket word : Nat)
  | collWrite (ctx ticket word : Nat) (others : List (Nat × List W32))
  /-- the tile store of a group's core takes the line at an address, as a load by that group -/
  | tileFill (grp va : Nat)
  /-- a slice writes a line back to DRAM (R224) -/
  | writeBack (line : Nat)
  /-- the copy engine reads `n` 8-byte words of the source from a place of the copy on -/
  | copyRead (grp op off n : Nat)
  /-- a bank unit reads an aligned 8-byte word for a BMV (R224, R259) -/
  | bankRead (grp op va : Nat)
  /-- a bank unit's result of one column is performed in local memory (R224) -/
  | bankWrite (grp op col : Nat)
  /-- a slice that holds no newer data of a line drops it and reads it from its channel (R376) -/
  | dramRead (line : Nat)
  /-- the stack can no longer correct a 32-byte sector at a place (R370) -/
  | softErrorDram (sector : Nat)
  /-- an error is corrected in a structure of a class, at WHERE (R370, R417) -/
  | corrected (unit at' : Nat)
  /-- a refresh of a bank is postponed (R385) -/
  | refreshPostpone (channel bank : Nat)
  /-- the copy engine writes `n` bytes of the copy from a place on -/
  | copyWrite (grp op off n : Nat)
  /-- one register of a performed lane takes its value (R241) -/
  | deliverReg (grp op lane reg : Nat)
  /-- a slice renews the ownership of a line that no other core waits for (R218) -/
  | ownRenew (line : Nat)
  /-- the walk unit reads one word of a walk's node table (even) or query table (odd) -/
  | walkRead (cluster slot word : Nat)
  /-- the walk unit makes one of a WKPART's writes -/
  | walkWrite (grp op n : Nat)
  /-- a peer answers an access -/
  | peerAnswer (grp op lane : Nat) (r : Reply)
  /-- the host link answers an access -/
  | hostAnswer (grp op lane value : Nat)
  /-- an uncorrectable soft error in an 8-byte unit of HBM -/
  | softError (unit : Nat)
  /-- the same in a register lane -/
  | softErrorReg (grp cls key : Nat)
  /-- the same in local memory or a window -/
  | softErrorTeam (team cls key : Nat)
  /-- the same in a line of a core's tile store -/
  | softErrorTile (core line : Nat)
  /-- the same in a unit of an L1 whose word `key` it owns -/
  | softErrorL1 (core key : Nat)
  /-- a soft error flips a bit of a line that a core keeps for fetching (R52, R370) -/
  | softErrorFetch (core n bit : Nat)
  /-- the same in the unit of a version that a slice holds -/
  | softErrorVersion (key : Nat)
  /-- the same in a unit of a core's selection heap -/
  | softErrorHeap (core unit : Nat)
  /-- a slice spills a version (R268) -/
  | spill (key : Nat)
  /-- a function writes the command word of its management window (R414) -/
  | hostMgmt (fn : Nat) (word : W64)
  /-- a function writes a byte of the DATA area -/
  | hostData (fn off : Nat) (x : Byte)
  /-- a function reads an 8-byte word of BAR0 from offset 0x1000 on -/
  | hostMgmtRead (fn off : Nat)
deriving DecidableEq, Repr, Inhabited

/-- How the last selected issue ended. -/
inductive IssueSt where
  | none | issued | held | trapped
deriving DecidableEq, Repr, Inhabited

/-- The fragment that issues in this step. -/
structure Cur where
  grp : Nat := 0
  frag : Nat := 0
  pc : W64 := 0#64
  status : IssueSt := .none
  /-- a fragment is selected -/
  on : Bool := false
  /-- the reads of a peer that its instruction has sent, and the one that it is held for now -/
  asked : SMap Nat := []
  ask : Option Nat := none
deriving DecidableEq, Repr, Inhabited

/-- The machine. -/
structure State where
  gtime : Nat
  groups : SMap Group
  teams : SMap Team
  launches : SMap Launch
  cores : SMap Core
  clusters : SMap Cluster
  /-- HBM at the point of coherence, by physical byte address; an unlisted byte reads 0 -/
  mem : List Host.Cell
  /-- write stamps, by physical word -/
  stamps : SMap Nat
  /-- lease frontiers, by physical line -/
  frontier : SMap Nat
  owners : SMap Own
  /-- by (context·1024 + slot)·2^46 + physical word -/
  versions : SMap Version
  /-- what DRAM holds where it lags (R224), by physical byte -/
  dramOld : SMap Byte
  /-- completion stamp of the last store to a line not yet written back -/
  dramAt : SMap Nat
  /-- uncorrectable 8-byte units, and those of what DRAM holds (R371) -/
  badUnits : List Nat
  dramBad : List Nat
  /-- 32-byte sectors that the stack reports uncorrectable, by place: data and parity (R370, R376) -/
  badSectors : List Nat
  /-- lines that lie elsewhere than when the module was made (R380, R381) -/
  places : SMap Place
  /-- the first line of the tensor column that a line of a BANKMV page belongs to (R258, R381) -/
  leads : SMap Nat
  /-- lines that slices hold clean (R376) -/
  l2 : List Nat
  /-- corrected errors so far, by structure class·65536 + WHERE (R417) -/
  corrected : SMap Nat
  /-- refreshes postponed, by channel·1024 + bank (R385) -/
  postponed : SMap Nat
  descs : SMap Desc
  /-- TRAPVEC of the system kernel (R339) -/
  trapvec0 : W64
  /-- contexts held by CTXSAVE (R365) -/
  heldCtx : List Nat
  trees : SMap HypTree
  resolves : SMap Resolve
  /-- launch queue entries by queue·64 + position, and uses of each position -/
  queues : SMap QEntry
  queueSeq : SMap Nat
  /-- events held on chip, by context in whose area they are due -/
  heldEvents : SMap (List Event)
  /-- clusters lost, and dies whose spare is in use (R387, R388) -/
  lostClusters : List Nat
  sparesUsed : List Nat
  rings : SMap Ring
  /-- the function whose ring was visited last (R396) -/
  ringLast : Nat
  /-- completion of the last BAR2 write of each function (R395) -/
  hostAt : SMap Nat
  /-- lanes of the host link (R394) -/
  hostLink : Nat
  /-- bytes answered to the host's last BAR2 read, none for Unsupported Request -/
  bar2Answer : Option (List Byte)
  mgmt : Mgmt
  scrubctl : W64
  mxIdle : Nat
  /-- earlier values of MXIDLE, with when each was replaced, newest first (R416) -/
  mxIdleWas : List (Nat × Nat)
  errors : List ErrRec
  resets : Nat
  withheld : Nat
  channels : SMap Channel
  /-- when the scrub pass began -/
  passStart : Nat
  /-- spare slices in use by die, and the frontier from which the lines of a replaced slice start (R390) -/
  sliceSpares : SMap Nat
  sliceFloor : SMap Nat
  /-- slices that failed abruptly -/
  slicesLost : List Nat
  /-- when a bank was last refreshed ahead of all other work, and when refresh management was last sent for it (R385, R386) -/
  refreshAt : SMap Nat
  rfmAt : SMap Nat
  ports : SMap Port
  flows : SMap Flow
  /-- answers sent to peers, by port and virtual channel -/
  peerAnswers : List (Nat × Nat × Reply)
  inSync : Bool
  /-- collective tickets by context·64 + index, uses of each, and arrivals by COMMID -/
  tickets : SMap Ticket
  ticketSeq : SMap Nat
  collCount : SMap Nat
  /-- the module runs: bring-up has ended well (R412) -/
  running : Bool
  /-- counter that the free values are applied to -/
  choice : Nat
  nextId : Nat
  turns : List Turn
  cur : Cur
deriving DecidableEq, Repr

/-- Why a step stops. -/
inductive Fault where
  /-- an instruction is given to `exec` while no fragment is selected: raised by `issue`, never by a step;
  safe, since the machine issues only what a fragment fetched -/
  | noIssuer
deriving DecidableEq, Repr

/-- Why a step has no meaning. -/
inductive Refusal where
  /-- an instruction that has no meaning yet: raised by an arm of `exec`; safe, since the model says nothing -/
  | notModelled (mnemonic : String)
deriving DecidableEq, Repr

/-- The machine right after reset: every field at the value the spec gives, nothing resident, and bring-up
(R412) as the next step. What the spec gives no value for is named in logs 1 to 7. -/
def State.reset : State :=
  { gtime := 0, groups := [], teams := [], launches := [], cores := [], clusters := [], mem := [], stamps := [],
    frontier := [], owners := [], versions := [], dramOld := [], dramAt := [], badUnits := [], dramBad := [], badSectors := [], places := [], leads := [], l2 := [], corrected := [],
    postponed := [], descs := [],
    trapvec0 := 0#64, heldCtx := [], trees := [], resolves := [], queues := [], queueSeq := [], heldEvents := [],
    lostClusters := [], sparesUsed := [], rings := [], ringLast := 0, hostAt := [], hostLink := 16, bar2Answer := none, mgmt := { boot := 0 },
    scrubctl := 0x0001518000001901#64, mxIdle := 1024, mxIdleWas := [], errors := [], resets := 0, withheld := 0, channels := [],
    passStart := 0, sliceSpares := [], sliceFloor := [], slicesLost := [], refreshAt := [], rfmAt := [], ports := [],
    flows := [], peerAnswers := [], inSync := true, tickets := [], ticketSeq := [], collCount := [],
    running := false, choice := 0, nextId := 1, turns := [.happen .powerOnReset], cur := {} }

end Sys2Proof.Machine
end

