-- ==== Sys2Proof/Machine/Block.lean ====
section
/-! DEFINITION. Block formats KB2 to KB8 and format slots (R89 to R102). -/

namespace Sys2Proof.Machine.Block

open Sys2Proof.Float

/-- The floating format of FMT 1 to 3 (R39). -/
def fmtOf : Nat → FFmt
  | 2 => .f16 | 3 => .bf16 | _ => .f32

/-- SCALE as an exact value; a slot in use holds a positive normal one (R95). -/
def scale (sl : Slot) : Ex := match fval sl.scale with | .fin x => x | _ => Ex.one

/-- A mantissa of `m` bits in two's complement (R91). -/
def mantissa (m x : Nat) : Int := if x.testBit (m - 1) then (x : Int) - (2 ^ m : Nat) else x

/-- The raw value of an element with exponent E and mantissa M (R89, R90). -/
def raw (m e : Nat) (x : Int) : FV :=
  if e = 255 then .nan
  else if x = 0 then .fin Ex.zero
  else .fin (scaled (decide (x < 0)) x.natAbs ((e : Int) - 127 - (m - 1 : Nat)))

/-- Element `i` of a block whose bit-plane words are given (R92). -/
def element (m : Nat) (words : Nat → Nat) (i : Nat) : Nat :=
  (List.range m).foldl (fun acc j => acc + (if (words j).testBit i then 2 ^ j else 0)) 0

/-- The quantisation step of a block (R94): none when it is invalid. -/
def step (m e : Nat) : Option Ex := if e = 255 then none else some (scaled false 1 ((e : Int) - 127 - (m - 1 : Nat)))

/-- The noise variance of a block's elements as FP32 bits (R94). -/
def noise (m e : Nat) : Nat :=
  match step m e with
  | none => defaultNaN .f32
  | some q => round .f32 .rn ((q.mul q).div ⟨false, 12, 1⟩)

/-- quantise_block (R101): exponent and mantissas of 32 values, with the index of each. -/
def quantise (sl : Slot) (x : Nat → FV) (idx : Nat → Nat) : Nat × (Nat → Int) :=
  let m := sl.mant
  let xs := (List.range 32).map x
  let fins := xs.filterMap fun v => match v with | .fin y => some (y.div (scale sl)) | _ => none
  if fins.length < 32 then (255, fun _ => 0)
  else
    let a := fins.foldl (fun acc y => if acc.abs.lt y.abs then y.abs else acc) Ex.zero
    if a.num = 0 then (0, fun _ => 0)
    else
      let e := (max 0 (min 254 (a.log2 + 128))).toNat
      let q := scaled false 1 ((e : Int) - 127 - (m - 1 : Nat))
      let top : Int := (2 ^ (m - 1) : Nat)
      (e, fun i =>
        let y := (fins.getD i Ex.zero).div q
        let n := if sl.stochastic then toIntStoch sl.seed.toNat (idx i) y else toInt .rn y
        min (max n (-top)) (top - 1))

/-- Bit-plane word `j` of 32 mantissas. -/
def plane (mans : Nat → Int) (j : Nat) : Nat :=
  (List.range 32).foldl (fun acc e => acc + (if ((mans e) / (2 ^ j : Nat) % 2) = 1 then 2 ^ e else 0)) 0

/-- Into a slot of FMT 1 to 3: the exact quotient, rounded by the slot's ROUND (R96). -/
def intoSlot (sl : Slot) (idx : Nat) (v : FV) : Nat :=
  let f := fmtOf sl.fmt
  match v with
  | .fin x =>
    let y := x.div (scale sl)
    if sl.stochastic then roundStoch f sl.seed.toNat idx y else round f .rn y
  | v => roundFV f .rn v

/-- A raw value times SCALE (R96). -/
def outOf (sl : Slot) (v : FV) : FV := mulFV v (.fin (scale sl))

end Sys2Proof.Machine.Block
end

