-- ==== Sys2Proof/Config.lean ====
section
/-! DEFINITION. What one implementation fixes, and the values the spec leaves free: constants without a body,
which no proof can evaluate. The free values are applied to what they depend on, or to the state's `choice`. -/

namespace Sys2Proof.Config

open Sys2Proof.Machine

/-- A byte of local memory that nothing has written since the team started (R27): by team and offset. -/
opaque freeByte : Nat → Nat → Byte
/-- A 32-bit value that the spec leaves unpredictable (R48, R144): by choice and index. -/
opaque free32 : Nat → Nat → W32
/-- The same for a 64-bit register (R48). -/
opaque free64 : Nat → Nat → W64
/-- A choice the hardware makes where the rules allow several (R145, R301, R380). -/
opaque freeNat : Nat → Nat → Nat
/-- The move that comes next when the state names none. -/
opaque freeTurn : Nat → Turn
/-- How the lines of HBM lie in the 360 data channels when the module is made, as exchanges of two places; the parity channel of
each group of 16 (R374, R380). -/
opaque lineSwaps : List (Nat × Nat)
opaque parityOf : Nat → Nat
/-- How many lines a row has, and how many banks a channel, as powers of two (R377, R378). -/
opaque rowLog : Nat
opaque bankLog : Nat
/-- Which of the 96 slices of its die is a line's home, and which set of the slice it falls in (R14, R268). -/
opaque sliceOf : Nat → Nat
opaque l2Set : Nat → Nat
/-- The set of a cluster TLB that a leaf falls in, by context and base (R344). -/
opaque tlbSet : Nat → Nat → Nat
/-- How many refreshes of a bank beyond the first may be postponed, and how long a back-off lasts (R385, R386). -/
opaque sparePostpones : Nat
opaque backoff : Nat
/-- CTXTBASE and the initial SCRUBCTL and MXIDLE of the image header (R413). -/
opaque ctxtBase : Nat
opaque imageScrubctl : W64
opaque imageMxIdle : Nat
/-- Whether step `n` of bring-up, one of 1, 2, 3 and 6, fails at a reset: by step and number of resets (R412). -/
opaque bootFails : Nat → Nat → Bool
/-- Channels that fail training at step 4 of a reset, and how many clusters and slices of each die fail self-test at step 5. -/
opaque bootChannels : Nat → List Nat
opaque bootClusters : Nat → Nat → Nat
opaque bootSlices : Nat → Nat → Nat
/-- Silicon stepping (R33). -/
opaque stepping : Byte
/-- Serial number, public key and image digest (R414). -/
opaque serial : List Byte
opaque publicKey : List Byte
opaque imageDigest : List Byte
/-- The signature (r, then s) over a nonce (R414). -/
opaque signature : List Byte → List Byte
/-- The context that system software has bound to a virtual function of the host link (R394). -/
opaque contextOf : Nat → Nat
/-- Package power in mW, by choice (R414), within what the package may draw (R415). -/
opaque drawn : Nat → Nat

/-- The package draws at most 6,000 W (R415). -/
def power (n : Nat) : Nat := drawn n % 6000001

/-- The parity channel of a group (R374). -/
def parityChannel (g : Nat) : Nat := 16 * g + parityOf g % 16

/-- The lines that a channel holds outside its reserve, 1,984 MiB, and in it, 64 MiB (R16, R377, R379). -/
def channelLines : Nat := 1984 * 8192
def reserveLines : Nat := 64 * 8192

/-- Lines of a row; rows of a channel, in its reserve and outside it (R377); banks of a channel, rows lying in them in turn.
PRESUMED (log 70): powers of two, a row at most 512 KiB, at least four banks. -/
def rowLines : Nat := 2 ^ (rowLog % 13)
def reserveRows : Nat := reserveLines / rowLines
def dataRows : Nat := channelLines / rowLines
def banks : Nat := 2 ^ (2 + bankLog % 6)

/-- Places exchanged one after another. -/
def exchange (l : List (Nat × Nat)) (n : Nat) : Nat :=
  l.foldl (fun n x => if n = x.1 then x.2 else if n = x.2 then x.1 else n) n

/-- The place of a line among the data lines of all channels, and the line at such a place. -/
def swaps : List (Nat × Nat) := lineSwaps.map fun x => (x.1 % (360 * channelLines), x.2 % (360 * channelLines))
def placeOf (line : Nat) : Nat := exchange swaps (line % (360 * channelLines))
def atPlace (n : Nat) : Nat := exchange swaps.reverse n

/-- The channel (0 to 383) that holds a line when the module is made, a data channel of a group, and the row and column offset there;
the line that lies at an offset of a channel (R374). -/
def channelOf (line : Nat) : Nat :=
  let n := placeOf line / channelLines
  16 * (n / 15) + (if n % 15 < parityOf (n / 15) % 16 then n % 15 else n % 15 + 1)
def offsetOf (line : Nat) : Nat := placeOf line % channelLines
def lineAt (c off : Nat) : Option Nat :=
  let p := parityOf (c / 16) % 16
  if c % 16 = p || channelLines ≤ off || 384 ≤ c then none
  else some (atPlace ((c / 16 * 15 + (if c % 16 < p then c % 16 else c % 16 - 1)) * channelLines + off))

/-- How many refreshes of a bank may be postponed. PRESUMED (log 70): at least one, since the rule speaks of a refresh that
is postponed. -/
def refreshLimit : Nat := sparePostpones + 1

/-- R16's figures. -/
def clusters : Nat := 80
def cores : Nat := 320
def slices : Nat := 384
def channels : Nat := 384
/-- Usable capacity in MiB (R33). -/
def capMib : Nat := 714240
/-- Lines of an L1, and of fused L1s; entries and ways of a TLB; sets and ways of a slice, and the ways of a set open to
versions (R13, R16, R268, R344). -/
def l1Lines : Nat := 2048
def l1Fused : Nat := 8192
def tlbEntries : Nat := 4096
def tlbWays : Nat := 8
def l2Sets : Nat := 512
def l2Ways : Nat := 16
def versionWays : Nat := 4
/-- R33's constants. -/
def mxWake : Nat := 212
def hDepth : Nat := 16
def hLive : Nat := 1024
def lifeBound : Nat := 4096

end Sys2Proof.Config
end

