-- ==== Sys2Proof/Machine/Regs.lean ====
section
/-! DEFINITION. Access to the registers of a group, to the units a group belongs to, and to the fragment that
issues. Hard-wired registers (R22) live here and nowhere else. -/

namespace Sys2Proof.Machine

open Sys2Proof (SMap)

/-! ### Registers (R21, R22) -/

/-- The key of lane `i` of register `n`. -/
def laneKey (n i : Nat) : Nat := n * 32 + i

namespace Group

/-- Written lanes hold fresh check bits (R371). -/
def mend (g : Group) (cls key : Nat) : Group := { g with bad := g.bad.filter fun x => x != (cls, key) }
/-- The same for a register of one unit, which only a write of all its lanes writes whole. -/
def mendIf (g : Group) (on : Mask) (cls key : Nat) : Group := if on = ~~~0#32 then g.mend cls key else g

def rv (g : Group) (n i : Nat) : W32 := SMap.get 0#32 g.v (laneKey n i)
def wv (g : Group) (n i : Nat) (x : W32) : Group :=
  { g with v := SMap.set 0#32 g.v (laneKey n i) x, bad := (g.mend 1 (laneKey n i)).bad }

/-- k0 reads zero and discards writes. -/
def rk (g : Group) (n : Nat) : W64 := if n = 0 then 0#64 else SMap.get 0#64 g.k n
def wk (g : Group) (n : Nat) (x : W64) : Group :=
  if n = 0 then g else { g with k := SMap.set 0#64 g.k n x, bad := (g.mend 2 n).bad }

/-- p0 reads true in every lane and discards writes. -/
def rp (g : Group) (n : Nat) : Mask := if n = 0 then ~~~0#32 else SMap.get 0#32 g.p n
/-- Write lanes `on` of a predicate register. -/
def wp (g : Group) (n : Nat) (on val : Mask) : Group :=
  if n = 0 then g else
    { g with p := SMap.set 0#32 g.p n ((SMap.get 0#32 g.p n &&& ~~~on) ||| (val &&& on)), bad := (g.mendIf on 3 n).bad }

def rm (g : Group) (n i : Nat) : W64 := SMap.get 0#64 g.m (laneKey n i)
def wm (g : Group) (n i : Nat) (x : W64) : Group :=
  { g with m := SMap.set 0#64 g.m (laneKey n i) x, bad := (g.mend 4 (laneKey n i)).bad }

def rt (g : Group) (n : Nat) : W64 := SMap.get 0#64 g.t n
def wt (g : Group) (n : Nat) (x : W64) : Group :=
  { g with t := SMap.set 0#64 g.t n x, bad := (g.mend 6 n).bad }

def rj (g : Group) (n : Nat) : JReg := SMap.get {} g.j n
def wj (g : Group) (n : Nat) (x : JReg) : Group := { g with j := SMap.set {} g.j n x, bad := (g.mend 7 n).bad }

/-- A quad table entry. -/
def quad (g : Group) (q : Nat) : Quad := SMap.get {} g.quads q
def setQuad (g : Group) (q : Nat) (x : Quad) : Group := { g with quads := SMap.put g.quads q x }

/-- What is kept for a fragment. -/
def frag (g : Group) (f : Nat) : FragRec := SMap.get {} g.frags f
def setFrag (g : Group) (f : Nat) (x : FragRec) : Group := { g with frags := SMap.put g.frags f x }

end Group

namespace Team

/-- The 8-byte unit of a window in which an element of a plane lies (R370). -/
def unitKey (n plane row col : Nat) : Nat := ((n * 2 + plane) * 32 + row) * 64 + col / 2
def unitWindow (x : Nat) : Nat := x / 4096
def unitPlane (x : Nat) : Nat := x / 2048 % 2
def unitRow (x : Nat) : Nat := x / 64 % 32
/-- Its lower column. -/
def unitCol (x : Nat) : Nat := 2 * (x % 64)

/-- Every unit of a window holds fresh check bits: it has just been bound, or is gone. -/
def mendWindow (t : Team) (n : Nat) : Team := { t with bad := t.bad.filter fun x => !(x.1 == 5 && unitWindow x.2 == n) }

/-- Units of which both elements, columns `c` to `c + k - 1` of rows of a plane, have been written (R371). -/
def mendRows (t : Team) (n plane : Nat) (rows : Mask) (c k : Nat) : Team :=
  { t with bad := t.bad.filter fun x =>
      !(x.1 == 5 && unitWindow x.2 == n && unitPlane x.2 == plane && Bits.has rows (unitRow x.2)
        && decide (c ≤ unitCol x.2) && decide (unitCol x.2 + 2 ≤ c + k)) }

end Team

namespace Group

/-- Write a 64-bit value into a v pair (R106). -/
def wv2 (g : Group) (n i : Nat) (x : W64) : Group := (g.wv n i (Bits.lo x)).wv (n + 1) i (Bits.hi x)
/-- Read a v pair. -/
def rv2 (g : Group) (n i : Nat) : W64 := Bits.join (g.rv (n + 1) i) (g.rv n i)

/-- Operations of one class, in issue order. -/
def opsOf (g : Group) (c : Cnt) : List Op := g.ops.filter fun o => o.cls == c

/-- Atomics that wait for MLOCK to be cleared: they hold the stores counter up (R227). -/
def lockedAtoms (g : Group) : List Op := g.ops.filter fun o =>
  match o.kind with
  | .atomic _ _ _ _ => o.lanes.any fun a => a.locked && a.st == .waiting
  | _ => false

/-- A dependence counter (R34). -/
def counter (g : Group) (c : Cnt) : Nat := (g.opsOf c).length + (if c = .stores then g.lockedAtoms.length else 0)

/-- An operation by number. -/
def op? (g : Group) (id : Nat) : Option Op := g.ops.find? fun o => o.id == id

/-- Change an operation. -/
def setOp (g : Group) (id : Nat) (f : Op → Op) : Group :=
  { g with ops := g.ops.map fun o => if o.id == id then f o else o }

/-- Whether the group's lanes include `i`. -/
def isHelper (g : Group) (i : Nat) : Bool := Bits.has g.helpers i

end Group

/-- Whether an engine performs the operation's accesses, not the core. -/
def Op.engine (o : Op) : Bool :=
  match o.kind with
  | .copy _ | .walk _ => true
  | _ => false

/-- The largest value of each counter (R34). -/
def Cnt.max : Cnt → Nat
  | .loads | .stores | .copies => 63
  | .matrix | .bank | .walk => 15
  | .none => 1000000

/-! ### Units -/

namespace State

def grpAt (s : State) (u : Nat) : Group := SMap.get default s.groups u
def setGrpAt (s : State) (u : Nat) (g : Group) : State := { s with groups := SMap.put s.groups u g }
/-- Change a group that is resident. -/
def modGrp (s : State) (u : Nat) (f : Group → Group) : State :=
  match SMap.get? s.groups u with
  | some g => s.setGrpAt u (f g)
  | none => s

/-- The issuing group. -/
def grp (s : State) : Group := s.grpAt s.cur.grp
def setGrp (s : State) (g : Group) : State := s.setGrpAt s.cur.grp g

def teamAt (s : State) (u : Nat) : Team := SMap.get default s.teams u
def setTeamAt (s : State) (u : Nat) (t : Team) : State := { s with teams := SMap.put s.teams u t }
def team (s : State) : Team := s.teamAt s.grp.team
def setTeam (s : State) (t : Team) : State := s.setTeamAt s.grp.team t

def launchAt (s : State) (u : Nat) : Launch := SMap.get default s.launches u
def setLaunchAt (s : State) (u : Nat) (l : Launch) : State := { s with launches := SMap.put s.launches u l }
def launch (s : State) : Launch := s.launchAt s.team.launch

def coreAt (s : State) (u : Nat) : Core := SMap.get default s.cores u
def setCoreAt (s : State) (u : Nat) (c : Core) : State := { s with cores := SMap.put s.cores u c }
def core (s : State) : Core := s.coreAt s.team.core
def setCore (s : State) (c : Core) : State := s.setCoreAt s.team.core c

def clusterAt (s : State) (u : Nat) : Cluster := SMap.get default s.clusters u
def setClusterAt (s : State) (u : Nat) (c : Cluster) : State := { s with clusters := SMap.put s.clusters u c }

def descAt (s : State) (c : Nat) : Desc := SMap.get default s.descs c
def treeAt (s : State) (c : Nat) : HypTree := SMap.get default s.trees c
def setTreeAt (s : State) (c : Nat) (t : HypTree) : State := { s with trees := SMap.put s.trees c t }

/-- Team, launch, core, cluster and context of a group. -/
def teamOf (s : State) (u : Nat) : Team := s.teamAt (s.grpAt u).team
def launchOf (s : State) (u : Nat) : Launch := s.launchAt (s.teamOf u).launch
def coreOf (s : State) (u : Nat) : Nat := (s.teamOf u).core
def clusterOf (s : State) (u : Nat) : Nat := (s.teamOf u).core / 4
def ctxOf (s : State) (u : Nat) : Nat := (s.launchOf u).ctx
/-- The context of the issuing group (CTXID). -/
def ctx (s : State) : Nat := s.launch.ctx

/-- The groups of a team, in order of their numbers in the state. -/
def groupsOf (s : State) (team : Nat) : List (Nat × Group) := s.groups.filter fun e => e.2.team == team
/-- The teams on a core. -/
def teamsOn (s : State) (core : Nat) : List (Nat × Team) := s.teams.filter fun e => e.2.core == core

/-- A fresh number. -/
def fresh (s : State) : State := { s with nextId := s.nextId + 1 }

/-- Whether the L1s of the group's cluster are fused for its launch (R36). -/
def fused (s : State) (u : Nat) : Bool := (s.launchOf u).record.fusel1

/-- The core that holds the group's L1: with fused L1s one stands for the cluster (R13). -/
def l1Of (s : State) (u : Nat) : Nat := if s.fused u then s.clusterOf u * 4 else s.coreOf u

/-! ### The fragment that issues -/

end State

namespace Group

/-- Quads of a fragment that issue together (R284). -/
def fragQuads (g : Group) (f : Nat) : List Nat :=
  (List.range 8).filter fun q => (g.quad q).frag == f && (g.quad q).lanes != 0#4 && (g.quad q).st == .ready

/-- All quads of a fragment, parked ones included. -/
def fragMembers (g : Group) (f : Nat) : List Nat :=
  (List.range 8).filter fun q => (g.quad q).frag == f && (g.quad q).st != .absent && (g.quad q).st != .exited

/-- The lanes that a fragment holds: all present lanes of its quads (R126, R284). -/
def heldLanes (g : Group) (f : Nat) : Mask :=
  (g.fragQuads f).foldl (fun m q => m ||| Bits.quadMask q 0xF#4) 0#32 &&& g.present

/-- A fragment's active_mask (R284). -/
def active (g : Group) (f : Nat) : Mask :=
  (g.fragQuads f).foldl (fun acc q => acc ||| Bits.quadMask q (g.quad q).lanes) 0#32

/-- The PC of a fragment. -/
def fragPc (g : Group) (f : Nat) : W64 :=
  match g.fragQuads f with
  | q :: _ => (g.quad q).pc
  | [] => 0#64

/-- Fragment numbers in use. -/
def fragsInUse (g : Group) : List Nat := (List.range 8).filter fun f => g.fragMembers f != []

/-- The lowest fragment number not in use (R284). -/
def freeFrag (g : Group) : Nat := ((List.range 8).find? fun f => g.fragMembers f == []).getD 0

end Group

namespace State

/-- active_mask of the issuing fragment. -/
def active (s : State) : Mask := s.grp.active s.cur.frag

/-- The reference lane: the lowest active lane (R285). -/
def refLane (s : State) : Nat := (Bits.lowest s.active).getD 0

/-- exec_mask under a guard (R61). -/
def exec (s : State) (gd : Guard) : Mask :=
  let p := s.grp.rp gd.pred.toNat
  s.active &&& (if gd.neg then ~~~p else p)

/-- The mode of the issuing fragment (R337): the system kernel, or handler mode. -/
def isKernel (s : State) : Bool := s.ctx == 0
def inHandler (s : State) : Bool := s.grp.hmode && (s.active &&& s.grp.hmask) != 0#32

/-- The rights of group `u`'s fragment `f` (R337). -/
def privAt (s : State) (u f : Nat) : Bool :=
  s.ctxOf u == 0 || ((s.grpAt u).hmode && ((s.grpAt u).active f &&& (s.grpAt u).hmask) != 0#32)

/-- The TRAPVEC that a context's fragments take (R339). -/
def trapvec (s : State) (ctx : Nat) : W64 := if ctx = 0 then s.trapvec0 else (s.descAt ctx).trapvec

end State

end Sys2Proof.Machine
end

