-- ==== Sys2Proof/Machine/Mem.lean ====
section
/-! DEFINITION. Memory: bytes of HBM in canonical form, write stamps, lease frontiers (R205, R209), local
memory (R204), and what DRAM holds where it lags the L2 (R224). Byte order is decided here (R1). -/

namespace Sys2Proof.Machine

open Sys2Proof (SMap)

/-- The canonical form of memory: addresses strictly rising, no entry equal to what an unlisted byte reads as. -/
def Memory.wf (m : List Host.Cell) : Bool := SMap.canonical 0#8 m

/-- A byte of HBM; an unlisted one reads 0. -/
def Memory.byte (m : List Host.Cell) (p : Nat) : Byte := SMap.get 0#8 m p

/-- Write one byte. -/
def Memory.set (m : List Host.Cell) (p : Nat) (b : Byte) : List Host.Cell := SMap.set 0#8 m p b

/-- Write bytes from an address on. -/
def Memory.write (m : List Host.Cell) : Nat → List Byte → List Host.Cell
  | _, [] => m
  | p, b :: r => Memory.write (Memory.set m p b) (p + 1) r

/-- The number of a lane's store (R212). -/
def stampId (op lane : Nat) : Nat := op * 64 + lane

/-- The place under which an L1 may hold what an access reaches: its physical address in HBM, or a number of its own for
memory of a peer (R209); local and host memory are never cached. -/
def Loc.cached : Loc → Option Nat
  | .hbm p => some p
  | .peer owner rctx va => some (2 ^ 82 * (1 + owner * 256 + rctx) + va)
  | _ => none

/-- The place `n` bytes on. -/
def Loc.plus (l : Loc) (n : Nat) : Loc :=
  match l with
  | .hbm p => .hbm (p + n)
  | .loc t off => .loc t (off + n)
  | .peer owner rctx va => .peer owner rctx (va + n)
  | .host a => .host (a + n)

/-- Line and word of a physical address (R205, R206). -/
def lineOf (p : Nat) : Nat := p / 128
def wordOf (p : Nat) : Nat := p / 4

/-- The words that `n` bytes at `p` touch. -/
def wordsOf (p n : Nat) : List Nat := (List.range ((p + n - 1) / 4 + 1 - p / 4)).map (· + p / 4)

namespace State

/-- `n` bytes of HBM at the point of coherence, as a number (little-endian). -/
def readMem (s : State) (p n : Nat) : Nat := Bits.ofBytes ((List.range n).map fun i => Memory.byte s.mem (p + i))

def readBytes (s : State) (p n : Nat) : List Byte := (List.range n).map fun i => Memory.byte s.mem (p + i)

/-- The write stamp of a word, and the latest among the words that `n` bytes touch. -/
def stampOf (s : State) (w : Nat) : Nat := SMap.get 0 s.stamps w
def stampOver (s : State) (p n : Nat) : Nat := (wordsOf p n).foldl (fun acc w => Nat.max acc (s.stampOf w)) 0

/-- The home slice of a line: of the slices of the die whose stacks hold the line now, wherever it has been moved (R14, R380, R381). -/
def homeOf (s : State) (line : Nat) : Nat :=
  (((SMap.get? s.places line).map fun x => x.chan).getD (Config.channelOf line) / 96 * 96 + Config.sliceOf line % 96) % 384

/-- The lease frontier of a line (R209); the lines of a replaced slice start from its largest (R390). -/
def frontierOf (s : State) (line : Nat) : Nat :=
  Nat.max (SMap.get 0 s.frontier line) (if s.sliceFloor.isEmpty then 0 else SMap.get 0 s.sliceFloor (s.homeOf line))
def raiseFrontier (s : State) (line t : Nat) : State :=
  { s with frontier := SMap.set 0 s.frontier line (Nat.max (s.frontierOf line) t) }

/-- Note what DRAM still holds of the bytes about to change (R224). -/
def keepDram (s : State) (p n t : Nat) : State :=
  { s with
    dramOld := (List.range n).foldl
      (fun acc i => if (SMap.get? acc (p + i)).isSome then acc else SMap.put acc (p + i) (Memory.byte s.mem (p + i)))
      s.dramOld
    dramAt := SMap.put s.dramAt (lineOf p) (Nat.min t (SMap.get t s.dramAt (lineOf p))) }

/-- Whole 8-byte units that `n` bytes at `p` cover get fresh check bits (R371). -/
def mendUnits (s : State) (p n : Nat) : State :=
  { s with badUnits := s.badUnits.filter fun u => !(decide (p ≤ 8 * u) && decide (8 * u + 8 ≤ p + n)) }

/-- A unit of memory becomes uncorrectable. -/
def spoilUnit (s : State) (x : Nat) : State := { s with badUnits := x :: s.badUnits.filter (· != x) }

/-- Words of the committed view have been written: a resolve that carried an earlier value there no longer stamps them. -/
def unmove (s : State) (ws : List Nat) : State :=
  { s with resolves := s.resolves.map fun r => (r.1, { r.2 with moved := r.2.moved.filter fun k =>
    !(k / 2 ^ 46 % 1024 == 0 && ws.contains (k % 2 ^ 46)) }) }

/-- What the DRAM arrays hold (R224). -/
def dramByte (s : State) (p : Nat) : Byte := SMap.get (Memory.byte s.mem p) s.dramOld p
def dramBytes (s : State) (p n : Nat) : List Byte := (List.range n).map fun i => s.dramByte (p + i)

/-! ### Local memory -/

/-- A byte of a team's local memory; one that nothing has written is a free value (R27). -/
def locByte (s : State) (team off : Nat) : Byte :=
  SMap.get (Config.freeByte team off) (s.teamAt team).lmem off

def readLoc (s : State) (team off n : Nat) : Nat :=
  Bits.ofBytes ((List.range n).map fun i => s.locByte team (off + i))

def locBytes (s : State) (team off n : Nat) : List Byte := (List.range n).map fun i => s.locByte team (off + i)

/-- A store performed at local memory; its stamp is the present gtime (R204). -/
def writeLoc (s : State) (team off : Nat) (bs : List Byte) : State :=
  let t := s.teamAt team
  s.setTeamAt team
    { t with lmem := SMap.overlay t.lmem ((List.range bs.length).map fun i => (off + i, bs.getD i 0#8))
             lstamp := (wordsOf off bs.length).foldl (fun acc w => SMap.put acc w s.gtime) t.lstamp
             bad := t.bad.filter fun x =>
               !(x.1 == 0 && decide (off ≤ 8 * x.2) && decide (8 * x.2 + 8 ≤ off + bs.length)) }

def locStamp (s : State) (team off n : Nat) : Nat :=
  (wordsOf off n).foldl (fun acc w => Nat.max acc (SMap.get 0 (s.teamAt team).lstamp w)) 0

def locBad (s : State) (team off n : Nat) : Bool :=
  (s.teamAt team).bad.any fun x => x.1 == 0 && decide (8 * x.2 < off + n) && decide (off < 8 * x.2 + 8)

end State

end Sys2Proof.Machine
end

