-- ==== Sys2Proof/Machine/Dram.lean ====
section
/-! DEFINITION. The DRAM channels: the error history (R417), which channel holds a line, its stripe and parity (R374 to
R376), reads that need reconstruction (R378), banks that must not be disturbed (R385, R386), and writes to memory. -/

namespace Sys2Proof.Machine

open Sys2Proof (SMap)

namespace Up

/-! ### Error history (R417) -/

/-- Append a record; the oldest goes when 65,536 are held. -/
def note (s : State) (kind unit at' value : Nat) : State :=
  let e : ErrRec := { kind := kind, unit := unit, at' := at', resets := s.resets, time := s.gtime, value := value }
  { s with errors := (if s.errors.length < 65536 then s.errors else s.errors.drop 1) ++ [e] }

/-- Errors are corrected in a structure: its count so far is a record of its own (R417). -/
def noteCorrected (s : State) (unit at' n : Nat) : State :=
  let k := unit * 65536 + at'
  let c := SMap.get 0 s.corrected k + n
  note { s with corrected := SMap.put s.corrected k c } 1 unit at' c

/-- WHERE of a unit: die in bits 15:14, number in bits 8:0. -/
def whereOf (die n : Nat) : Nat := die * 2 ^ 14 + n % 512

/-! ### Channels and stripes (R374 to R376) -/

def channel (s : State) (c : Nat) : Channel := SMap.get {} s.channels c
def setChannel (s : State) (c : Nat) (x : Channel) : State := { s with channels := SMap.put s.channels c x }

/-- The die and the parity group of a channel: 96 channels to a die, 16 to a group. -/
def dieOf (c : Nat) : Nat := c / 96
def groupOf (c : Nat) : Nat := c / 16

def whereChannel (c : Nat) : Nat := whereOf (dieOf c) c

/-- A channel that is in service, and one whose reads are served by reconstruction. -/
def inService (s : State) (c : Nat) : Bool := decide (c < 384) && !(channel s c).retired
def down (s : State) (c : Nat) : Bool := (channel s c).failed && !(channel s c).retired

/-- Where a line lies now (R380), and which line lies at a place. -/
def place (s : State) (line : Nat) : Place := SMap.get ⟨Config.channelOf line, Config.offsetOf line⟩ s.places line
def channelAt (s : State) (line : Nat) : Nat := (place s line).chan
def occupant (s : State) (c off : Nat) : Option Nat :=
  match s.places.find? fun e => e.2 == ⟨c, off⟩ with
  | some e => some e.1
  | none => (Config.lineAt c off).filter fun l => (SMap.get? s.places l).isNone

/-- The number of a place among all places, by which its sectors are numbered. -/
def spot (c off : Nat) : Nat := c * 2 ^ 25 + off

/-- Whether the stack reports what lies at a place, or a line, uncorrectable. -/
def sickAt (s : State) (c off : Nat) : Bool := s.badSectors.any fun x => x / 4 == spot c off
def sick (s : State) (line : Nat) : Bool :=
  !s.badSectors.isEmpty && (let x := place s line; sickAt s x.chan x.off)

/-- The channel that holds the parity of the stripes of channel `p`'s group at an offset: `p`, or its heir where the stripe has been
re-formed (R380). -/
def heirAt (s : State) (off : Nat) : Nat → Nat → Nat
  | 0, p => p
  | n + 1, p =>
    match (channel s p).heir with
    | some h =>
      if (channel s p).retired || ((channel s p).retiring && decide (off < Config.channelLines) && (occupant s h off).isNone) then
        heirAt s off n h
      else p
    | none => p
def parityAt (s : State) (c off : Nat) : Nat := heirAt s off 16 (Config.parityChannel (groupOf c))

/-- The other data lines of the stripe at a place: up to 14, or 13 in a group that has lost a channel (R374, R380). -/
def mates (s : State) (c off : Nat) : List Nat :=
  ((List.range 16).map fun i => groupOf c * 16 + i).filterMap fun d =>
    if d = c || d = parityAt s c off then none else occupant s d off

/-- The data lines of a line's stripe, itself first. -/
def members (s : State) (line : Nat) : List Nat := let x := place s line; line :: mates s x.chan x.off

/-- Whether a channel or a sector ails anywhere: in a sound module nothing needs reconstruction. -/
def ailing (s : State) : Bool := !s.badSectors.isEmpty || s.channels.any fun e => e.2.failed

/-- Whether a read of a line needs reconstruction, and whether reconstruction fails: another line of the stripe, or its parity, is
uncorrectable or lies in a failed channel (R376). -/
def needsRebuild (s : State) (line : Nat) : Bool := ailing s && (down s (channelAt s line) || sick s line)
def lostLine (s : State) (line : Nat) : Bool :=
  needsRebuild s line && (let x := place s line
    let q := parityAt s x.chan x.off
    down s q || sickAt s q x.off || (mates s x.chan x.off).any fun l => down s (channelAt s l) || sick s l)

/-- A line as DRAM holds it. -/
def dramLine (s : State) (line : Nat) : List Byte := s.dramBytes (128 * line) 128

/-- The exclusive OR of some lines. -/
def xorLines (l : List (List Byte)) : List Byte := l.foldr (List.zipWith (· ^^^ ·)) (List.replicate 128 0#8)

/-- The parity line of a line's stripe, and what reconstruction makes of the other lines and the parity (R374, R376). -/
def parity (s : State) (line : Nat) : List Byte := xorLines ((members s line).map (dramLine s))
def rebuilt (s : State) (line : Nat) : List Byte := xorLines (parity s line :: (members s line).tail.map (dramLine s))

/-! ### Failing channels (R378) -/

/-- A channel is marked failed. -/
def markFailed (s : State) (c : Nat) : State :=
  let x := channel s c
  if inService s c && !x.failed then note (setChannel s c { x with failed := true }) 4 6 (whereChannel c) 0 else s

/-! ### Banks (R385, R386) -/

/-- The bank of an offset: rows lie in the banks in turn. -/
def bankOf (off : Nat) : Nat := off / Config.rowLines % Config.banks
/-- Banks by channel and number. -/
def bankKey (c b : Nat) : Nat := c * 1024 + b
def bankOfPlace (x : Place) : Nat := bankKey x.chan (bankOf x.off)
def bankAt (s : State) (line : Nat) : Nat := bankOfPlace (place s line)

/-- A read of a line that the stack reports uncorrectable has needed reconstruction: its channel fails when that has happened in
four banks within one pass (R378). -/
def countRebuild (s : State) (line : Nat) : State :=
  if !sick s line then s
  else
    let p := place s line
    let x := channel s p.chan
    if x.failed || x.banks.contains (bankOf p.off) then s
    else
      let s := setChannel s p.chan { x with banks := bankOf p.off :: x.banks }
      if 4 ≤ x.banks.length + 1 then markFailed s p.chan else s

/-- Whether a bank has reached its postponement limit: its refresh goes ahead of bank, copy, scrub and rebuild accesses. -/
def refreshDue (s : State) (k : Nat) : Bool := decide (Config.refreshLimit ≤ SMap.get 0 s.postponed k)

/-- Whether an access of a line in DRAM waits for a refresh: of its bank, and of the banks of its stripe where it is reconstructed. -/
def refreshWaits (s : State) (line : Nat) : Bool :=
  !s.postponed.isEmpty && (refreshDue s (bankAt s line)
    || (needsRebuild s line && (let x := place s line
      refreshDue s (bankKey (parityAt s x.chan x.off) (bankOf x.off)) || (mates s x.chan x.off).any fun l => refreshDue s (bankAt s l))))

/-- Whether a bank operation on a line must wait: for a refresh, or for the back-off of its channel. -/
def bankBusy (s : State) (line : Nat) : Bool :=
  refreshWaits s line || decide (s.gtime < (channel s (channelAt s line)).pause)

/-! ### Lines between DRAM and the L2 (R371, R375, R376) -/

/-- The units of a line. -/
def unitsOf (line : Nat) : List Nat := (List.range 16).map (line * 16 + ·)

/-- Whether a slice holds a line, clean or dirty. -/
def holds (s : State) (line : Nat) : Bool := s.l2.contains line || (SMap.get? s.dramAt line).isSome

/-- Whether an access of a line at its slice has to wait for a refresh, as it must come from DRAM first (R385). -/
def stalled (s : State) (line : Nat) : Bool := refreshWaits s line && !holds s line

/-- The units of a line that DRAM gives a reader uncorrectable. -/
def dramUnits (s : State) (line : Nat) : List Nat :=
  if lostLine s line then unitsOf line else s.dramBad.filter fun x => x / 16 == line

/-- A slice brings a line in that it does not hold: what cannot be reconstructed is uncorrectable, and the history says so, as it does of
a sector that the stack reports uncorrectable (R370, R417). -/
def bringIn (s : State) (line : Nat) : State :=
  if holds s line then s
  else
    let new := (dramUnits s line).filter fun x => !s.badUnits.contains x
    let t := countRebuild { s with l2 := line :: s.l2, badUnits := new ++ s.badUnits } line
    if sick s line || lostLine s line then note t 2 6 (whereChannel (channelAt s line)) (line * 128) else t

/-- A slice drops a line that it holds clean; errors of its copy go with it. -/
def dropLine (s : State) (line : Nat) : State :=
  if (SMap.get? s.dramAt line).isSome then s
  else { s with l2 := s.l2.filter (· != line), badUnits := s.badUnits.filter fun x => x / 16 != line }

/-- The other lines of a lost line's stripe that cannot be read: nothing gives them back once the line is written. -/
def alsoLost (s : State) (line : Nat) : List Nat :=
  if lostLine s line then (let x := place s line; mates s x.chan x.off).filter (needsRebuild s) else []

/-- A slice writes a line back as one operation with its stripe's parity: what DRAM holds of it is now the newest data, with the
check bits of its units (R224, R371, R375). A write to a failed channel writes the parity alone. The slice holds the line clean. Another
line that was lost with it keeps failing check bits. -/
def writeLine (s : State) (line : Nat) : State :=
  let lost := (alsoLost s line).flatMap unitsOf
  if (SMap.get? s.dramAt line).isNone then s
  else { s with
    dramOld := s.dramOld.filter fun e => lineOf e.1 != line
    l2 := if s.l2.contains line then s.l2 else line :: s.l2
    dramAt := SMap.erase s.dramAt line
    dramBad := lost ++ s.badUnits.filter (fun x => x / 16 == line) ++ s.dramBad.filter fun x => x / 16 != line && !lost.contains x
    badSectors := if s.badSectors.isEmpty || down s (channelAt s line) then s.badSectors
      else (let x := place s line; s.badSectors.filter fun y => y / 4 != spot x.chan x.off) }

/-- A slice that holds no newer data of a line drops what it holds and reads the line from its channel. -/
def readLine (s : State) (line : Nat) : State := if refreshWaits s line then s else bringIn (dropLine s line) line

end Up

namespace State

/-- Whether a unit of memory is uncorrectable for a reader at its home slice: as the slice holds it, or as DRAM would give it. -/
def unitBad (s : State) (u : Nat) : Bool :=
  s.badUnits.contains u || ((s.dramBad.contains u || Up.lostLine s (u / 16)) && !Up.holds s (u / 16))

/-- Whether `n` bytes at `p` meet an uncorrectable unit. -/
def badAt (s : State) (p n : Nat) : Bool := (List.range ((p + n - 1) / 8 + 1 - p / 8)).any fun i => s.unitBad (p / 8 + i)

/-- The lines that `n` bytes at `p` touch come into their slices. -/
def bringLines (s : State) (p n : Nat) : State := ((wordsOf p n).map (· / 32)).eraseDups.foldl Up.bringIn s

/-- A write at the home slice: bytes, stamp, DRAM lag, check bits. -/
def writeMem (s : State) (p : Nat) (bs : List Byte) (t : Nat) : State :=
  let s := (((s.bringLines p bs.length).keepDram p bs.length t).mendUnits p bs.length).unmove (wordsOf p bs.length)
  { s with mem := Memory.write s.mem p bs
           stamps := (wordsOf p bs.length).foldl (fun acc w => SMap.set 0 acc w t) s.stamps }

end State

end Sys2Proof.Machine
end

