-- ==== Sys2Proof/Machine/Forms.lean ====
section
/-! DEFINITION. Which operand classes, field values, guards and IMM values each instruction accepts: the
tables of R103, R123, R141 to R154, R164, R188, R234 to R236, R246, R277, R312, R313, R359 and R404, and the
registers each instruction reads and writes (R23, R66). -/

namespace Sys2Proof

/-- The class code of an operand field (R57). -/
def Opd.cls : Opd → Nat
  | .none => 0 | .v _ => 1 | .k _ => 2 | .p _ => 3 | .m _ => 4 | .z _ => 5
  | .t _ => 6 | .j _ => 7 | .i8 _ => 8 | .imm => 9 | .sys _ => 10

/-- The value in an operand field. -/
def Opd.val : Opd → Nat
  | .none => 0 | .v n => n.toNat | .k n => n.toNat | .p n => n.toNat | .m n => n.toNat | .z n => n.toNat
  | .t n => n.toNat | .j n => n.toNat | .i8 x => x.toNat | .imm => 0 | .sys x => x.toNat

/-- Whether the operand is a v register with a number not divisible by `n`. -/
def Opd.misnumbered (o : Opd) (n : Nat) : Bool := o.cls == 1 && o.val % n != 0

/-- Whether an integer type is 64 bits wide (R62). -/
def IType.wide : IType → Bool
  | .s64 | .n64 => true
  | _ => false

/-- Whether an integer type is signed (R62). -/
def IType.signed : IType → Bool
  | .s32 | .s64 => true
  | _ => false

/-- The width of an integer type in bits. -/
def IType.bits (t : IType) : Nat := if t.wide then 64 else 32

namespace Forms

/-- Classes that fields D, A, B and C accept, whether a guard is accepted, and whether IMM has a meaning
without a class-9 field (R59, R61). -/
structure Sig where
  d : List Nat := [0]
  a : List Nat := [0]
  b : List Nat := [0]
  c : List Nat := [0]
  guard : Bool := false
  imm : Bool := false
deriving DecidableEq, Repr

/-- R103's abbreviations S and F. -/
def S : List Nat := [1, 2, 8, 9]
def F : List Nat := [1, 2, 9]

/-- R103: unary, binary and ternary register instructions of type T. -/
def t1 : Sig := { d := [1, 2], a := S, guard := true }
def t2 : Sig := { d := [1, 2], a := S, b := S, guard := true }
def t3 : Sig := { d := [1, 2], a := S, b := S, c := S, guard := true }
/-- R103: the same for floating forms. -/
def f1 : Sig := { d := [1, 2], a := F, guard := true }
def f2 : Sig := { d := [1, 2], a := F, b := F, guard := true }
def f3 : Sig := { d := [1, 2], a := F, b := F, c := F, guard := true }
/-- R164: moment pairs. -/
def m1 : Sig := { d := [4], a := [4], guard := true }
def m2 : Sig := { d := [4], a := [4], b := [4], c := [1, 2, 9, 0], guard := true }
/-- No operands at all. -/
def nil : Sig := {}
/-- R404: a collective. -/
def coll : Sig := { d := [2], a := [2], b := [2], c := [2] }

/-- The accepted classes of each instruction; none for a step of the hardware, which has no word. -/
def sig : Instr → Option Sig
  | .mov _ _ | .iabs _ _ | .ineg _ _ | .popc _ _ | .clz _ _ | .brev _ _ => some t1
  | .movi _ _ _ => some { d := [1, 2], a := [8, 9], guard := true }
  | .iadd _ _ | .isub _ _ | .imul _ _ | .imulh _ _ | .idiv _ _ | .imin _ _ | .imax _ _ | .and _ _ | .or _ _
  | .xor _ _ | .shl _ _ | .shr _ _ | .sar _ _ | .bfx _ _ | .lea _ _ _ => some t2
  | .imad _ _ | .bfi _ _ => some t3
  | .icmp _ _ => some { d := [3], a := S, b := S, c := [8], guard := true }
  | .sel _ _ => some { d := [1, 2], a := S, b := S, c := [3], guard := true }
  | .fadd _ _ _ | .fsub _ _ _ | .fmul _ _ _ | .fmin _ _ _ | .fmax _ _ _ | .hadd2 _ _ _ | .hmul2 _ _ _ => some f2
  | .ffma _ _ _ | .hfma2 _ _ _ => some f3
  | .fcmp _ _ _ => some { d := [3], a := F, b := F, c := [8], guard := true }
  | .frcp _ _ _ | .frsq _ _ _ | .fsqrt _ _ _ | .fexp2 _ _ _ | .flog2 _ _ _ | .fsin _ _ _ | .fcos _ _ _
  | .ftanh _ _ _ | .frnd _ _ _ => some f1
  | .cvt _ _ _ | .cvtBlock _ _ _ =>
    some { d := [1, 2], a := S, b := [2, 0], c := [8], guard := true, imm := true }
  | .qswp _ _ | .qbcst _ _ | .xscan _ _ => some { d := [1], a := [1], guard := true }
  | .xshfl _ _ => some { d := [1], a := [1], b := S, guard := true }
  | .xred _ _ => some { d := [1, 2], a := [1], guard := true }
  | .vote op _ => some { d := (match op with | .ballot => [1, 2] | _ => [3]), a := [3], guard := true }
  | .elect _ => some { d := [3], guard := true }
  | .gsample _ => some { d := [1, 2], a := [1], b := [2, 9], c := [3], guard := true }
  | .mset _ => some { d := [4], a := F, b := [1, 2, 9, 0], guard := true }
  | .madd _ | .msub _ | .mmul _ => some m2
  | .mscl _ => some { d := [4], a := [4], b := F, c := [1, 2, 9, 0], guard := true }
  | .msqr _ | .mrcp _ | .mexp _ | .mrelu _ | .mlog _ => some m1
  | .mcol k _ =>
    some { d := [1], a := [4], b := (match k with | .msd | .sample => F | _ => [0]), guard := true }
  | .mchk _ => some { d := [3], a := [4], b := [2, 9], guard := true }
  | .mmaH _ | .mmaKb _ => some { d := [5], a := [1], b := [6], c := [8] }
  | .mmaMom _ | .mmaMomQn _ => some { d := [5], a := [4], b := [6] }
  | .thnd _ => some { d := [6], a := [2], b := [8] }
  | .zclr _ => some { d := [5] }
  | .zrd _ => some { d := [1], a := [5], b := [8], c := [8], guard := true }
  | .zwr _ => some { d := [5], a := [1], b := [8], c := [8] }
  | .zepi _ => some { d := [1], a := [5], b := [2], c := [9], guard := true }
  | .zepiHeap _ => some { d := [8], a := [5], b := [2], c := [9] }
  | .zalloc _ => some { d := [3], a := [5] }
  | .zfree _ => some { d := [5] }
  | .mxfence _ => some nil
  | .hpinit _ => some { d := [3], a := [8] }
  | .hpread _ => some { d := [1], a := [2], b := [2], guard := true }
  | .wkbegin _ => some { d := [2], a := [2], b := [2], c := [3] }
  | .wknext _ | .wknextMerge _ => some { d := [2], a := [2], c := [3] }
  | .wksubs _ _ => some { d := [2], a := [2], b := [2], c := [2] }
  | .wkpart _ => some { d := [9], a := [2], b := [2], c := [1], guard := true }
  | .smxmerge _ | .wkdone _ => some { a := [2], b := [2] }
  | .wkend _ => some { a := [2] }
  | .wkswap _ => some { d := [2], a := [2] }
  | .ld _ _ _ | .st _ _ _ =>
    some { d := [1, 2, 4], a := [1, 2], b := [2, 0], c := [8, 0], guard := true, imm := true }
  | .gather _ _ | .scatter _ _ => some { d := [1], a := [2], b := [8], c := [1], guard := true, imm := true }
  | .atom _ _ _ => some { d := [1, 0], a := [1, 2], b := [1, 2, 8], c := [8], guard := true, imm := true }
  | .fenceRel _ _ | .fenceAcq _ _ | .fenceAr _ _ => some nil
  | .wait _ => some { a := [9] }
  | .cpLin _ | .cpGather _ => some { d := [2, 0], a := [2], b := [2], c := [8] }
  | .cpTile _ => some { d := [2, 0], a := [6], c := [8] }
  | .qpush _ => some { d := [8], a := [1], b := [8] }
  | .qpop _ => some { d := [1], a := [8], b := [8] }
  | .qallow _ => some { d := [8], a := [2, 0], b := [2, 0] }
  | .pref _ => some { d := [8], a := [1, 2], b := [2, 0], guard := true, imm := true }
  | .bmv _ => some { d := [2], a := [2], b := [2], c := [8] }
  | .bfenceW _ | .bfenceR _ | .bfenceWr _ => some nil
  | .bstat _ => some { d := [2], a := [8] }
  | .hopen _ => some { d := [2], a := [2], c := [3] }
  | .henter _ | .hresolveCfm _ | .hresolveCfx _ | .hresolveRef _ => some { a := [2] }
  | .hleave _ => some nil
  | .hstat _ => some { d := [2], a := [2] }
  | .bra _ _ => some { a := [9], b := [7, 0], guard := true }
  | .brx _ _ | .ret _ => some { a := [1, 2], b := [7, 0] }
  | .call _ _ => some { d := [1, 2], a := [9], b := [7, 0], guard := true }
  | .regang _ => some { a := [7] }
  | .exit _ => some { guard := true }
  | .bar _ => some { a := [8] }
  | .barx _ => some { a := [8], b := [2] }
  | .cbar _ | .gbar _ => some nil
  | .spawn _ => some { d := [3], a := [9], b := [1], guard := true }
  | .launch _ => some { d := [2], a := [2], b := [2], c := [3] }
  | .lqsignal _ => some { d := [3], a := [2] }
  | .rangeInit _ => some { d := [2], a := [2], b := [2], c := [3] }
  | .rangeTake _ => some { d := [1], a := [2], guard := true }
  | .yield _ => some { a := [8, 0] }
  | .life _ => some { d := [8, 0], a := [8, 0], b := [8, 0], c := [8, 0], imm := true }
  | .rws _ => some { b := [8, 0], c := [8, 0], imm := true }
  | .nop _ => some nil
  | .trap _ => some { a := [8], guard := true }
  | .rdsys _ => some { d := [1, 2], a := [10], guard := true }
  | .wrsys _ => some { d := [10], a := [2, 8, 9] }
  | .tret _ => some nil
  | .tlbinvPage _ => some { a := [2], b := [2] }
  | .tlbinvCtx _ => some { a := [2] }
  | .tlbinvAll _ => some nil
  | .cacheopL1inv _ | .cacheopIcinv _ => some nil
  | .ctxsave _ => some { d := [2], a := [2], b := [2] }
  | .ctxload _ => some { d := [2], a := [2] }
  | .cred _ _ | .cbcast _ | .cgather _ => some coll
  | .cwait _ => some { d := [2], a := [2] }
  | _ => none

/-- The operands of an instruction word; a step of the hardware has none. -/
def opds : Instr → Option Opds
  | .mov _ o | .movi _ _ o | .iadd _ o | .isub _ o | .imul _ o | .imulh _ o | .imad _ o | .idiv _ o | .imin _ o
  | .imax _ o | .iabs _ o | .ineg _ o | .and _ o | .or _ o | .xor _ o | .shl _ o | .shr _ o | .sar _ o | .bfx _ o
  | .bfi _ o | .popc _ o | .clz _ o | .brev _ o | .icmp _ o | .sel _ o | .lea _ _ o
  | .fadd _ _ o | .fsub _ _ o | .fmul _ _ o | .ffma _ _ o | .fmin _ _ o | .fmax _ _ o | .fcmp _ _ o | .frcp _ _ o
  | .frsq _ _ o | .fsqrt _ _ o | .fexp2 _ _ o | .flog2 _ _ o | .fsin _ _ o | .fcos _ _ o | .ftanh _ _ o
  | .hadd2 _ _ o | .hmul2 _ _ o | .hfma2 _ _ o | .cvt _ _ o | .cvtBlock _ _ o | .frnd _ _ o
  | .qswp _ o | .qbcst _ o | .xshfl _ o | .xscan _ o | .xred _ o | .vote _ o | .elect o | .gsample o
  | .mset o | .madd o | .msub o | .mmul o | .mscl o | .msqr o | .mrcp o | .mexp o | .mrelu o | .mlog o
  | .mcol _ o | .mchk o
  | .mmaH o | .mmaKb o | .mmaMom o | .mmaMomQn o | .thnd o | .zclr o | .zrd o | .zwr o | .zepi o | .zepiHeap o
  | .zalloc o | .zfree o | .mxfence o | .hpinit o | .hpread o
  | .wkbegin o | .wknext o | .wknextMerge o | .wksubs _ o | .wkpart o | .smxmerge o | .wkdone o | .wkend o
  | .wkswap o
  | .ld _ _ o | .st _ _ o | .gather _ o | .scatter _ o | .atom _ _ o | .fenceRel _ o | .fenceAcq _ o
  | .fenceAr _ o | .wait o | .cpLin o | .cpTile o | .cpGather o | .qpush o | .qpop o | .qallow o | .pref o
  | .bmv o | .bfenceW o | .bfenceR o | .bfenceWr o | .bstat o
  | .hopen o | .henter o | .hleave o | .hresolveCfm o | .hresolveCfx o | .hresolveRef o | .hstat o
  | .bra _ o | .brx _ o | .call _ o | .ret o | .regang o | .exit o | .bar o | .barx o | .cbar o | .gbar o
  | .spawn o | .launch o | .lqsignal o | .rangeInit o | .rangeTake o | .yield o | .life o | .rws o | .nop o
  | .trap o
  | .rdsys o | .wrsys o | .tret o | .tlbinvPage o | .tlbinvCtx o | .tlbinvAll o | .cacheopL1inv o
  | .cacheopIcinv o | .ctxsave o | .ctxload o
  | .cred _ o | .cbcast o | .cgather o | .cwait o => some o
  | _ => none

/-! ### Conditions beyond the class tables -/

/-- R104: with a k destination every source is k, an immediate or absent. -/
def uniformSources (o : Opds) : Bool :=
  o.d.cls != 2 || ([o.a, o.b, o.c].all fun x => x.cls == 2 || x.cls == 8 || x.cls == 9 || x.cls == 0)

/-- R106: v fields of 64-bit integer operands name even registers. -/
def evenIf (wide : Bool) (l : List Opd) : Bool := !wide || l.all fun x => !x.misnumbered 2

/-- The class-8 value of a field, 0 when the field has class 0 (R312). -/
def code (x : Opd) : Nat := match x with | .i8 b => b.toNat | _ => 0

/-- R234's width code of a field, when it has class 8. -/
def widthCode (x : Opd) : Option Nat := match x with | .i8 b => some b.toNat | _ => none

/-- R236: bytes of each width code. -/
def widthBytes : Nat → Nat
  | 0 | 1 => 1
  | 2 | 3 => 2
  | 4 => 4
  | 5 => 8
  | _ => 16

/-- R236: bytes of one lane's access, from the width field and the class of the data register. -/
def accessBytes (w : Opd) (dcls : Nat) : Nat :=
  match widthCode w with
  | some c => widthBytes c
  | none => if dcls == 1 then 4 else 8

/-- R236: which width codes each data class accepts. -/
def widthOk (store : Bool) (d w : Opd) : Bool :=
  match widthCode w with
  | none => true
  | some c =>
    d.cls != 4 && decide (c ≤ 6) && !(store && (c == 1 || c == 3)) && (c != 6 || d.cls == 1)
      && !(c == 5 && d.misnumbered 2) && !(c == 6 && d.misnumbered 4)

/-- R29: the indices of the table. -/
def sysIndices : List Nat :=
  [0x00, 0x01, 0x02, 0x03, 0x04, 0x05, 0x06, 0x07, 0x08, 0x10, 0x11, 0x12, 0x13, 0x14, 0x15, 0x16, 0x17, 0x18,
   0x40, 0x41, 0x42, 0x43, 0x44, 0x45, 0x46]

/-- R29: the registers read one value per lane. -/
def sysPerLane : List Nat := [0x10, 0x11, 0x16]

/-- R29: the registers of 64 bits. -/
def sysWide : List Nat := [0x01, 0x03, 0x04, 0x07, 0x08, 0x40, 0x41, 0x42, 0x43, 0x44, 0x45, 0x46]

/-- R29: the registers that a WRSYS may name at all (access codes RW, HW and SW). -/
def sysWritable : List Nat := [0x01, 0x02, 0x03, 0x04, 0x05]

/-- R123: source kind and destination kind of CVT's kind code. -/
def cvtSrc (o : Opds) : Nat := code o.c % 16
def cvtDst (o : Opds) : Nat := code o.c / 16

/-- R123: the encodings of CVT that are legal. DEDUCED (log 72): with class 9 in field A all of IMM is the operand's, so
IMM[31:16] may hold anything for a 16-bit source. -/
def cvtOk (f : FFmt) (r : Rnd) (o : Opds) : Bool :=
  let sk := cvtSrc o
  let dk := cvtDst o
  let used := (if sk == 7 then 7 else 0) + (if dk == 7 then 0x38 else 0)
  uniformSources o && decide (sk ≤ 7) && [0, 1, 2, 3, 4, 7].contains dk
    && !(dk != 0 && f != .f32) && !(dk == 7 && r != .rn)
    && !(decide (sk < 4) && decide (1 ≤ dk) && decide (dk ≤ 4))
    && !(o.a.cls == 9 && (sk == 7 || dk == 7)) && !(o.a.cls == 8 && decide (3 < sk))
    && (o.a.cls == 9 || (o.imm.toNat &&& used) == o.imm.toNat)
    && !((sk == 2 || sk == 3) && o.a.misnumbered 2) && !((dk == 3 || dk == 4) && o.d.misnumbered 2)

/-- ZRD, ZWR (R146): first column, plane and count. -/
def zCol (o : Opds) : Nat := code o.b % 128
def zPlane (o : Opds) : Nat := code o.b / 128
def zCount (o : Opds) : Nat := code o.c

/-- ZEPI's control word (R147). -/
def epiCol (o : Opds) : Nat := Bits.field o.imm 6 0
def epiCount (o : Opds) : Nat := Bits.field o.imm 11 7 + 1
def epiAct (o : Opds) : Nat := Bits.field o.imm 13 12
def epiOut (o : Opds) : Nat := Bits.field o.imm 15 14
def epiPlane (o : Opds) : Nat := Bits.field o.imm 16 16
def epiScale (o : Opds) : Bool := Bits.field o.imm 17 17 == 1
def epiSlot (o : Opds) : Nat := Bits.field o.imm 20 18

/-- ATOM's order code (R246). -/
def atomNr (o : Opds) : Bool := code o.c / 16 % 2 == 1
def atomOrder (o : Opds) : Nat := code o.c / 4 % 4
def atomScope (o : Opds) : Nat := code o.c % 4

/-- CP's completion code (R250). -/
def cpKind (o : Opds) : Nat := code o.c / 64
def cpNum (o : Opds) : Nat := code o.c % 16

/-- R249, R250: the completion codes of CP. -/
def cpOk (o : Opds) : Bool :=
  cpKind o != 3 && code o.c / 16 % 4 == 0 && (if cpKind o == 2 then o.d.cls == 0 else o.d.cls == 2)

/-- The conditions each description adds to its class table. -/
def extra : Instr → Bool
  | .mov ty o | .popc ty o | .clz ty o | .brev ty o => uniformSources o && evenIf ty.wide [o.d, o.a]
  | .iabs ty o | .ineg ty o => ty.signed && uniformSources o && evenIf ty.wide [o.d, o.a]
  | .movi ty form o =>
    match form with
    | .whole => evenIf ty.wide [o.d]
    | .lo | .hi => ty.wide && o.d.cls == 2 && o.a.cls == 9
  | .iadd ty o | .isub ty o | .imul ty o | .imulh ty o | .idiv ty o | .imin ty o | .imax ty o | .and ty o | .or ty o
  | .xor ty o => uniformSources o && evenIf ty.wide [o.d, o.a, o.b]
  | .lea ty _ o => uniformSources o && evenIf ty.wide [o.d, o.a, o.b]
  | .imad ty o => uniformSources o && evenIf ty.wide [o.d, o.a, o.b, o.c]
  | .shl ty o | .shr ty o | .sar ty o | .bfx ty o => uniformSources o && evenIf ty.wide [o.d, o.a]
  | .bfi ty o => uniformSources o && evenIf ty.wide [o.d, o.a, o.b]
  | .icmp ty o => decide (code o.c < 6) && evenIf ty.wide [o.a, o.b]
  | .sel ty o => uniformSources o && evenIf ty.wide [o.d, o.a, o.b]
  | .fadd _ _ o | .fsub _ _ o | .fmul _ _ o | .ffma _ _ o | .frnd _ _ o => uniformSources o
  | .fmin _ r o | .fmax _ r o => r == .rn && uniformSources o
  | .fcmp _ r o => r == .rn && decide (code o.c < 8)
  | .frcp f _ o | .fsqrt f _ o => f == .f32 && uniformSources o
  | .frsq f r o | .fexp2 f r o | .flog2 f r o | .fsin f r o | .fcos f r o | .ftanh f r o =>
    f == .f32 && r == .rn && uniformSources o
  | .hadd2 f _ o | .hmul2 f _ o | .hfma2 f _ o => f != .f32 && uniformSources o
  | .cvt f r o | .cvtBlock f r o => cvtOk f r o
  | .mmaH o | .mmaKb o => decide (o.a.val ≤ 224) && decide (code o.c < 2)
  | .mmaMom o | .mmaMomQn o => decide (o.a.val ≤ 32)
  | .thnd o => decide (code o.b < 16)
  | .zrd o => decide (1 ≤ zCount o) && decide (zCount o ≤ 32) && decide (zCol o + zCount o ≤ 128)
      && decide (o.d.val + zCount o ≤ 256)
  | .zwr o => decide (1 ≤ zCount o) && decide (zCount o ≤ 32) && decide (zCol o + zCount o ≤ 128)
      && decide (o.a.val + zCount o ≤ 256)
  | .zepi o => Bits.fieldZero o.imm 31 21 && epiAct o != 3 && epiOut o != 3
      && decide (epiCol o + epiCount o ≤ 128) && decide (o.d.val + epiCount o ≤ 256)
  | .zepiHeap o => Bits.fieldZero o.imm 31 21 && epiAct o == 0 && epiOut o == 0
      && decide (epiCol o + epiCount o ≤ 128) && decide (code o.d ≤ 31)
  | .hpinit o => decide (code o.a ≤ 1)
  | .hpread o => decide (o.d.val ≤ 253)
  | .wknext o | .wknextMerge o => decide (o.d.val ≤ 62)
  | .wkpart o => Bits.fieldZero o.imm 31 20 && Bits.fieldZero o.imm 15 12
      && (if Bits.field o.imm 16 16 == 1 then Bits.fieldZero o.imm 19 17 && decide (o.c.val ≤ 254)
          else decide (o.c.val ≤ 224))
  | .ld _ _ o => !o.a.misnumbered 2 && widthOk false o.d o.c && !(o.d.cls == 2 && o.a.cls == 1)
  | .st _ _ o => !o.a.misnumbered 2 && widthOk true o.d o.c
  | .gather _ o => decide (code o.b ≤ 5) && !(code o.b == 5 && o.d.misnumbered 2)
  | .scatter _ o => decide (code o.b ≤ 5) && code o.b != 1 && code o.b != 3 && !(code o.b == 5 && o.d.misnumbered 2)
  | .atom wide op o =>
    !(wide && op == .fadd) && !o.a.misnumbered 2 && decide (code o.c < 32) && !(atomNr o && o.d.cls != 0)
      && !(wide && o.d.misnumbered 2) && !((op == .cas || op == .fadd) && o.b.cls == 8)
      && (if op == .cas then !o.b.misnumbered (if wide then 4 else 2) && !(o.b.cls == 2 && o.b.val == 63)
          else !(wide && o.b.misnumbered 2))
  | .wait o => Bits.fieldZero o.imm 31 30
  | .cpLin o | .cpTile o | .cpGather o => cpOk o
  | .qpush o => decide (code o.d ≤ 15) && decide (1 ≤ code o.b) && decide (code o.b ≤ 32)
      && decide (o.a.val + code o.b ≤ 256)
  | .qpop o => decide (code o.a ≤ 15) && decide (1 ≤ code o.b) && decide (code o.b ≤ 32)
      && decide (o.d.val + code o.b ≤ 256)
  | .qallow o => decide (code o.d ≤ 15)
  | .pref o => decide (code o.d ≤ 1) && !o.a.misnumbered 2
  | .bmv o => decide (code o.c < 32)
  | .bstat o => decide (code o.a ≤ 1)
  | .brx _ o | .ret o => !o.a.misnumbered 2
  | .call _ o => !o.d.misnumbered 2
  | .bar o | .barx o => decide (code o.a ≤ 15)
  | .spawn o => decide (o.b.val ≤ 248)
  | .launch o => decide (o.a.val ≤ 62) && decide (o.b.val ≤ 62)
  | .rangeTake o => !o.d.misnumbered 2
  | .trap o => decide (code o.a ≤ 31)
  | .rdsys o => sysIndices.contains o.a.val && !(o.d.cls == 2 && sysPerLane.contains o.a.val)
      && !(sysWide.contains o.a.val && o.d.misnumbered 2)
  | .wrsys o => sysWritable.contains o.d.val
  | .cred _ o | .cbcast o | .cgather o => decide (o.b.val ≤ 62)
  | _ => true

/-- R61, R104, R234, R313, R359: whether the instruction accepts a guard in the form given. An instruction that
writes a k register accepts none. -/
def guardable (i : Instr) (o : Opds) (s : Sig) : Bool :=
  s.guard && (match i with
    | .st _ _ _ => !(o.d.cls == 2 && o.a.cls == 2)
    | _ => o.d.cls != 2)

/-! ### The registers an instruction reads and writes (R23, R66) -/

/-- A register: class code and number. -/
abbrev Reg := Nat × Nat

/-- `n` registers from the one a field names. -/
def regs (x : Opd) (n : Nat) : List Reg :=
  if 1 ≤ x.cls ∧ x.cls ≤ 7 then (List.range n).map fun j => (x.cls, x.val + j) else []

/-- One register, or a pair where a v field holds a 64-bit integer. -/
def intRegs (ty : IType) (x : Opd) : List Reg := regs x (if ty.wide && x.cls == 1 then 2 else 1)

/-- The v registers that one lane's access of `n` bytes fills. -/
def dataRegs (x : Opd) (n : Nat) : List Reg := regs x (if x.cls == 1 && 4 < n then n / 4 else 1)

/-- A base address: a v pair or a k register (R235). -/
def baseRegs (x : Opd) : List Reg := regs x (if x.cls == 1 then 2 else 1)

/-- The guard predicate, when it selects. -/
def guardRegs (o : Opds) : List Reg := if o.guard.pred.toNat == 0 then [] else [(3, o.guard.pred.toNat)]

/-- Registers written. -/
def writes : Instr → List Reg
  | .mov ty o | .movi ty _ o | .iadd ty o | .isub ty o | .imul ty o | .imulh ty o | .imad ty o | .idiv ty o
  | .imin ty o | .imax ty o | .iabs ty o | .ineg ty o | .and ty o | .or ty o | .xor ty o | .shl ty o | .shr ty o
  | .sar ty o | .bfx ty o | .bfi ty o | .popc ty o | .clz ty o | .brev ty o | .sel ty o | .lea ty _ o => intRegs ty o.d
  | .cvt _ _ o | .cvtBlock _ _ o => regs o.d (if (cvtDst o == 3 || cvtDst o == 4) && o.d.cls == 1 then 2 else 1)
  | .gsample o => regs o.d 1 ++ regs o.c 1
  | .zrd o => regs o.d (zCount o)
  | .zepi o => regs o.d (epiCount o)
  | .hpread o => regs o.d 3
  | .wkbegin o | .rangeInit o | .launch o | .hopen o => regs o.d 1 ++ regs o.c 1
  | .wknext o | .wknextMerge o => regs o.d 2 ++ regs o.c 1
  | .ld _ _ o => dataRegs o.d (accessBytes o.c o.d.cls)
  | .st _ _ _ | .scatter _ _ => []
  | .gather _ o => dataRegs o.d (widthBytes (code o.b))
  | .atom wide _ o => regs o.d (if wide then 2 else 1)
  | .cpLin _ | .cpTile _ | .cpGather _ | .bmv _ => []
  | .qpop o => regs o.d (code o.b)
  | .call _ o => regs o.d (if o.d.cls == 1 then 2 else 1)
  | .rangeTake o => regs o.d 2
  | .rdsys o => regs o.d (if sysWide.contains o.a.val && o.d.cls == 1 then 2 else 1)
  | .bra _ o | .brx _ o | .ret o => regs o.b 1
  | .regang o => regs o.a 1
  | i => match opds i with
    | some o => regs o.d 1
    | none => []

/-- Registers read. -/
def reads (i : Instr) : List Reg :=
  match opds i with
  | none => []
  | some o => guardRegs o ++ (match i with
    | .iadd ty o | .isub ty o | .imul ty o | .imulh ty o | .imad ty o | .idiv ty o | .imin ty o | .imax ty o
    | .iabs ty o | .ineg ty o | .and ty o | .or ty o | .xor ty o | .popc ty o | .clz ty o | .brev ty o | .icmp ty o
    | .mov ty o | .lea ty _ o => intRegs ty o.a ++ intRegs ty o.b ++ intRegs ty o.c
    | .sel ty o => intRegs ty o.a ++ intRegs ty o.b ++ regs o.c 1
    | .movi _ .whole _ => []
    | .movi _ _ o => regs o.d 1
    | .shl ty o | .shr ty o | .sar ty o | .bfx ty o => intRegs ty o.a ++ regs o.b 1
    | .bfi ty o => intRegs ty o.a ++ intRegs ty o.b ++ regs o.c 1
    | .cvt _ _ o | .cvtBlock _ _ o =>
      regs o.a (if (cvtSrc o == 2 || cvtSrc o == 3) && o.a.cls == 1 then 2 else 1) ++ regs o.b 1
    | .gsample o => regs o.a 1 ++ regs o.b 1
    | .mmaH o | .mmaKb o | .mmaMom o | .mmaMomQn o => regs o.a 32 ++ regs o.b 1 ++ regs o.d 1
    | .zwr o => regs o.a (zCount o)
    | .wkbegin o | .wknext o | .wknextMerge o | .rangeInit o | .hopen o => regs o.a 1 ++ regs o.b 1
    | .launch o => regs o.a 2 ++ regs o.b 2
    | .wkpart o => regs o.a 1 ++ regs o.b 1 ++ regs o.c (if Bits.field o.imm 16 16 == 1 then 2 else 32)
    | .ld _ _ o | .pref o => baseRegs o.a ++ regs o.b 1
    | .st _ _ o => dataRegs o.d (accessBytes o.c o.d.cls) ++ baseRegs o.a ++ regs o.b 1
    | .gather _ o => regs o.a 1 ++ regs o.c 1
    | .scatter _ o => dataRegs o.d (widthBytes (code o.b)) ++ regs o.a 1 ++ regs o.c 1
    | .atom wide op o =>
      let n := (if wide && o.b.cls == 1 then 2 else 1) * (if op == .cas then 2 else 1)
      baseRegs o.a ++ regs o.b n
    | .cpLin o | .cpGather o | .bmv o => regs o.d 1 ++ regs o.a 1 ++ regs o.b 1
    | .cpTile o => regs o.d 1 ++ regs o.a 1
    | .qpush o => regs o.a (code o.b)
    | .brx _ o | .ret o => baseRegs o.a ++ regs o.b 1
    | .spawn o => regs o.b 8
    | .zalloc _ => []
    | .exit _ => (List.range 8).map fun n => (7, n)
    | .cred _ o | .cbcast o | .cgather o => regs o.a 1 ++ regs o.b 2 ++ regs o.c 1
    | _ => regs o.a 1 ++ regs o.b 1 ++ regs o.c 1)

/-- Issue classes (R66): 0 X, 1 L, 2 M, 3 S, 4 C, by the major opcode; 5 for the majors to which R66 gives none. -/
def issueClass (op : Nat) : Nat :=
  if op < 0x40 then 0 else if op < 0x50 then 1 else if op < 0x60 then 0
  else if op < 0x78 then 2 else if op < 0x80 then 5 else if op < 0xB0 then 3 else if op < 0xE8 then 4 else 5

end Forms
end Sys2Proof
end

