-- ==== Sys2Proof/WellFormed.lean ====
section
/-! DEFINITION. The checks of strict decoding (R63) on an instruction: classes, immediates, guard and the
conditions of each description. -/

namespace Sys2Proof

/-- Whether the instruction has a word at all (a step of the hardware has none). -/
def Instr.isWord (i : Instr) : Bool := (Forms.opds i).isSome

/-- The check against R57 and the class tables. -/
def Instr.classesOk (i : Instr) : Bool :=
  match Forms.sig i, Forms.opds i with
  | some s, some o =>
    s.d.contains o.d.cls && s.a.contains o.a.cls && s.b.contains o.b.cls && s.c.contains o.c.cls
  | _, _ => false

/-- R59: at most one class-9 field; IMM is zero where nothing gives it a meaning. -/
def Instr.immOk (i : Instr) : Bool :=
  match Forms.sig i, Forms.opds i with
  | some s, some o =>
    let n := ([o.d, o.a, o.b, o.c].filter fun x => x.cls == 9).length
    decide (n ≤ 1) && (decide (n = 1) || s.imm || o.imm == 0#32)
  | _, _ => false

/-- R61: the guard is unguarded, or a legal form of an instruction that accepts one. -/
def Instr.guardOk (i : Instr) : Bool :=
  match Forms.sig i, Forms.opds i with
  | some s, some o =>
    if o.guard.pred == 0#3 then !o.guard.neg else Forms.guardable i o s
  | _, _ => false

/-- The conditions of the instruction's own description. -/
def Instr.extraOk (i : Instr) : Bool := Forms.extra i

/-- Every check of R63 that concerns the operands. -/
def Instr.wellFormed (i : Instr) : Bool := i.classesOk && i.immOk && i.guardOk && i.extraOk

end Sys2Proof
end

