-- ==== Sys2Proof/Decode.lean ====
section
/-! DEFINITION. The decoder, total on any 96 bits, and the encoder, both from the fields of R56, the class codes
of R57, the SUB forms of R62 and the opcode map R68. -/

namespace Sys2Proof

/-! ### Operand fields -/

/-- An operand field by class code and value; none for a reserved code or a value outside the range (R57). -/
def Opd.ofField (cls : BitVec 4) (x : BitVec 8) : Option Opd :=
  match cls.toNat with
  | 0 => if x = 0#8 then some .none else Option.none
  | 1 => some (.v x)
  | 2 => if x.toNat < 64 then some (.k (x.truncate 6)) else Option.none
  | 3 => if x.toNat < 8 then some (.p (x.truncate 3)) else Option.none
  | 4 => if x.toNat < 64 then some (.m (x.truncate 6)) else Option.none
  | 5 => if x.toNat < 16 then some (.z (x.truncate 4)) else Option.none
  | 6 => if x.toNat < 16 then some (.t (x.truncate 4)) else Option.none
  | 7 => if x.toNat < 8 then some (.j (x.truncate 3)) else Option.none
  | 8 => some (.i8 x)
  | 9 => if x = 0#8 then some .imm else Option.none
  | 10 => some (.sys x)
  | _ => Option.none

/-- The class code of an operand as its field holds it. -/
def Opd.code4 (o : Opd) : BitVec 4 := BitVec.ofNat 4 o.cls

/-- The value of an operand as its field holds it. -/
def Opd.byte : Opd → BitVec 8
  | .none | .imm => 0#8
  | .v n => n
  | .k n => n.zeroExtend 8
  | .p n => n.zeroExtend 8
  | .m n => n.zeroExtend 8
  | .z n => n.zeroExtend 8
  | .t n => n.zeroExtend 8
  | .j n => n.zeroExtend 8
  | .i8 x => x
  | .sys x => x

/-! ### The codes of SUB (R62, R68) -/

def IType.ofCode : Nat → IType
  | 0 => .s32 | 1 => .n32 | 2 => .s64 | _ => .n64
def IType.code : IType → Nat
  | .s32 => 0 | .n32 => 1 | .s64 => 2 | .n64 => 3

def FFmt.ofCode : Nat → Option FFmt
  | 0 => some .f32 | 1 => some .f16 | 2 => some .bf16 | _ => none
def FFmt.code : FFmt → Nat
  | .f32 => 0 | .f16 => 1 | .bf16 => 2

def Rnd.ofCode : Nat → Rnd
  | 0 => .rn | 1 => .rz | 2 => .rp | _ => .rm
def Rnd.code : Rnd → Nat
  | .rn => 0 | .rz => 1 | .rp => 2 | .rm => 3

def Scope.ofCode : Nat → Scope
  | 0 => .team | 1 => .cluster | 2 => .module | _ => .system
def Scope.code : Scope → Nat
  | .team => 0 | .cluster => 1 | .module => 2 | .system => 3

def Hint.ofCode : Nat → Hint
  | 0 => .none | 1 => .likely | 2 => .unlikely | _ => .uniform
def Hint.code : Hint → Nat
  | .none => 0 | .likely => 1 | .unlikely => 2 | .uniform => 3

def MoviForm.ofCode : Nat → Option MoviForm
  | 0 => some .whole | 1 => some .lo | 2 => some .hi | _ => none
def MoviForm.code : MoviForm → Nat
  | .whole => 0 | .lo => 1 | .hi => 2

def QDir.ofCode : Nat → Option QDir
  | 0 => some .horiz | 1 => some .vert | 2 => some .diag | _ => none
def QDir.code : QDir → Nat
  | .horiz => 0 | .vert => 1 | .diag => 2

def ShMode.ofCode : Nat → Option ShMode
  | 0 => some .idx | 1 => some .up | 2 => some .down | 3 => some .xor | _ => none
def ShMode.code : ShMode → Nat
  | .idx => 0 | .up => 1 | .down => 2 | .xor => 3

def XOp.ofCode : Nat → Option XOp
  | 0 => some .addS | 1 => some .addN | 2 => some .addF | 3 => some .minS | 4 => some .maxS | 5 => some .minN
  | 6 => some .maxN | 7 => some .minF | 8 => some .maxF | 9 => some .and | 10 => some .or | 11 => some .xor
  | _ => none
def XOp.code : XOp → Nat
  | .addS => 0 | .addN => 1 | .addF => 2 | .minS => 3 | .maxS => 4 | .minN => 5 | .maxN => 6 | .minF => 7
  | .maxF => 8 | .and => 9 | .or => 10 | .xor => 11

def VoteOp.ofCode : Nat → Option VoteOp
  | 0 => some .all | 1 => some .any | 2 => some .ballot | _ => none
def VoteOp.code : VoteOp → Nat
  | .all => 0 | .any => 1 | .ballot => 2

def MCol.ofCode : Nat → Option MCol
  | 0 => some .mean | 1 => some .var | 2 => some .sd | 3 => some .msd | 4 => some .sample | _ => none
def MCol.code : MCol → Nat
  | .mean => 0 | .var => 1 | .sd => 2 | .msd => 3 | .sample => 4

def AtomOp.ofCode : Nat → Option AtomOp
  | 0 => some .add | 1 => some .minS | 2 => some .maxS | 3 => some .minN | 4 => some .maxN | 5 => some .and
  | 6 => some .or | 7 => some .xor | 8 => some .exch | 9 => some .cas | 10 => some .fadd | _ => none
def AtomOp.code : AtomOp → Nat
  | .add => 0 | .minS => 1 | .maxS => 2 | .minN => 3 | .maxN => 4 | .and => 5 | .or => 6 | .xor => 7 | .exch => 8
  | .cas => 9 | .fadd => 10

def CredOp.ofCode : Nat → Option CredOp
  | 0 => some .addF | 1 => some .addS | 2 => some .maxF | 3 => some .minF | _ => none
def CredOp.code : CredOp → Nat
  | .addF => 0 | .addS => 1 | .maxF => 2 | .minF => 3

namespace Decode

/-- Form T with bits 11:10 zero. -/
def formT (sub : Nat) (f : IType → Opds → Instr) (o : Opds) : Option Instr :=
  if sub < 4 then some (f (.ofCode sub) o) else none

/-- Form F, and form H with the formats that the class check leaves. -/
def formF (sub : Nat) (f : FFmt → Rnd → Opds → Instr) (o : Opds) : Option Instr :=
  (FFmt.ofCode (sub / 4)).map fun x => f x (.ofCode (sub % 4)) o

/-- Form M: the ordering code 0 or 1. -/
def formM (sub : Nat) (f : Scope → Bool → Opds → Instr) (o : Opds) : Option Instr :=
  if sub % 4 < 2 then some (f (.ofCode (sub / 4)) (sub % 4 == 1) o) else none

/-- Form B. -/
def formB (sub : Nat) (f : Hint → Opds → Instr) (o : Opds) : Option Instr :=
  if sub < 4 then some (f (.ofCode sub) o) else none

/-- Form N, read by the row's own list of variants. -/
def formN {α : Type} (c : Option α) (f : α → Opds → Instr) (o : Opds) : Option Instr := c.map fun x => f x o

/-- Form 0. -/
def form0 (sub : Nat) (f : Opds → Instr) (o : Opds) : Option Instr := if sub = 0 then some (f o) else none

/-- The instruction that major `op` and `sub` name (R68); none for a reserved major or SUB. -/
def build (op sub : Nat) (o : Opds) : Option Instr :=
  match op with
  | 0x00 => formT sub .mov o
  | 0x01 => (MoviForm.ofCode (sub / 4)).map fun f => .movi (.ofCode (sub % 4)) f o
  | 0x02 => formT sub .iadd o
  | 0x03 => formT sub .isub o
  | 0x04 => formT sub .imul o
  | 0x05 => formT sub .imulh o
  | 0x06 => formT sub .imad o
  | 0x07 => formT sub .idiv o
  | 0x08 => formT sub .imin o
  | 0x09 => formT sub .imax o
  | 0x0A => formT sub .iabs o
  | 0x0B => formT sub .ineg o
  | 0x0C => formT sub .and o
  | 0x0D => formT sub .or o
  | 0x0E => formT sub .xor o
  | 0x0F => formT sub .shl o
  | 0x10 => formT sub .shr o
  | 0x11 => formT sub .sar o
  | 0x12 => formT sub .bfx o
  | 0x13 => formT sub .bfi o
  | 0x14 => formT sub .popc o
  | 0x15 => formT sub .clz o
  | 0x16 => formT sub .brev o
  | 0x17 => formT sub .icmp o
  | 0x18 => formT sub .sel o
  | 0x19 => some (.lea (.ofCode (sub % 4)) (BitVec.ofNat 2 (sub / 4)) o)
  | 0x20 => formF sub .fadd o
  | 0x21 => formF sub .fsub o
  | 0x22 => formF sub .fmul o
  | 0x23 => formF sub .ffma o
  | 0x24 => formF sub .fmin o
  | 0x25 => formF sub .fmax o
  | 0x26 => formF sub .fcmp o
  | 0x27 => formF sub .frcp o
  | 0x28 => formF sub .frsq o
  | 0x29 => formF sub .fsqrt o
  | 0x2A => formF sub .fexp2 o
  | 0x2B => formF sub .flog2 o
  | 0x2C => formF sub .fsin o
  | 0x2D => formF sub .fcos o
  | 0x2E => formF sub .ftanh o
  | 0x2F => formF sub .hadd2 o
  | 0x30 => formF sub .hmul2 o
  | 0x31 => formF sub .hfma2 o
  | 0x32 => formF sub .cvt o
  | 0x33 => formF sub .frnd o
  | 0x40 => formN (QDir.ofCode sub) .qswp o
  | 0x41 => if sub < 4 then some (.qbcst (BitVec.ofNat 2 sub) o) else none
  | 0x42 => formN (ShMode.ofCode sub) .xshfl o
  | 0x43 => formN (XOp.ofCode sub) .xscan o
  | 0x44 => formN (XOp.ofCode sub) .xred o
  | 0x45 => formN (VoteOp.ofCode sub) .vote o
  | 0x46 => form0 sub .elect o
  | 0x47 => form0 sub .gsample o
  | 0x50 => form0 sub .mset o
  | 0x51 => form0 sub .madd o
  | 0x52 => form0 sub .msub o
  | 0x53 => form0 sub .mmul o
  | 0x54 => form0 sub .mscl o
  | 0x55 => form0 sub .msqr o
  | 0x56 => form0 sub .mrcp o
  | 0x57 => form0 sub .mexp o
  | 0x58 => form0 sub .mrelu o
  | 0x59 => form0 sub .mlog o
  | 0x5A => formN (MCol.ofCode sub) .mcol o
  | 0x5B => form0 sub .mchk o
  | 0x60 => (match sub with
    | 0 => some (.mmaH o) | 1 => some (.mmaKb o) | 2 => some (.mmaMom o) | 3 => some (.mmaMomQn o) | _ => none)
  | 0x61 => form0 sub .thnd o
  | 0x62 => form0 sub .zclr o
  | 0x63 => form0 sub .zrd o
  | 0x64 => form0 sub .zwr o
  | 0x65 => (match sub with | 0 => some (.zepi o) | 1 => some (.zepiHeap o) | _ => none)
  | 0x66 => form0 sub .zalloc o
  | 0x67 => form0 sub .zfree o
  | 0x68 => form0 sub .mxfence o
  | 0x69 => form0 sub .hpinit o
  | 0x6A => form0 sub .hpread o
  | 0x70 => form0 sub .wkbegin o
  | 0x71 => (match sub with | 0 => some (.wknext o) | 1 => some (.wknextMerge o) | _ => none)
  | 0x72 => (match sub with | 0 => some (.wksubs false o) | 1 => some (.wksubs true o) | _ => none)
  | 0x73 => form0 sub .wkpart o
  | 0x74 => form0 sub .smxmerge o
  | 0x75 => form0 sub .wkdone o
  | 0x76 => form0 sub .wkend o
  | 0x77 => form0 sub .wkswap o
  | 0x80 => formM sub .ld o
  | 0x81 => formM sub .st o
  | 0x82 => if sub % 4 = 0 then some (.gather (.ofCode (sub / 4)) o) else none
  | 0x83 => if sub % 4 = 0 then some (.scatter (.ofCode (sub / 4)) o) else none
  | 0x84 => formN (AtomOp.ofCode sub) (.atom false) o
  | 0x85 => formN (AtomOp.ofCode sub) (.atom true) o
  | 0x86 => (match sub % 4 with
    | 1 => some (.fenceRel (.ofCode (sub / 4)) o)
    | 2 => some (.fenceAcq (.ofCode (sub / 4)) o)
    | 3 => some (.fenceAr (.ofCode (sub / 4)) o)
    | _ => none)
  | 0x87 => form0 sub .wait o
  | 0x88 => (match sub with | 0 => some (.cpLin o) | 1 => some (.cpTile o) | 2 => some (.cpGather o) | _ => none)
  | 0x89 => form0 sub .qpush o
  | 0x8A => form0 sub .qpop o
  | 0x8B => form0 sub .qallow o
  | 0x8C => form0 sub .pref o
  | 0xA0 => form0 sub .bmv o
  | 0xA1 => (match sub with
    | 1 => some (.bfenceW o) | 2 => some (.bfenceR o) | 3 => some (.bfenceWr o) | _ => none)
  | 0xA2 => form0 sub .bstat o
  | 0xA8 => form0 sub .hopen o
  | 0xA9 => form0 sub .henter o
  | 0xAA => form0 sub .hleave o
  | 0xAB => (match sub with
    | 0 => some (.hresolveCfm o) | 1 => some (.hresolveCfx o) | 2 => some (.hresolveRef o) | _ => none)
  | 0xAC => form0 sub .hstat o
  | 0xB0 => formB sub .bra o
  | 0xB1 => formB sub .brx o
  | 0xB2 => formB sub .call o
  | 0xB3 => form0 sub .ret o
  | 0xB4 => form0 sub .regang o
  | 0xB5 => form0 sub .exit o
  | 0xB6 => form0 sub .bar o
  | 0xB7 => form0 sub .barx o
  | 0xB8 => form0 sub .cbar o
  | 0xB9 => form0 sub .gbar o
  | 0xBA => form0 sub .spawn o
  | 0xBB => form0 sub .launch o
  | 0xBC => form0 sub .lqsignal o
  | 0xBD => (match sub with | 0 => some (.rangeInit o) | 1 => some (.rangeTake o) | _ => none)
  | 0xBE => form0 sub .yield o
  | 0xBF => form0 sub .life o
  | 0xC0 => form0 sub .rws o
  | 0xC1 => form0 sub .nop o
  | 0xC2 => form0 sub .trap o
  | 0xD0 => form0 sub .rdsys o
  | 0xD1 => form0 sub .wrsys o
  | 0xD2 => form0 sub .tret o
  | 0xD3 => (match sub with
    | 0 => some (.tlbinvPage o) | 1 => some (.tlbinvCtx o) | 2 => some (.tlbinvAll o) | _ => none)
  | 0xD4 => (match sub with | 0 => some (.cacheopL1inv o) | 1 => some (.cacheopIcinv o) | _ => none)
  | 0xD5 => form0 sub .ctxsave o
  | 0xD6 => form0 sub .ctxload o
  | 0xE0 => formN (CredOp.ofCode sub) .cred o
  | 0xE1 => form0 sub .cbcast o
  | 0xE2 => form0 sub .cgather o
  | 0xE3 => form0 sub .cwait o
  | _ => none

/-- The operand fields of a word (R56). -/
def opds (w : BitVec 96) : Option Opds := do
  let d ← Opd.ofField (w.extractLsb' 48 4) (w.extractLsb' 16 8)
  let a ← Opd.ofField (w.extractLsb' 52 4) (w.extractLsb' 24 8)
  let b ← Opd.ofField (w.extractLsb' 56 4) (w.extractLsb' 32 8)
  let c ← Opd.ofField (w.extractLsb' 60 4) (w.extractLsb' 40 8)
  return { guard := { neg := w.getLsbD 15, pred := w.extractLsb' 12 3 }, d := d, a := a, b := b, c := c,
           imm := w.extractLsb' 64 32 }

/-- The instruction a word names, before the checks of WellFormed. -/
def raw (w : BitVec 96) : Option Instr := do
  build (w.extractLsb' 0 8).toNat (w.extractLsb' 8 4).toNat (← opds w)

end Decode

/-- The instruction in a 96-bit word; none is an illegal encoding, cause 0x40 (R63). -/
def decode (w : BitVec 96) : Option Instr := do
  let i ← Decode.raw w
  if i.wellFormed then some i else none

/-! ### The encoder -/

namespace Encode

def fcode (f : FFmt) (r : Rnd) : Nat := 4 * f.code + r.code
def mcode (sc : Scope) (ord : Nat) : Nat := 4 * sc.code + ord

/-- Major opcode and SUB of an instruction (R68); none for a step of the hardware. -/
def opSub : Instr → Option (Nat × Nat)
  | .mov ty _ => some (0x00, ty.code)
  | .movi ty f _ => some (0x01, 4 * f.code + ty.code)
  | .iadd ty _ => some (0x02, ty.code)
  | .isub ty _ => some (0x03, ty.code)
  | .imul ty _ => some (0x04, ty.code)
  | .imulh ty _ => some (0x05, ty.code)
  | .imad ty _ => some (0x06, ty.code)
  | .idiv ty _ => some (0x07, ty.code)
  | .imin ty _ => some (0x08, ty.code)
  | .imax ty _ => some (0x09, ty.code)
  | .iabs ty _ => some (0x0A, ty.code)
  | .ineg ty _ => some (0x0B, ty.code)
  | .and ty _ => some (0x0C, ty.code)
  | .or ty _ => some (0x0D, ty.code)
  | .xor ty _ => some (0x0E, ty.code)
  | .shl ty _ => some (0x0F, ty.code)
  | .shr ty _ => some (0x10, ty.code)
  | .sar ty _ => some (0x11, ty.code)
  | .bfx ty _ => some (0x12, ty.code)
  | .bfi ty _ => some (0x13, ty.code)
  | .popc ty _ => some (0x14, ty.code)
  | .clz ty _ => some (0x15, ty.code)
  | .brev ty _ => some (0x16, ty.code)
  | .icmp ty _ => some (0x17, ty.code)
  | .sel ty _ => some (0x18, ty.code)
  | .lea ty sh _ => some (0x19, 4 * sh.toNat + ty.code)
  | .fadd f r _ => some (0x20, fcode f r)
  | .fsub f r _ => some (0x21, fcode f r)
  | .fmul f r _ => some (0x22, fcode f r)
  | .ffma f r _ => some (0x23, fcode f r)
  | .fmin f r _ => some (0x24, fcode f r)
  | .fmax f r _ => some (0x25, fcode f r)
  | .fcmp f r _ => some (0x26, fcode f r)
  | .frcp f r _ => some (0x27, fcode f r)
  | .frsq f r _ => some (0x28, fcode f r)
  | .fsqrt f r _ => some (0x29, fcode f r)
  | .fexp2 f r _ => some (0x2A, fcode f r)
  | .flog2 f r _ => some (0x2B, fcode f r)
  | .fsin f r _ => some (0x2C, fcode f r)
  | .fcos f r _ => some (0x2D, fcode f r)
  | .ftanh f r _ => some (0x2E, fcode f r)
  | .hadd2 f r _ => some (0x2F, fcode f r)
  | .hmul2 f r _ => some (0x30, fcode f r)
  | .hfma2 f r _ => some (0x31, fcode f r)
  | .cvt f r _ => some (0x32, fcode f r)
  | .cvtBlock f r _ => some (0x32, fcode f r)
  | .frnd f r _ => some (0x33, fcode f r)
  | .qswp d _ => some (0x40, d.code)
  | .qbcst l _ => some (0x41, l.toNat)
  | .xshfl m _ => some (0x42, m.code)
  | .xscan x _ => some (0x43, x.code)
  | .xred x _ => some (0x44, x.code)
  | .vote x _ => some (0x45, x.code)
  | .elect _ => some (0x46, 0)
  | .gsample _ => some (0x47, 0)
  | .mset _ => some (0x50, 0)
  | .madd _ => some (0x51, 0)
  | .msub _ => some (0x52, 0)
  | .mmul _ => some (0x53, 0)
  | .mscl _ => some (0x54, 0)
  | .msqr _ => some (0x55, 0)
  | .mrcp _ => some (0x56, 0)
  | .mexp _ => some (0x57, 0)
  | .mrelu _ => some (0x58, 0)
  | .mlog _ => some (0x59, 0)
  | .mcol k _ => some (0x5A, k.code)
  | .mchk _ => some (0x5B, 0)
  | .mmaH _ => some (0x60, 0)
  | .mmaKb _ => some (0x60, 1)
  | .mmaMom _ => some (0x60, 2)
  | .mmaMomQn _ => some (0x60, 3)
  | .thnd _ => some (0x61, 0)
  | .zclr _ => some (0x62, 0)
  | .zrd _ => some (0x63, 0)
  | .zwr _ => some (0x64, 0)
  | .zepi _ => some (0x65, 0)
  | .zepiHeap _ => some (0x65, 1)
  | .zalloc _ => some (0x66, 0)
  | .zfree _ => some (0x67, 0)
  | .mxfence _ => some (0x68, 0)
  | .hpinit _ => some (0x69, 0)
  | .hpread _ => some (0x6A, 0)
  | .wkbegin _ => some (0x70, 0)
  | .wknext _ => some (0x71, 0)
  | .wknextMerge _ => some (0x71, 1)
  | .wksubs q _ => some (0x72, if q then 1 else 0)
  | .wkpart _ => some (0x73, 0)
  | .smxmerge _ => some (0x74, 0)
  | .wkdone _ => some (0x75, 0)
  | .wkend _ => some (0x76, 0)
  | .wkswap _ => some (0x77, 0)
  | .ld sc acq _ => some (0x80, mcode sc (if acq then 1 else 0))
  | .st sc rel _ => some (0x81, mcode sc (if rel then 1 else 0))
  | .gather sc _ => some (0x82, mcode sc 0)
  | .scatter sc _ => some (0x83, mcode sc 0)
  | .atom wide x _ => some (if wide then 0x85 else 0x84, x.code)
  | .fenceRel sc _ => some (0x86, mcode sc 1)
  | .fenceAcq sc _ => some (0x86, mcode sc 2)
  | .fenceAr sc _ => some (0x86, mcode sc 3)
  | .wait _ => some (0x87, 0)
  | .cpLin _ => some (0x88, 0)
  | .cpTile _ => some (0x88, 1)
  | .cpGather _ => some (0x88, 2)
  | .qpush _ => some (0x89, 0)
  | .qpop _ => some (0x8A, 0)
  | .qallow _ => some (0x8B, 0)
  | .pref _ => some (0x8C, 0)
  | .bmv _ => some (0xA0, 0)
  | .bfenceW _ => some (0xA1, 1)
  | .bfenceR _ => some (0xA1, 2)
  | .bfenceWr _ => some (0xA1, 3)
  | .bstat _ => some (0xA2, 0)
  | .hopen _ => some (0xA8, 0)
  | .henter _ => some (0xA9, 0)
  | .hleave _ => some (0xAA, 0)
  | .hresolveCfm _ => some (0xAB, 0)
  | .hresolveCfx _ => some (0xAB, 1)
  | .hresolveRef _ => some (0xAB, 2)
  | .hstat _ => some (0xAC, 0)
  | .bra h _ => some (0xB0, h.code)
  | .brx h _ => some (0xB1, h.code)
  | .call h _ => some (0xB2, h.code)
  | .ret _ => some (0xB3, 0)
  | .regang _ => some (0xB4, 0)
  | .exit _ => some (0xB5, 0)
  | .bar _ => some (0xB6, 0)
  | .barx _ => some (0xB7, 0)
  | .cbar _ => some (0xB8, 0)
  | .gbar _ => some (0xB9, 0)
  | .spawn _ => some (0xBA, 0)
  | .launch _ => some (0xBB, 0)
  | .lqsignal _ => some (0xBC, 0)
  | .rangeInit _ => some (0xBD, 0)
  | .rangeTake _ => some (0xBD, 1)
  | .yield _ => some (0xBE, 0)
  | .life _ => some (0xBF, 0)
  | .rws _ => some (0xC0, 0)
  | .nop _ => some (0xC1, 0)
  | .trap _ => some (0xC2, 0)
  | .rdsys _ => some (0xD0, 0)
  | .wrsys _ => some (0xD1, 0)
  | .tret _ => some (0xD2, 0)
  | .tlbinvPage _ => some (0xD3, 0)
  | .tlbinvCtx _ => some (0xD3, 1)
  | .tlbinvAll _ => some (0xD3, 2)
  | .cacheopL1inv _ => some (0xD4, 0)
  | .cacheopIcinv _ => some (0xD4, 1)
  | .ctxsave _ => some (0xD5, 0)
  | .ctxload _ => some (0xD6, 0)
  | .cred x _ => some (0xE0, x.code)
  | .cbcast _ => some (0xE1, 0)
  | .cgather _ => some (0xE2, 0)
  | .cwait _ => some (0xE3, 0)
  | _ => none

/-- The word with the given fields (R56), most significant first. -/
def pack (op : BitVec 8) (sub : BitVec 4) (o : Opds) : BitVec 96 :=
  o.imm ++ o.c.code4 ++ o.b.code4 ++ o.a.code4 ++ o.d.code4 ++ o.c.byte ++ o.b.byte ++ o.a.byte ++ o.d.byte
    ++ BitVec.ofBool o.guard.neg ++ o.guard.pred ++ sub ++ op

end Encode

/-- The word of an instruction; none for a step of the hardware, which has no word. -/
def encode (i : Instr) : Option (BitVec 96) :=
  match Encode.opSub i, Forms.opds i with
  | some (op, sub), some o => some (Encode.pack (BitVec.ofNat 8 op) (BitVec.ofNat 4 sub) o)
  | _, _ => none

/-- The instruction a decoder gives for the word of `i`: a CVT from or to a block format has the word of any
other CVT, and its format slot tells them apart when it issues (R123, R125). -/
def Instr.canonical : Instr → Instr
  | .cvtBlock f r o => .cvt f r o
  | i => i

/-- The instruction at the low end of `w` (bits above `nbits` are zero). -/
def decodeTableWord (nbits w : Nat) : Option Instr := decode (BitVec.ofNat 96 (w % 2 ^ nbits))

/-! ### Fetch lines (R49 to R53) -/

namespace Line

/-- Slot `i` of a 512-bit line held as a number. -/
def slot (line : Nat) (i : Nat) : BitVec 96 := BitVec.ofNat 96 (line >>> (96 * i))

/-- The line word. -/
def word (line : Nat) : W32 := BitVec.ofNat 32 (line >>> 480)

/-- The exclusive OR of the thirty halfwords of the five slots (R52). -/
def parity (line : Nat) : Nat := (List.range 30).foldl (fun acc i => acc ^^^ ((line >>> (16 * i)) % 65536)) 0

/-- Whether the computed parity agrees with CPAR. -/
def parityOk (line : Nat) : Bool := parity line == Bits.field (word line) 31 16

/-- KIND is code and bits 15:12 are zero (R55). -/
def kindOk (line : Nat) : Bool := Bits.fieldZero (word line) 15 9

/-- Whether slot `i` is a legal target of a checked transfer. -/
def target (line i : Nat) : Bool := (word line).getLsbD i

/-- Whether slots `i` and `i + 1` form a pair. -/
def paired (line i : Nat) : Bool := decide (i < 4) && (word line).getLsbD (5 + i)

/-- The slot that a PC addresses (R49). -/
def slotOf (pc : W64) : Option Nat :=
  match pc.toNat % 64 with
  | 0 => some 0 | 12 => some 1 | 24 => some 2 | 36 => some 3 | 48 => some 4
  | _ => none

/-- The sequential next PC (R50). -/
def next (pc : W64) : W64 := if pc.toNat % 64 = 48 then pc + 16#64 else pc + 12#64

/-- A line holding `w` in slot 0 and NOP in the others, every slot a target, with its parity. -/
def ofWord (w : BitVec 96) : Nat :=
  let nop := 0xC1
  let body := w.toNat + nop <<< 96 + nop <<< 192 + nop <<< 288 + nop <<< 384
  body + (parity body * 65536 + 31) <<< 480

end Line

end Sys2Proof
end

