-- ==== Sys2Proof/Machine/Frag.lean ====
section
/-! DEFINITION. Fragments of a group: advance, branch, stitch markers, exit, barriers (R284 to R292, R319 to
R323). Everything here acts on a Group until the last section, which reaches the team. -/

namespace Sys2Proof.Machine

open Sys2Proof (SMap)

namespace Group

/-- Every quad of a list gets a new PC. -/
def movePc (g : Group) (qs : List Nat) (pc : W64) : Group :=
  qs.foldl (fun g q => g.setQuad q { g.quad q with pc := pc }) g

/-- A fragment advances to `pc`. -/
def advance (g : Group) (f : Nat) (pc : W64) : Group := g.movePc (g.fragQuads f) pc

/-- Quads become fragment `f`. -/
def regroup (g : Group) (qs : List Nat) (f : Nat) : Group :=
  qs.foldl (fun g q => g.setQuad q { g.quad q with frag := f }) g

/-- Quads leave their fragment `f` for a new one of the lowest free number, with the old records (R284, R306). -/
def detach (g : Group) (qs : List Nat) (f : Nat) : Group :=
  let n := g.freeFrag
  (g.regroup qs n).setFrag n (g.frag f)

/-- The union of granule masks. -/
def joinGranules (a b : Granules) : Granules := ⟨a.v ||| b.v, a.k ||| b.k, a.m ||| b.m, a.z ||| b.z⟩

/-- A merge takes the union of the masks and the largest count (R306). -/
def mergeRec (a b : FragRec) : FragRec :=
  { a with life := joinGranules a.life b.life, written := joinGranules a.written b.written,
           count := Nat.max a.count b.count, stopped := a.stopped || b.stopped,
           notBefore := Nat.max a.notBefore b.notBefore, skip := a.skip && b.skip,
           checkedFetch := false, trapWaits := false }

/-- Take lanes out of a join register's entries; an empty entry is dropped. -/
def dropLanes (j : JReg) (x : Mask) : JReg :=
  { j with entries := (j.entries.map fun e => { e with lanes := e.lanes &&& ~~~x }).filter fun e => e.lanes != 0#32 }

/-- The oldest entry of a join register that holds lanes of quad `q`. -/
def entryFor (j : JReg) (q : Nat) : Option JEntry := j.entries.find? fun e => Bits.quadLanes e.lanes q != 0#4

/-- Quad `q` takes up an entry: its PC and its lanes there. -/
def takeEntry (g : Group) (n q : Nat) (e : JEntry) : Group :=
  let l := Bits.quadLanes e.lanes q
  let j := g.rj n
  let es := j.entries.map fun x => if x == e then { x with lanes := x.lanes &&& ~~~ Bits.quadMask q l } else x
  (g.wj n { j with entries := es.filter fun x => x.lanes != 0#32 }).setQuad q
    { g.quad q with pc := e.pc, lanes := l, st := .ready, waitno := 0 }

/-- A branch of fragment `f` (R286, R287): `other` is the PC of the not-taken quads. The trap's TVAL, or the group. -/
def branch (g : Group) (f : Nat) (taken : Mask) (target other : W64) (jn : Option Nat) : Except Nat Group :=
  let act := g.active f
  let qs := g.fragQuads f
  let tk := taken &&& act
  let tq := qs.filter fun q => (Bits.quadLanes act q &&& ~~~ Bits.quadLanes tk q) == 0#4
  let nq := qs.filter fun q => !(tq.contains q)
  let d := nq.foldl (fun acc q => acc ||| Bits.quadMask q (Bits.quadLanes tk q)) 0#32
  if d == 0#32 && (tq.isEmpty || nq.isEmpty) then
    .ok (g.movePc qs (if nq.isEmpty then target else other))
  else match jn with
  | none => .error 0x200
  | some n =>
    let j := g.rj n
    if d != 0#32 && decide (3 ≤ j.entries.length) then .error (0x100 + n)
    else
      let j := if j.active then j else { j with expect := 0#32, arrive := 0#32, active := true }
      let j := { j with expect := j.expect ||| act }
      let j := if d == 0#32 then j else { j with entries := j.entries ++ [⟨target, d⟩] }
      let g := g.wj n j
      let g := nq.foldl (fun g q =>
        let x := g.quad q
        g.setQuad q { x with lanes := x.lanes &&& ~~~ Bits.quadLanes d q, pc := other }) g
      let g := g.movePc tq target
      if tq.isEmpty || nq.isEmpty then .ok g
      else if tq.length ≤ nq.length then .ok (g.detach tq f) else .ok (g.detach nq f)

/-- Quads parked at join register `n`, and the PCs at which they are. -/
def parkedAt (g : Group) (n : Nat) : List Nat :=
  (List.range 8).filter fun q => (g.quad q).st == .parkedGang && (g.quad q).waitno == n

/-- The fragment-forming part of a release (R290). -/
def freeParked (g : Group) (n : Nat) : Group :=
  let qs := g.parkedAt n
  let arr := (g.rj n).arrive
  let pcs := (qs.map fun q => (g.quad q).pc).eraseDups
  pcs.foldl (fun g x =>
    let mine := qs.filter fun q => (g.quad q).pc == x && (g.quad q).st == .parkedGang
    let frs := mine.map fun q => (g.quad q).frag
    let f := frs.foldl Nat.min 7
    let r := (frs.eraseDups.map g.frag).foldl mergeRec (g.frag f)
    let g := mine.foldl (fun g q =>
      g.setQuad q { g.quad q with st := .ready, waitno := 0, lanes := Bits.quadLanes arr q, frag := f,
                                  pc := Line.next x }) g
    g.setFrag f r) g

/-- release(jN) (R290). -/
def release (g : Group) (n : Nat) : Group := (g.freeParked n).wj n {}

/-- Whether every expected present lane has arrived and nothing is deferred. -/
def gathered (g : Group) (n : Nat) : Bool :=
  let j := g.rj n
  j.entries.isEmpty && (j.expect &&& g.present &&& ~~~ j.arrive) == 0#32

/-- REGANG naming jN at PC x (R289). DESIGN CHOICE (log 83): of fragments formed at once that of the lowest quad has the lowest free
number, and quads at rest under a pending request are freed like any other. -/
def regang (g : Group) (f n : Nat) (x : W64) : Group :=
  let j := g.rj n
  if !j.active then g.advance f (Line.next x)
  else
    let act := g.active f
    let qs := g.fragQuads f
    let old := g.frag f
    let g := g.wj n { j with expect := j.expect ||| act, arrive := j.arrive ||| act }
    -- a resumed quad is put aside under number 8 until its fragment has a number
    let g := qs.foldl (fun g q =>
      match entryFor (g.rj n) q with
      | some e => (g.takeEntry n q e).regroup [q] 8
      | none => g.setQuad q { g.quad q with st := .parkedGang, waitno := n, pc := x }) g
    let back := qs.filter fun q => (g.quad q).frag == 8
    let pcs := (back.map fun q => (g.quad q).pc).eraseDups
    let g := pcs.foldl (fun g pc =>
      let mine := back.filter fun q => (g.quad q).pc == pc && (g.quad q).frag == 8
      let k := g.freeFrag
      (g.regroup mine k).setFrag k old) g
    if g.gathered n then g.release n else g

/-- Whether any lane of the group can still run. -/
def anyLane (g : Group) : Bool :=
  (List.range 8).any fun q => (g.quad q).st != .absent && (g.quad q).st != .exited

/-- Handler mode lasts while a lane of HMASK remains (R355). -/
def dropHandler (g : Group) (x : Mask) : Group :=
  let h := g.hmask &&& ~~~x
  if g.hmode && h == 0#32 then
    { g with hmask := 0#32, hmode := false, frags := g.frags.map fun e => (e.1, { e.2 with trapWaits := false }) }
  else { g with hmask := h }

/-- The lanes of `x` in fragment `f` exit; the others continue at `pc` (R319, R288). DESIGN CHOICE (log 83): deferred entries that
resume at once take the free numbers in the order of their quads. -/
def exitLanes (g : Group) (f : Nat) (x : Mask) (pc : W64) : Group :=
  let x := x &&& g.active f
  let qs := g.fragQuads f
  -- a deferred entry is resumed unchecked (R54, R288), and a join register keeps its check bits (R371)
  let old := { g.frag f with checkedFetch := false }
  let g := { (List.range 8).foldl (fun g n =>
    let j := g.rj n
    g.wj n { j with expect := j.expect &&& ~~~x, arrive := j.arrive &&& ~~~x }) g with bad := g.bad }
  let g := qs.foldl (fun g q =>
    let y := g.quad q
    g.setQuad q { y with lanes := y.lanes &&& ~~~ Bits.quadLanes x q, pc := pc }) g
  let gone := qs.filter fun q => (g.quad q).lanes == 0#4
  let g := gone.foldl (fun g q => g.setQuad q { g.quad q with st := .exited, waitno := 0 }) g
  let g := gone.foldl (fun g q =>
    match (List.range 8).findSome? fun n => (entryFor (g.rj n) q).map fun e => (n, e) with
    | some (n, e) =>
      let k := g.freeFrag
      ((g.takeEntry n q e).regroup [q] k).setFrag k old
    | none => g) g
  let g := (List.range 8).foldl (fun g n =>
    if (g.rj n).active && (g.rj n).entries.isEmpty && !(g.parkedAt n).isEmpty && g.gathered n
    then g.release n else g) g
  let g := g.dropHandler x
  { g with exited := !g.anyLane }

/-- Live fragments: numbers in use. -/
def liveFrags (g : Group) : List Nat := g.fragsInUse

/-- Whether a fragment is parked at a stitch marker, or at a barrier. -/
def atGang (g : Group) (f : Nat) : Bool := (g.fragMembers f).any fun q => (g.quad q).st == .parkedGang
def atBar (g : Group) (f : Nat) : Option Nat :=
  ((g.fragMembers f).find? fun q => (g.quad q).st == .parkedBar).map fun q => (g.quad q).waitno

/-- R291: every live fragment is parked, one at a stitch marker, none stopped. -/
def stuck (g : Group) : Bool :=
  let fs := g.liveFrags
  fs.all (fun f => (g.atGang f || (g.atBar f).isSome) && !(g.frag f).stopped) && fs.any g.atGang

/-- What the core does with a stuck group (R291). -/
def unstick (g : Group) : Group :=
  match (List.range 8).find? fun n => !(g.parkedAt n).isEmpty with
  | none => g
  | some n =>
    if (g.rj n).entries.isEmpty then g.release n
    else
      let g := g.freeParked n
      let j := g.rj n
      g.wj n { j with expect := j.entries.foldl (fun acc e => acc ||| e.lanes) 0#32, arrive := 0#32 }

/-- The fragment parks at barrier `b`. -/
def parkBar (g : Group) (f b : Nat) (pc : W64) : Group :=
  (g.fragQuads f).foldl (fun g q => g.setQuad q { g.quad q with st := .parkedBar, waitno := b, pc := pc }) g

/-- Every quad parked at barrier `b` continues. -/
def unparkBar (g : Group) (b : Nat) : Group :=
  (List.range 8).foldl (fun g q =>
    let x := g.quad q
    if x.st == .parkedBar && x.waitno == b
    then g.setQuad q { x with st := .ready, waitno := 0, pc := Line.next x.pc } else g) g

/-- The barrier at which all the group's live fragments are parked. -/
def barrierOf (g : Group) : Option Nat :=
  match g.liveFrags with
  | [] => none
  | f :: r => (g.atBar f).bind fun b => if r.all fun x => g.atBar x == some b then some b else none

end Group

/-! ### Barriers of teams and launches (R321, R323) -/

/-- The number by which a group arrives: GROUPID at a team barrier, team and group at CBAR and GBAR. -/
def arrivalKey (t : Team) (g : Group) (b : Nat) : Nat := if b < 16 then g.gid else t.id * 32 + g.gid

/-- A barrier's state as group `u` meets it. -/
def State.barrierAt (s : State) (u b : Nat) : Barrier :=
  let t := s.teamOf u
  if b < 16 then SMap.get {} t.barriers b
  else if b = 16 then SMap.get {} (s.launchOf u).cbars t.set
  else (s.launchOf u).gbar

def State.setBarrierAt (s : State) (u b : Nat) (x : Barrier) : State :=
  let g := s.grpAt u
  let t := s.teamOf u
  if b < 16 then s.setTeamAt g.team { t with barriers := SMap.set {} t.barriers b x }
  else
    let l := s.launchAt t.launch
    if b = 16 then s.setLaunchAt t.launch { l with cbars := SMap.set {} l.cbars t.set x }
    else s.setLaunchAt t.launch { l with gbar := x }

/-- The groups that take part in barrier `b` with group `u`. -/
def State.partners (s : State) (u b : Nat) : List (Nat × Group) :=
  let g := s.grpAt u
  let t := s.teamOf u
  s.groups.filter fun e =>
    let te := s.teamAt e.2.team
    if b < 16 then e.2.team == g.team
    else te.launch == t.launch && (b == 17 || te.set == t.set)

/-- Words of an L1 that an acquire discards: neither owned nor under a line ownership (R215). -/
def State.discardL1 (s : State) (core : Nat) : State :=
  let c := s.coreAt core
  s.setCoreAt core { c with l1 := c.l1.filter fun e => e.2.owned }

/-- Whether every participant of a barrier is here or has exited: none is away in a save area, still to be placed, or lost with a
cluster (R323). -/
def State.wholeSet (s : State) (u b : Nat) : Bool :=
  let l := s.launchOf u
  b < 16 || if b = 16 then ((l.saved.map Prod.fst ++ l.missing).all fun n => n / Nat.max l.record.clteams 1 != (s.teamOf u).set)
    else l.saved.isEmpty && l.missing.isEmpty && decide (l.gx * l.gy * l.gz ≤ l.nextTeam)

/-- The phase of barrier `b` completes if its condition holds (R321); parked fragments continue. -/
def State.completeBarrier (s : State) (u b : Nat) : State :=
  let ps := s.partners u b
  let x := s.barrierAt u b
  let here := ps.all fun e => e.2.exited || x.arrived.contains (arrivalKey (s.teamAt e.2.team) e.2 b)
  let calm := ps.all fun e => !(s.teamAt e.2.team).preempt
  if here && calm && x.pend == 0 && !x.arrived.isEmpty && s.wholeSet u b then
    let s := s.setBarrierAt u b { arrived := [], pend := 0, phase := !x.phase }
    let s := ps.foldl (fun s e => s.modGrp e.1 fun g => g.unparkBar b) s
    if b < 16 || (b == 16 && s.fused u) then s
    else ps.foldl (fun s e => s.discardL1 (s.l1Of e.1)) s
  else s

/-- Every barrier that group `u` takes part in is judged again (R320, R321). -/
def State.judgeBarriers (s : State) (u : Nat) : State := (List.range 18).foldl (fun s b => s.completeBarrier u b) s

end Sys2Proof.Machine
end

