-- ==== Sys2Proof/Machine/Paging.lean ====
section
/-! DEFINITION. Addresses and translation: the local window (R203), page tables and their checks (R340 to R343),
the cluster TLBs (R344). -/

namespace Sys2Proof.Machine

open Sys2Proof (SMap)

/-- What an access wants (R343). -/
inductive Want where
  | load | store | atomic | fetch
deriving DecidableEq, Repr

namespace Leaf

def type (l : Leaf) : Nat := Bits.field l.w0 6 5
def user (l : Leaf) : Bool := l.w0.getLsbD 4
def canX (l : Leaf) : Bool := l.w0.getLsbD 3
def canW (l : Leaf) : Bool := l.w0.getLsbD 2
def canR (l : Leaf) : Bool := l.w0.getLsbD 1
def tensor (l : Leaf) : Nat := Bits.field l.w1 27 8
def mlock (l : Leaf) : Bool := l.w1.getLsbD 4
def hyp (l : Leaf) : Bool := l.w1.getLsbD 3
def shw (l : Leaf) : Bool := l.w1.getLsbD 2
def layout (l : Leaf) : Nat := Bits.field l.w1 1 0

/-- Frame address (TYPE 0b01) or the low 48 bits of a host address (TYPE 0b11). -/
def frame (l : Leaf) : Nat := Bits.field l.w0 47 16 * 65536

/-- Where an address in the page leads (R341). -/
def target (l : Leaf) (va : Nat) : Loc :=
  match l.type with
  | 2 => .peer (Bits.field l.w0 58 48) (Bits.field l.w0 47 40) va
  | 3 => .host (Bits.field l.w0 63 48 * 2 ^ 48 + l.frame + (va - l.base))
  | _ => .hbm (l.frame + (va - l.base))

/-- The permission check (R343): the cause, or none. -/
def deny (l : Leaf) (priv : Bool) (w : Want) : Option Nat :=
  let u := priv || l.user
  match w with
  | .load => if u && l.canR then none else some 0x21
  | .store => if u && l.canW then none else some 0x22
  | .fetch => if u && l.canX && l.type != 2 then none else some 0x23
  | .atomic => if !(u && l.canR) then some 0x21 else if l.canW then none else some 0x22

end Leaf

namespace Paging

/-- The low bit of the address bits that index a node of each level, and its number of entries (R340). -/
def shift : Nat → Nat
  | 0 => 16 | 1 => 21 | 2 => 30 | 3 => 39 | _ => 48
def entries : Nat → Nat
  | 0 => 32 | 4 => 256 | _ => 512

/-- R343: whether an entry at a level is malformed. -/
def malformed (lvl : Nat) (w0 w1 : W64) : Bool :=
  let ty := Bits.field w0 6 5
  let z (hi lo : Nat) := Bits.fieldZero w0 hi lo
  let z1 (hi lo : Nat) := Bits.fieldZero w1 hi lo
  !z 8 7
    || (ty == 0 && (lvl == 0 || !z 63 48 || !z 4 1 || w1 != 0#64
        || Bits.field w0 47 9 * 512 % (16 * entries (lvl - 1)) != 0))
    || (ty != 0 && (decide (2 < lvl) || !z1 63 48 || !z1 31 28 || !z1 7 6 || Bits.field w1 1 0 == 3
        || (Bits.field w1 1 0 == 2 && ty != 1) || (ty == 3 && Bits.field w1 1 0 != 0)
        || (Bits.field w1 1 0 == 0 && !z1 27 8)))
    || ((ty == 1 || ty == 3) && (!z 15 9 || Bits.field w0 47 16 * 65536 % 2 ^ shift lvl != 0))
    || (ty == 1 && !z 63 48)
    || (ty == 2 && (!z 63 59 || !z 39 9))

/-- A next-node entry that a walk read: level and base of what it covers, the node it names, and where it lies. -/
structure Node where
  level : Nat
  base : Nat
  node : Nat
  entry : Nat
deriving DecidableEq, Repr

/-- What a walk gives: a cause, or a leaf and the next-node entries it read. -/
inductive Walked where
  | fault (cause : Nat)
  | leaf (l : Leaf) (nodes : List Node)
deriving DecidableEq, Repr

/-- An entry word as a walk reads it at its home slice. A core that owns the line gives it up to the read (R219, log 67). -/
def entryWord (s : State) (p : Nat) : W64 :=
  match SMap.get? s.owners (lineOf p) with
  | some ow => BitVec.ofNat 64 (Bits.ofBytes ((List.range 8).map fun i => SMap.get (Memory.byte s.mem (p + i)) ow.bytes (p + i)))
  | none => BitVec.ofNat 64 (s.readMem p 8)

/-- Whether an entry word is uncorrectable for a walk: in the L1 of the core that owns its line, or at its home slice (R371). -/
def entryBad (s : State) (p : Nat) : Bool :=
  match SMap.get? s.owners (lineOf p) with
  | some ow => ow.bad.contains (p / 8)
  | none => s.unitBad (p / 8)

/-- Walk down the levels from a node (R340, R343). DEDUCED (log 67): an uncorrectable entry is reported to the access that is translated,
with cause 0x26 (R372). -/
def down (s : State) (va : Nat) : List Nat → Nat → List Node → Walked
  | [], _, _ => .fault 0x2A
  | lvl :: rest, node, seen =>
    let a := node + 16 * (va / 2 ^ shift lvl % entries lvl)
    let w0 := entryWord s a
    let w1 := entryWord s (a + 8)
    if entryBad s a || entryBad s (a + 8) then .fault 0x26
    else if !w0.getLsbD 0 then .fault 0x20
    else if malformed lvl w0 w1 then .fault 0x2A
    else if Bits.field w0 6 5 == 0 then
      let next := Bits.field w0 47 9 * 512
      down s va rest next (⟨lvl - 1, va / 2 ^ shift lvl * 2 ^ shift lvl, next, a⟩ :: seen)
    else .leaf ⟨va / 2 ^ shift lvl * 2 ^ shift lvl, 2 ^ shift lvl, w0, w1, a⟩ seen

/-- The leaf that a TLB holds for an address. -/
def held (c : Cluster) (ctx va : Nat) : Option Leaf :=
  (c.tlb.find? fun e => e.ctx == ctx && decide (e.base ≤ va) && decide (va < e.base + e.size)).map
    fun e => ⟨e.base, e.size, e.w0, e.w1, e.at'⟩

/-- The deepest next-node entry that a TLB holds for an address. -/
def heldNode (c : Cluster) (ctx va : Nat) : Option TlbNode :=
  [0, 1, 2, 3].findSome? fun lvl => c.nodes.find? fun n =>
    n.ctx == ctx && n.level == lvl && n.base == va / 2 ^ shift (lvl + 1) * 2 ^ shift (lvl + 1)

/-- Translate for a context through a cluster's TLB (R344); `va` has passed R202. -/
def walk (s : State) (cluster ctx va : Nat) : Walked :=
  let c := s.clusterAt cluster
  if !(s.descAt ctx).valid && ctx != 0 then .fault 0x20
  else match held c ctx va with
    | some l => .leaf l []
    | none =>
      match heldNode c ctx va with
      | some n => down s va ((List.range (n.level + 1)).reverse) n.node []
      | none => down s va [4, 3, 2, 1, 0] (s.descAt ctx).ptroot []

/-- Translate without a TLB, as an access from outside does (R349). -/
def walkBare (s : State) (ctx va : Nat) : Walked :=
  if !(s.descAt ctx).valid && ctx != 0 then .fault 0x20 else down s va [4, 3, 2, 1, 0] (s.descAt ctx).ptroot []

end Paging

/-- What an address turns out to be: a cause, or where it leads and the leaf that says so. -/
inductive Found where
  | fault (cause : Nat)
  | at' (loc : Loc) (leaf : Option Leaf)
deriving DecidableEq, Repr

namespace State

/-- The first address of the local window (R202). -/
def windowBase : Nat := 0x00FFFF0000000000

/-- R203: an offset into the local window, for a group. -/
def findLocal (s : State) (u off : Nat) : Found :=
  let own := (s.grpAt u).team
  if off < 0x200000 then
    let core := s.clusterOf u * 4 + off / 0x80000 % 4
    let o := off % 0x80000
    match (s.teamsOn core).find? fun t => t.2.launch == (s.teamOf u).launch && decide (o < t.2.localsz) with
    | some t => if (s.launchOf u).record.cluster then .at' (.loc t.1 o) none else .fault 0x20
    | none => .fault 0x20
  else if off < 0x280000 then
    if off - 0x200000 < (s.teamOf u).localsz then .at' (.loc own (off - 0x200000)) none else .fault 0x20
  else .fault 0x20

/-- R202, R203, translation and permission, in the order of R238, for an access by group `u`. -/
def find (s : State) (u : Nat) (priv : Bool) (w : Want) (va : Nat) : Found :=
  if 2 ^ 56 ≤ va then .fault 0x20
  else if windowBase ≤ va then
    if w == .fetch then .fault 0x23 else s.findLocal u (va - windowBase)
  else match Paging.walk s (s.clusterOf u) (s.ctxOf u) va with
    | .fault c => .fault c
    | .leaf l _ =>
      match l.deny priv w with
      | some c => .fault c
      | none => .at' (l.target va) (some l)

end State

end Sys2Proof.Machine
end

