-- ==== Sys2Proof/Machine/Ops.lean ====
section
/-! DEFINITION. The shared operations of every meaning: events (R352), taking a trap (R354 to R356) and returning
from one (R362), the release condition (R214), operations under way (R34), and the issue of one instruction with
the checks of R65 around its body. -/

namespace Sys2Proof.Machine

open Sys2Proof (SMap)

/-! ### Events (R352, R353) -/

/-- The 32 bytes of an event record. -/
def Event.bytes (e : Event) : List Byte :=
  Bits.bytesOf 1 e.kind ++ Bits.bytesOf 1 e.cause ++ Bits.bytesOf 2 e.ctx ++ Bits.bytesOf 4 e.team
    ++ Bits.bytesOf 8 e.value ++ Bits.bytesOf 8 e.pc ++ Bits.bytesOf 8 e.time

namespace State

/-- A store by the module itself, performed at its slice (R210). -/
def moduleStore (s : State) (p : Nat) (bs : List Byte) : State :=
  let t := Nat.max s.gtime (s.frontierOf (lineOf p))
  (s.writeMem p bs t).raiseFrontier (lineOf p) t

/-- The same for a part of an 8-byte unit: an uncorrectable unit stays so (R371). -/
def moduleUpdate (s : State) (p : Nat) (bs : List Byte) : State :=
  if s.unitBad (p / 8) then (s.moduleStore p bs).spoilUnit (p / 8) else s.moduleStore p bs

/-- The context in whose event area an event about `ctx` is posted (R352). -/
def eventOwner (s : State) (ctx : Nat) : Nat := if (s.descAt ctx).valid then ctx else 0

/-- Whether a core owns the line of a physical address. -/
def lineOwned (s : State) (p : Nat) : Bool := (SMap.get? s.owners (lineOf p)).isSome

/-- The lowest slot of an area whose bit in EVMASK is clear. -/
def eventSlot (s : State) (owner : Nat) : Option Nat :=
  let mask := s.readMem ((s.descAt owner).evbase + 0x800) 8
  (List.range 64).find? fun i => !mask.testBit i

/-- Whether a post has to wait: a core owns the line of EVMASK, or of the slot that would be written (R218), or the record would
not be complete at once, which the release that sets its bit waits for (R214, R352). -/
def eventWaits (s : State) (owner : Nat) : Bool :=
  let base := (s.descAt owner).evbase
  s.lineOwned (base + 0x800) || (s.eventSlot owner).any fun i =>
    s.lineOwned (base + 32 * i) || decide (s.gtime < s.frontierOf (lineOf (base + 32 * i)))

/-- Write an event in the lowest free slot of an area; none when every slot is full, or while the post waits. -/
def writeEvent (s : State) (owner : Nat) (e : Event) : Option State :=
  let base := (s.descAt owner).evbase
  match s.eventSlot owner with
  | none => none
  | some i =>
    if s.eventWaits owner then none
    else
      let mask := s.readMem (base + 0x800) 8
      let s := s.moduleStore (base + 32 * i) e.bytes
      some (s.moduleUpdate (base + 0x800) (Bits.bytesOf 8 (mask + 2 ^ i)))

/-- `n` events are lost: EVLOST counts them. -/
def loseEvents (s : State) (owner n : Nat) : State :=
  let base := (s.descAt owner).evbase
  s.moduleUpdate (base + 0x808) (Bits.bytesOf 8 (s.readMem (base + 0x808) 8 + n))

/-- An event goes to the area of `owner`: into a slot, or to be held on chip, 16 of them while every slot is full and as many
as come while the posts wait for a line; a further one is lost. Nothing is written before that descriptor has been read
valid. -/
def sendEvent (s : State) (owner : Nat) (e : Event) : State :=
  let held := SMap.get [] s.heldEvents owner
  if !(s.descAt owner).valid then s
  else
    match s.writeEvent owner e with
    | some s' => s'
    | none =>
      if held.length < 16 || s.eventWaits owner then { s with heldEvents := SMap.put s.heldEvents owner (held ++ [e]) }
      else if e.kind == 3 then s
      else s.loseEvents owner 1

/-- Post an event about `ctx` in the area of `owner`. -/
def postTo (s : State) (owner ctx : Nat) (e : Event) : State := s.sendEvent owner { e with ctx := ctx, time := s.gtime }

/-- Post an event about a context where R352 sends it. -/
def postEvent (s : State) (ctx : Nat) (e : Event) : State := s.postTo (s.eventOwner ctx) ctx e

/-! ### Operations under way -/

def cntCode : Cnt → Nat
  | .loads => 0 | .stores => 1 | .copies => 2 | .matrix => 3 | .bank => 4 | .walk => 5 | .none => 6

/-- Whether one more operation of a class may issue (R34). -/
def roomFor (s : State) (c : Cnt) : Bool := decide ((s.grp.counter c) < c.max)

/-- The issuing group starts an operation; its number is the state's next. -/
def startOp (s : State) (o : Op) : State :=
  let g := s.grp
  let n := SMap.get 0 g.seqs (cntCode o.cls)
  let o := { o with id := s.nextId, ord := n, hyp := g.orphan.getD g.hcur, time := s.gtime, dropped := g.orphan.isSome,
                    pc := s.cur.pc.toNat }
  { s.setGrp { g with ops := g.ops ++ [o], seqs := SMap.put g.seqs (cntCode o.cls) (n + 1) } with
    nextId := s.nextId + 1 }

end State

namespace Group

/-- The horizon rises (R213). -/
def raise (g : Group) (t : Nat) : Group := { g with horizon := Nat.max g.horizon t }

/-- Record a stamp read (R213). -/
def sawStamp (g : Group) : Stamp → Group
  | .known t => g.raise t
  | .pending o => if g.pending.contains o then g else { g with pending := o :: g.pending }

/-- A counter falls for the leading complete operations of each class (R34); an acquire that has not ended keeps
ordering what follows it. -/
def retireClass (g : Group) (c : Cnt) : Group :=
  let mine := (g.opsOf c).takeWhile fun o => o.done
  let ids := mine.map fun o => o.id
  let faults : List LateFault := mine.filterMap fun o => o.fault.map fun f => ⟨c, o.ord, o.id, f.1, f.2, o.pc⟩
  -- what BSTAT says of the BMV for which the counter fell last (R261)
  let last := if c == .bank then mine.getLast? else none
  { g with
    bmvLast := (last.map fun o => if o.fault.isSome then 2 else if o.recon then 1 else 0).getD g.bmvLast
    bmvRecon := (last.map Op.recon).getD g.bmvRecon
    ops := g.ops.filterMap fun o =>
      if ids.contains o.id then (if o.acq.isSome && !o.acquired then some { o with cls := .none, fault := none } else none)
      else some o
    faults := g.faults ++ faults }

/-- The same for every class, and ended ordering operations go. -/
def retire (g : Group) : Group :=
  let g := [Cnt.loads, .stores, .copies, .matrix, .bank, .walk].foldl retireClass g
  { g with ops := g.ops.filter fun o => !(o.cls == .none && o.done && (o.acq.isNone || o.acquired)) }

/-- The group's granules written (R306): every live fragment notes them. -/
def markWritten (g : Group) (x : Granules) : Group :=
  { g with frags := g.frags.map fun e => (e.1, { e.2 with written := joinGranules e.2.written x }) }

end Group

/-- The granules of a list of registers (R306). -/
def granulesOf (l : List Forms.Reg) : Granules :=
  l.foldl (fun x r =>
    match r.1 with
    | 1 => { x with v := x.v ||| (1#32 <<< (r.2 / 8)) }
    | 2 => { x with k := x.k ||| (1#8 <<< (r.2 / 8)) }
    | 4 => { x with m := x.m ||| (1#8 <<< (r.2 / 8)) }
    | 5 => { x with z := x.z ||| (1#16 <<< r.2) }
    | _ => x) {}

namespace State

/-! ### Tickets of collectives that are held (R406) -/

/-- The ticket word of a ticket number of a context. -/
def ticketWord (s : State) (ctx n : Nat) : W64 := BitVec.ofNat 64 (SMap.get 0 s.ticketSeq (ctx * 64 + n) % 65536 * 65536 + n)

/-- A ticket whose collective has not reached the engine goes, and kD is what it was. -/
def freeTicket (s : State) (e : Nat × Ticket) : State :=
  let word := s.ticketWord (e.1 / 64) (e.1 % 64)
  { s with tickets := SMap.erase s.tickets e.1 }.modGrp e.2.grp fun g => if g.rk e.2.kd == word then g.wk e.2.kd e.2.was else g

/-- A group's held collectives give their tickets back: such an instruction issues again from its start, or not at all (log 48). -/
def giveBack (s : State) (u : Nat) : State :=
  ((s.tickets.filter fun e => e.2.grp == u && !e.2.entered).foldl freeTicket s).modGrp u fun g =>
    { g with frags := g.frags.map fun f => (f.1, { f.2 with ticket := none }) }

/-! ### Releases (R214, R231, R233) -/


/-- Whether an access leads to local memory. -/
def isLocal : Loc → Bool
  | .loc _ _ => true
  | _ => false

/-- Whether every stamp of a list is known. -/
def allKnown (l : List Stamp) : Bool := l.all fun x => match x with | .known _ => true | _ => false

/-- The latest known stamp of a list. -/
def latest (l : List Stamp) : Nat :=
  l.foldl (fun acc x => match x with | .known t => Nat.max acc t | .pending _ => acc) 0

/-- Whether every stamp of an access is known, its own write's among them. -/
def stampsKnown (a : Access) : Bool := allKnown (a.stamps ++ a.wrote)

/-- The latest known stamp of an access. -/
def lastStamp (a : Access) : Nat := latest (a.stamps ++ a.wrote)

/-- Whether the group's own L1 shows a store: it is performed, or the L1 has taken its words (R210). -/
def inL1 (a : Access) : Bool := a.st != .waiting || a.l1At != 0

/-- R214's condition at a scope for everything group `u` did before operation `bound`. DESIGN CHOICE (log 78): a store to host memory
counts as a store under way until the host has acknowledged it, for every scope but `.team` and a fused `.cluster`; a store that MLOCK
keeps at the TLB, which the L1 does not show yet, holds up a release of any scope. -/
def releaseReady (s : State) (u : Nat) (sc : Scope) (bound : Nat) : Bool :=
  let g := s.grpAt u
  let before := g.ops.filter fun o => decide (o.id < bound)
  let read := before.all fun o =>
    !(o.cls == .loads) || o.lanes.all fun a => a.st != .waiting
  let locals := before.all fun o => o.lanes.all fun a => !(isLocal a.loc) || a.st != .waiting
  let shown := before.all fun o => o.cls != .stores || o.lanes.all fun a => inL1 a || (match a.loc with | .host _ => true | _ => false)
  let fences := before.all fun o => !(o.kind == .fence && o.rel.isSome && !o.released)
  let resolves := before.all fun o => match o.kind with | .resolve _ => false | _ => true
  let stores := before.all fun o => o.cls != .stores
  let module (extra : Nat) := stores && g.pending.isEmpty && decide (g.horizon + extra ≤ s.gtime)
    && before.all fun o => o.engine || o.lanes.all fun a => stampsKnown a && decide (lastStamp a + extra ≤ s.gtime)
  read && locals && shown && fences && resolves && (match sc with
    | .team => true
    | .cluster => s.fused u || module 0
    | .module => module 0
    | .system => module 16)

/-- A release at `.module` or `.system` scope, or `.cluster` without fused L1s, sends back the lines that the
core owns and the group has accessed (R219). -/
def handBack (s : State) (u : Nat) : State :=
  let core := s.l1Of u
  { s with owners := s.owners.map fun e =>
      if e.2.core == core && e.2.groups.contains u then (e.1, { e.2 with hand := true }) else e }

/-- Whether a release at this scope hands lines back. -/
def wideScope (s : State) (u : Nat) : Scope → Bool
  | .team => false
  | .cluster => !s.fused u
  | .module | .system => true

/-! ### Traps (R354 to R356) -/

/-- The issuing fragment's lanes end as by EXIT (R319). -/
def endLanes (s : State) (x : Mask) (pc : W64) : State :=
  let s := s.setGrp (s.grp.exitLanes s.cur.frag x pc)
  if s.grp.exited then s.judgeBarriers s.cur.grp else s

/-- Whether a trap of the issuing fragment would have to wait for handler mode to end (R355). -/
def mustWait (s : State) : Bool := s.grp.hmode && (s.active &&& s.grp.hmask) == 0#32

/-- Taking a trap: cause, TVAL and the PC to save. -/
def takeTrap (s : State) (cause tval : Nat) (pc : W64) : State :=
  let g := s.grp
  let f := s.cur.frag
  let act := s.active
  let e : Event := { kind := 1, cause := cause, team := s.team.id, value := tval, pc := pc.toNat }
  let ctx := s.ctx
  if s.mustWait then
    -- it waits until handler mode ends (R355)
    { s.setGrp (g.setFrag f { g.frag f with trapWaits := true }) with cur := { s.cur with status := .held } }
  else
    let s := { s with cur := { s.cur with status := .trapped } }
    if g.hmode then
      -- a double fault (R356)
      ((s.setGrp { g with cause := 0x46#32 }).endLanes act pc).postEvent ctx { e with kind := 2 }
    else
      let g := { g with cause := BitVec.ofNat 32 cause, tpc := pc, tval := BitVec.ofNat 64 tval }
      let tv := s.trapvec ctx
      if tv == 0#64 then ((s.setGrp g).endLanes act pc).postEvent ctx e
      else
        let g := { g with hmode := true, hmask := act }
        s.setGrp ((g.advance f tv).setFrag f { g.frag f with checkedFetch := true })

/-- Returning from a trap (R362): the active lanes go to TPC, unchecked, and leave HMASK. -/
def returnTrap (s : State) : State :=
  let act := s.active
  let g := s.grp.advance s.cur.frag s.grp.tpc
  s.setGrp (g.dropHandler act)

/-! ### Registers and rows of an MMA that no WAIT has shown complete (R144) -/

/-- Rows of a window take unpredictable values, in both planes. -/
def scramble (s : State) (team n : Nat) (rows : Mask) : State :=
  let t := s.teamAt team
  match SMap.get? t.windows n with
  | none => s
  | some x =>
    let keys := (Bits.members rows).flatMap fun i => (List.range 128).map fun c => i * 128 + c
    let put (base : Nat) (m : SMap W32) := keys.foldl (fun m k => SMap.set 0#32 m k (Config.free32 s.choice (base + k))) m
    let x := { x with mean := put 0 x.mean, var := if x.mom then put 4096 x.var else x.var }
    { s.setTeamAt team { t with windows := SMap.put t.windows n x } with choice := s.choice + 1 }

/-- Rows that become unpredictable: when the MMA completes, or now if it has. -/
def spoilRows (s : State) (u : Nat) (e : Exposed) (rows : Mask) : State :=
  match (s.grpAt u).op? e.op with
  | some o => if o.done then s.scramble (s.grpAt u).team e.window rows
              else s.modGrp u fun g => g.setOp e.op fun o => { o with spoiled := o.spoiled ||| rows }
  | none => s.scramble (s.grpAt u).team e.window rows

/-- Registers of group `u` have been written: rows of the MMAs that read them become unpredictable. -/
def wroteRegs (s : State) (u : Nat) (w : List Forms.Reg) : State :=
  ((s.grpAt u).exposed.filter fun e =>
    w.any fun r => r.1 == e.cls && decide (e.areg ≤ r.2) && decide (r.2 < e.areg + 32)).foldl
    (fun s e => s.spoilRows u e e.lanes) s

/-- Rows of a window that some MMA of the team still exposes. -/
def exposedRows (s : State) (team n : Nat) : Mask :=
  (s.groupsOf team).foldl (fun m g =>
    (g.2.exposed.filter fun e => e.window == n).foldl (fun m e => m ||| e.lanes) m) (SMap.get 0#32 (s.teamAt team).exposed n)

/-- Rows of a window have been written by ZWR or ZCLR. -/
def wroteRows (s : State) (team n : Nat) (rows : Mask) : State :=
  let left := SMap.get 0#32 (s.teamAt team).exposed n &&& rows
  let s := if left == 0#32 then s else s.scramble team n left
  (s.groupsOf team).foldl (fun s g =>
    (g.2.exposed.filter fun e => e.window == n && (e.lanes &&& rows) != 0#32).foldl
      (fun s e => s.spoilRows g.1 e (e.lanes &&& rows)) s) s

/-! ### Rest for pre-emption (R307, R159) -/

/-- Whether a group rests: every live fragment is stopped or parked, or it waits for its redirection or for the end of
its restore. -/
def rested (s : State) (u : Nat) : Bool :=
  let g := s.grpAt u
  g.orphan.isSome || g.restoring || g.fragsInUse.all fun f => (g.frag f).stopped || g.atGang f || (g.atBar f).isSome

/-- When a group comes to rest for pre-emption, its waiting MMAs fall due now (R159), once; and as long as it rests, the lines that
it accessed under an ownership go back, those among them that its atomics are granted during the drain (R219). -/
def pullForward (s : State) (u : Nat) : State :=
  if !s.rested u then s.modGrp u fun g => { g with drawn := false }
  else if (s.grpAt u).drawn then s.handBack u
  else
    (s.handBack u).modGrp u fun g => { g with drawn := true, ops := g.ops.map fun (o : Op) =>
      match o.kind with
      | .mma p => { o with kind := .mma { p with deadline := s.gtime } }
      | _ => o }

/-! ### The issue of one instruction -/

end State

/-- How the body of an instruction ends. -/
inductive Res where
  /-- it has issued; the fragment goes to the sequential next PC -/
  | done (s : State)
  /-- it has issued and set the PCs itself -/
  | moved (s : State)
  /-- it does not issue (R293); `true` when it waits as a release at a wide scope, which hands lines back -/
  | hold (release : Bool)
  /-- the same, with a change that stands (R401, R406) -/
  | holdWith (release : Bool) (f : State → State)
  /-- a trap with TPC the instruction's PC -/
  | trap (cause tval : Nat)
  /-- a trap that leaves a change behind (R240) -/
  | trapWith (f : State → State) (cause tval : Nat)
  /-- a trap whose TVAL the spec does not state -/
  | trapFree (cause : Nat)
  /-- a trap with a TPC of its own (R334) -/
  | trapAt (pc : W64) (cause tval : Nat)

namespace Issue

/-- R69, R29: whether the mode of the fragment allows the instruction. -/
def privOk (i : Instr) (s : State) : Bool :=
  match i with
  | .tret _ => s.isKernel || s.inHandler
  | .tlbinvPage _ | .tlbinvCtx _ | .tlbinvAll _ | .ctxsave _ | .ctxload _ => s.isKernel
  | .wrsys o =>
    if o.d.val == 0x01 then s.isKernel
    else if [0x02, 0x03, 0x04].contains o.d.val then s.isKernel || s.inHandler else true
  | _ => true

/-- Every register an instruction names, reads or writes (R23). -/
def touched (i : Instr) : List Forms.Reg :=
  Forms.writes i ++ Forms.reads i ++ (match Forms.opds i with
    | some o => Forms.regs o.d 1 ++ Forms.regs o.a 1 ++ Forms.regs o.b 1 ++ Forms.regs o.c 1
    | none => [])

/-- Whether a register is allocated, or a window bound (R23). -/
def allocated (s : State) (r : Forms.Reg) : Bool :=
  match r.1 with
  | 1 => decide (r.2 < s.grp.nv)
  | 2 => decide (r.2 < s.grp.nk)
  | 4 => decide (r.2 < s.grp.nm)
  | 5 => (SMap.get? s.team.windows r.2).isSome
  | _ => true

/-- R23: every register named is allocated; ZALLOC and ZFREE may name an unbound window (R149). -/
def allocOk (i : Instr) (s : State) : Bool :=
  match i with
  | .zalloc _ | .zfree _ => (touched i).all fun r => r.1 == 5 || allocated s r
  | _ => (touched i).all (allocated s)

/-- The guard of an instruction word. -/
def guardOf (i : Instr) : Guard := match Forms.opds i with | some o => o.guard | none => default

/-- The lane of a source register that each executing lane reads: its own, but for the quad exchanges (R126). -/
def laneRead : Instr → Nat → Nat
  | .qswp .horiz _, i => i ^^^ 1
  | .qswp .vert _, i => i ^^^ 2
  | .qswp .diag _, i => i ^^^ 3
  | .qbcst lane _, i => i / 4 * 4 + lane.toNat
  | _, i => i

/-- Whether an instruction reads a unit of a window: an MMA its rows, ZRD and ZEPI the elements they name. -/
def readsUnit (i : Instr) (exec : Mask) (x : Nat) : Bool :=
  let meets (plane c k : Nat) : Bool :=
    Team.unitPlane x == plane && decide (c < Team.unitCol x + 2) && decide (Team.unitCol x < c + k)
  match i with
  | .zrd o => Bits.has exec (Team.unitRow x) && meets (Forms.zPlane o) (Forms.zCol o) (Forms.zCount o)
  | .zepi o => Bits.has exec (Team.unitRow x) && meets (Forms.epiPlane o) (Forms.epiCol o) (Forms.epiCount o)
  | .zepiHeap o => Team.unitRow x == Forms.code o.d && meets (Forms.epiPlane o) (Forms.epiCol o) (Forms.epiCount o)
  | _ => Bits.has exec (Team.unitRow x)

/-- The registers an instruction reads at this issue: the explicit covariance only under COV = 0b11 (R162). -/
def sources (i : Instr) (s : State) : List Forms.Reg :=
  match i with
  | .madd o | .msub o | .mmul o =>
    if Bits.field s.grp.mcr 1 0 == 3 then Forms.reads i
    else Forms.guardRegs o ++ Forms.regs o.a 1 ++ Forms.regs o.b 1
  | i => Forms.reads i

/-- Whether a CVT's source is a block slot (R125). -/
def fromBlock (o : Opds) (s : State) : Bool :=
  Forms.cvtSrc o == 7 && (SMap.get? s.launch.record.slots (Bits.field o.imm 2 0)).any fun x => x.fmt == 4

/-- Instructions that read nothing of a helper lane: what it would store (R239, R254) or contribute (R127) is left out. -/
def sparesHelpers : Instr → Bool
  | .st _ _ _ | .scatter _ _ | .qpush _ | .wkpart _ | .xscan _ _ | .xred _ _ | .gsample _ => true
  | _ => false

/-- The lanes of its register sources that an instruction reads: those of exec_mask (R126), all present ones that SPAWN copies
(R325), and those that hold a source block, its exponent's the last (R125). -/
def lanesRead (i : Instr) (s : State) : List Nat :=
  let m := s.exec (guardOf i)
  match i with
  | .spawn _ => if m == 0#32 then [] else Bits.members s.grp.present
  | .cvt _ _ o | .cvtBlock _ _ o =>
    if m != 0#32 && fromBlock o s then
      let mant := ((SMap.get? s.launch.record.slots (Bits.field o.imm 2 0)).map fun x => x.mant).getD 0
      (Bits.members (s.grp.heldLanes s.cur.frag)).filter (· ≤ mant)
    else Bits.members m
  | i =>
    if sparesHelpers i then Bits.members (m &&& ~~~ s.grp.helpers)
    else ((Bits.members m).map (laneRead i)).filter (Bits.has s.grp.present)

/-- The first uncorrectable register or window that the instruction reads (R372, R373), as its TVAL. -/
def spoiledReg (i : Instr) (s : State) : Option Nat :=
  if s.grp.bad.isEmpty && s.team.bad.isEmpty then none
  else
    let m := s.exec (guardOf i)
    ((sources i s).find? fun r =>
      match r.1 with
      | 1 | 4 => (lanesRead i s).any fun l => s.grp.bad.contains (r.1, laneKey r.2 l)
      | 5 => s.team.bad.any fun x => x.1 == 5 && Team.unitWindow x.2 == r.2 && readsUnit i m x.2
      | c => s.grp.bad.contains (c, r.2)).map fun r => 0xFF * 2 ^ 56 + r.1 * 256 + r.2

/-- The checks of R65 that come before an instruction's own: cause and TVAL. -/
def precheck (i : Instr) (s : State) : Option (Nat × Nat) :=
  if !i.wellFormed then some (0x40, 0)
  else if !privOk i s then some (0xC0, 0)
  else if !allocOk i s then some (0x47, 0)
  else (spoiledReg i s).map fun v => (0x26, v)

/-- The selected fragment issues, which counts `n` towards the lifeline bound (R294, R306). -/
def tally (n : Nat) (s : State) : State :=
  let g := s.grp
  let r := g.frag s.cur.frag
  s.setGrp { g.setFrag s.cur.frag { r with count := if n = 0 then r.count else Nat.min 65535 (r.count + n), skip := false, trapWaits := false, asked := [] } with
    lastIssue := s.gtime, lastFrag := s.cur.frag }

/-- What an instruction that issues counts: one, but for an RWS that has its effect (R332). -/
def counts : Instr → Nat
  | .rws _ => 0
  | _ => 1

/-- The lifeline of the fragment begins anew with a LIFE (R306). -/
def relive (i : Instr) (s : State) : State :=
  match i with
  | .life _ => s.setGrp (s.grp.setFrag s.cur.frag { s.grp.frag s.cur.frag with count := 0 })
  | _ => s

/-- What every issue does beside its own effect: the issue count and the granules written (R306). -/
def account (i : Instr) (s : State) : State :=
  let s := relive i (tally (counts i) s)
  let w := (Forms.writes i).filter fun x => s.exec (guardOf i) != 0#32 || x.1 == 2
  if w.isEmpty then s else (s.setGrp (s.grp.markWritten (granulesOf w))).wroteRegs s.cur.grp w

/-- A trap of the instruction that issues, which counts (R63, R66, R306); one whose trap has to wait has not issued (R355). -/
def trap (s : State) (cause tval : Nat) (pc : W64) : State := (if s.mustWait then s else tally 1 s).takeTrap cause tval pc

/-- The state after an issue that ended as `r`; `s` is the state before it. -/
def conclude (s : State) : Res → State
  | .done t =>
    { t.setGrp (t.grp.advance s.cur.frag (Line.next s.cur.pc)) with cur := { s.cur with status := .issued } }
  | .moved t => { t with cur := { s.cur with status := .issued } }
  | .hold rel =>
    let t := if rel then s.handBack s.cur.grp else s
    { t with cur := { s.cur with status := .held } }
  | .holdWith rel f =>
    let t := if rel then (f s).handBack s.cur.grp else f s
    { t with cur := { s.cur with ask := (f s).cur.ask, status := .held } }
  | .trap c v => trap s c v s.cur.pc
  | .trapWith f c v => trap (f s) c v s.cur.pc
  | .trapFree c => trap { s with choice := s.choice + 1 } c (Config.free64 s.choice 0).toNat s.cur.pc
  | .trapAt pc c v => trap s c v pc

end Issue

/-- The issue of instruction `i` by the selected fragment: the checks of R65, then its body. -/
def issue (i : Instr) (s : State) (body : State → Res) : Host.Outcome State Fault Refusal :=
  if s.cur.on then
    .next (Issue.conclude s (match Issue.precheck i s with
      | some (c, v) => .trap c v
      | none => body (Issue.account i s)))
  else .fault .noIssuer

/-- A step of the hardware: its effect, or nothing where its condition does not hold. -/
def happen (s : State) (t : Option State) : Host.Outcome State Fault Refusal := .next (t.getD s)

end Sys2Proof.Machine
end

