-- ==== Sys2Proof/Machine/Operands.lean ====
section
/-! DEFINITION. Operands of the register instructions: how each class is read at each type (R58, R59, R105,
R106), and how a result fills its destination (R105 to R107). -/

namespace Sys2Proof.Machine.Operands

open Sys2Proof (Opd Opds IType FFmt)

/-- A class-8 value at a 32-bit type (R58). -/
def imm8 (signed : Bool) (x : BitVec 8) : W32 := if signed then x.signExtend 32 else x.zeroExtend 32

/-- A 32-bit operand in a lane (R105). -/
def get32 (signed : Bool) (o : Opds) (g : Group) (x : Opd) (lane : Nat) : W32 :=
  match x with
  | .v n => g.rv n.toNat lane
  | .k n => Bits.lo (g.rk n.toNat)
  | .i8 b => imm8 signed b
  | .imm => o.imm
  | _ => 0#32

/-- A 64-bit operand in a lane (R58, R59, R106). -/
def get64 (signed : Bool) (o : Opds) (g : Group) (x : Opd) (lane : Nat) : W64 :=
  match x with
  | .v n => g.rv2 n.toNat lane
  | .k n => g.rk n.toNat
  | .i8 b => if signed then b.signExtend 64 else b.zeroExtend 64
  | .imm => if signed then Bits.sext64 o.imm else Bits.zext64 o.imm
  | _ => 0#64

/-- An operand of an integer type; a 32-bit one stands in bits 31:0. -/
def getInt (ty : IType) (o : Opds) (g : Group) (x : Opd) (lane : Nat) : W64 :=
  if ty.wide then get64 ty.signed o g x lane else Bits.zext64 (get32 ty.signed o g x lane)

/-- A scalar floating operand: all 32 bits, or bits 15:0 (R59, R120). -/
def getF (f : FFmt) (o : Opds) (g : Group) (x : Opd) (lane : Nat) : Nat :=
  let w := (get32 false o g x lane).toNat
  match f with | .f32 => w | _ => w % 65536

/-- How a result of an integer type fills a destination (R105, R106). -/
def putInt (ty : IType) (d : Opd) (lane : Nat) (x : W64) (g : Group) : Group :=
  match d with
  | .v n => if ty.wide then g.wv2 n.toNat lane x else g.wv n.toNat lane (Bits.lo x)
  | .k n =>
    g.wk n.toNat (if ty.wide then x else if ty.signed then Bits.sext64 (Bits.lo x) else Bits.zext64 (Bits.lo x))
  | _ => g

/-- How a 32-bit, packed or 16-bit result fills a destination: zeros above it (R105). -/
def put32 (d : Opd) (lane : Nat) (x : W32) (g : Group) : Group := putInt .n32 d lane (Bits.zext64 x) g

/-- Write `val lane` in every lane of a mask, each value taken before any write (R107). -/
def lanesTo (m : Mask) (put : Nat → W64 → Group → Group) (val : Nat → W64) (g : Group) : Group :=
  (Bits.members m).foldl (fun g' i => put i (val i) g') g

/-- The result of a register instruction: a k destination once, any other in the lanes of exec_mask (R104, R107). -/
def write (s : State) (o : Opds) (put : Nat → W64 → Group → Group) (val : Group → Nat → W64) : State :=
  let g := s.grp
  s.setGrp (if o.d.cls == 2 then put 0 (val g s.refLane) g else lanesTo (s.exec o.guard) put (val g) g)

/-- An integer operation at a width, on patterns. -/
abbrev Op1 := (w : Nat) → Bool → BitVec w → BitVec w
abbrev Op2 := (w : Nat) → Bool → BitVec w → BitVec w → BitVec w
abbrev Op3 := (w : Nat) → Bool → BitVec w → BitVec w → BitVec w → BitVec w

def at1 (ty : IType) (f : Op1) (a : W64) : W64 :=
  if ty.wide then f 64 ty.signed a else Bits.zext64 (f 32 ty.signed (Bits.lo a))
def at2 (ty : IType) (f : Op2) (a b : W64) : W64 :=
  if ty.wide then f 64 ty.signed a b else Bits.zext64 (f 32 ty.signed (Bits.lo a) (Bits.lo b))
def at3 (ty : IType) (f : Op3) (a b c : W64) : W64 :=
  if ty.wide then f 64 ty.signed a b c else Bits.zext64 (f 32 ty.signed (Bits.lo a) (Bits.lo b) (Bits.lo c))

/-- Instructions of one, two and three integer operands. -/
def int1 (ty : IType) (f : Op1) (o : Opds) (s : State) : Res :=
  .done (write s o (putInt ty o.d) fun g i => at1 ty f (getInt ty o g o.a i))
def int2 (ty : IType) (f : Op2) (o : Opds) (s : State) : Res :=
  .done (write s o (putInt ty o.d) fun g i => at2 ty f (getInt ty o g o.a i) (getInt ty o g o.b i))
def int3 (ty : IType) (f : Op3) (o : Opds) (s : State) : Res :=
  .done (write s o (putInt ty o.d) fun g i =>
    at3 ty f (getInt ty o g o.a i) (getInt ty o g o.b i) (getInt ty o g o.c i))

/-- Instructions whose field B is a 32-bit count or control whatever the type (R106). -/
def intCtl (ty : IType) (f : (w : Nat) → Bool → BitVec w → W32 → BitVec w) (o : Opds) (s : State) : Res :=
  .done (write s o (putInt ty o.d) fun g i =>
    let n := get32 ty.signed o g o.b i
    at1 ty (fun w sg a => f w sg a n) (getInt ty o g o.a i))

/-- Floating instructions of one, two and three operands; the result is a bit pattern of the format. -/
def flt1 (f : FFmt) (h : Nat → Nat) (o : Opds) (s : State) : Res :=
  .done (write s o (fun i x => put32 o.d i (Bits.lo x)) fun g i => BitVec.ofNat 64 (h (getF f o g o.a i)))
def flt2 (f : FFmt) (h : Nat → Nat → Nat) (o : Opds) (s : State) : Res :=
  .done (write s o (fun i x => put32 o.d i (Bits.lo x)) fun g i =>
    BitVec.ofNat 64 (h (getF f o g o.a i) (getF f o g o.b i)))
def flt3 (f : FFmt) (h : Nat → Nat → Nat → Nat) (o : Opds) (s : State) : Res :=
  .done (write s o (fun i x => put32 o.d i (Bits.lo x)) fun g i =>
    BitVec.ofNat 64 (h (getF f o g o.a i) (getF f o g o.b i) (getF f o g o.c i)))

/-- Packed instructions: both 16-bit elements (R121). -/
def packed (h : Nat → Nat → Nat → Nat) (o : Opds) (s : State) : Res :=
  .done (write s o (fun i x => put32 o.d i (Bits.lo x)) fun g i =>
    let a := (get32 false o g o.a i).toNat
    let b := (get32 false o g o.b i).toNat
    let c := (get32 false o g o.c i).toNat
    BitVec.ofNat 64 (h (a % 65536) (b % 65536) (c % 65536) + 65536 * h (a / 65536) (b / 65536) (c / 65536)))

/-- The lanes of exec_mask that contribute to a group-wide result (R127). -/
def contributors (s : State) (o : Opds) : Mask := s.exec o.guard &&& ~~~ s.grp.helpers

end Sys2Proof.Machine.Operands
end

