-- ==== Sys2Proof/Machine/Convert.lean ====
section
/-! DEFINITION. CVT (R123 to R125): between floating formats, integers, and format slots, the block formats
included. -/

namespace Sys2Proof.Machine

open Operands Sys2Proof.Float

/-- A format slot of the launch, when it is in use (R39). -/
def State.slot? (s : State) (n : Nat) : Option Slot :=
  (SMap.get? s.launch.record.slots n).bind fun sl => if sl.fmt = 0 then none else some sl

namespace Cvt

/-- The slots a CVT names: source and destination. -/
def srcSlot (o : Opds) : Option Nat := if Forms.cvtSrc o = 7 then some (Bits.field o.imm 2 0) else none
def dstSlot (o : Opds) : Option Nat := if Forms.cvtDst o = 7 then some (Bits.field o.imm 5 3) else none

/-- The integer types by kind code. -/
def intKind : Nat → IType
  | 0 => .s32 | 1 => .n32 | 2 => .s64 | _ => .n64

/-- A source value of a kind that is no slot. -/
def plain (o : Opds) (g : Group) (lane : Nat) : FV :=
  match Forms.cvtSrc o with
  | 4 => toFV .f32 (getF .f32 o g o.a lane)
  | 5 => toFV .f16 (getF .f16 o g o.a lane)
  | 6 => toFV .bf16 (getF .bf16 o g o.a lane)
  | k =>
    let ty := intKind k
    let x := getInt ty o g o.a lane
    .fin (Ex.ofInt (if ty.wide then (if ty.signed then x.toInt else x.toNat)
                    else if ty.signed then (Bits.lo x).toInt else (Bits.lo x).toNat))

/-- The words of a source block as the fragment holds them; a lane outside it reads as 0 (R125). DEDUCED (log 71): the lanes
that the fragment holds are the present lanes of its quads, whether or not they are active (R126). -/
def words (o : Opds) (g : Group) (held : Mask) (j : Nat) : Nat :=
  if Bits.has held j then (get32 false o g o.a j).toNat else 0

/-- The value a lane converts. -/
def value (o : Opds) (sl : Option Slot) (g : Group) (held : Mask) (lane : Nat) : FV :=
  match sl with
  | none => plain o g lane
  | some sl =>
    if sl.fmt = 4 then
      Block.outOf sl (Block.raw sl.mant (words o g held sl.mant % 256)
        (Block.mantissa sl.mant (Block.element sl.mant (words o g held) lane)))
    else Block.outOf sl (toFV (Block.fmtOf sl.fmt) (getF (Block.fmtOf sl.fmt) o g o.a lane))

/-- The stochastic index base of field B. -/
def base (o : Opds) (g : Group) : Nat := match o.b with | .k n => (g.rk n.toNat).toNat | _ => 0

/-- The result bits of a lane for a destination that is no block. -/
def result (f : FFmt) (r : Rnd) (o : Opds) (dl : Option Slot) (idx : Nat) (v : FV) : Nat :=
  match Forms.cvtDst o with
  | 0 => roundFV f r v
  | 1 => toIntType r true 32 v
  | 2 => toIntType r false 32 v
  | 3 => toIntType r true 64 v
  | 4 => toIntType r false 64 v
  | _ => match dl with
    | some sl => Block.intoSlot sl idx v
    | none => 0

/-- The type by which the result fills its destination. -/
def fillType (o : Opds) : IType :=
  match Forms.cvtDst o with | 1 => .s32 | 3 => .s64 | 4 => .n64 | _ => .n32

/-- The words that each lane receives of a block destination (R125). -/
def blockWord (sl : Slot) (q : Nat × (Nat → Int)) (lane : Nat) : Nat :=
  if lane < sl.mant then Block.plane q.2 lane else if lane = sl.mant then q.1 else 0

/-- CVT in all its forms. -/
def body (f : FFmt) (r : Rnd) (o : Opds) (s : State) : Res :=
  let unused (n : Option Nat) : Bool := match n with | some k => (s.slot? k).isNone | none => false
  if unused (srcSlot o) || unused (dstSlot o) then .trap 0x0A 0
  else
    let sl := (srcSlot o).bind s.slot?
    let dl := (dstSlot o).bind s.slot?
    let block (x : Option Slot) : Bool := match x with | some y => y.fmt == 4 | none => false
    if (block sl || block dl) && o.d.cls != 1 then .trap 0x40 0
    else
      let held := s.grp.heldLanes s.cur.frag
      let ex := s.exec o.guard
      if block dl then
        .done (write s o (putInt .n32 o.d) fun g i =>
          let x (e : Nat) : FV := if Bits.has ex e && !Bits.has g.helpers e then value o sl g held e else .fin Ex.zero
          match dl with
          | some d => BitVec.ofNat 64 (blockWord d (Block.quantise d x fun e => base o g + e) i)
          | none => 0#64)
      else
        .done (write s o (putInt (fillType o) o.d) fun g i =>
          BitVec.ofNat 64 (result f r o dl (base o g + i) (value o sl g held i)))

end Cvt

def execCvt (f : FFmt) (r : Rnd) (o : Opds) (s : State) : Host.Outcome State Fault Refusal :=
  issue (.cvt f r o) s (Cvt.body f r o)

/-- The form whose source or destination slot holds a block format (R125); it has CVT's word. -/
def execCvtBlock (f : FFmt) (r : Rnd) (o : Opds) (s : State) : Host.Outcome State Fault Refusal :=
  issue (.cvtBlock f r o) s (Cvt.body f r o)

/-- A decoded CVT that names a block slot is the row CVT_BLOCK. -/
def specialise (s : State) (i : Instr) : Instr :=
  match i with
  | .cvt f r o =>
    let block (n : Option Nat) : Bool := match n.bind s.slot? with | some sl => sl.fmt == 4 | none => false
    if block (Cvt.srcSlot o) || block (Cvt.dstSlot o) then .cvtBlock f r o else i
  | i => i

end Sys2Proof.Machine
end

