-- ==== Sys2Proof/Machine/MemSys.lean ====
section
/-! DEFINITION. The memory system: views under hypotheses (R265), L1 copies and owned words (R209, R210),
ownership (R218, R219), and how one lane's access is performed, stamped and delivered (R205 to R213, R241). -/

namespace Sys2Proof.Machine

open Sys2Proof (SMap)

namespace State

/-! ### Hypotheses as views (R262, R265) -/

/-- Slot and generation of an identifier (R32). -/
def hypSlot (h : BitVec 16) : Nat := Bits.field h 9 0
def hypGen (h : BitVec 16) : Nat := Bits.field h 15 10

def hslot (s : State) (ctx n : Nat) : HSlot := SMap.get {} (s.treeAt ctx).slots n

/-- Whether an identifier is live (R263). -/
def live (s : State) (ctx : Nat) (h : BitVec 16) : Bool :=
  h == 0#16 || (hypSlot h != 0 && (s.hslot ctx (hypSlot h)).used && (s.hslot ctx (hypSlot h)).gen == hypGen h
    && !(s.hslot ctx (hypSlot h)).stale)

/-- An identifier, what is being confirmed between it and its parent, and its ancestors, without the root. -/
def lineage (s : State) (ctx : Nat) : Nat → BitVec 16 → List (BitVec 16)
  | 0, _ => []
  | n + 1, h =>
    if h == 0#16 then []
    else
      let x := s.hslot ctx (hypSlot h)
      h :: x.via ++ s.lineage ctx n x.parent

/-- The key of a version. -/
def verKey (ctx : Nat) (h : BitVec 16) (w : Nat) : Nat := (ctx * 1024 + hypSlot h) * 2 ^ 46 + w

/-- nearest_version: the version of a word under a hypothesis (R265). -/
def version (s : State) (ctx : Nat) (h : BitVec 16) (w : Nat) : Option Version :=
  (s.lineage ctx 16 h).findSome? fun x => SMap.get? s.versions (verKey ctx x w)

/-- The hypothesis whose version of a word is seen, or the root. -/
def holder (s : State) (ctx : Nat) (h : BitVec 16) (w : Nat) : BitVec 16 :=
  ((s.lineage ctx 16 h).find? fun x => (SMap.get? s.versions (verKey ctx x w)).isSome).getD 0#16

/-- A word of HBM as a hypothesis sees it at its home slice, with its stamp. -/
def viewWord (s : State) (ctx : Nat) (h : BitVec 16) (w : Nat) : W32 × Nat :=
  match s.version ctx h w with
  | some v => (v.val, v.stamp)
  | none => (BitVec.ofNat 32 (s.readMem (4 * w) 4), s.stampOf w)

/-- Whether a resolve has carried the value that is seen of a word whose holder is `x` (R271). -/
def carried (r : Resolve) (ctx : Nat) (x : BitVec 16) (w : Nat) : Bool :=
  r.moved.any fun k => k % 2 ^ 46 == w && (if x == 0#16 then k / 2 ^ 46 % 1024 == 0 else k == verKey ctx x w)

/-- The stamp that a load of a word returns: pending while the resolve that carried the value is not complete (R271). -/
def viewStamp (s : State) (ctx : Nat) (h : BitVec 16) (w : Nat) : Stamp :=
  match s.resolves.find? fun r => carried r.2 ctx (s.holder ctx h w) w with
  | some r => .pending (stampId r.2.op 0)
  | none => .known (s.viewWord ctx h w).2

/-- Whether the unit of a version is uncorrectable: in its slice, or where it lies in the arena (R370, R371). -/
def verBad (s : State) (v : Version) : Bool := v.bad || (v.spilled && s.unitBad (v.at' / 8))

/-- A version that a slice has spilled comes back when an access needs it (R268). -/
def bringBack (s : State) (ctx : Nat) (ws : List Nat) : State :=
  let due (e : Nat × Version) : Bool := e.2.spilled && e.1 / 2 ^ 46 / 1024 == ctx && ws.contains (e.1 % 2 ^ 46)
  let lines := ((s.versions.filter due).map fun e => lineOf e.2.at').eraseDups
  if lines.isEmpty then s
  else { lines.foldl Up.bringIn s with
    versions := s.versions.map fun e => (e.1, if due e then { e.2 with spilled := false, bad := s.verBad e.2 } else e.2) }

/-- The hypothesis under which a group's accesses run: its own, or its nearest live ancestor (R273). -/
def viewOf (s : State) (u : Nat) : BitVec 16 := (s.grpAt u).orphan.getD (s.grpAt u).hcur

/-- `n` bytes at a physical address as a hypothesis sees them, as a number. -/
def viewBytes (s : State) (ctx : Nat) (h : BitVec 16) (p n : Nat) : Nat :=
  Bits.ofBytes ((List.range n).map fun i =>
    Bits.byteAt (s.viewWord ctx h ((p + i) / 4)).1.toNat ((p + i) % 4))

/-! ### L1 copies -/

/-- The tag under which an L1 holds a line (R206, R344): the tensor of a tile line, wherever it is mapped, else context and
virtual line. -/
structure Tag where
  ctx : Nat
  va : Nat
  tile : Option Nat
deriving DecidableEq, Repr

end State

/-- Whether a word, or an owned line, is held under a tag. -/
def State.Tag.fits (t : State.Tag) (ctx line : Nat) (tile : Option Nat) : Bool :=
  tile == t.tile && (tile.isSome || (ctx == t.ctx && line == t.va / 128))

def L1Word.has (x : L1Word) (t : State.Tag) : Bool := t.fits x.ctx (x.va / 32) x.tile
def Own.has (x : Own) (t : State.Tag) : Bool := t.fits x.ctx (x.va / 128) x.tile

/-- Whether a word's store has not reached its home slice. -/
def L1Word.flying (x : L1Word) : Bool := x.owned && x.expiry == 0 && (match x.stamp with | .pending _ => true | .known _ => false)

/-- Whether a word may serve hits at a time: its store is on its way, or its lease still runs (R209, R210). -/
def L1Word.fresh (x : L1Word) (now : Nat) : Bool := x.flying || decide (now < x.expiry)

namespace State

def l1Key (w : Nat) (h : BitVec 16) : Nat := w * 65536 + h.toNat

/-- The word, and the line, of an L1 key. -/
def keyLine (k : Nat) : Nat := k / 65536 / 32

/-- A word in an L1 that can serve a hit: its bytes valid, its lease running, its tag the access's own (R209, R344); an
uncorrectable copy that is not owned is fetched again (R370). -/
def l1Word (s : State) (core : Nat) (t : Tag) (w : Nat) (h : BitVec 16) (need : BitVec 4) : Option L1Word :=
  (SMap.get? (s.coreAt core).l1 (l1Key w h)).bind fun x =>
    if x.fresh s.gtime && (x.valid &&& need) == need && x.has t && (x.owned || !x.bad) then some x else none

/-- Which bytes of word `w` the access of `n` bytes at `p` needs. -/
def needOf (p n w : Nat) : BitVec 4 :=
  BitVec.ofNat 4 (((List.range 4).filter fun i => decide (p ≤ 4 * w + i) && decide (4 * w + i < p + n)).foldl
    (fun acc i => acc + 2 ^ i) 0)

/-- The line's ownership, if it is owned. -/
def ownerOf (s : State) (line : Nat) : Option Own := SMap.get? s.owners line

/-- An access as the words of an L1 serve it: it holds each of them, and all come from one store or one fill, so that no part of
another access is seen (R205). -/
def l1Words (s : State) (core : Nat) (t : Tag) (p n : Nat) (h : BitVec 16) : Option (List (Nat × L1Word)) :=
  let ws := (wordsOf p n).filterMap fun w => (s.l1Word core t w h (needOf p n w)).map fun x => (w, x)
  if ws.length == (wordsOf p n).length && ws.all fun x => x.2.at' == (ws.headD default).2.at' then some ws else none

/-- The value and the stamps that some words give an access. -/
def wordsVal (p n : Nat) (ws : List (Nat × L1Word)) : Nat × List Stamp :=
  (Bits.ofBytes ((List.range n).map fun i => match ws.find? fun x => x.1 == (p + i) / 4 with
    | some x => Bits.byteAt x.2.val.toNat ((p + i) % 4)
    | none => 0#8), ws.map fun x => x.2.stamp)

/-- The same as a line that the core owns gives it. -/
def ownRead (s : State) (ow : Own) (p n : Nat) : Nat × List Stamp :=
  (Bits.ofBytes ((List.range n).map fun i => SMap.get (Memory.byte s.mem (p + i)) ow.bytes (p + i)),
    (wordsOf p n).map fun w => match SMap.get? ow.words w with
      | some o => .pending o
      | none => .known (s.stampOf w))

/-- Whether an L1 holds a store to some words that has not reached its home, as the committed view sees them. -/
def l1Ahead (s : State) (core p n : Nat) : Bool :=
  (wordsOf p n).any fun w => (SMap.get? (s.coreAt core).l1 (l1Key w 0#16)).any L1Word.flying

/-- Whether the unit of a word is uncorrectable as a hypothesis sees it at the home slice (R370, R371). -/
def wordBad (s : State) (ctx : Nat) (h : BitVec 16) (w : Nat) : Bool :=
  match s.version ctx h w with
  | some v => s.verBad v
  | none => s.unitBad (w / 2)

/-- Whether `n` bytes of an owned line meet a unit that is uncorrectable in the L1 (R370, R371). -/
def ownBad (s : State) (p n : Nat) : Bool :=
  (s.ownerOf (lineOf p)).any fun ow => ow.bad.any fun u => decide (8 * u < p + n) && decide (p < 8 * u + 8)

/-- Put a store's bytes into the L1 as owned words with a pending stamp (R210). A word serves the bytes that this store wrote
and no others; a unit written whole has fresh check bits, any other stays as it was (R371). Copies of the words that are not
owned go under every other view too, since the store may be what that view is to see (R216, R265). -/
def l1Store (s : State) (core : Nat) (t : Tag) (p : Nat) (bs : List Byte) (h : BitVec 16) (id : Nat) : State :=
  let c := s.coreAt core
  let l1 := (wordsOf p bs.length).foldl (fun l1 w =>
    let val := Bits.ofBytes ((List.range 4).map fun i => bs.getD (4 * w + i - p) 0#8)
    let home := match s.ownerOf (w / 32) with
      | some ow => if ow.core == core && h == 0#16 then ow.bad.contains (w / 2) else s.wordBad t.ctx h w
      | none => s.wordBad t.ctx h w
    let bad := !(decide (p ≤ w / 2 * 8) && decide (w / 2 * 8 + 8 ≤ p + bs.length)) && (match SMap.get? c.l1 (l1Key w h) with
      | some x => if x.owned then x.bad else home
      | none => home)
    SMap.put l1 (l1Key w h) { val := BitVec.ofNat 32 val, valid := needOf p bs.length w, stamp := .pending id, owned := true,
                              expiry := 0, at' := s.nextId, ctx := t.ctx, va := t.va / 128 * 32 + w % 32, tile := t.tile, bad := bad })
    (c.l1.filter fun e => e.2.owned || !(wordsOf p bs.length).contains (e.1 / 65536))
  (s.setCoreAt core { c with l1 := l1 }).fresh

/-- Words of a line whose stores have left the L1 and not reached their home slice. -/
def flyingWords (s : State) (core line : Nat) : List Nat :=
  s.groups.flatMap fun e => if s.l1Of e.1 == core then e.2.ops.flatMap fun o => o.lanes.flatMap fun b =>
      if b.l1At != 0 && b.st == .waiting then (match b.loc.cached with
        | some q => if lineOf q == line then wordsOf q b.size else []
        | none => []) else []
    else []

/-- Put words read under a lease into an L1, but for those whose stores are still on their way (R209); `valid` says which of a
word's bytes were read. -/
def l1Put (s : State) (core : Nat) (t : Tag) (line : Nat) (h : BitVec 16) (expiry : Nat) (valid : Nat → BitVec 4)
    (ws : List (Nat × W32 × Stamp × Bool)) : State :=
  let c := s.coreAt core
  let out := s.flyingWords core line
  let l1 := ws.foldl (fun l1 x =>
    if out.contains x.1 then l1
    else SMap.put l1 (l1Key x.1 h) { val := x.2.1, valid := valid x.1, stamp := x.2.2.1, owned := false, expiry := expiry,
                                     at' := s.nextId, ctx := t.ctx, va := t.va / 128 * 32 + x.1 % 32, tile := t.tile, bad := x.2.2.2 }) c.l1
  (s.setCoreAt core { c with l1 := l1 }).fresh

/-- Install the line around `p` under a read lease as view `v` shows it, tagged `h` (R209, R267); words the core owns stay,
but for those in `read`. -/
def l1Install (s : State) (core : Nat) (t : Tag) (p : Nat) (read : List Nat) (h v : BitVec 16) (expiry : Nat) : State :=
  let keep (w : Nat) : Bool := !read.contains w && (match SMap.get? (s.coreAt core).l1 (l1Key w h) with
    | some x => x.owned && x.fresh s.gtime && x.has t
    | none => false)
  s.l1Put core t (lineOf p) h expiry (fun _ => 0xF#4) ((((List.range 32).map (· + lineOf p * 32)).filter fun w => !keep w).map fun w =>
    (w, (s.viewWord t.ctx v w).1, s.viewStamp t.ctx v w, s.wordBad t.ctx v w))

/-- Copies of words in an L1 make way for a value read or written past it. -/
def l1Drop (s : State) (core : Nat) (ws : List Nat) (h : BitVec 16) : State :=
  let c := s.coreAt core
  s.setCoreAt core { c with l1 := c.l1.filter fun e => !(ws.any fun w => l1Key w h == e.1) }

/-- The copies of words that an L1 holds go, under whatever view, but for those whose stores are still on their way: a later
load must not see an older value (R208). -/
def l1Forget (s : State) (core : Nat) (ws : List Nat) : State :=
  let c := s.coreAt core
  if c.l1.any fun e => ws.contains (e.1 / 65536) then
    s.setCoreAt core { c with l1 := c.l1.filter fun e => e.2.flying || !ws.contains (e.1 / 65536) }
  else s

/-- The words of a store leave the L1 that still holds them as on their way. -/
def l1Done (s : State) (core id : Nat) : State :=
  let c := s.coreAt core
  s.setCoreAt core { c with l1 := c.l1.filter fun e => !(e.2.flying && e.2.stamp == .pending id) }

/-- A store has reached its home slice: its words serve hits as long as a lease granted with it (R210). -/
def leaseWords (s : State) (core id expiry : Nat) : State :=
  let c := s.coreAt core
  s.setCoreAt core { c with l1 := c.l1.map fun e =>
    (e.1, if e.2.owned && e.2.stamp == .pending id then { e.2 with expiry := expiry } else e.2) }

/-! ### Stamps that become known (R212, R213) -/

/-- A stamp that becomes known. -/
def grantOne (id t : Nat) (x : Stamp) : Stamp := if x == .pending id then .known t else x

/-- A group learns that the store numbered `id` has the stamp `t`. -/
def grantGroup (id t : Nat) (g : Group) : Group :=
  let g := if g.pending.contains id then { g with pending := g.pending.filter (· != id) }.raise t else g
  { g with ops := g.ops.map fun (o : Op) => { o with lanes := o.lanes.map fun (a : Access) =>
      { a with stamps := a.stamps.map (grantOne id t), wrote := a.wrote.map (grantOne id t) } } }

/-- A pending stamp is granted: in every group that read it, and in every L1 that holds its word. -/
def grantStamp (s : State) (id t : Nat) : State :=
  { s with
    groups := s.groups.map (fun e => (e.1, grantGroup id t e.2))
    cores := s.cores.map (fun e => (e.1, { e.2 with l1 := e.2.l1.map (fun x =>
      (x.1, { x.2 with stamp := grantOne id t x.2.stamp })) })) }

/-! ### Ownership (R218, R219) -/

/-- The units that an ownership has written. -/
def ownUnits (ow : Own) : List Nat := (ow.bytes.map fun b => b.1 / 8).eraseDups

/-- Ownership of a line ends now, or ended with its lease: its writes enter coherence order with that time as their stamp, and a
unit that was written goes home with the check bits it has in the L1 (R371). -/
def endOwnership (s : State) (line : Nat) : State :=
  match s.ownerOf line with
  | none => s
  | some ow =>
    let t := Nat.min s.gtime ow.expiry
    let s := { s with owners := SMap.erase s.owners line }
    let s := ow.bytes.foldl (fun s b => s.writeMem b.1 [b.2] t) s
    let s := if ow.bytes.isEmpty then s else s.raiseFrontier line t
    let s := { s with badUnits := (s.badUnits.filter fun u => !(ownUnits ow).contains u) ++ (ownUnits ow).filter ow.bad.contains }
    ow.stores.foldl (fun s id => s.grantStamp id t) s

/-! ### Forwarded accesses (R348) -/

/-- A TLB adds the count of one of its leaves to ACOUNT, saturating; MHINT and an event when it first reaches MIGTHR. -/
def addCount (s : State) (cluster i : Nat) : State :=
  let c := s.clusterAt cluster
  match c.tlb[i]? with
  | none => s
  | some e =>
    if e.count = 0 then s
    else
      let w1 : W64 := BitVec.ofNat 64 (s.readMem (e.at' + 8) 8)
      let old := Bits.field w1 47 32
      let new := Nat.min 0xFFFF (old + e.count)
      let thr := (s.descAt e.ctx).migthr
      let hit := thr != 0 && decide (old < thr) && decide (thr ≤ new)
      let w1 := Bits.setField w1 47 32 new
      let w1 := if hit then Bits.setField w1 5 5 1 else w1
      let s := s.moduleUpdate (e.at' + 8) (Bits.bytesOf 8 w1.toNat)
      let s := s.setClusterAt cluster { c with tlb := c.tlb.set i { e with count := 0 } }
      if hit then s.postTo 0 e.ctx { kind := 4, value := e.base } else s

/-- The same at any time: a core that owns the entry's line gives it up to the addition (R219, log 67). -/
def addAcount (s : State) (cluster i : Nat) : State :=
  match (s.clusterAt cluster).tlb[i]? with
  | none => s
  | some e => (if e.count = 0 then s else s.endOwnership (lineOf e.at')).addCount cluster i

/-- One more access forwarded through the TYPE 0b10 leaf for `va`; at 64 the count goes to memory. -/
def countForwarded (s : State) (cluster ctx va : Nat) : State :=
  let c := s.clusterAt cluster
  match c.tlb.findIdx? fun e => e.ctx == ctx && decide (e.base ≤ va) && decide (va < e.base + e.size) with
  | none => s
  | some i =>
    match c.tlb[i]? with
    | none => s
    | some e =>
      let s := s.setClusterAt cluster { c with tlb := c.tlb.set i { e with count := e.count + 1 } }
      if 64 ≤ e.count + 1 then s.addAcount cluster i else s

/-! ### Taking ownership -/

/-- Take ownership of a line for a core, when nobody holds it. -/
def takeOwnership (s : State) (line core lease : Nat) (t : Tag) : State :=
  let s := Up.bringIn s line
  let ow : Own := { core := core, expiry := s.gtime + lease, ctx := t.ctx, va := t.va, tile := t.tile, groups := [],
                    hand := false, bytes := [], words := [], bad := s.badUnits.filter fun x => x / 16 == line }
  { s with owners := SMap.put s.owners line ow }

/-- A write performed under ownership (R218). -/
def ownWrite (s : State) (u line p : Nat) (bs : List Byte) (id : Nat) : State :=
  match s.ownerOf line with
  | none => s
  | some ow =>
    let ow := { ow with
      bytes := SMap.overlay ow.bytes ((List.range bs.length).map fun i => (p + i, bs.getD i 0#8))
      words := (wordsOf p bs.length).foldl (fun acc w => SMap.put acc w id) ow.words
      stores := if ow.stores.contains id then ow.stores else ow.stores ++ [id]
      groups := if ow.groups.contains u then ow.groups else u :: ow.groups
      bad := ow.bad.filter fun x => !(decide (p ≤ 8 * x) && decide (8 * x + 8 ≤ p + bs.length)) }
    { s with owners := SMap.put s.owners line ow }

/-- A group's access to an owned line is noted (R219). -/
def ownTouch (s : State) (u line : Nat) : State :=
  match s.ownerOf line with
  | none => s
  | some ow =>
    if ow.groups.contains u then s else { s with owners := SMap.put s.owners line { ow with groups := u :: ow.groups } }

end State

/-- Where the entries lie that a walk has read. -/
def Paging.entries' (l : Leaf) (nodes : List Paging.Node) : List Nat := l.entry :: nodes.map fun n => n.entry

/-- The lines of a context's tables that a walk without a TLB reads come into their slices (R349, R376). -/
def Paging.bringWalk (s : State) (ctx va : Nat) : State :=
  match Paging.walkBare s ctx va with
  | .leaf l nodes => (Paging.entries' l nodes).foldl (fun s a => Up.bringIn s (lineOf a)) s
  | .fault _ => s

/-- Keep in the TLB what a walk for `va` reads; a core that owns a line of the tables has given it up. -/
def Paging.fill (s : State) (cluster ctx va : Nat) : State :=
  match Paging.held (s.clusterAt cluster) ctx va with
  | some _ => s
  | none =>
    match Paging.walk s cluster ctx va with
    | .fault _ => s
    | .leaf l nodes =>
      let s := (Paging.entries' l nodes).foldl (fun s a => Up.bringIn (s.endOwnership (lineOf a)) (lineOf a)) s
      let c := s.clusterAt cluster
      s.setClusterAt cluster
        { c with tlb := ⟨ctx, l.base, l.size, l.w0, l.w1, l.entry, 0⟩ :: c.tlb
                 nodes := nodes.map (fun n => ⟨ctx, n.level, n.base, n.node⟩) ++ c.nodes }

/-- The nearest live ancestor from `h` on (R274). -/
def Hyp.liveFrom (s : State) (ctx : Nat) : Nat → BitVec 16 → BitVec 16
  | 0, _ => 0#16
  | n + 1, h => if s.live ctx h then h else Hyp.liveFrom s ctx n (s.hslot ctx (State.hypSlot h)).parent

namespace State

/-! ### The leaf behind an access (R344, R348) -/

/-- The TLB has the leaf by which an access was translated back, where it holds none for the page: a line that the access fills, or
that it is sent through to a peer, rests on it. -/
def retake (s : State) (u : Nat) (a : Access) : State :=
  let c := s.clusterAt (s.clusterOf u)
  match a.leaf, Paging.held c (s.ctxOf u) a.va with
  | some l, none => s.setClusterAt (s.clusterOf u) { c with tlb := ⟨s.ctxOf u, l.base, l.size, l.w0, l.w1, l.entry, 0⟩ :: c.tlb }
  | _, _ => s

/-- Whether the TLB's leaf for an access's page leads where the access goes: an L1 holds a line only then. -/
def backed (s : State) (u : Nat) (a : Access) : Bool :=
  (Paging.held (s.clusterAt (s.clusterOf u)) (s.ctxOf u) a.va).any fun l => l.target a.va == a.loc

/-! ### One line under one tag (R345) -/

/-- Whether an L1 holds words of a line under another tag. -/
def foreign (s : State) (core : Nat) (t : Tag) (line : Nat) : Bool :=
  (s.coreAt core).l1.any fun e => keyLine e.1 == line && !e.2.has t

/-- A line that an L1 holds under another tag is handed over: its ownership ends, and its words go but for those whose stores
are still on their way to the home slice. -/
def handOver (s : State) (core : Nat) (t : Tag) (line : Nat) : State :=
  let s := match s.ownerOf line with
    | some ow => if ow.core == core && !ow.has t then s.endOwnership line else s
    | none => s
  if s.foreign core t line then
    let c := s.coreAt core
    s.setCoreAt core { c with l1 := c.l1.filter fun e => keyLine e.1 != line || e.2.has t || e.2.flying }
  else s

end State

/-! ### One lane's access -/

namespace Access

/-- The first and last byte it touches, in a numbering that keeps the targets apart. -/
def overlaps (a b : Access) : Bool :=
  match a.loc, b.loc with
  | .hbm p, .hbm q => decide (p / 4 * 4 < q + b.size) && decide (q / 4 * 4 < p + a.size)
  | .loc t p, .loc r q => t == r && decide (p / 4 * 4 < q + b.size) && decide (q / 4 * 4 < p + a.size)
  | .peer o c p, .peer o' c' q => o == o' && c == c' && decide (p / 4 * 4 < q + b.size) && decide (q / 4 * 4 < p + a.size)
  | .host p, .host q => decide (p / 4 * 4 < q + b.size) && decide (q / 4 * 4 < p + a.size)
  | _, _ => false

def bytes (a : Access) : List Byte := Bits.bytesOf a.size a.value

/-- The tag under which an L1 holds what it accesses, for a context and a view (R267). -/
def tag (a : Access) (ctx : Nat) (h : BitVec 16) : State.Tag := ⟨ctx, a.va, if h == 0#16 then a.tile else none⟩

end Access

namespace Op

/-- Whether an operation writes memory by lanes. -/
def writes (o : Op) : Bool :=
  match o.kind with
  | .store | .atomic _ _ _ _ => true
  | _ => false

def reads (o : Op) : Bool := o.cls == .loads

/-- Whether it is a GATHER, which installs no line (R245). -/
def gathers (o : Op) : Bool :=
  match o.kind with
  | .gather _ => true
  | _ => false

/-- The number of a lane's store (R212). -/
def storeId (o : Op) (lane : Nat) : Nat := stampId o.id lane

/-- The view that an access reads (R265); a page that takes no versions shows the committed value (R267). -/
def viewOf (o : Op) (a : Access) : BitVec 16 := if a.hypPage then o.hyp else 0#16

/-- The waiting lanes of an atomic at an access's place, in ascending order: they are performed one after another (R246). -/
def sameWord (o : Op) (a : Access) : List Nat :=
  match o.kind with
  | .atomic _ _ _ _ => (o.lanes.filter fun b => b.st == .waiting && b.loc == a.loc).map fun b => b.lane
  | _ => [a.lane]

end Op

namespace State

/-- What orders operation `o` of group `u` behind something: an earlier acquire or fence not ended (R215, R247), a
BFENCE.R whose BMVs are still under way (R260), a resolve that has moved it (R271). -/
def blocked (s : State) (u : Nat) (o : Op) : Bool :=
  let g := s.grpAt u
  (o.after.any fun r => (SMap.get? s.resolves r).isSome) || (g.ops.filter fun e => decide (e.id < o.id)).any fun e =>
    (e.acq.isSome && !e.acquired)
      || (e.kind == .fence && e.rel.isSome && !e.released && (o.writes || (match o.kind with | .copy _ | .walk _ | .bmv _ => true | _ => false)))
      || (e.kind == .bfenceR && o.reads && g.ops.any fun b => b.cls == .bank && decide (b.id < e.id))

/-- The same for a load that the issuing instruction makes at issue. -/
def blockedNow (s : State) (u : Nat) : Bool := s.blocked u { id := s.nextId, cls := .loads, kind := .fence }

/-- Whether the core that serves a group owns the line of an access. -/
def ownsLine (s : State) (u : Nat) (a : Access) : Bool :=
  match a.loc with
  | .hbm p => (s.ownerOf (lineOf p)).any fun ow => ow.core == s.l1Of u
  | _ => false

/-- Whether an earlier access of the group to the same word is still to be performed (R205, R208). With `hit`, for what the L1
takes or serves: a store enters the L1 behind every earlier store that has done so, and a load need not wait for those (R210). -/
def outOfOrder (s : State) (u : Nat) (o : Op) (a : Access) (hit : Bool) : Bool :=
  let l1 := hit && a.loc.cached.isSome
  let free (e : Op) (b : Access) : Bool := l1 && (if o.kind == .store then e.kind != .store || b.l1At != 0
    else !o.writes && b.l1At != 0 && e.hyp == o.hyp)
  let open' (e : Op) (b : Access) := b.st == .waiting && a.overlaps b && !free e b
  (s.grpAt u).ops.any fun e =>
    if e.id < o.id then e.lanes.any (open' e)
    else if e.id = o.id then o.writes && e.lanes.any fun b => decide (b.lane % 32 < a.lane % 32) && open' e b
    else false

/-- Where in the order of the L1's stores a later store of the group to a word stands that has not reached its slice; 0 for none. -/
def overtaken (s : State) (u id : Nat) (a : Access) : Nat :=
  (s.grpAt u).ops.foldl (fun n o => if id < o.id then o.lanes.foldl (fun n b =>
    if b.l1At != 0 && b.st == .waiting && a.overlaps b then (if n = 0 then b.l1At else Nat.min n b.l1At) else n) n else n) 0

/-- Whether the L1 of a group took an earlier store to the word of operation `id`'s access that has not reached its slice. A later
store of the group itself, and what the L1 took after that, come later (R208). -/
def l1Behind (s : State) (u id : Nat) (a : Access) : Bool :=
  let core := s.l1Of u
  let cut := s.overtaken u id a
  s.groups.any fun e => s.l1Of e.1 == core && e.2.ops.any fun o => o.lanes.any fun b =>
    b.l1At != 0 && (a.l1At == 0 || decide (b.l1At < a.l1At)) && b.st == .waiting && a.overlaps b
      && (cut == 0 || decide (b.l1At < cut))

/-- Whether the L1 `core` holds a store to the line, issued before operation `id`, that has not reached its slice. -/
def l1Store? (s : State) (core line id : Nat) : Bool :=
  s.groups.any fun e => s.l1Of e.1 == core && e.2.ops.any fun o => decide (o.id < id) && o.lanes.any fun b =>
    b.l1At != 0 && b.st == .waiting && (match b.loc with | .hbm p => lineOf p == line | _ => false)

/-- Whether an earlier issued store or atomic of the core to an owned line is still to be performed there (R218). -/
def ownBehind (s : State) (core line id : Nat) : Bool :=
  s.groups.any fun e => s.l1Of e.1 == core && e.2.ops.any fun o => o.writes && !o.dropped && decide (o.id < id)
    && o.lanes.any fun b => b.st == .waiting && !b.locked && !b.readOnly && o.hyp == 0#16
      && (match b.loc with | .hbm p => lineOf p == line | _ => false)

/-- Change one lane's access. -/
def setLane (s : State) (u id lane : Nat) (f : Access → Access) : State :=
  s.modGrp u fun g => g.setOp id fun o =>
    { o with lanes := o.lanes.map fun a => if a.lane == lane then f a else a }

/-- The hypothesis whose view a read of group `u` that was issued under `h` returns now: once a resolve that refutes `h` has been
accepted and the group's HCUR lies elsewhere, that of the nearest live ancestor (R272). -/
def readHyp (s : State) (u : Nat) (h : BitVec 16) : BitVec 16 :=
  if h != 0#16 && s.resolves.any fun r => r.2.ctx == s.ctxOf u && r.2.refuted.contains h && !r.2.refuted.contains (s.grpAt u).hcur then
    Hyp.liveFrom s (s.ctxOf u) 17 h
  else h

/-- An operation as its accesses are performed now: a load or a gather in the view that it reads. -/
def asRead (s : State) (u : Nat) (o : Op) : Op :=
  match o.kind with
  | .load _ | .gather _ => { o with hyp := s.readHyp u o.hyp }
  | _ => o

/-- A lane's access of an operation, as it is performed now. -/
def lane? (s : State) (u id lane : Nat) : Option (Op × Access) :=
  ((s.grpAt u).op? id).bind fun o => (o.lanes.find? fun a => a.lane == lane).map fun a => (s.asRead u o, a)

/-- Do something for each of some lanes of an operation, as each then stands. -/
def eachLane (s : State) (u id : Nat) (lanes : List Nat) (f : State → Op → Access → State) : State :=
  lanes.foldl (fun s l => match s.lane? u id l with
    | some x => f s x.1 x.2
    | none => s) s

/-- The read leases of a context (R209, R218). -/
def rlease (s : State) (ctx : Nat) : Nat := (s.descAt ctx).rlease
def olease (s : State) (ctx : Nat) : Nat := (s.descAt ctx).olease

/-- The value an atomic leaves, or none where it writes nothing (R246). -/
def atomNew (op : AtomOp) (w : Nat) (old b b2 : Nat) : Option Nat :=
  let x := BitVec.ofNat w old
  let y := BitVec.ofNat w b
  match op with
  | .add => some (x + y).toNat
  | .minS => some (if x.slt y then x else y).toNat
  | .maxS => some (if x.slt y then y else x).toNat
  | .minN => some (if x.ult y then x else y).toNat
  | .maxN => some (if x.ult y then y else x).toNat
  | .and => some (x &&& y).toNat
  | .or => some (x ||| y).toNat
  | .xor => some (x ^^^ y).toNat
  | .exch => some y.toNat
  | .cas => if x = y then some (b2 % 2 ^ w) else none
  | .fadd => some (Float.add .f32 .rn x.toNat y.toNat)

/-- A version store at the slice (R265, R266): the words under `h`, other bytes from the nearest version; a unit that it writes
whole has fresh check bits, any other stays as it was (R371). A resolve that carried an earlier value there no longer stamps
it. -/
def storeVersion (s : State) (ctx : Nat) (h : BitVec 16) (p : Nat) (bs : List Byte) (t : Nat) : State :=
  let vs := (wordsOf p bs.length).foldl (fun vs w =>
      let base := (s.viewWord ctx h w).1.toNat
      let need := needOf p bs.length w
      let val := Bits.ofBytes ((List.range 4).map fun i =>
        if need.getLsbD i then bs.getD (4 * w + i - p) 0#8 else Bits.byteAt base i)
      let bad := !(decide (p ≤ w / 2 * 8) && decide (w / 2 * 8 + 8 ≤ p + bs.length)) && s.wordBad ctx h w
      SMap.put vs (verKey ctx h w) { val := BitVec.ofNat 32 val, stamp := t, bad := bad }) s.versions
  { s.bringLines p bs.length with
    versions := vs
    resolves := s.resolves.map fun r =>
      (r.1, { r.2 with moved := r.2.moved.filter fun k => (wordsOf p bs.length).all fun w => k != verKey ctx h w }) }

/-- A write arriving at its home slice (R210): under the root to memory, else to a version; it completes at its arrival or at
the frontier, and the frontier rises by a lease. -/
def sliceWrite (s : State) (ctx : Nat) (h : BitVec 16) (p : Nat) (bs : List Byte) : State × Nat :=
  let line := lineOf p
  let t := Nat.max s.gtime (s.frontierOf line)
  let s := if h == 0#16 then s.writeMem p bs t else s.storeVersion ctx h p bs t
  (s.raiseFrontier line (t + s.rlease ctx), t)

/-- A lane's atomic at HBM under ownership. -/
def atomOwned (s : State) (u p : Nat) (op : AtomOp) (o : Op) (a : Access) : State :=
  match s.ownerOf (lineOf p) with
  | none => s
  | some ow =>
    let (old, st) := s.ownRead ow p a.size
    let line := lineOf p
    if s.ownBad p a.size then
      s.setLane u o.id a.lane fun x => { x with st := .performed, fault := some 0x26 }
    else
      let new := if a.readOnly || o.dropped then none else atomNew op (8 * a.size) old a.value a.value2
      let s := s.ownTouch u line
      match new with
      | none => s.setLane u o.id a.lane fun x => { x with value := old, stamps := st, st := .performed }
      | some v =>
        let s := s.ownWrite u line p (Bits.bytesOf a.size v) (o.storeId a.lane)
        s.setLane u o.id a.lane fun x =>
          { x with value := old, stamps := st, wrote := [.pending (o.storeId a.lane)], st := .performed }

/-- A local access performed (R204). -/
def performLocal (s : State) (u team off : Nat) (o : Op) (a : Access) : State :=
  let old := s.readLoc team off a.size
  let stamp := Stamp.known (s.locStamp team off a.size)
  let bad := s.locBad team off a.size
  match o.kind with
  | .store =>
    let s := if o.dropped then s else s.writeLoc team off a.bytes
    s.setLane u o.id a.lane fun x => { x with st := .performed, stamps := [.known s.gtime] }
  | .atomic op _ _ _ =>
    if bad then s.setLane u o.id a.lane fun x => { x with st := .performed, fault := some 0x26 }
    else
      match (if a.readOnly || o.dropped then none else atomNew op (8 * a.size) old a.value a.value2) with
      | none => s.setLane u o.id a.lane fun x => { x with value := old, stamps := [stamp], st := .performed }
      | some v =>
        let s := s.writeLoc team off (Bits.bytesOf a.size v)
        s.setLane u o.id a.lane fun x =>
          { x with value := old, stamps := [stamp], wrote := [.known s.gtime], st := .performed }
  | _ =>
    s.setLane u o.id a.lane fun x =>
      if bad then { x with st := .performed, fault := some 0x26 }
      else { x with value := old, stamps := [stamp], st := .performed }

/-- A load as the core's L1 serves it (R209, R210, R218): its value, its stamps, and whether it is uncorrectable. Words of stores on
their way come first, then a line that the core owns, then words under a lease. -/
def hit (s : State) (u p : Nat) (t : Tag) (o : Op) (a : Access) : Option (Nat × List Stamp × Bool) :=
  let core := s.l1Of u
  let words := (s.l1Words core t p a.size o.hyp).map fun ws =>
    ((wordsVal p a.size ws).1, (wordsVal p a.size ws).2, ws.any fun x => x.2.bad)
  let newest := s.overtaken u o.id a == 0
  match s.ownerOf (lineOf p) with
  | some ow =>
    if ow.core != core || o.hyp != 0#16 || !ow.has t then none
    else if newest && s.l1Ahead core p a.size then words
    else if s.l1Behind u o.id a then none
    else some ((s.ownRead ow p a.size).1, (s.ownRead ow p a.size).2, s.ownBad p a.size)
  | none => if newest then words else none

/-- A store's words enter the L1 (R210). -/
def enterL1 (s : State) (u p : Nat) (o : Op) (a : Access) : State :=
  let s := s.retake u a
  (s.l1Store (s.l1Of u) (a.tag (s.ctxOf u) o.hyp) p a.bytes o.hyp (o.storeId a.lane)).setLane u o.id a.lane fun x => { x with l1At := s.nextId }

/-- What the issuing core can do at once with an access to a line that an L1 may hold, at place `p`: a line held under another
tag is handed over; loads hit in owned lines and L1 words, stores put their words into the L1, and stores and atomics on an
owned line are performed there in issue order across the core (R210, R218, R345). -/
def performCached (s : State) (u p : Nat) (o : Op) (a : Access) : State :=
  let core := s.l1Of u
  let h := o.hyp
  let t := a.tag (s.ctxOf u) h
  let line := lineOf p
  let s := if o.gathers && o.viewOf a == 0#16 then s else s.handOver core t line
  let mine := (match s.ownerOf line with
    | some ow => ow.core == core
    | none => false) && h == 0#16
  match o.kind with
  | .store =>
    if o.dropped then s.setLane u o.id a.lane fun x => { x with st := .performed }
    else if a.locked then s
    else
      let s := if a.l1At != 0 || s.foreign core t line then s else s.enterL1 u p o a
      if !mine || s.ownBehind core line o.id || s.outOfOrder u o a false then s
      else ((s.l1Done core (o.storeId a.lane)).ownWrite u line p a.bytes (o.storeId a.lane)).setLane u o.id a.lane fun x =>
        { x with st := .performed, stamps := [.pending (o.storeId a.lane)] }
  | .atomic op _ _ _ =>
    if !mine || a.locked || s.ownBehind core line o.id then s
    else s.eachLane u o.id (o.sameWord a) fun s o a => s.atomOwned u p op o a
  | _ =>
    match s.hit u p t o a with
    | none => s
    | some (v, st, bad) =>
      (if mine then s.ownTouch u line else s).setLane u o.id a.lane fun x =>
        if bad then { x with st := .performed, fault := some 0x26 }
        else { x with value := v, stamps := st, st := .performed }

/-- Whether the fabric reaches peers: the module is in sync and a port is up (R401, R402). -/
def fabricUp (s : State) : Bool := s.inSync && (List.range 18).any fun p => (SMap.get {} s.ports p).up

/-- Whether a peer or the host may answer an access now. -/
def answerable (s : State) (u : Nat) (o : Op) (a : Access) : Bool :=
  a.st == .waiting && (o.engine || (!s.blocked u o && !(o.rel.isSome && !o.released) && !a.locked && !s.outOfOrder u o a false
    && !s.l1Behind u o.id a && !(o.kind == .store && a.l1At == 0 && a.loc.cached.isSome)))

/-- An access that a peer is to serve is sent, and its TLB counts it (R348, R401), unless a TLBINV has counted it already. -/
def sendPeer (s : State) (u id lane : Nat) : State :=
  match s.lane? u id lane with
  | none => s
  | some (o, a) =>
    match a.loc with
    | .peer _ _ _ =>
      if a.sent.isNone && s.answerable u o a then
        (if a.leaf.isSome then (s.retake u a).countForwarded (s.clusterOf u) (s.ctxOf u) a.va else s).setLane u id lane fun x =>
          { x with sent := some s.gtime }
      else s
    | _ => s

/-- What the issuing core can do at once with a lane's access: local memory, and what its L1 may hold. -/
def performAtCore (s : State) (u id lane : Nat) : State :=
  match s.lane? u id lane with
  | none => s
  | some (o, a) =>
    if a.st == .waiting && a.l1At != 0 && !s.ownsLine u a then s.sendPeer u id lane
    else if a.st != .waiting || s.blocked u o || (o.rel.isSome && !o.released) || s.outOfOrder u o a true then s
    else match a.loc with
      | .loc team off => s.eachLane u id (o.sameWord a) fun s o a => s.performLocal u team off o a
      | loc => match loc.cached with
        | some p => if o.engine then s else (s.performCached u p o a).sendPeer u id lane
        | none => if o.dropped && o.writes then s.setLane u id lane fun x => { x with st := .performed } else s

/-- The same for every lane of an operation, in ascending order. -/
def performOp (s : State) (u id : Nat) : State :=
  match (s.grpAt u).op? id with
  | some o => (o.lanes.map fun a => a.lane).foldl (fun s l => s.performAtCore u id l) s
  | none => s

/-- A load's line comes back under a read lease (R209); the L1 holds it where the leaf behind the access still stands (R344). -/
def loadInstall (s : State) (u : Nat) (o : Op) (a : Access) (p v : Nat) (st : List Stamp) : State :=
  let ctx := s.ctxOf u
  let expiry := s.gtime + s.rlease ctx
  let s := s.retake u a
  let s := (if s.backed u a then s.l1Install (s.l1Of u) (a.tag ctx o.hyp) p (wordsOf p a.size) o.hyp (o.viewOf a) expiry
    else s.l1Forget (s.l1Of u) (wordsOf p a.size)).raiseFrontier (lineOf p) expiry
  s.setLane u o.id a.lane fun x => { x with value := v, stamps := st, st := .performed }

/-- A load, or an atomic under a hypothesis, performed at its home slice (R209, R211, R266). -/
def loadAtSlice (s : State) (u p : Nat) (o : Op) (a : Access) : State :=
  let ctx := s.ctxOf u
  let core := s.l1Of u
  let h := o.viewOf a
  let ws := wordsOf p a.size
  let v := s.viewBytes ctx h p a.size
  let st := ws.map fun w => s.viewStamp ctx h w
  let s := (s.bringBack ctx ws).bringLines p a.size
  if ws.any fun w => s.wordBad ctx h w then s.setLane u o.id a.lane fun x => { x with st := .performed, fault := some 0x26 }
  else match o.kind with
  | .atomic op _ _ _ =>
    match (if a.readOnly || o.dropped then none else atomNew op (8 * a.size) v a.value a.value2) with
    | none => (s.l1Forget core ws).setLane u o.id a.lane fun x => { x with value := v, stamps := st, st := .performed }
    | some n =>
      let r := (s.l1Forget core ws).sliceWrite ctx o.hyp p (Bits.bytesOf a.size n)
      r.1.setLane u o.id a.lane fun x => { x with value := v, stamps := st, wrote := [.known r.2], st := .performed }
  | .gather _ =>
    if h != 0#16 then s.loadInstall u o a p v st
    else (s.l1Forget core ws).setLane u o.id a.lane fun x => { x with value := v, stamps := st, st := .performed }
  | _ => s.loadInstall u o a p v st

/-! ### Completion -/

/-- How many registers of a destination each access of a lane fills; a code of 16 + n stands for the n registers of a QPOP, one by
each access (R255). -/
def destCount (d : Dest) : Nat :=
  if d.cls = 0 then 0
  else if d.cls = 1 && (d.code = 5 || d.code = 6) then 2 else 1

/-- The first register that an access fills, counted from the destination's first: the second half of a 16-byte access fills the
last two of four, a word of a QPOP its own. -/
def firstReg (d : Dest) (a : Access) : Nat := if 16 ≤ d.code then a.lane / 32 else 2 * (a.lane / 32)

/-- Fill the `j`-th of those registers with its part of the value (R236, R241). -/
def deliverReg (d : Dest) (a : Access) (j : Nat) (g : Group) : Group :=
  let lane := a.lane % 32
  let v := a.value
  let b : W32 := match d.code with
    | 0 => BitVec.ofNat 32 (v % 256)
    | 1 => (BitVec.ofNat 8 v).signExtend 32
    | 2 => BitVec.ofNat 32 (v % 65536)
    | 3 => (BitVec.ofNat 16 v).signExtend 32
    | _ => BitVec.ofNat 32 (v / 2 ^ (32 * j))
  match d.cls with
  | 1 => g.wv (d.num + firstReg d a + j) lane b
  | 2 =>
    g.wk d.num (match d.code with
      | 1 => (BitVec.ofNat 8 v).signExtend 64
      | 3 => (BitVec.ofNat 16 v).signExtend 64
      | 5 => BitVec.ofNat 64 v
      | _ => Bits.zext64 b)
  | 4 => g.wm d.num lane (BitVec.ofNat 64 v)
  | _ => g

/-- Fill every register of a lane that does not hold its value already. -/
def deliver (d : Dest) (a : Access) (g : Group) : Group :=
  ((List.range (destCount d)).filter fun j => !a.given.contains j).foldl (fun g j => deliverReg d a j g) g

/-- The registers a destination covers (R306). -/
def destRegs (d : Dest) : List Forms.Reg :=
  if d.cls = 0 then []
  else (List.range (if 16 ≤ d.code then d.code - 16 else if d.cls = 1 && d.code = 5 then 2 else if d.cls = 1 && d.code = 6 then 4 else 1)).map
    fun j => (d.cls, d.num + j)

/-- The destination of an operation's lanes, if it returns values. -/
def destOf : OpKind → Dest
  | .load d | .gather d | .atomic _ _ _ d => d
  | _ => ⟨0, 0, 0⟩

/-- The number of a register that an access fills. -/
def regOf (d : Dest) (a : Access) (j : Nat) : Forms.Reg := (d.cls, d.num + firstReg d a + j)

/-- One register of a performed lane takes its value ahead of the rest (R241). -/
def deliverOne (s : State) (u id lane j : Nat) : State :=
  match s.lane? u id lane with
  | none => s
  | some (o, a) =>
    let d := destOf o.kind
    if a.st == .performed && a.fault.isNone && o.cls == .loads && decide (j < destCount d) && !a.given.contains j then
      ((s.wroteRegs u [regOf d a j]).modGrp u fun g => (deliverReg d a j g).markWritten (granulesOf [regOf d a j])).setLane u id lane
        fun x => { x with given := j :: x.given }
    else s

/-- Of an operation's accesses, the one with the lowest lane that has failed: the first of that lane's (R240, R358). -/
def lowestBad (l : List Access) : Option Access :=
  (l.filter fun a => a.fault.isSome).foldl (fun acc a => match acc with
    | some b => if a.lane % 32 < b.lane % 32 || (a.lane % 32 == b.lane % 32 && a.lane < b.lane) then some a else some b
    | none => some a) none

/-- Deliver the performed lanes of a mask: registers, stamps, and the fault of the lowest faulting lane (R240). -/
def deliverLanes (s : State) (u id : Nat) (m : Mask) : State :=
  match (s.grpAt u).op? id with
  | none => s
  | some o =>
    let d := destOf o.kind
    let on (a : Access) : Bool := a.st == .performed && Bits.has m (a.lane % 32)
    let now := o.lanes.filter on
    (if now.isEmpty then s else s.wroteRegs u (destRegs d)).modGrp u fun g =>
      let g := now.foldl (fun g a =>
        let g := if a.fault.isNone then deliver d a g else g
        (a.stamps ++ a.wrote).foldl Group.sawStamp g) g
      let g := if now.isEmpty then g else g.markWritten (granulesOf (destRegs d))
      let g := g.setOp id fun o =>
        let lanes := o.lanes.map fun a => if on a then { a with st := .finished } else a
        let bad := (lowestBad (lanes.filter fun a => a.st == .finished)).map fun a =>
          (a.fault.getD 0x26, if 16 ≤ d.code then a.va else a.va - 8 * (a.lane / 32))
        { o with lanes := lanes, fault := bad.or o.fault }
      let g := g.setOp id fun o => { o with done := o.lanes.all fun a => a.st == .finished }
      g.retire

/-- Group `u`'s store has completed: its stamp enters HORIZON and the counter falls (R210, R213). -/
def finishStore (s : State) (u id : Nat) : State :=
  match (s.grpAt u).op? id with
  | none => s
  | some o =>
    let t := o.lanes.foldl (fun acc a => Nat.max acc (lastStamp a)) 0
    let s := o.lanes.foldl (fun s a => s.grantStamp (o.storeId a.lane) (lastStamp a)) s
    s.modGrp u fun g =>
      let g := g.raise t
      let g := { g with ops := g.ops.map fun (e : Op) =>
        match e.kind with
        | .bfenceW x => if id < e.id then { e with kind := .bfenceW (Nat.max x t) } else e
        | _ => e }
      let bad := (lowestBad o.lanes).map fun a => (a.fault.getD 0x27, a.va - 8 * (a.lane / 32))
      (g.setOp id fun o =>
        { o with done := true, lanes := o.lanes.map (fun a => { a with st := .finished }), fault := o.fault.or bad }).retire

end State

end Sys2Proof.Machine
end

