-- ==== Sys2Proof/Machine/Engine.lean ====
section
/-! DEFINITION. How the copy engine, the matrix unit, the walk unit and the bank units read and write memory for a
group (R221 to R223): a read takes its value when it is made, a write is performed at its place at once. -/

namespace Sys2Proof.Machine

open Sys2Proof (SMap)

/-- A stamp that an engine has read, with the word that carried it, as an L1 numbers it. -/
structure Taken where
  stamp : Stamp
  word : Option Nat := none
deriving DecidableEq, Repr

/-- What a read by an engine meets. -/
inductive Seen where
  /-- it must wait: a core owns the line, a store that comes before it is on its way, or a peer has not answered; `send` is the
  address of a read that has still to be sent to a peer -/
  | hold (send : Option Nat)
  | fault (cause : Nat)
  /-- uncorrectable data -/
  | bad
  | data (bytes : List Byte) (stamps : List Taken)
deriving DecidableEq, Repr

/-- How a write by an engine ends. -/
inductive Put where
  | wait
  | fault (cause : Nat)
  | ok (s : State) (stamp : Nat)

/-- Why a read of several lines comes to nothing. -/
inductive Stop where
  | hold (send : Option Nat)
  | fault (cause tval : Nat)
deriving DecidableEq, Repr

namespace State

/-- An engine's access as the ordering checks see it. -/
def engineAccess (va : Nat) (loc : Loc) (n : Nat) : Access := { lane := 32, va := va, loc := loc, size := n }

/-- Whether an access of group `u` before operation `bound`, or a store in its L1, to these words is still to be performed: no
later access of the group to the word is performed before it (R208). -/
def onWay (s : State) (u bound : Nat) (a : Access) : Bool :=
  s.l1Behind u bound a
    || (s.grpAt u).ops.any fun o => decide (o.id < bound) && o.lanes.any fun b => b.st == .waiting && a.overlaps b

/-- What keeps an engine's access from being performed: an access of the group that comes before it, or an acquire or a fence. -/
def engineWaits (s : State) (u bound va : Nat) (loc : Loc) (n : Nat) : Bool :=
  s.onWay u bound (engineAccess va loc n) || s.blocked u { id := bound, cls := .loads, kind := .fence }

/-- The reads of a peer that operation `bound`, or the instruction that issues, has sent (R401). -/
def asked (s : State) (u bound : Nat) : SMap Nat :=
  match (s.grpAt u).op? bound with
  | some o => o.asked
  | none => s.cur.asked

/-- What a peer answers a read that was sent at `sent`: free bytes and their stamp, or the refusal or the error that its owner chose
(R347, R349, R372). While no port is up nothing comes; 16,777,216 cycles after it was sent the read may go unanswered (R401), and
while the module is out of sync it fails (R402). -/
def seePeer (s : State) (sent : Option Nat) (va p n : Nat) : Seen :=
  if !s.inSync then .fault 0x27
  else match sent with
    | none => .hold (some va)
    | some t =>
      if t + 16777216 ≤ s.gtime && (!s.fabricUp || Config.freeNat s.choice (2 ^ 64 + va) % 2 == 1) then .fault 0x27
      else if !s.fabricUp then .hold none
      else match Config.freeNat s.choice (2 ^ 65 + va) % 4 with
        | 1 => .fault 0x21
        | 2 => .fault 0x27
        | 3 => .bad
        | _ => .data ((List.range n).map fun i => Config.freeByte s.choice (va + i))
            ((wordsOf p n).map fun w => { stamp := .known (Config.freeNat s.choice va % (s.gtime + 9)), word := some w })

/-- Read `n` bytes for group `u` under hypothesis `h`; `bound` is the operation that reads, `sent` what it has sent to peers where
that is kept elsewhere. The bytes lie in one line. -/
def see (s : State) (u bound : Nat) (priv : Bool) (h : BitVec 16) (va n : Nat) (sent : Option (SMap Nat) := none) : Seen :=
  match s.find u priv .load va with
  | .fault c => .fault c
  | .at' loc leaf =>
    let h := if (leaf.map Leaf.hyp).getD false then s.readHyp u h else 0#16
    let ctx := s.ctxOf u
    let take (st : List Stamp) (p : Nat) : List Taken := (st.zip (wordsOf p n)).map fun x => { stamp := x.1, word := some x.2 }
    let tile := leaf.bind fun l => if l.layout == 0 || h != 0#16 then none else some l.tensor
    if s.engineWaits u bound va loc n then .hold none
    else match loc with
      | .hbm p =>
        (match s.ownerOf (lineOf p) with
        | some ow =>
          if ow.core != s.l1Of u || h != 0#16 || !ow.has ⟨ctx, va, tile⟩ then .hold none
          else if s.ownBad p n then .bad
          else .data (Bits.bytesOf n (s.ownRead ow p n).1) (take (s.ownRead ow p n).2 p)
        | none =>
          if Up.stalled s (lineOf p) then .hold none
          else if (wordsOf p n).any fun w => s.wordBad ctx h w then .bad
          else .data (Bits.bytesOf n (s.viewBytes ctx h p n)) (take ((wordsOf p n).map fun w => s.viewStamp ctx h w) p))
      | .loc t off =>
        if s.locBad t off n then .bad else .data (s.locBytes t off n) [{ stamp := .known (s.locStamp t off n) }]
      | .peer _ _ _ => s.seePeer (SMap.get? (sent.getD (s.asked u bound)) va) va (loc.cached.getD 0) n
      | .host _ => .data ((List.range n).map fun i => Config.freeByte s.choice (va + i)) []

/-- The free values that a step has used are spent. -/
def spend (s : State) : State := { s with choice := s.choice + 1 }

/-- An engine's access is translated at the TLB and forwarded to a peer, which the TLB counts (R344, R348). -/
def forward (s : State) (u va : Nat) : State :=
  (Paging.fill s (s.clusterOf u) (s.ctxOf u) va).countForwarded (s.clusterOf u) (s.ctxOf u) va

/-- A read is sent to a peer for operation `bound` of group `u`, or for the instruction that would issue; what reads keeps since when
it waits (R401). -/
def ask (s : State) (u bound va : Nat) : State :=
  let s := s.forward u va
  match (s.grpAt u).op? bound with
  | some _ => s.modGrp u fun g => g.setOp bound fun o => { o with asked := SMap.put o.asked va s.gtime }
  | none =>
    let s := s.modGrp u fun g => g.setFrag s.cur.frag { g.frag s.cur.frag with asked := SMap.put (g.frag s.cur.frag).asked va s.gtime }
    { s with cur := { s.cur with ask := some va } }

/-- What a held step of an engine does: it sends the read that is due to a peer, or nothing. -/
def asking (s : State) (u bound : Nat) (send : Option Nat) : Option State := send.map fun va => s.ask u bound va

/-- An engine's write to a peer or to the host is on its way until that answers (R221, R228). -/
def sendLane (s : State) (u id va : Nat) (loc : Loc) (bs : List Byte) : State :=
  let s := match loc with
    | .peer _ _ _ => s.forward u va
    | _ => s
  s.modGrp u fun g => g.setOp id fun o =>
    { o with lanes := o.lanes ++ [{ lane := 64 + o.lanes.length, va := va, loc := loc, size := bs.length, value := Bits.ofBytes bs
                                    sent := some s.gtime }] }

/-- Write bytes for operation `o` of group `u`; they lie in one line, which the core hands back if it owns it. With
`drop` the write is dropped (R273). -/
def putAs (s : State) (u : Nat) (o : Op) (priv drop : Bool) (va : Nat) (bs : List Byte) : Put :=
  match s.find u priv .store va with
  | .fault c => .fault c
  | .at' loc leaf =>
    if drop then .ok s 0
    else if (leaf.map Leaf.mlock).getD false || s.onWay u o.id (engineAccess va loc bs.length) || s.blocked u o then .wait
    else match loc with
      | .hbm p =>
        if (match s.ownerOf (lineOf p) with | some ow => ow.core != s.l1Of u | none => Up.stalled s (lineOf p)) then .wait
        else
          let s := (s.endOwnership (lineOf p)).l1Drop (s.l1Of u) (wordsOf p bs.length) o.hyp
          let r := (s.l1Forget (s.l1Of u) (wordsOf p bs.length)).sliceWrite (s.ctxOf u) o.hyp p bs
          .ok r.1 r.2
      | .loc t off => .ok (s.writeLoc t off bs) s.gtime
      | loc =>
        let s := match loc.cached with
          | some p => s.l1Drop (s.l1Of u) (wordsOf p bs.length) 0#16
          | none => s
        .ok (s.sendLane u o.id va loc bs) 0

/-- The same; an orphaned operation's writes are dropped. -/
def put (s : State) (u : Nat) (o : Op) (priv : Bool) (va : Nat) (bs : List Byte) : Put := s.putAs u o priv o.dropped va bs

/-- The pieces of `n` bytes at `va` that each lie in one line. -/
def pieces : Nat → Nat → Nat → List (Nat × Nat)
  | 0, _, _ => []
  | f + 1, va, n =>
    if n = 0 then []
    else
      let k := Nat.min n (128 - va % 128)
      (va, k) :: pieces f ((va + k) % 2 ^ 64) (n - k)

/-- Read `n` bytes that may cross lines. -/
def seeAll (s : State) (u bound : Nat) (priv : Bool) (h : BitVec 16) (va n : Nat) : Except Stop (List Byte × List Taken) :=
  (pieces (n / 128 + 2) va n).foldl (fun acc p =>
    match acc with
    | .error e => .error e
    | .ok r =>
      match s.see u bound priv h p.1 p.2 with
      | .hold q => .error (.hold q)
      | .fault c => .error (.fault c p.1)
      | .bad => .error (.fault 0x26 p.1)
      | .data bs st => .ok (r.1 ++ bs, r.2 ++ st)) (.ok ([], []))

/-- Write bytes that may cross lines; what comes before a failing line is written. The latest stamp comes back. -/
def putAll (s : State) (u : Nat) (o : Op) (priv drop : Bool) (va : Nat) (bs : List Byte) :
    Except (Option (State × Nat × Nat)) (State × Nat) :=
  (pieces (bs.length / 128 + 2) va bs.length).foldl (fun acc p =>
    match acc with
    | .error e => .error e
    | .ok r =>
      match r.1.putAs u o priv drop p.1 ((bs.drop ((p.1 + 2 ^ 64 - va % 2 ^ 64) % 2 ^ 64)).take p.2) with
      | .wait => .error none
      | .fault c => .error (some (r.1, c, p.1))
      | .ok s t => .ok (s, Nat.max r.2 t)) (.ok (s, 0))

/-- Record what an engine has read for a group: its stamps (R213), and its access to lines that the core owns (R219); older copies
of the words leave the group's L1, so that no later load sees an earlier value (R208); spilled versions are back (R268), and lines
in their slices. -/
def noteStamps (s : State) (u : Nat) (st : List Taken) : State :=
  let ws := st.filterMap fun x => x.word
  let lines := (ws.map (· / 32)).eraseDups
  let s := (lines.filter (· < 2 ^ 50)).foldl Up.bringIn s
  let s := lines.foldl (fun s l => match s.ownerOf l with
    | some ow => if ow.core == s.l1Of u then s.ownTouch u l else s
    | none => s) s
  ((s.l1Forget (s.l1Of u) ws).bringBack (s.ctxOf u) ws).modGrp u fun g => (st.map fun x => x.stamp).foldl Group.sawStamp g

/-- The address of a byte of the issuing team's own local memory (R203). -/
def localVa (off : Nat) : Nat := windowBase + 0x200000 + off

/-- R251: whether an address fails R202 or R203. -/
def outside (s : State) (u va : Nat) : Bool :=
  decide (2 ^ 56 ≤ va) || (decide (windowBase ≤ va) && (match s.findLocal u (va - windowBase) with
    | .fault _ => true
    | .at' _ _ => false))

end State

/-- An instruction that is held: by a read that has still to be sent to a peer, which is sent now, or by something else. -/
def Res.holdFor : Option Nat → Res
  | some va => .holdWith false fun s => s.ask s.cur.grp s.nextId va
  | none => .hold false

end Sys2Proof.Machine
end

