-- ==== Sys2Proof/Machine/Tensor.lean ====
section
/-! DEFINITION. Tensor descriptors and tiles: the descriptor's fields (R135), the lines of a tile (R136, R137), and
the checks on a tile handle (R138). -/

namespace Sys2Proof.Machine

open Sys2Proof (SMap)

/-- A tensor descriptor (R135). -/
structure TDesc where
  mbase : Nat
  ebase : Nat
  ktiles : Nat
  ntiles : Nat
  elem : Nat
deriving DecidableEq, Repr, Inhabited

namespace Tensor

/-- `n` bytes at an offset of a record, as a number. -/
def fieldAt (bs : List Byte) (off n : Nat) : Nat := Bits.ofBytes ((bs.drop off).take n)

/-- Whether bytes `off` to `off + n - 1` are zero. -/
def zeroAt (bs : List Byte) (off n : Nat) : Bool := fieldAt bs off n == 0

/-- A descriptor from its 64 bytes; none when it is unused or malformed. DEDUCED (log 73): one that breaks any limit of R135's
table is no descriptor, as one with a reserved bit set. -/
def parse (bs : List Byte) : Option TDesc :=
  let d : TDesc := { mbase := fieldAt bs 0 8, ebase := fieldAt bs 8 8, ktiles := fieldAt bs 16 4,
                     ntiles := fieldAt bs 20 4, elem := fieldAt bs 24 1 }
  let sized (x : Nat) : Bool := decide (1 ≤ x) && decide (x ≤ 65535)
  if (d.elem == 16 || (decide (2 ≤ d.elem) && decide (d.elem ≤ 8))) && zeroAt bs 25 39 && sized d.ktiles
      && sized d.ntiles && d.mbase % 128 == 0 && d.ebase % 128 == 0 && !(d.elem == 16 && d.ebase != 0)
  then some d else none

/-- The address of tensor `n`'s descriptor in a context. -/
def addrOf (s : State) (ctx n : Nat) : Nat := ((s.descAt ctx).ttbase + 64 * n) % 2 ^ 64

/-- What reading a descriptor for the issuing group gives. -/
inductive Read where
  | hold (send : Option Nat)
  | fault (cause : Nat)
  | bad
  | desc (d : Option TDesc) (stamps : List Taken)

/-- The descriptor of tensor `n` in the issuing context; past TTCOUNT it is unused and there is no line to read (R338). -/
def read (s : State) (n : Nat) : Read :=
  let u := s.cur.grp
  if (s.descAt s.ctx).ttcount ≤ n then .desc none []
  else match s.see u s.nextId (s.privAt u s.cur.frag) 0#16 (addrOf s s.ctx n) 64 with
    | .hold q => .hold q
    | .fault c => .fault c
    | .bad => .bad
    | .data bs st => .desc (parse bs) st

/-- The tile index of a stored tile (R136). -/
def index (d : TDesc) (trow tcol : Nat) : Nat := trow * d.ntiles + tcol

/-- The addresses of a tile's lines, in stored order: elements or mantissas, then exponents. -/
def lines (d : TDesc) (x : Nat) : List Nat :=
  if d.elem = 16 then (List.range 128).map fun n => (d.mbase + 16384 * x + 128 * n) % 2 ^ 64
  else (List.range (8 * d.elem)).map (fun n => (d.mbase + 1024 * d.elem * x + 128 * n) % 2 ^ 64)
    ++ (List.range 2).map fun n => (d.ebase + 256 * x + 128 * n) % 2 ^ 64

/-- Fields of a tile handle (R25). -/
def hKhalf (h : W64) : Bool := h.getLsbD 56
def hValid (h : W64) : Bool := h.getLsbD 55
def hSlot (h : W64) : Nat := Bits.field h 54 52
def hTcol (h : W64) : Nat := Bits.field h 51 36
def hTrow (h : W64) : Nat := Bits.field h 35 20
def hTensor (h : W64) : Nat := Bits.field h 19 0

/-- The stored tile row of a handle (R137). -/
def storedRow (h : W64) : Nat := if hKhalf h then hTrow h / 2 else hTrow h

/-- What the checks of R138 down to the descriptor give. -/
inductive Checked where
  | hold (send : Option Nat)
  | trap (cause tval : Nat)
  | ok (d : TDesc) (stamps : List Taken)

/-- The cause of a line that may not be read: R138's 0x82, but 0x27 where a peer gives no answer, is out of reach or has paused its
flow, and 0x26 where the page table entry is uncorrectable. DESIGN CHOICE (log 49): R401, R402 and R372 name the cause that the consumer
receives. -/
def unreadable (cause : Nat) : Nat := if cause = 0x26 || cause = 0x27 then cause else 0x82

/-- R138 down to the ranges of the tile: `fmts` suit the user of the handle, `khalf` is the geometry it needs, `rd` is
what reading its tensor's descriptor gives. -/
def check (s : State) (h : W64) (fmts : List Nat) (khalf : Bool) (rd : Read) : Checked :=
  if !hValid h then .trap 0x82 0
  else match s.slot? (hSlot h) with
    | none => .trap 0x0A 0
    | some sl =>
      if !fmts.contains sl.fmt then .trap 0x82 0
      else if hKhalf h != khalf then .trap 0x82 0
      else
        let a := addrOf s s.ctx (hTensor h)
        match rd with
        | .hold q => .hold q
        | .fault c => .trap (unreadable c) a
        | .bad => .trap 0x26 a
        | .desc none _ => .trap 0x82 a
        | .desc (some d) st =>
          if d.elem ≠ (if sl.fmt = 4 then sl.mant else 16) || d.ktiles ≤ storedRow h || d.ntiles ≤ hTcol h then
            .trap 0x82 a
          else .ok d st

/-- Where a tile line lies, when it is mapped, readable and tagged with the tensor; a LINEAR page carries no tag and
is taken only where `linear` allows it. -/
def lineOk (s : State) (tensor va : Nat) (linear : Bool) : Option (Loc × Leaf) :=
  let u := s.cur.grp
  match s.find u (s.privAt u s.cur.frag) .load va with
  | .at' loc (some l) =>
    if l.layout == 0 then (if linear then some (loc, l) else none)
    else if l.tensor == tensor then some (loc, l) else none
  | _ => none

end Tensor

end Sys2Proof.Machine
end

