-- ==== Sys2Proof/Machine/Dot.lean ====
section
/-! DEFINITION. The dot-product rule (R133) and the elements of a stored tile's column (R136, R137). -/

namespace Sys2Proof.Machine.Dot

open Sys2Proof.Float

/-- Add the truncated terms of a group: each in units of 2^u, toward zero. -/
def truncated (u : Int) (l : List Ex) : Int :=
  l.foldl (fun acc x => let q : Int := ((x.quo u).1 : Nat); if x.neg then acc - q else acc + q) 0

/-- sum_group (R133), as FP32 bits. -/
def sumGroup (ts : List FV) : Nat :=
  let infs := ts.filterMap fun t => match t with | .inf n => some n | _ => none
  if ts.contains .nan || (infs.contains true && infs.contains false) then defaultNaN .f32
  else match infs with
    | n :: _ => infBits .f32 n
    | [] =>
      let fs := ts.filterMap fun t => match t with | .fin x => some x | _ => none
      let nz := fs.filter fun x => x.num != 0
      match nz with
      | [] => zeroBits .f32 (fs.all fun x => x.neg)
      | x :: r =>
        let e := r.foldl (fun acc y => max acc y.log2) x.log2
        let s := truncated (e - 47) nz
        if s = 0 then 0 else round .f32 .rn (scaled (decide (s < 0)) s.natAbs (e - 47))

/-- dot (R133): groups of 32 in ascending order, from an FP32 accumulator. -/
def dotGroups : Nat → Nat → List FV → List FV → Nat
  | 0, acc, _, _ => acc
  | n + 1, acc, a, b =>
    dotGroups n (sumGroup (toFV .f32 acc :: List.zipWith mulFV (a.take 32) (b.take 32))) (a.drop 32) (b.drop 32)

def dot (acc : Nat) (a b : List FV) : Nat := dotGroups (a.length / 32) acc a b

/-! ### Columns of a tile -/

/-- Where the bytes of block `b` of a tensor lie: mantissa words, exponent (R92, R93). -/
def blockAt (d : TDesc) (b : Nat) : Nat × Nat :=
  ((d.mbase + 4 * d.elem * b) % 2 ^ 64, (d.ebase + b) % 2 ^ 64)

/-- The 32 elements of a block from its mantissa bytes and its exponent. -/
def blockElems (m : Nat) (bs : List Byte) (e : Nat) : List FV :=
  let words (j : Nat) : Nat := Tensor.fieldAt bs (4 * j) 4
  (List.range 32).map fun i => Block.raw m e (Block.mantissa m (Block.element m words i))

/-- 16-bit elements from bytes. -/
def halves (f : FFmt) (bs : List Byte) (n : Nat) : List FV :=
  (List.range n).map fun k => toFV f (Tensor.fieldAt bs (2 * k) 2)

/-- Elements of column `n` of a tile whose stored bytes are given, elements or mantissas first (R136); `halves'`
lists the reduction halves wanted (R137). -/
def column (elem : Nat) (f : FFmt) (bs : List Byte) (n : Nat) (halves' : List Nat) : List FV :=
  halves'.flatMap fun h =>
    if elem = 16 then halves f (bs.drop (128 * n + 64 * h)) 32
    else
      let b := 2 * n + h
      blockElems elem (bs.drop (4 * elem * b)) (Tensor.fieldAt bs (1024 * elem + b) 1)

end Sys2Proof.Machine.Dot
end

