-- ==== Sys2Proof/Machine/Memory.lean ====
section
/-! DEFINITION. LD, ST, GATHER, SCATTER, ATOM, FENCE, WAIT and PREF (R234 to R248, R256). -/

namespace Sys2Proof.Machine

open Sys2Proof (SMap Opd Opds Scope)
open Operands

namespace MemI

/-! ### Addresses and the checks of R238 -/

/-- R235's address of a lane. -/
def addr (o : Opds) (g : Group) (i : Nat) : Nat :=
  let idx := match o.b with | .k n => (g.rk n.toNat).toNat | _ => 0
  ((get64 false o g o.a i).toNat + idx + (Bits.sext64 o.imm).toNat) % 2 ^ 64

/-- R244's address of a lane. -/
def laneAddr (o : Opds) (g : Group) (i : Nat) : Nat :=
  let off := match o.c with | .v n => (g.rv n.toNat i).toNat | _ => 0
  ((get64 false o g o.a i).toNat + off + (Bits.sext64 o.imm).toNat) % 2 ^ 64

/-- The issuing fragment's right to pages with U = 0 (R337). -/
def priv (s : State) : Bool := s.isKernel || s.inHandler

/-- What the leaf of an access gives it: MLOCK of a write, its page, HYP, the tensor of a tile page. -/
def access (want : Want) (i va n : Nat) (loc : Loc) (leaf : Option Leaf) : Access :=
  { lane := i, va := va, loc := loc, size := n, locked := want != .load && (leaf.map Leaf.mlock).getD false,
    page := (leaf.map fun l => (l.base, l.size)).getD (0, 0)
    hypPage := (leaf.map Leaf.hyp).getD false, leaf := leaf
    tile := leaf.bind fun l => if l.layout == 0 then none else some l.tensor }

/-- R206, R246: the layout class an access of this kind may not meet. -/
def layoutBad (want : Want) (loc : Loc) (leaf : Option Leaf) : Bool :=
  want == .atomic && ((leaf.map Leaf.layout).getD 0 != 0 || (match loc with | .host _ => true | _ => false))

/-- R267: a write under a hypothesis to a page that takes no version, to a peer or to the host. -/
def hypBad (want : Want) (h : BitVec 16) (loc : Loc) (leaf : Option Leaf) : Bool :=
  want != .load && h != 0#16 && (match loc with
    | .loc _ _ => false
    | .hbm _ => !(leaf.map Leaf.hyp).getD false
    | .peer _ _ _ | .host _ => true)

/-- The checks of R238 and R267 on one lane's access, in order: the cause, or the access. -/
def check (s : State) (want : Want) (i va n : Nat) : Except Nat Access :=
  if va % n ≠ 0 then .error (if want == .atomic then 0x24 else 0x28)
  else match s.find s.cur.grp (priv s) want va with
    | .fault c => .error c
    | .at' loc leaf =>
      if layoutBad want loc leaf then .error 0x25
      else if hypBad want s.grp.hcur loc leaf then .error 0x61
      else .ok (access want i va n loc leaf)

/-- The cause of a check that fails. -/
def causeOf : Except Nat Access → Option Nat
  | .error c => some c
  | .ok _ => none

/-- The lanes' checks together: the lowest failing non-helper lane, its cause, and the mask of lanes that fail alike. -/
def failing (s : State) (want : Want) (n : Nat) (lanes : List Nat) (at' : Nat → Nat) : Option (Nat × Nat × Mask) :=
  let tested := lanes.filter fun i => !s.grp.isHelper i
  let results := tested.map fun i => (i, causeOf (check s want i (at' i) n))
  (results.findSome? fun r => r.2.map fun c => (r.1, c)).map fun r =>
    (r.1, r.2, results.foldl (fun m x => if x.2 == some r.2 then m ||| Bits.bit x.1 else m) 0#32)

/-- TVAL of a failing access: its address, or the mask of lanes for GATHER and SCATTER (R238, R267). -/
def tvalOf (byMask : Bool) (at' : Nat → Nat) (f : Nat × Nat × Mask) : Nat :=
  if byMask && f.2.1 != 0x61 then f.2.2.toNat else at' f.1

/-- Whether the arena of the issuing context is low (R269). -/
def arenaLow (s : State) : Bool :=
  let t := s.treeAt s.ctx
  t.arenasz == 0 || decide (7 * t.arenasz < 8 * t.arena)

/-- R269: the trap of a write under a hypothesis while the arena is low; TVAL is its lowest lane's address. -/
def arenaTrap (s : State) (lanes : List Nat) (at' : Nat → Nat) : Option (Nat × Nat) :=
  if s.grp.hcur != 0#16 && arenaLow s then
    (lanes.find? fun i => !s.grp.isHelper i).map fun i => (0x62, at' i)
  else none

/-- The trap of a memory instruction, if its checks fail. -/
def trapOf (s : State) (want : Want) (n : Nat) (byMask : Bool) (lanes : List Nat) (at' : Nat → Nat) :
    Option (Nat × Nat) :=
  match failing s want n lanes at' with
  | some f => some (f.2.1, tvalOf byMask at' f)
  | none => if want == .load then none else arenaTrap s lanes at'

/-- A helper lane's access: it reads only, and reads zero where its checks fail (R239). -/
def helperAccess (s : State) (want : Want) (i va n : Nat) : Access :=
  match check s want i va n with
  | .ok a => { a with readOnly := true, locked := false }
  | .error _ => { lane := i, va := va, loc := .host 0, size := n, st := .performed, readOnly := true }

/-- A 16-byte access is two of 8 bytes, without order (R205). -/
def split (a : Access) : List Access :=
  if a.size = 16 then
    [{ a with size := 8 }, { a with size := 8, lane := a.lane + 32, va := a.va + 8, loc := a.loc.plus 8 }]
  else [a]

/-- The accesses of the lanes once the checks have passed. -/
def accesses (s : State) (want : Want) (n : Nat) (lanes : List Nat) (at' : Nat → Nat) : List Access :=
  lanes.flatMap fun i =>
    if s.grp.isHelper i then (if want == .store then [] else split (helperAccess s want i (at' i) n))
    else match check s want i (at' i) n with
      | .ok a => split a
      | .error _ => []

/-- Translations are kept in the cluster TLB (R344). -/
def translate (s : State) (as : List Access) : State :=
  let cl := s.clusterOf s.cur.grp
  as.foldl (fun s a => if 2 ^ 56 ≤ a.va || State.windowBase ≤ a.va then s else Paging.fill s cl s.ctx a.va) s

/-- Start an operation on lanes, and let the core do at once what it can; with no lane it is complete. -/
def start (s : State) (o : Op) : State :=
  let id := s.nextId
  let u := s.cur.grp
  let s := ((translate s o.lanes).startOp { o with done := o.lanes.isEmpty }).performOp u id
  s.setGrp s.grp.retire

/-! ### LD, GATHER -/

/-- The bytes of each lane's access (R236). -/
def bytesOf (o : Opds) : Nat := Forms.accessBytes o.c o.d.cls

/-- The width code that fills the destination, the natural one where field C has class 0. -/
def codeOf (o : Opds) : Nat :=
  match Forms.widthCode o.c with
  | some c => c
  | none => if o.d.cls == 1 then 4 else 5

/-- The lanes that access memory: one for a uniform access, else exec_mask. -/
def lanesOf (s : State) (o : Opds) : List Nat :=
  if o.d.cls == 2 && o.a.cls == 2 then [s.refLane] else Bits.members (s.exec o.guard)

/-- A load of any kind. -/
def load (s : State) (byMask : Bool) (n : Nat) (lanes : List Nat) (at' : Nat → Nat) (k : OpKind) (acq : Option Scope) :
    Res :=
  if !s.roomFor .loads then .hold false
  else match trapOf s .load n byMask lanes at' with
    | some t => .trap t.1 t.2
    | none => .done (start s { cls := .loads, kind := k, acq := acq, lanes := accesses s .load n lanes at' })

/-! ### ST, SCATTER -/

/-- The data that a lane stores, the second half of a 16-byte access from its upper bytes. -/
def dataOf (o : Opds) (g : Group) (n lane : Nat) : Nat :=
  let i := lane % 32
  (match o.d with
    | .v r => if n ≤ 4 then (g.rv r.toNat i).toNat else (g.rv2 (r.toNat + 2 * (lane / 32)) i).toNat
    | .k r => (g.rk r.toNat).toNat
    | .m r => (g.rm r.toNat i).toNat
    | _ => 0) % 2 ^ (8 * n)

/-- A store of any kind; a release at a wide scope sends back owned lines (R219). -/
def store (s : State) (byMask : Bool) (n : Nat) (lanes : List Nat) (at' : Nat → Nat) (o : Opds) (rel : Option Scope) :
    Res :=
  if !s.roomFor .stores then .hold false
  else match trapOf s .store n byMask lanes at' with
    | some t => .trap t.1 t.2
    | none =>
      let as := (accesses s .store n lanes at').map fun a => { a with value := dataOf o s.grp a.size a.lane }
      let s := start s { cls := .stores, kind := .store, rel := rel, lanes := as }
      .done (match rel with
        | some sc => if s.wideScope s.cur.grp sc then s.handBack s.cur.grp else s
        | none => s)

/-! ### ATOM -/

/-- R246's first operand, or compare value, of a lane. -/
def atomB (wide : Bool) (op : AtomOp) (o : Opds) (g : Group) (i : Nat) : Nat :=
  let sg := match op with | .add | .minS | .maxS => true | _ => false
  if wide then (get64 sg o g o.b i).toNat else (get32 sg o g o.b i).toNat

/-- The new value of a compare and swap. -/
def atomNewB (wide : Bool) (o : Opds) (g : Group) (i : Nat) : Nat :=
  match o.b with
  | .v n => if wide then (g.rv2 (n.toNat + 2) i).toNat else (g.rv (n.toNat + 1) i).toNat
  | .k n => if wide then (g.rk (n.toNat + 1)).toNat else (Bits.lo (g.rk (n.toNat + 1))).toNat
  | _ => 0

/-- A scope by its code (R68). -/
def scopeOf : Nat → Scope
  | 0 => .team | 1 => .cluster | 2 => .module | _ => .system

def atomAcq (o : Opds) : Option Scope :=
  if Forms.atomOrder o % 2 = 1 then some (scopeOf (Forms.atomScope o)) else none
def atomRel (o : Opds) : Option Scope :=
  if 2 ≤ Forms.atomOrder o then some (scopeOf (Forms.atomScope o)) else none

/-- ATOM; one that MLOCK keeps at the TLB holds the stores counter up too, so it needs room there (R34, R227). -/
def atomic (s : State) (wide : Bool) (op : AtomOp) (o : Opds) : Res :=
  let n := if wide then 8 else 4
  let at' := addr o s.grp
  let lanes := Bits.members (s.exec o.guard)
  if !s.roomFor .loads then .hold false
  else match trapOf s .atomic n false lanes at' with
    | some t => .trap t.1 t.2
    | none =>
      let as := (accesses s .atomic n lanes at').map fun a =>
        { a with value := if a.st == .waiting then atomB wide op o s.grp a.lane else 0,
                 value2 := atomNewB wide o s.grp a.lane }
      if as.any (·.locked) && !s.roomFor .stores then .hold false else
      let d : Dest := if Forms.atomNr o || o.d.cls == 0 then ⟨0, 0, 0⟩ else ⟨1, o.d.val, if wide then 5 else 4⟩
      let s := start s { cls := .loads, kind := .atomic op wide (Forms.atomNr o) d, acq := atomAcq o,
                         rel := atomRel o, lanes := as }
      .done (match atomRel o with
        | some sc => if s.wideScope s.cur.grp sc then s.handBack s.cur.grp else s
        | none => s)

/-! ### FENCE, WAIT, PREF -/

/-- A fence issues at once; the group's later accesses wait (R247). -/
def fence (s : State) (rel acq : Option Scope) : Res :=
  let s := s.startOp { cls := .none, kind := .fence, rel := rel, acq := acq }
  .done (match rel with
    | some sc => if s.wideScope s.cur.grp sc then s.handBack s.cur.grp else s
    | none => s)

/-- WAIT's limit for each class (R248). -/
def limit (imm : W32) : Cnt → Nat
  | .loads => Bits.field imm 5 0
  | .stores => Bits.field imm 11 6
  | .copies => Bits.field imm 17 12
  | .matrix => Bits.field imm 21 18
  | .bank => Bits.field imm 25 22
  | .walk => Bits.field imm 29 26
  | .none => 0

def counted : List Cnt := [.loads, .stores, .copies, .matrix, .bank, .walk]

/-- Whether a WAIT requires an operation: it is not among the last `limit` issued of its class. -/
def requires (g : Group) (imm : W32) (f : LateFault) : Bool :=
  limit imm f.cls != f.cls.max && decide (f.ord + limit imm f.cls < SMap.get 0 g.seqs (State.cntCode f.cls))

/-- The earliest issued fault among those a WAIT requires (R240). -/
def dueFault (g : Group) (imm : W32) : Option LateFault :=
  (g.faults.filter (requires g imm)).foldl (fun acc f =>
    match acc with
    | none => some f
    | some e => if f.id < e.id then some f else some e) none

/-- The fault has been reported: it is carried no longer, and LAST of BSTAT no longer shows it (R261). -/
def reported (f : LateFault) (g : Group) : Group :=
  let rest := g.faults.filter fun e => e.id != f.id
  let cleared := f.cls == .bank && g.bmvLast == 2 && rest.all fun e => e.cls != .bank
  { g with faults := rest, bmvLast := if cleared then (if g.bmvRecon then 1 else 0) else g.bmvLast }

/-- MMAs that a WAIT shows to be complete are exposed no longer (R144). -/
def shown (imm : W32) (g : Group) : Group :=
  { g with exposed := g.exposed.filter fun e =>
      !(limit imm .matrix != Cnt.matrix.max && decide (e.ord + limit imm .matrix < SMap.get 0 g.seqs (State.cntCode .matrix))) }

def wait (s : State) (imm : W32) : Res :=
  let g := s.grp
  if counted.all fun c => limit imm c == c.max || decide (g.counter c ≤ limit imm c) then
    match dueFault g imm with
    | none => .done (s.setGrp (shown imm g))
    | some f => if s.mustWait then .trap f.cause f.tval else .trapWith (fun s => s.setGrp (reported f s.grp)) f.cause f.tval
  else .hold false

/-- The line that a level-0 PREF installs for a lane (R256). -/
def prefetch (s : State) (o : Opds) (i : Nat) : State :=
  let va := addr o s.grp i
  let u := s.cur.grp
  match check s .load i va 1 with
  | .error _ => s
  | .ok a =>
    let s := translate s [a]
    let h := s.grp.hcur
    let t := a.tag s.ctx h
    match a.loc with
    | .hbm p =>
      let s := s.handOver (s.l1Of u) t (lineOf p)
      if (s.ownerOf (lineOf p)).isSome || s.foreign (s.l1Of u) t (lineOf p) then s
      else
        let expiry := s.gtime + s.rlease s.ctx
        (s.l1Install (s.l1Of u) t p [] h (if a.hypPage then h else 0#16) expiry).raiseFrontier (lineOf p) expiry
    | _ => s

end MemI

open MemI

def execLd (sc : Scope) (acq : Bool) (o : Opds) (s : State) : Host.Outcome State Fault Refusal :=
  issue (.ld sc acq o) s fun s =>
    load s false (bytesOf o) (lanesOf s o) (addr o s.grp) (.load ⟨o.d.cls, o.d.val, codeOf o⟩)
      (if acq then some sc else none)

def execSt (sc : Scope) (rel : Bool) (o : Opds) (s : State) : Host.Outcome State Fault Refusal :=
  issue (.st sc rel o) s fun s =>
    store s false (bytesOf o) (lanesOf s o) (addr o s.grp) o (if rel then some sc else none)

def execGather (sc : Scope) (o : Opds) (s : State) : Host.Outcome State Fault Refusal :=
  issue (.gather sc o) s fun s =>
    load s true (Forms.widthBytes (Forms.code o.b)) (Bits.members (s.exec o.guard)) (laneAddr o s.grp)
      (.gather ⟨1, o.d.val, Forms.code o.b⟩) none

def execScatter (sc : Scope) (o : Opds) (s : State) : Host.Outcome State Fault Refusal :=
  issue (.scatter sc o) s fun s =>
    store s true (Forms.widthBytes (Forms.code o.b)) (Bits.members (s.exec o.guard)) (laneAddr o s.grp) o none

def execAtom (wide : Bool) (op : AtomOp) (o : Opds) (s : State) : Host.Outcome State Fault Refusal :=
  issue (.atom wide op o) s fun s => atomic s wide op o

def execFenceRel (sc : Scope) (o : Opds) (s : State) : Host.Outcome State Fault Refusal :=
  issue (.fenceRel sc o) s fun s => fence s (some sc) none

def execFenceAcq (sc : Scope) (o : Opds) (s : State) : Host.Outcome State Fault Refusal :=
  issue (.fenceAcq sc o) s fun s => fence s none (some sc)

def execFenceAr (sc : Scope) (o : Opds) (s : State) : Host.Outcome State Fault Refusal :=
  issue (.fenceAr sc o) s fun s => fence s (some sc) (some sc)

def execWait (o : Opds) (s : State) : Host.Outcome State Fault Refusal :=
  issue (.wait o) s fun s => wait s o.imm

def execPref (o : Opds) (s : State) : Host.Outcome State Fault Refusal :=
  issue (.pref o) s fun s =>
    .done (if Forms.code o.d = 0 then (Bits.members (s.exec o.guard)).foldl (fun s i => prefetch s o i) s else s)

end Sys2Proof.Machine
end

