-- ==== Sys2Proof/Machine/Flags.lean ====
section
/-! DEFINITION. The flags of this hardware are the predicate registers (R22): comparisons (R113, R118), and how an
instruction writes a predicate in lanes or in every active lane. -/

namespace Sys2Proof.Machine.Flags

open Sys2Proof (Opds)

/-- The comparison codes of ICMP (R113) at a width. -/
def icmp (w : Nat) (signed : Bool) (code : Nat) (a b : BitVec w) : Bool :=
  let lt := if signed then a.slt b else a.ult b
  match code with
  | 0 => a == b
  | 1 => a != b
  | 2 => lt
  | 3 => lt || a == b
  | 4 => !(lt || a == b)
  | _ => !lt

/-- ICMP's comparison at a type. -/
def icmpAt (ty : IType) (code : Nat) (a b : W64) : Bool :=
  if ty.wide then icmp 64 ty.signed code a b else icmp 32 ty.signed code (Bits.lo a) (Bits.lo b)

/-- Write a predicate in the lanes of exec_mask, lane by lane. -/
def setLanes (s : State) (p : Opd) (gd : Guard) (val : Nat → Bool) : State :=
  s.setGrp (s.grp.wp p.val (s.exec gd) (Bits.maskOf val))

/-- Write one truth value in the lanes of exec_mask. -/
def setExec (s : State) (p : Opd) (gd : Guard) (val : Bool) : State :=
  s.setGrp (s.grp.wp p.val (s.exec gd) (if val then ~~~0#32 else 0#32))

/-- Write one truth value in every lane of active_mask. -/
def setActive (s : State) (p : Opd) (val : Bool) : State :=
  s.setGrp (s.grp.wp p.val s.active (if val then ~~~0#32 else 0#32))

end Sys2Proof.Machine.Flags
end

