-- ==== Sys2Proof/Machine/XMath.lean ====
section
/-! DEFINITION. Exact results beyond the rationals: A + B·√D by integer square roots, and exponentials,
logarithms and the normal distribution by fixed point at growing precision (R165, R166, R170). -/

namespace Sys2Proof.XMath

open Sys2Proof.Float

/-- A value and a zero of sign `neg`: the sum of two zeros of opposite sign is +0 (R88). -/
def plusZero (a : Ex) (neg : Bool) : Ex := if a.num = 0 && !neg then { a with neg := false } else a

/-- A + s·√E for rational A and E ≥ 0, `neg` giving s = −1: exact where the root is rational, else the interval. -/
def plusRoot (a : Ex) (neg : Bool) (e : Ex) : Ex :=
  if e.num = 0 then plusZero a neg
  else
    let r := sqrtEx e
    if r.num * r.num * e.den = e.num * (r.den * r.den) then
      addZ' a (if neg then r.negate else r)
    else
      -- (P + s·√Q) / R at 2^151
      let p : Int := a.int * e.den * (2 ^ cut : Nat)
      let q := isqrt (a.den * a.den * e.num * e.den * 2 ^ (2 * cut))
      let den := a.den * e.den
      let lo : Int := if neg then p - q - 1 else p + q
      if 0 ≤ lo then between false (lo.toNat / den) else between true ((-lo - 1).toNat / den)
where
  /-- a sum whose zero is +0 -/
  addZ' (x y : Ex) : Ex := x.addZ false y

/-- A signed fixed-point approximation cut to 151 bits at growing precision. -/
def refineI (f : Nat → Int) : List Nat → Ex
  | [] => between false 0
  | p :: r =>
    let v := f p
    match cutFix p v.natAbs with
    | some n => between (decide (v < 0)) n
    | none => match r with
      | [] => between (decide (v < 0)) (v.natAbs / 2 ^ (p - cut))
      | _ => refineI f r

/-- An exact value at `p` fraction bits. -/
def fix (p : Nat) (x : Ex) : Int := x.int * (2 ^ p : Nat) / x.den

/-- e^x at `p` fraction bits for |x| below about 400; far below, 0. -/
def expQ (p : Nat) (x : Ex) : Int :=
  if x.lt (Ex.ofInt (-1500)) then 0
  else
    let p' := p + 700
    let v := fix p' x
    let k := v / (ln2 p' : Int)
    let r := (v - k * ln2 p').toNat
    let y : Int := (expFix p' r : Nat)
    if 0 ≤ k then y * (2 ^ k.toNat : Nat) / (2 ^ 700 : Nat) else y / (2 ^ (700 + (-k).toNat) : Nat)

/-- ln x at `p` fraction bits for x > 0. -/
def lnQ (p : Nat) (x : Ex) : Int :=
  let l := x.log2
  let n := if 0 ≤ l then x.num else x.num * 2 ^ (-l).toNat
  let d := if 0 ≤ l then x.den * 2 ^ l.toNat else x.den
  l * (ln2 p : Int) + (lnRatio p n d : Nat)

/-- √x at `p` fraction bits. -/
def sqrtQ (p : Nat) (x : Ex) : Int := (isqrt (x.num * x.den * 2 ^ (2 * p)) / x.den : Nat)

/-- φ(α) and Φ(α) at `p` fraction bits for α = √q with the sign `neg`, |α| < 40:
Φ = 1/2 ± φ·Σ α^(2n+1)/(2n+1)!!, every term positive. -/
def normal (p : Nat) (neg : Bool) (q : Ex) : Int × Int :=
  let phi0 := expQ p (q.div ⟨true, 2, 1⟩)
  let root2pi : Int := isqrt (2 * piFix p * 2 ^ p)
  let phi := phi0 * (2 ^ p : Nat) / root2pi
  let a := (sqrtQ p q).toNat
  let q' := (fix p q).toNat
  let sum := ((List.range (2 * p)).foldl (fun (acc : Nat × Nat) n =>
    let t := acc.1 * q' / 2 ^ p / (2 * n + 3)
    (t, acc.2 + t)) (a, a)).2
  let half := phi * sum / (2 ^ p : Nat)
  (phi, if neg then (2 ^ (p - 1) : Nat) - half else (2 ^ (p - 1) : Nat) + half)

/-- exp(x) rounded to FP32. -/
def expF (x : Ex) : Nat :=
  if x.num = 0 then 0x3F800000
  else if (Ex.ofInt 90).lt x then infBits .f32 false
  else if x.lt (Ex.ofInt (-106)) then 0
  else round .f32 .rn (refineI (fun p => expQ p x) precisions)

/-- (exp(v) − 1)·exp(2m + v) rounded to FP32, v > 0. -/
def expVar (m v : Ex) : Nat :=
  let e1 := (m.add m).add v
  let e2 := e1.add v
  if (Ex.ofInt 200).lt e1 || ((Ex.ofInt 90).lt e2 && Ex.one.lt v) then infBits .f32 false
  else if e2.lt (Ex.ofInt (-106)) then 0
  else round .f32 .rn (refineI (fun p => (expQ (p + 64) e2 - expQ (p + 64) e1) / (2 ^ 64 : Nat)) precisions)

/-- ln m − r rounded to FP32, for m > 0 and rational r. -/
def lnMinus (m r : Ex) : Nat :=
  if m.num = m.den then round .f32 .rn (Ex.addZ false Ex.zero r.negate)
  else round .f32 .rn (refineI (fun p => lnQ p m - fix p r) precisions)

/-- The rectified moments of a Gaussian (R166, MRELU): mean and variance bits, for v > 0. -/
def relu (m v : Ex) : Nat × Nat :=
  let q := (m.mul m).div v
  if !(q.abs.lt (Ex.ofInt 1600)) then (if m.neg then (0, 0) else (round .f32 .rn m, round .f32 .rn v))
  else
    let parts (p : Nat) : Int × Int :=
      let w := p + 2600
      let s := sqrtQ w v
      let mu := fix w m
      let (phi, big) := normal w m.neg q.abs
      let one : Int := (2 ^ w : Nat)
      let m1 := (mu * big + s * phi) / one
      let second := ((mu * mu / one + fix w v) * big + mu * s / one * phi) / one
      ((m1 / (2 ^ 2600 : Nat)), (second - m1 * m1 / one) / (2 ^ 2600 : Nat))
    (round .f32 .rn (refineI (fun p => (parts p).1) precisions),
     round .f32 .rn (refineI (fun p => (parts p).2) precisions))

/-- The sampling function g at `p` fraction bits (R170); u lies in [2^-24, 1 − 2^-24]. -/
def gQ (p : Nat) (u : Ex) : Int :=
  if u.eq ⟨false, 1, 2⟩ then 0
  else
    let low := u.lt ⟨false, 1, 2⟩
    let pr := if low then u else Ex.one.sub u
    let one : Int := (2 ^ p : Nat)
    let l := -(lnQ p pr)
    let w : Int := isqrt ((2 * l).toNat * 2 ^ p)
    let c (n : Nat) : Int := n * one / 1000000
    let w2 := w * w / one
    let w3 := w2 * w / one
    let num := c 2515517 + c 802853 * w / one + c 10328 * w2 / one
    let den := one + c 1432788 * w / one + c 189269 * w2 / one + c 1308 * w3 / one
    let x := w - num * one / den
    if low then -x else x

/-- Whether g(u) is negative: no FP32 u comes near enough to a zero of g for 320 bits not to tell. -/
def gNeg (u : Ex) : Bool := decide (gQ 320 u < 0)

/-- μ + √v·g(u) rounded to FP32, v > 0. -/
def sampleF (m v u : Ex) : Nat :=
  if u.eq ⟨false, 1, 2⟩ then round .f32 .rn (plusZero m false)
  else round .f32 .rn (refineI (fun p =>
    let w := p + 320
    (fix w m + sqrtQ w v * gQ w u / (2 ^ w : Nat)) / (2 ^ 320 : Nat)) precisions)

end Sys2Proof.XMath
end

