-- ==== Sys2Proof/Machine/Moment.lean ====
section
/-! DEFINITION. Moment registers and moment matching (R161 to R171). -/

namespace Sys2Proof.Machine

open Operands Sys2Proof.Float

namespace Moment

/-- Mean and variance of a pair (R161). -/
def mean (x : W64) : FV := fval (Bits.lo x)
def var (x : W64) : FV := fval (Bits.hi x)

/-- A variance below zero, −∞ included; −0 counts as +0. -/
def negative : FV → Bool
  | .nan => false
  | .inf n => n
  | .fin x => x.neg && x.num != 0

def isZero : FV → Bool
  | .fin x => x.num == 0
  | _ => false

/-- A variance as a magnitude: −0 is +0. -/
def plus : FV → FV
  | .fin x => if x.num = 0 then .fin Ex.zero else .fin x
  | v => v

def bits (v : FV) : Nat := roundFV .f32 .rn v
/-- A variance result that is zero is +0 (R165). -/
def clean (b : Nat) : Nat := if b = 0x80000000 then 0 else b

/-- A pair from the bits of mean and variance. -/
def pair (m v : Nat) : W64 := Bits.join (BitVec.ofNat 32 (clean v)) (BitVec.ofNat 32 m)
/-- Both components the default NaN. -/
def nanPair : W64 := pair (defaultNaN .f32) (defaultNaN .f32)

def add (a b : FV) : FV := addFV .rn a b
def mul (a b : FV) : FV := mulFV a b
def two : FV := .fin ⟨false, 2, 1⟩

/-- a + b·√d for values of any kind; `d` is a product of two variances. DEDUCED (log 74): an infinite `a` against an infinite
root of the other sign is ∞ − ∞, the default NaN, and no limit is looked for (R165). -/
def rootSum (a b d : FV) : FV :=
  match a, b, d with
  | .fin x, .fin y, .fin z => .fin (XMath.plusRoot x y.neg ((y.mul y).mul z))
  | _, _, .nan => .nan
  | _, _, _ => add a (mul b d)

/-- The covariance: none for independent operands, the exact product va·vb under a root, or an operand. -/
inductive Cov where
  | indep
  | root (neg : Bool)
  | given (c : FV)
deriving DecidableEq, Repr

/-- R162's check of an explicit covariance. -/
def excess (c va vb : FV) : Bool :=
  match c with
  | .nan => va != .nan && vb != .nan
  | c =>
    if va == .nan || vb == .nan then false
    else
      let p := if isZero va || isZero vb then .fin Ex.zero else mul va vb
      ltFV p (mul c c)

/-- MADD and MSUB (R166): `sub` gives the sign of the second operand and of c. -/
def addPair (sub : Bool) (a b : W64) (c : Cov) : W64 :=
  if [mean a, var a, mean b, var b].contains .nan then nanPair
  else
    let va := plus (var a)
    let vb := plus (var b)
    let m := add (mean a) (if sub then (mean b).negate else mean b)
    let v := match c with
      | .indep => add va vb
      | .root n => rootSum (add va vb) (.fin ⟨n != sub, 2, 1⟩) (mul va vb)
      | .given c => add (add va vb) (mul (.fin ⟨sub, 2, 1⟩) c)
    pair (bits m) (bits v)

/-- MMUL (R166). DEDUCED (log 74): of infinite terms of both signs the component is the default NaN. -/
def mulPair (a b : W64) (c : Cov) : W64 :=
  if [mean a, var a, mean b, var b].contains .nan then nanPair
  else
    let ma := mean a
    let mb := mean b
    let va := plus (var a)
    let vb := plus (var b)
    let base := add (add (mul (mul ma ma) vb) (mul (mul mb mb) va)) (mul va vb)
    match c with
    | .indep => pair (bits (mul ma mb)) (bits base)
    | .root n =>
      pair (bits (rootSum (mul ma mb) (.fin ⟨n, 1, 1⟩) (mul va vb)))
        (bits (rootSum (add base (mul va vb)) (mul (mul two (mul ma mb)) (.fin ⟨n, 1, 1⟩)) (mul va vb)))
    | .given c =>
      pair (bits (add (mul ma mb) c))
        (bits (add (add base (mul (mul two (mul ma mb)) c)) (mul c c)))

/-- MSCL: s·μ + t and s²·v. -/
def sclPair (a : W64) (sc t : FV) : W64 :=
  if [mean a, var a].contains .nan then nanPair
  else pair (bits (add (mul sc (mean a)) t)) (bits (mul (mul sc sc) (plus (var a))))

/-- MSQR: μ² + v and 4μ²v + 2v². -/
def sqrPair (a : W64) : W64 :=
  if [mean a, var a].contains .nan then nanPair
  else
    let v := plus (var a)
    let m2 := mul (mean a) (mean a)
    pair (bits (add m2 v)) (bits (add (mul (mul (.fin ⟨false, 4, 1⟩) m2) v) (mul two (mul v v))))

/-- MRCP (R166, R167). -/
def rcpPair (a : W64) : W64 :=
  match mean a, plus (var a) with
  | .nan, _ | _, .nan => nanPair
  | m, v =>
    if isZero v then pair (rcp .rn (Bits.lo a).toNat) 0
    else if isZero m then nanPair
    else match m, v with
      | .inf _, .inf _ => nanPair
      | .inf n, _ => pair (zeroBits .f32 n) 0
      | .fin x, .inf _ => pair (infBits .f32 x.neg) (infBits .f32 false)
      | .fin x, .fin y =>
        let x2 := x.mul x
        pair (round .f32 .rn ((Ex.one.div x).add (y.div (x2.mul x)))) (round .f32 .rn (y.div (x2.mul x2)))
      | _, _ => nanPair

/-- MEXP. -/
def expPair (a : W64) : W64 :=
  match mean a, plus (var a) with
  | .nan, _ | _, .nan => nanPair
  | .inf n, v =>
    if isZero v then pair (if n then 0 else infBits .f32 false) 0
    else if n then (match v with | .inf _ => nanPair | _ => pair 0 0)
    else pair (infBits .f32 false) (infBits .f32 false)
  | .fin _, .inf _ => pair (infBits .f32 false) (infBits .f32 false)
  | .fin x, .fin y =>
    if y.num = 0 then pair (XMath.expF x) 0
    else pair (XMath.expF (x.add (y.div ⟨false, 2, 1⟩))) (XMath.expVar x y)

/-- MLOG. -/
def logPair (a : W64) : W64 :=
  match mean a, plus (var a) with
  | .nan, _ | _, .nan => nanPair
  | .inf n, v =>
    if n then nanPair
    else match v with
      | .inf _ => nanPair
      | _ => pair (infBits .f32 false) 0
  | .fin x, v =>
    if x.num = 0 then (if isZero v then pair (infBits .f32 true) 0 else nanPair)
    else if x.neg then nanPair
    else match v with
      | .fin y =>
        let r := y.div (x.mul x)
        pair (XMath.lnMinus x (r.div ⟨false, 2, 1⟩)) (round .f32 .rn r)
      | _ => pair (infBits .f32 true) (infBits .f32 false)

/-- MRELU (R166, R167). -/
def reluPair (a : W64) : W64 :=
  match mean a, plus (var a) with
  | .nan, _ | _, .nan => nanPair
  | .inf n, .inf _ => if n then nanPair else pair (infBits .f32 false) (infBits .f32 false)
  | .fin _, .inf _ => pair (infBits .f32 false) (infBits .f32 false)
  | .inf n, .fin y => if n then pair 0 0 else pair (infBits .f32 false) (if y.num = 0 then 0 else round .f32 .rn y)
  | .fin x, .fin y =>
    if y.num = 0 then pair (if x.neg || x.num = 0 then 0 else round .f32 .rn x) 0
    else let r := XMath.relu x y; pair r.1 r.2

/-- MCOL (R169, R170); `k` is the field B operand. DEDUCED (log 74): zero times an infinite root is the default NaN. -/
def collapse (kind : MCol) (a : W64) (k : W32) : W32 :=
  let m := mean a
  let v := plus (var a)
  match kind with
  | .mean => Bits.lo a
  | .var => Bits.hi a
  | .sd => BitVec.ofNat 32 (sqrt .rn (clean (Bits.hi a).toNat))
  | .msd =>
    if m == .nan || v == .nan || fval k == .nan then BitVec.ofNat 32 (defaultNaN .f32)
    else if isZero v then Bits.lo a
    else match m, fval k, v with
      | .fin x, .fin y, .fin z => BitVec.ofNat 32 (round .f32 .rn (XMath.plusRoot x y.neg ((y.mul y).mul z)))
      | m, y, z => BitVec.ofNat 32 (bits (add m (mul y z)))
  | .sample =>
    if m == .nan || v == .nan then BitVec.ofNat 32 (defaultNaN .f32)
    else if isZero v then Bits.lo a
    else
      let small : Ex := ⟨false, 1, 2 ^ 24⟩
      let u : Ex := match fval k with
        | .nan => ⟨false, 1, 2⟩
        | .inf n => if n then small else Ex.one.sub small
        | .fin y => if y.lt small then small else if (Ex.one.sub small).lt y then Ex.one.sub small else y
      match m, v with
      | .fin x, .fin z => BitVec.ofNat 32 (XMath.sampleF x z u)
      | m, z =>
        if u.eq ⟨false, 1, 2⟩ then (match z with | .inf _ => BitVec.ofNat 32 (defaultNaN .f32) | _ => Bits.lo a)
        else BitVec.ofNat 32 (bits (add m (mul z (.fin ⟨XMath.gNeg u, 1, 1⟩))))

/-- MCHK (R171). -/
def check (a : W64) (tau theta : FV) : Bool :=
  let m := mean a
  let v := var a
  if m == .nan then true
  else match v with
    | .nan | .inf _ => true
    | v =>
      let bound := add (mul tau (mul m m)) theta
      negative v || bound == .nan || ltFV bound (plus v)

/-- An m operand in a lane. -/
def getM (g : Group) (x : Opd) (i : Nat) : W64 := match x with | .m n => g.rm n.toNat i | _ => 0#64

/-- An FP32 operand, +0 where the field has class 0. -/
def getFp (o : Opds) (g : Group) (x : Opd) (i : Nat) : FV := fval (get32 false o g x i)

/-- How an m result is put. -/
def putM (d : Opd) (i : Nat) (x : W64) (g : Group) : Group :=
  match d with | .m n => g.wm n.toNat i x | _ => g

/-- The lanes of exec_mask for which `bad` holds. -/
def lanesWhere (s : State) (o : Opds) (bad : Group → Nat → Bool) : Mask :=
  s.exec o.guard &&& Bits.maskOf (bad s.grp)

/-- A moment instruction that writes an m register: the check of R161 on the variances it reads, then the result. -/
def unary (f : W64 → W64) (o : Opds) (s : State) : Res :=
  let m := lanesWhere s o fun g i => negative (var (getM g o.a i))
  if m != 0#32 then .trap 0x08 m.toNat
  else .done (write s o (putM o.d) fun g i => f (getM g o.a i))

/-- The covariance an instruction reads in a lane (R162). -/
def covOf (s : State) (o : Opds) (g : Group) (i : Nat) : Cov :=
  match Bits.field s.grp.mcr 1 0 with
  | 0 => .indep
  | 1 => .root false
  | 2 => .root true
  | _ => .given (getFp o g o.c i)

/-- MADD, MSUB and MMUL. -/
def binary (f : W64 → W64 → Cov → W64) (o : Opds) (s : State) : Res :=
  let m := lanesWhere s o fun g i => negative (var (getM g o.a i)) || negative (var (getM g o.b i))
  if m != 0#32 then .trap 0x08 m.toNat
  else
    let x := lanesWhere s o fun g i =>
      match covOf s o g i with
      | .given c => excess c (plus (var (getM g o.a i))) (plus (var (getM g o.b i)))
      | _ => false
    if x != 0#32 then .trap 0x09 x.toNat
    else .done (write s o (putM o.d) fun g i => f (getM g o.a i) (getM g o.b i) (covOf s o g i))

end Moment

/-- MSET: mean from field A, variance from field B (R166). -/
def execMset (o : Opds) (s : State) : Host.Outcome State Fault Refusal :=
  issue (.mset o) s fun s =>
    let m := Moment.lanesWhere s o fun g i => Moment.negative (Moment.getFp o g o.b i)
    if m != 0#32 then .trap 0x08 m.toNat
    else .done (write s o (Moment.putM o.d) fun g i =>
      let a := get32 false o g o.a i
      let b := get32 false o g o.b i
      if fval a == .nan || fval b == .nan then Moment.nanPair else Moment.pair a.toNat b.toNat)

def execMadd (o : Opds) (s : State) : Host.Outcome State Fault Refusal :=
  issue (.madd o) s (Moment.binary (Moment.addPair false) o)

def execMsub (o : Opds) (s : State) : Host.Outcome State Fault Refusal :=
  issue (.msub o) s (Moment.binary (Moment.addPair true) o)

def execMmul (o : Opds) (s : State) : Host.Outcome State Fault Refusal :=
  issue (.mmul o) s (Moment.binary Moment.mulPair o)

def execMscl (o : Opds) (s : State) : Host.Outcome State Fault Refusal :=
  issue (.mscl o) s fun s =>
    let m := Moment.lanesWhere s o fun g i => Moment.negative (Moment.var (Moment.getM g o.a i))
    if m != 0#32 then .trap 0x08 m.toNat
    else .done (write s o (Moment.putM o.d) fun g i =>
      Moment.sclPair (Moment.getM g o.a i) (Moment.getFp o g o.b i) (Moment.getFp o g o.c i))

def execMsqr (o : Opds) (s : State) : Host.Outcome State Fault Refusal :=
  issue (.msqr o) s (Moment.unary Moment.sqrPair o)

def execMrcp (o : Opds) (s : State) : Host.Outcome State Fault Refusal :=
  issue (.mrcp o) s (Moment.unary Moment.rcpPair o)

def execMexp (o : Opds) (s : State) : Host.Outcome State Fault Refusal :=
  issue (.mexp o) s (Moment.unary Moment.expPair o)

def execMrelu (o : Opds) (s : State) : Host.Outcome State Fault Refusal :=
  issue (.mrelu o) s (Moment.unary Moment.reluPair o)

def execMlog (o : Opds) (s : State) : Host.Outcome State Fault Refusal :=
  issue (.mlog o) s (Moment.unary Moment.logPair o)

/-- MCOL.mean copies its bits and checks nothing (R169). -/
def execMcol (kind : MCol) (o : Opds) (s : State) : Host.Outcome State Fault Refusal :=
  issue (.mcol kind o) s fun s =>
    let m := Moment.lanesWhere s o fun g i => kind != .mean && Moment.negative (Moment.var (Moment.getM g o.a i))
    if m != 0#32 then .trap 0x08 m.toNat
    else .done (write s o (putInt .n32 o.d) fun g i =>
      Bits.zext64 (Moment.collapse kind (Moment.getM g o.a i) (get32 false o g o.b i)))

/-- MCHK (R171). -/
def execMchk (o : Opds) (s : State) : Host.Outcome State Fault Refusal :=
  issue (.mchk o) s fun s =>
    let g := s.grp
    let (tau, theta) := match o.b with
      | .k n => (fval (Bits.lo (g.rk n.toNat)), fval (Bits.hi (g.rk n.toNat)))
      | _ => (fval o.imm, FV.fin Ex.zero)
    .done (Flags.setLanes s o.d o.guard fun i => Moment.check (Moment.getM g o.a i) tau theta)

end Sys2Proof.Machine
end

