-- ==== Sys2Proof/Machine/Placement.lean ====
section
/-! DEFINITION. What a team takes: granules, register slots, the save area and its stride (R24, R38, R40, R44 to
R46), what fits on a core (R43, R301, R303), and the groups of a role (R28). -/

namespace Sys2Proof.Machine

open Sys2Proof (SMap)

/-! ### Counts as rounded (R38) -/

/-- Register counts of a role, rounded up to granules of 8. -/
def Role.nv (r : Role) : Nat := Bits.alignUp r.vregs 8
def Role.nk (r : Role) : Nat := Bits.alignUp r.kregs 8
def Role.nm (r : Role) : Nat := Bits.alignUp r.mregs 8

/-- Groups of a role (R28). -/
def Role.groups (r : Role) : Nat := (r.lanes + 31) / 32

/-- Lanes of group `i` of a role before helper lanes complete its last quad. -/
def Role.lanesOf (r : Role) (i : Nat) : Nat := Nat.min 32 (r.lanes - 32 * i)

/-- PRESENT and HELPERS of a group with `n` lanes (R28). -/
def presentOf (n : Nat) : Mask := Bits.maskOf fun i => decide (i < Bits.alignUp n 4)
def helpersOf (n : Nat) : Mask := Bits.maskOf fun i => decide (n ≤ i) && decide (i < Bits.alignUp n 4)

/-- LOCALSZ, rounded up to 1 KiB. -/
def Record.local' (r : Record) : Nat := Bits.alignUp r.localsz 1024

/-- Granules of window `n` (R40). -/
def Record.granules (r : Record) (n : Nat) : Nat := if r.zmom.getLsbD n then 2 else 1

/-- The windows bound at team start: ascending, until one no longer fits the budget (R40). -/
def bindFrom (r : Record) : List Nat → Nat → List Nat
  | [], _ => []
  | n :: rest, left => if r.granules n ≤ left then n :: bindFrom r rest (left - r.granules n) else []

def Record.windows (r : Record) : List Nat := bindFrom r (List.range 16) r.zbudget

/-! ### The save area (R44 to R46) -/

/-- Bytes of a group record. -/
def recordBytes (nv nk nm : Nat) : Nat := 1024 + 64 * (nk / 8) + 1024 * (nv / 8) + 2048 * (nm / 8)

/-- Bytes of a team's save area, from its window granules, local memory and group records. -/
def saveBytes (granules localsz records : Nat) : Nat := 4096 + 16384 * granules + localsz + records

/-- The stride of a launch's save areas. -/
def Record.stride (r : Record) : Nat :=
  let g := (r.windows.map r.granules).foldl (· + ·) 0
  let recs := (r.roles.map fun x => x.groups * recordBytes x.nv x.nk x.nm).foldl (· + ·) 0
  Bits.alignUp (saveBytes g r.local' recs) 65536

namespace State

/-- Accumulator granules that a team has bound. -/
def granulesBound (t : Team) : Nat := (t.windows.map fun w => if w.2.mom then 2 else 1).foldl (· + ·) 0

/-- Bytes of a resident team's save area at present. -/
def teamSaveBytes (s : State) (team : Nat) : Nat :=
  let t := s.teamAt team
  let recs := ((s.groupsOf team).map fun e => recordBytes e.2.nv e.2.nk e.2.nm).foldl (· + ·) 0
  saveBytes (granulesBound t) t.localsz recs

/-- Whether the team's save area, grown by `extra` bytes, stays within its stride. -/
def saveFits (s : State) (team extra : Nat) : Bool :=
  decide (s.teamSaveBytes team + extra ≤ (s.launchAt (s.teamAt team).launch).record.stride)

/-! ### Room on a core -/

/-- Groups resident in a partition of a core. -/
def groupsIn (s : State) (core part : Nat) : List (Nat × Group) :=
  s.groups.filter fun e => (s.teamAt e.2.team).core == core && e.2.partition == part

/-- Slots of the main vector register file that a group takes (R24). -/
def footprint (nv nm : Nat) : Nat := nv + 2 * nm

/-- Group places and register slots in use, for each partition. -/
def usage (s : State) (core : Nat) : List (Nat × Nat) :=
  (List.range 4).map fun p =>
    let gs := s.groupsIn core p
    (gs.length, (gs.map fun e => footprint e.2.nv e.2.nm).foldl (· + ·) 0)

/-- The lowest partition with a place and slots for a group. -/
def roomAt (use : List (Nat × Nat)) (slots : Nat) : Option Nat :=
  use.findIdx? fun x => decide (x.1 < 16) && decide (x.2 + slots ≤ 2048)

/-- Places for groups one after another, each in the lowest partition with room. -/
def firstFit (use : List (Nat × Nat)) : List Nat → Option (List Nat)
  | [] => some []
  | n :: r =>
    match roomAt use n with
    | none => none
    | some p =>
      let x := use.getD p (0, 0)
      (firstFit (use.set p (x.1 + 1, x.2 + n)) r).map fun l => p :: l

/-- How many groups there are of each footprint. -/
def tally (foots : List Nat) : List (Nat × Nat) := foots.eraseDups.map fun z => (z, foots.count z)

/-- How many groups of each footprint a partition with so many places and slots could take; as many of the last as fit. -/
def fills : List (Nat × Nat) → Nat → Nat → List (List Nat)
  | [], _, _ => [[]]
  | (z, n) :: r, places, slots =>
    let most := Nat.min n (Nat.min places (if z = 0 then n else slots / z))
    if r.isEmpty then [[most]]
    else ((List.range (most + 1)).map (most - ·)).flatMap fun k =>
      (fills r (places - k) (slots - k * z)).map fun l => k :: l

/-- Groups left after a partition has taken some. -/
def leftOver (left : List (Nat × Nat)) (took : List Nat) : List (Nat × Nat) :=
  (left.zip took).map fun x => (x.1.1, x.1.2 - x.2)

/-- Counts of each footprint for each partition that place every group, if there are such. -/
def packings : List (Nat × Nat) → List (Nat × Nat) → Option (List (List Nat))
  | [], left => if left.all (·.2 == 0) then some [] else none
  | x :: r, left =>
    let sum (l : List Nat) := l.foldl (· + ·) 0
    if sum ((x :: r).map fun y => 16 - y.1) < sum (left.map (·.2))
        || sum ((x :: r).map fun y => 2048 - y.2) < sum (left.map fun y => y.1 * y.2) then none
    else (fills left (16 - x.1) (2048 - x.2)).findSome? fun k => (packings r (leftOver left k)).map fun l => k :: l

/-- Give each group a partition that still takes one of its footprint. -/
def dealOut (sizes : List Nat) : List (List Nat) → List Nat → List Nat
  | _, [] => []
  | plan, z :: r =>
    let j := (sizes.findIdx? (· == z)).getD 0
    let p := (plan.findIdx? fun l => decide (0 < l.getD j 0)).getD 0
    let l := plan.getD p []
    p :: dealOut sizes (plan.set p (l.set j (l.getD j 0 - 1))) r

/-- Partitions for all the groups of a list, wherever there are such (R301): the lowest with room for each in turn, or else any
that let all of them fit. -/
def placeAll (use : List (Nat × Nat)) (foots : List Nat) : Option (List Nat) :=
  match firstFit use foots with
  | some l => some l
  | none => (packings use (tally foots)).map fun plan => dealOut (foots.eraseDups) plan foots

/-- A group whose registers hold what R27 gives a team's start. -/
def freshGroup (team gid role nv nk nm : Nat) (present helpers : Mask) (pc recaddr args : W64) : Group :=
  let quads : SMap Quad := (List.range 8).map fun q =>
    (q, if Bits.quadLanes present q == 0#4 then {}
        else { pc := pc, frag := 0, lanes := Bits.quadLanes present q, st := .ready, waitno := 0 })
  { (default : Group) with
    team := team, gid := gid, role := role, nv := nv, nk := nk, nm := nm, present := present, helpers := helpers
    k := if nk = 0 then [] else SMap.set 0#64 (SMap.set 0#64 [] 1 recaddr) 2 args
    quads := quads
    frags := [(0, { checkedFetch := true })] }

end State

/-- A new group has waited since time `t` (R294). -/
def Group.startsAt (g : Group) (t : Nat) : Group :=
  { g with lastIssue := t }

end Sys2Proof.Machine
end

