-- ==== Sys2Proof/Machine/Matrix.lean ====
section
/-! DEFINITION. The matrix unit: MMA and its issue checks (R138 to R145, R172 to R174), the merge buffer and skeins
(R155 to R160). -/

namespace Sys2Proof.Machine

open Sys2Proof (SMap Opd Opds)
open Sys2Proof.Float

namespace Mtx

/-! ### Windows (R140, R146) -/

def window? (s : State) (team n : Nat) : Option Window := SMap.get? (s.teamAt team).windows n

def setWindow (s : State) (team n : Nat) (w : Window) : State :=
  let t := s.teamAt team
  s.setTeamAt team { t with windows := SMap.put t.windows n w }

/-- An element of a plane: 0 mean or plain, 1 variance. -/
def elem (w : Window) (plane row col : Nat) : W32 :=
  SMap.get 0#32 (if plane = 0 then w.mean else w.var) (row * 128 + col)

def setElem (w : Window) (plane row col : Nat) (x : W32) : Window :=
  if plane = 0 then { w with mean := SMap.set 0#32 w.mean (row * 128 + col) x }
  else { w with var := SMap.set 0#32 w.var (row * 128 + col) x }

/-- Write `n` columns from `c` on of a row. -/
def setRow (w : Window) (plane row c n : Nat) (val : Nat → W32) : Window :=
  (List.range n).foldl (fun w j => setElem w plane row (c + j) (val j)) w

/-! ### Tiles (R145, R222) -/

/-- Which entry of the tile store a line has for a context: its place and its tensor; a line without a tensor is not
shared (R351). -/
structure Place where
  ctx : Nat
  phys : Nat
  tile : Option Nat
deriving DecidableEq, Repr

def Place.has (x : Place) (t : TileLine) : Bool :=
  t.phys == x.phys && t.tile == x.tile && (x.tile.isSome || t.ctxs.contains x.ctx)

/-- Where an address of a group lies in HBM, as the tile store knows it. -/
def placeOf (s : State) (u : Nat) (priv : Bool) (va : Nat) : Option Place :=
  match s.find u priv .load va with
  | .at' (.hbm p) leaf =>
    some { ctx := s.ctxOf u, phys := lineOf p, tile := leaf.bind fun l => if l.layout == 0 then none else some l.tensor }
  | _ => none

/-- A tile-store line that an MMA may reuse while its group has executed no MXFENCE: read after its context's last MXFENCE or
CACHEOP.l1inv here. -/
def stored (s : State) (core : Nat) (x : Place) : Option TileLine :=
  let c := s.coreAt core
  c.tiles.find? fun t => x.has t && decide (SMap.get 0 c.mxfence x.ctx < t.at')

/-- The 128 bytes of a line for an MMA: from the tile store, else as a load at its issue; after its group's MXFENCE always as such a
load (R145, log 26). -/
def seeLine (s : State) (va : Nat) : Seen :=
  let u := s.cur.grp
  let priv := s.privAt u s.cur.frag
  match (if s.grp.fenced then none else (placeOf s u priv va).bind (stored s s.team.core)) with
  | some t => .data t.bytes []
  | none => s.see u s.nextId priv 0#16 va 128

/-- The core's tile store holds bytes of a line; an entry that `fresh` leaves stays as it is, its users one more. -/
def keepLine (s : State) (core : Nat) (fresh : Bool) (x : Place) (bs : List Byte) : State :=
  let c := s.coreAt core
  let t := match (if fresh then none else stored s core x) with
    | some t => { t with ctxs := if t.ctxs.contains x.ctx then t.ctxs else x.ctx :: t.ctxs }
    | none => { phys := x.phys, tile := x.tile, bytes := bs, at' := s.nextId, ctxs := [x.ctx] }
  s.setCoreAt core { c with tiles := t :: c.tiles.filter fun y => !x.has y }

/-- Keep a line that an MMA has used. -/
def keep (s : State) (va : Nat) (bs : List Byte) : State :=
  match placeOf s s.cur.grp (s.privAt s.cur.grp s.cur.frag) va with
  | some x => keepLine s s.team.core s.grp.fenced x bs
  | none => s

/-- The tile store takes a line at any moment (R145: each line may hold any value stored since the mark). -/
def tileFill (s : State) (u va : Nat) : State :=
  match placeOf s u false va with
  | some x => (match s.see u s.nextId false 0#16 (va / 128 * 128) 128 with
    | .data bs _ => (keepLine s (s.coreOf u) true x bs).fresh
    | _ => s)
  | none => s

/-- The tile store drops a line. -/
def tileEvict (s : State) (core line : Nat) : State :=
  let c := s.coreAt core
  s.setCoreAt core { c with tiles := c.tiles.filter fun t => t.phys != line }

/-- The descriptor as an MMA reads it: with the line that holds it. -/
def seeDesc (s : State) (n : Nat) : Tensor.Read :=
  let a := Tensor.addrOf s s.ctx n
  if (s.descAt s.ctx).ttcount ≤ n then .desc none []
  else match seeLine s (a / 128 * 128) with
    | .hold q => .hold q
    | .fault c => .fault c
    | .bad => .bad
    | .data bs st => .desc (Tensor.parse ((bs.drop (a % 128)).take 64)) st

/-! ### The issue of an MMA -/

/-- The formats that suit a variant, and whether it takes a 32-deep tile (R138). -/
def suits : MmaKind → List Nat
  | .h => [2, 3] | .kb => [4] | .mom => [2, 3, 4] | .momQn => [4]
def deep32 : MmaKind → Bool
  | .h | .kb => false
  | .mom | .momQn => true

/-- The lanes with a negative variance among the A elements (R173). -/
def negatives (s : State) (areg : Nat) : Mask :=
  Bits.maskOf fun i => Bits.has s.active i && (List.range 32).any fun k => Moment.negative (Moment.var (s.grp.rm (areg + k) i))

/-- Where the tile's first line of a kind lies, as the sets of R155 compare it. -/
def place (s : State) (va : Nat) : Nat :=
  match s.find s.cur.grp (s.privAt s.cur.grp s.cur.frag) .load va with
  | .at' (.hbm p) _ => p
  | .at' (.peer o c a) _ => 2 ^ 60 + (o * 256 + c) * 2 ^ 64 + a
  | _ => 0

/-- Whether the shareable-weights bit is set for every line (R155). -/
def sharing (s : State) (tensor : Nat) (vas : List Nat) : Bool :=
  vas.all fun va => ((Tensor.lineOk s tensor va false).map fun x => x.2.shw).getD false

/-- The hold limit of a priority class (R156). -/
def holdLimit : Nat → Nat
  | 0 => 0 | 1 => 32 | 2 => 128 | _ => 512

/-- The bytes of every line, a line with uncorrectable data as zeros; and the number of the first such line. -/
def gather (seen : List Seen) : List Byte × Option Nat :=
  (seen.flatMap fun x => match x with | .data bs _ => bs | _ => List.replicate 128 0#8,
   seen.findIdx? fun x => match x with | .bad => true | _ => false)

/-- How R138's check of the tile lines ends. -/
inductive Walked where
  /-- a line at a peer has not been answered -/
  | hold (send : Option Nat)
  | trap (cause tval : Nat)
  | pass
deriving DecidableEq, Repr

/-- R138's check of the tile lines in stored order: the first that is unmapped, LINEAR, of another tensor or not readable traps; what
a peer answers has to be known before the next line's check counts. -/
def walkLines (s : State) (tensor : Nat) : List (Nat × Seen) → Walked
  | [] => .pass
  | (va, x) :: r =>
    match Tensor.lineOk s tensor va false with
    | none => .trap (match x with | .fault c => Tensor.unreadable c | _ => 0x82) va
    | some y =>
      match x, y.1 with
      | .fault c, _ => .trap (Tensor.unreadable c) va
      | .hold q, .peer _ _ _ => .hold q
      | _, _ => walkLines s tensor r

/-- The MMA takes an entry of the merge buffer. -/
def enter (s : State) (kind : MmaKind) (o : Opds) (d : TDesc) (sl : Slot) (vas : List Nat) (seen : List Seen) : State :=
  let u := s.cur.grp
  let h := s.grp.rt o.b.val
  let n := if d.elem = 16 then 128 else 8 * d.elem
  let g := gather seen
  let id := s.nextId
  let p : MmaParams :=
    { kind := kind, window := o.d.val, areg := o.a.val, abf := Forms.code o.c == 1, lanes := s.active,
      tensor := Tensor.hTensor h, trow := Tensor.hTrow h, tcol := Tensor.hTcol h, fmt := sl.fmt, mant := sl.mant,
      seed := sl.seed, cov := 0, mphys := place s (vas.getD 0 0),
      ephys := if d.elem = 16 then 0 else place s (vas.getD n 0),
      sharing := sharing s (Tensor.hTensor h) vas, elem := d.elem, mva := vas.getD 0 0, eva := vas.getD n 0,
      bytes := g.1, badLine := g.2, deadline := s.gtime + holdLimit s.launch.record.prio }
  let s := (vas.zip seen).foldl (fun s x =>
    match x.2 with
    | .data bs st => (keep s x.1 bs).noteStamps u st
    | _ => s) s
  let s := s.startOp { cls := .matrix, kind := .mma p }
  let ord := (SMap.get 0 s.grp.seqs (State.cntCode .matrix)) - 1
  let cls := if deep32 kind then 4 else 1
  let s := s.setGrp { s.grp with
    exposed := s.grp.exposed ++ [{ op := id, ord := ord, window := p.window, lanes := p.lanes, cls := cls, areg := p.areg }] }
  let c := s.core
  s.setCore { c with mbuf := c.mbuf ++ [{ grp := u, op := id }] }

def mma (s : State) (kind : MmaKind) (o : Opds) : Res :=
  if 8 ≤ s.core.mbuf.length || !s.roomFor .matrix then .hold false
  else
    let h := s.grp.rt o.b.val
    let desc := seeDesc s (Tensor.hTensor h)
    match Tensor.check s h (suits kind) (deep32 kind) desc with
    | .hold q => .holdFor q
    | .trap c v => .trap c v
    | .ok d st =>
      let vas := Tensor.lines d (Tensor.index d (Tensor.storedRow h) (Tensor.hTcol h))
      let seen := vas.map (seeLine s)
      match walkLines s (Tensor.hTensor h) (vas.zip seen) with
      | .hold q => .holdFor q
      | .trap c v => .trap c v
      | .pass =>
        if ((window? s s.grp.team o.d.val).map fun w => w.mom).getD false != deep32 kind then .trapFree 0x81
        else if deep32 kind && negatives s o.a.val != 0#32 then .trap 0x08 (negatives s o.a.val).toNat
        else
          if seen.any fun x => match x with | .hold _ => true | _ => false then .hold false
          else
            let a := Tensor.addrOf s s.ctx (Tensor.hTensor h) / 128 * 128
            let s := match seeLine s a with
              | .data bs _ => keep s a bs
              | _ => s
            .done (enter (s.noteStamps s.cur.grp st) kind o d ((s.slot? (Tensor.hSlot h)).getD {}) vas seen)

/-! ### Skeins (R155 to R160) -/

/-- A candidate with the parameters of its MMA. -/
structure Member where
  grp : Nat
  op : Nat
  ctx : Nat
  /-- gtime of its issue -/
  time : Nat
  p : MmaParams
  spoiled : Mask
deriving DecidableEq, Repr

def memberOf (s : State) (c : Cand) : Option Member :=
  ((s.grpAt c.grp).op? c.op).bind fun o =>
    match o.kind with
    | .mma p => some ⟨c.grp, c.op, s.ctxOf c.grp, o.time, p, o.spoiled⟩
    | _ => none

/-- Whether two candidates may be in one set (R155). -/
def agree (a b : Member) : Bool :=
  a.p.kind == b.p.kind && a.p.tensor == b.p.tensor && a.p.trow == b.p.trow && a.p.tcol == b.p.tcol
    && a.p.fmt == b.p.fmt && a.p.mant == b.p.mant && a.p.mphys == b.p.mphys && a.p.ephys == b.p.ephys
    && a.p.sharing == b.p.sharing && (a.p.sharing || a.ctx == b.ctx)

/-- Whether no earlier MMA of its group on the same window is waiting or executing (R156). -/
def free (s : State) (m : Member) : Bool :=
  (s.grpAt m.grp).ops.all fun o => match o.kind with
    | .mma p => o.done || decide (m.op ≤ o.id) || p.window != m.p.window
    | _ => true

/-- The candidates that may be taken now, in issue order: the buffer holds them so. -/
def open' (s : State) (core : Nat) : List Member :=
  ((s.coreAt core).mbuf.filterMap (memberOf s)).filter (free s)

def rows (m : Member) : Nat := Bits.count m.p.lanes

def earliest (l : List Member) : Nat := l.foldl (fun acc m => Nat.min acc m.p.deadline) (2 ^ 64)

/-- Whether a set is ready (R156). -/
def ready (s : State) (l : List Member) : Bool :=
  decide (128 ≤ (l.map rows).foldl (· + ·) 0) || decide (earliest l ≤ s.gtime)

/-- Whether one member counts as issued before another: the earlier gtime, then the lower-numbered group (R156); groups of
different teams with one GROUPID in the order of entry (log 28). -/
def before (s : State) (a b : Member) : Bool :=
  decide (a.time < b.time) || (a.time == b.time
    && (decide ((s.grpAt a.grp).gid < (s.grpAt b.grp).gid)
      || ((s.grpAt a.grp).gid == (s.grpAt b.grp).gid && decide (a.op < b.op))))

/-- The member that issued first. -/
def first (s : State) (l : List Member) : Option Member :=
  l.foldl (fun acc m => match acc with
    | none => some m
    | some b => if before s m b then some m else acc) none

/-- The ready set that starts: the smallest earliest deadline, then the earliest first member. -/
def chosen (s : State) (core : Nat) : Option (List Member) :=
  let all := open' s core
  let sets := (all.map fun m => all.filter (agree m)).filter (ready s)
  sets.foldl (fun acc l => match acc with
    | none => some l
    | some b =>
      let wins := match first s l, first s b with
        | some x, some y => before s x y
        | _, _ => false
      if earliest l < earliest b || (earliest l == earliest b && wins) then some l else some b) none

/-- Members in issue order while the rows total at most 128. -/
def takeRows : Nat → List Member → List Member
  | _, [] => []
  | left, m :: r => if rows m ≤ left then m :: takeRows (left - rows m) r else []

/-- Cycles an MMA holds the unit (R143). -/
def cycles (p : MmaParams) : Nat := if p.elem = 16 then 64 else 8 * p.elem

/-- MXIDLE as it counts for an idle period that began at `t` (R416). -/
def idleTime (s : State) (t : Nat) : Nat :=
  ((s.mxIdleWas.reverse.find? fun e => decide (t ≤ e.1)).map Prod.snd).getD s.mxIdle

/-- Whether the unit has idled long enough to be power-gated (R160). -/
def idle (s : State) (core : Nat) : Bool :=
  let t := (s.coreAt core).lastSkein
  (s.coreAt core).skein.isNone && decide (t + idleTime s t ≤ s.gtime)

def startSkein (s : State) (core : Nat) : Option State :=
  let c := s.coreAt core
  if c.skein.isSome then none
  else (chosen s core).bind fun l =>
    match takeRows 128 l with
    | [] => none
    | m :: r =>
      let taken : List Cand := (m :: r).map fun x => { grp := x.grp, op := x.op }
      let wake := if c.gated || idle s core then Config.mxWake else 0
      some (s.setCoreAt core { c with
        mbuf := c.mbuf.filter fun x => !taken.contains x
        skein := some { members := taken, ends := s.gtime + wake + cycles m.p }, gated := false })

/-! ### What a member computes (R142, R172) -/

/-- Elements of B's column `n` for a member. -/
def bColumn (p : MmaParams) (n : Nat) : List FV :=
  Dot.column p.elem (Block.fmtOf p.fmt) p.bytes n (if deep32 p.kind then [p.trow % 2] else [0, 1])

/-- The noise variance of B's column `n` (R94): 16-bit elements add none. -/
def noise (p : MmaParams) (n : Nat) : FV :=
  fval (BitVec.ofNat 32 (Block.noise p.elem (Tensor.fieldAt p.bytes (1024 * p.elem + 2 * n + p.trow % 2) 1)))

/-- The A elements of a row in v registers, and the means and variances in m registers (R140). -/
def aRow (g : Group) (p : MmaParams) (i : Nat) : List FV :=
  (List.range 64).map fun k =>
    let w := (g.rv (p.areg + k / 2) i).toNat
    toFV (if p.abf then .bf16 else .f16) (w / 2 ^ (16 * (k % 2)) % 65536)
def aMeans (g : Group) (p : MmaParams) (i : Nat) : List FV := (List.range 32).map fun k => Moment.mean (g.rm (p.areg + k) i)
def aVars (g : Group) (p : MmaParams) (i : Nat) : List FV :=
  (List.range 32).map fun k => Moment.plus (Moment.var (g.rm (p.areg + k) i))

/-- The variance plane's sum (R172). -/
def varSum (p : MmaParams) (old : W32) (ms vs bs : List FV) (nv : FV) : Nat :=
  let first := List.zipWith (fun v b => mulFV (mulFV v b) b) vs bs
  let second := match p.kind with
    | .momQn => ms.map fun m => mulFV (mulFV m m) nv
    | _ => []
  Dot.sumGroup (fval old :: first ++ second)

/-- One element of the window after the member's update of it. -/
def update (g : Group) (p : MmaParams) (w : Window) (i n : Nat) : W32 × W32 :=
  let b := bColumn p n
  let m := elem w 0 i n
  if deep32 p.kind then
    (BitVec.ofNat 32 (Dot.dot m.toNat (aMeans g p i) b),
     BitVec.ofNat 32 (varSum p (elem w 1 i n) (aMeans g p i) (aVars g p i) b (noise p n)))
  else (BitVec.ofNat 32 (Dot.dot m.toNat (aRow g p i) b), 0#32)

/-- A member updates row `i` of its window, indivisibly. -/
def updateRow (s : State) (m : Member) (i : Nat) : State :=
  let g := s.grpAt m.grp
  match window? s g.team m.p.window with
  | none => s
  | some w =>
    let w' := (List.range 128).foldl (fun x n =>
      let r := update g m.p w i n
      let x := setElem x 0 i n r.1
      if deep32 m.p.kind then setElem x 1 i n r.2 else x) w
    setWindow s g.team m.p.window w'

/-- The order in which a row's updates by members of one skein apply: any (R144). -/
def orderFor (s : State) (i : Nat) (l : List Member) : List Member :=
  let le (a b : Member) : Bool := Config.freeNat s.choice (a.op * 32 + i) ≤ Config.freeNat s.choice (b.op * 32 + i)
  l.foldl (fun acc m => acc.takeWhile (fun x => le x m) ++ m :: acc.dropWhile (fun x => le x m)) []

/-- All updates of a skein. -/
def updates (s : State) (l : List Member) : State :=
  Bits.lanes.foldl (fun s i => ((orderFor s i l).filter fun m => Bits.has m.p.lanes i).foldl (fun s m => updateRow s m i) s) s

/-- A member's operation is complete; its rows that R144 leaves open take any values. -/
def finish (fault : Bool) (bad : Option Nat) (s : State) (m : Member) : State :=
  let n := if m.p.elem = 16 then 128 else 8 * m.p.elem
  let k := bad.getD 0
  let va := (if k < n then m.p.mva + 128 * k else m.p.eva + 128 * (k - n)) % 2 ^ 64
  let s := if !fault && m.spoiled != 0#32 then s.scramble (s.grpAt m.grp).team m.p.window m.spoiled else s
  s.modGrp m.grp fun g =>
    let g := if fault then g else g.markWritten { z := 1#16 <<< m.p.window }
    (g.setOp m.op fun o => { o with done := true, fault := if fault then some (0x26, va) else o.fault }).retire

/-- A skein completes (R157, R158). -/
def completeSkein (s : State) (core : Nat) : Option State :=
  let c := s.coreAt core
  c.skein.bind fun sk =>
    if s.gtime < sk.ends then none
    else
      let l := sk.members.filterMap (memberOf s)
      let bad := l.findSome? fun m => m.p.badLine
      let s := if bad.isNone then (updates s l).spend else s
      let s := l.foldl (finish bad.isSome bad) s
      let c := s.coreAt core
      some (s.setCoreAt core { c with skein := none, lastSkein := s.gtime })

end Mtx

open Mtx

def execMmaH (o : Opds) (s : State) : Host.Outcome State Fault Refusal := issue (.mmaH o) s fun s => mma s .h o

def execMmaKb (o : Opds) (s : State) : Host.Outcome State Fault Refusal := issue (.mmaKb o) s fun s => mma s .kb o

def execMmaMom (o : Opds) (s : State) : Host.Outcome State Fault Refusal := issue (.mmaMom o) s fun s => mma s .mom o

def execMmaMomQn (o : Opds) (s : State) : Host.Outcome State Fault Refusal :=
  issue (.mmaMomQn o) s fun s => mma s .momQn o

/-- MXFENCE (R145): later MMAs of the context reuse nothing read before, and those of the group read as loads do. -/
def execMxfence (o : Opds) (s : State) : Host.Outcome State Fault Refusal :=
  issue (.mxfence o) s fun s =>
    let c := s.core
    .done ((s.setGrp { s.grp with fenced := true }).setCore { c with mxfence := SMap.put c.mxfence s.ctx s.nextId }).fresh

def execSkeinStart (core : Nat) (s : State) : Host.Outcome State Fault Refusal := happen s (startSkein s core)

def execSkeinComplete (core : Nat) (s : State) : Host.Outcome State Fault Refusal := happen s (completeSkein s core)

def execMatrixPowerGate (core : Nat) (s : State) : Host.Outcome State Fault Refusal :=
  happen s (if idle s core then some (s.setCoreAt core { s.coreAt core with gated := true }) else none)

end Sys2Proof.Machine
end

