-- ==== Sys2Proof/Machine/Accum.lean ====
section
/-! DEFINITION. Tile handles (R139), reading and writing windows (R146), the epilogue (R147, R148), binding windows
(R149, R150), and the selection heap (R151 to R154). -/

namespace Sys2Proof.Machine

open Sys2Proof (SMap Opd Opds)
open Sys2Proof.Float

namespace Zw

/-! ### Tile handles -/

def thnd (s : State) (o : Opds) : Res :=
  let ctl := Forms.code o.b
  match s.slot? (ctl % 8) with
  | none => .trap 0x0A 0
  | some _ =>
    let x := (ctl / 8) * 2 ^ 56 + 2 ^ 55 + ctl % 8 * 2 ^ 52 + (s.grp.rk o.a.val).toNat % 2 ^ 52
    .done (s.setGrp (s.grp.wt o.d.val (BitVec.ofNat 64 x)))

/-! ### Rows of a window (R144, R146) -/

def window (s : State) (n : Nat) : Window := (Mtx.window? s s.grp.team n).getD ⟨false, [], []⟩

/-- An element as the issuing group reads it: any value in a row that an MMA still exposes. -/
def read (s : State) (n plane row col : Nat) : W32 :=
  if Bits.has (s.exposedRows s.grp.team n) row then Config.free32 s.choice (8192 + plane * 4096 + row * 128 + col)
  else Mtx.elem (window s n) plane row col

/-- The free values that a read of window `n` may have taken are spent. -/
def spendRead (s : State) (n : Nat) : State := if s.exposedRows s.grp.team n == 0#32 then s else s.spend

/-- Write columns `c` to `c + k - 1` of rows of a plane: MMAs that expose the rows leave them unpredictable, and the window
counts as written. -/
def writeRows (s : State) (n plane : Nat) (rows : Mask) (c k : Nat) (f : Nat → Nat → W32) : State :=
  let w := (Bits.members rows).foldl (fun w i => Mtx.setRow w plane i c k (f i)) (window s n)
  let s := Mtx.setWindow (s.setTeam (s.team.mendRows n plane rows c k)) s.grp.team n w
  (s.setGrp (s.grp.markWritten { z := 1#16 <<< n })).wroteRows s.grp.team n rows

def zclr (s : State) (o : Opds) : State :=
  let n := o.d.val
  let t := writeRows s n 0 s.active 0 128 fun _ _ => 0#32
  if (window s n).mom then writeRows t n 1 s.active 0 128 fun _ _ => 0#32 else t

def zrd (s : State) (o : Opds) : Res :=
  let n := o.a.val
  let pl := Forms.zPlane o
  if pl = 1 && !(window s n).mom then .trapFree 0x81
  else
    let g := (Bits.members (s.exec o.guard)).foldl (fun g i =>
      (List.range (Forms.zCount o)).foldl (fun g j => g.wv (o.d.val + j) i (read s n pl i (Forms.zCol o + j))) g) s.grp
    .done ((spendRead s n).setGrp g)

def zwr (s : State) (o : Opds) : Res :=
  let n := o.d.val
  let pl := Forms.zPlane o
  if pl = 1 && !(window s n).mom then .trapFree 0x81
  else
    .done (writeRows s n pl s.active (Forms.zCol o) (Forms.zCount o) fun i j => s.grp.rv (o.a.val + j) i)

/-! ### The epilogue (R147, R148) -/

/-- The element after SC. -/
def scaled (sl : Option Slot) (x : W32) : W32 := match sl with | some sl => fmul x sl.scale | none => x

/-- ZEPI's result for one element. -/
def epilogue (act out : Nat) (sl : Option Slot) (sc b : W32) (x : W32) : W32 :=
  let y := fma .f32 .rn (scaled sl x).toNat sc.toNat b.toNat
  let y := match act with
    | 1 => if !isNaN .f32 y && compare .f32 3 y 0 then 0 else y
    | 2 => tanh y
    | _ => y
  BitVec.ofNat 32 (match out with
    | 1 => roundFV .f16 .rn (toFV .f32 y)
    | 2 => roundFV .bf16 .rn (toFV .f32 y)
    | _ => y)

/-- The slot of an epilogue: a cause, or the slot whose SCALE applies. -/
def epiSlot (s : State) (o : Opds) : Except Nat (Option Slot) :=
  if Forms.epiScale o then
    match s.slot? (Forms.epiSlot o) with
    | none => .error 0x0A
    | some sl => .ok (some sl)
  else .ok none

def zepi (s : State) (o : Opds) : Res :=
  let n := o.a.val
  let pl := Forms.epiPlane o
  match epiSlot s o with
  | .error c => .trap c 0
  | .ok sl =>
    if pl = 1 && !(window s n).mom then .trapFree 0x81
    else
      let kb := s.grp.rk o.b.val
      let val (i j : Nat) : W32 :=
        epilogue (Forms.epiAct o) (Forms.epiOut o) sl (Bits.lo kb) (Bits.hi kb) (read s n pl i (Forms.epiCol o + j))
      let g := (Bits.members (s.exec o.guard)).foldl (fun g i =>
        (List.range (Forms.epiCount o)).foldl (fun g j => g.wv (o.d.val + j) i (val i j)) g) s.grp
      .done ((spendRead s n).setGrp g)

/-! ### The selection heap (R151 to R154) -/

/-- Whether a pair comes before another in heap order. -/
def precedes (a b : W32 × W32) : Bool :=
  ltFV (fval b.1) (fval a.1) || (eqFV (fval a.1) (fval b.1) && a.2.ult b.2)

/-- Put a pair in its place. -/
def place (x : W32 × W32) : List (W32 × W32) → List (W32 × W32)
  | [] => [x]
  | y :: r => if precedes x y then x :: y :: r else y :: place x r

/-- Insert one element (R153). -/
def insert (h : Heap) (x : W32 × W32) : Heap :=
  if isNaN .f32 x.1.toNat then { h with ovf := true }
  else if h.entries.length < 256 then { h with entries := place x h.entries }
  else match h.entries.getLast? with
    | some l => if precedes x l then { h with entries := (place x h.entries).take 256, ovf := true } else { h with ovf := true }
    | none => h

def holds (s : State) : Bool := s.core.heap.owner == some s.grp.team

/-- Whether an entry held cannot be corrected: an insertion, which compares with the entries, and a read report it
(R372, log 69). -/
def heapBad (s : State) : Bool := s.core.heap.bad.any fun i => decide (i < s.core.heap.entries.length)

def setHeap (s : State) (h : Heap) : State := s.setCore { s.core with heap := h }

def zepiHeap (s : State) (o : Opds) : Res :=
  let n := o.a.val
  let pl := Forms.epiPlane o
  match epiSlot s o with
  | .error c => .trap c 0
  | .ok sl =>
    if pl = 1 && !(window s n).mom then .trapFree 0x81
    else if !holds s then .trapFree 0x84
    else if heapBad s then .trapFree 0x26
    else
      let base := Bits.lo (s.grp.rk o.b.val)
      let xs := (List.range (Forms.epiCount o)).map fun j =>
        let c := Forms.epiCol o + j
        (scaled sl (read s n pl (Forms.code o.d) c), base + BitVec.ofNat 32 c)
      .done (setHeap (spendRead s n) { xs.foldl insert s.core.heap with bad := [] })

def hpinit (s : State) (o : Opds) : State :=
  let on := s.active
  let say (s : State) (b : Bool) : State := s.setGrp (s.grp.wp o.d.val on (if b then on else 0#32))
  let me := s.grp.team
  if Forms.code o.a = 0 then
    match s.core.heap.owner with
    | some t => if t = me then say (setHeap s { owner := some me, entries := [], ovf := false }) true else say s false
    | none => say (setHeap s { owner := some me, entries := [], ovf := false }) true
  else if holds s then say (setHeap s { s.core.heap with owner := none }) true else say s false

/-- The weights of the ranks (R154). -/
def weights (h : Heap) (c : W32) : List W32 :=
  let one : W32 := 0x3F800000#32
  let pos := match fval c with | .fin x => x.num != 0 && !x.neg | _ => false
  match h.entries with
  | [] => []
  | (v0, _) :: r =>
    one :: r.map fun e =>
      if !pos then 0#32
      else if eqFV (fval e.1) (fval v0) then one
      else fexp2 (fmul (fsub e.1 v0) c)

/-- The rank at which the weights reach `t`, if they do: how many ranks are in. -/
def cutAt (t : W32) : Nat → W32 → List W32 → Option Nat
  | _, _, [] => none
  | n, cum, w :: r =>
    let cum := fadd cum w
    if !isNaN .f32 cum.toNat && !isNaN .f32 t.toNat && !ltFV (fval cum) (fval t) then some (n + 1) else cutAt t (n + 1) cum r

/-- Whether the top-p threshold asks for a cut: a number strictly between 0 and 1. -/
def cuts (p : W32) : Bool := match fval p with | .fin x => x.num != 0 && !x.neg && x.lt Ex.one | _ => false

def hpread (s : State) (o : Opds) : Res :=
  if !holds s then .trapFree 0x84
  else if heapBad s then .trapFree 0x26
  else
    let h := s.core.heap
    let ka := s.grp.rk o.a.val
    let kb := s.grp.rk o.b.val
    let n := h.entries.length
    let ws := weights h (Bits.hi ka)
    let cut := if cuts (Bits.hi kb) then cutAt (fmul (Bits.hi kb) (Bits.lo kb)) 0 0#32 ws else some n
    if cut.isNone && h.ovf then .trap 0x83 n
    else
      let k := cut.getD n
      let f := Bits.field ka 7 0
      let g := (Bits.members (s.exec o.guard)).foldl (fun g i =>
        let r := f + i
        match h.entries[r]? with
        | some e =>
          ((g.wv o.d.val i e.1).wv (o.d.val + 1) i e.2).wv (o.d.val + 2) i (if r < k then ws.getD r 0#32 else 0#32)
        | none => ((g.wv o.d.val i 0xFF800000#32).wv (o.d.val + 1) i 0xFFFFFFFF#32).wv (o.d.val + 2) i 0#32) s.grp
      .done (s.setGrp g)

/-! ### Binding windows (R149, R150) -/

/-- Granules of a core's accumulator memory that no team has bound. -/
def freeGranules (s : State) (core : Nat) : Nat :=
  128 - ((s.teamsOn core).map fun t => State.granulesBound t.2).foldl (· + ·) 0

def zalloc (s : State) (o : Opds) : State :=
  let n := o.a.val
  let on := s.active
  let me := s.grp.team
  let say (s : State) (b : Bool) : State := s.setGrp (s.grp.wp o.d.val on (if b then on else 0#32))
  if (Mtx.window? s me n).isSome then say s true
  else
    let mom := s.launch.record.zmom.getLsbD n
    let k := if mom then 2 else 1
    if State.granulesBound s.team + k ≤ 32 && k ≤ freeGranules s s.team.core && s.saveFits me (16384 * k) then
      let t := s.team.mendWindow n
      say (s.setTeam { t with windows := SMap.put t.windows n { mom := mom, mean := [], var := [] } }) true
    else say s false

/-- Whether an MMA of the team that names a window is waiting or executing. -/
def busy (s : State) (team n : Nat) : Bool :=
  (s.groupsOf team).any fun g => g.2.ops.any fun o => match o.kind with
    | .mma p => !o.done && p.window == n
    | _ => false

def zfree (s : State) (o : Opds) : Res :=
  let n := o.d.val
  if busy s s.grp.team n then .hold false
  else
    let t := s.team.mendWindow n
    let s := s.setTeam { t with windows := SMap.erase t.windows n, exposed := SMap.erase t.exposed n }
    let me := s.grp.team
    .done { s with groups := s.groups.map fun e =>
      if e.2.team == me then (e.1, { e.2 with exposed := e.2.exposed.filter fun x => x.window != n }) else e }

end Zw

open Zw

def execThnd (o : Opds) (s : State) : Host.Outcome State Fault Refusal := issue (.thnd o) s fun s => thnd s o

def execZclr (o : Opds) (s : State) : Host.Outcome State Fault Refusal := issue (.zclr o) s fun s => .done (zclr s o)

def execZrd (o : Opds) (s : State) : Host.Outcome State Fault Refusal := issue (.zrd o) s fun s => zrd s o

def execZwr (o : Opds) (s : State) : Host.Outcome State Fault Refusal := issue (.zwr o) s fun s => zwr s o

def execZepi (o : Opds) (s : State) : Host.Outcome State Fault Refusal := issue (.zepi o) s fun s => zepi s o

def execZepiHeap (o : Opds) (s : State) : Host.Outcome State Fault Refusal := issue (.zepiHeap o) s fun s => zepiHeap s o

def execZalloc (o : Opds) (s : State) : Host.Outcome State Fault Refusal := issue (.zalloc o) s fun s => .done (zalloc s o)

def execZfree (o : Opds) (s : State) : Host.Outcome State Fault Refusal := issue (.zfree o) s fun s => zfree s o

def execHpinit (o : Opds) (s : State) : Host.Outcome State Fault Refusal := issue (.hpinit o) s fun s => .done (hpinit s o)

def execHpread (o : Opds) (s : State) : Host.Outcome State Fault Refusal := issue (.hpread o) s fun s => hpread s o

end Sys2Proof.Machine
end

