-- ==== Sys2Proof/Machine/System.lean ====
section
/-! DEFINITION. RDSYS, WRSYS, TRET, the issue of TLBINV, and CACHEOP (R29 to R33, R359 to R364). -/

namespace Sys2Proof.Machine

open Sys2Proof (SMap Opd Opds)
open Operands

namespace Sys

/-! ### System registers (R29 to R33) -/

/-- Clusters in service, and their bit map. -/
def clusterMap (s : State) : Nat :=
  ((List.range 80).filter fun c => !s.lostClusters.contains c).foldl (fun acc c => acc + 2 ^ c) 0
def clustersUp (s : State) : Nat := ((List.range 80).filter fun c => !s.lostClusters.contains c).length

/-- Channels in service. -/
def channelsUp (s : State) : Nat := 384 - (s.channels.filter fun e => e.2.retired).length

/-- A system register as the issuing group reads it in a lane. DEDUCED (log 64): time is a number without a bound, of which a
read of GTIME or HORIZON gives the low 64 bits. -/
def read (s : State) (x i : Nat) : W64 :=
  let g := s.grp
  let nat (n : Nat) : W64 := BitVec.ofNat 64 n
  match x with
  | 0x00 => nat s.ctx
  | 0x01 => s.trapvec s.ctx
  | 0x02 => Bits.zext64 g.cause
  | 0x03 => g.tpc
  | 0x04 => g.tval
  | 0x05 => Bits.zext64 g.mcr
  | 0x06 => nat g.hcur.toNat
  | 0x07 => nat s.gtime
  | 0x08 => nat g.horizon
  | 0x10 => nat i
  | 0x11 => nat (i / 4)
  | 0x12 => nat g.gid
  | 0x13 => nat s.team.id
  | 0x14 => nat (s.team.core / 4)
  | 0x15 => nat (s.team.core % 4)
  | 0x16 => nat (if g.isHelper i then 1 else 0)
  | 0x17 => nat g.role
  | 0x18 => Bits.zext64 g.uhmiss
  | 0x40 => nat (1 * 2 ^ 24 + Config.stepping.toNat * 2 ^ 16 + 0x4860)
  | 0x41 => nat (Config.slices * 2 ^ 48 + 256 * 2 ^ 32 + clustersUp s * 2 ^ 16 + clustersUp s * 4)
  | 0x42 => nat (channelsUp s * 2 ^ 32 + Config.capMib)
  | 0x43 => nat Config.mxWake
  | 0x44 => nat (Config.hDepth * 2 ^ 32 + Config.hLive * 2 ^ 16 + Config.lifeBound)
  | 0x45 => nat (clusterMap s % 2 ^ 64)
  | 0x46 => nat (clusterMap s / 2 ^ 64)
  | _ => 0#64

/-- The destination of RDSYS (R360). -/
def fill (x : Nat) (d : Opd) (i : Nat) (v : W64) (g : Group) : Group :=
  putInt (if Forms.sysWide.contains x then .n64 else .n32) d i v g

def rdsys (s : State) (o : Opds) : State := write s o (fill o.a.val o.d) fun _ i => read s o.a.val i

/-- WRSYS by index; reserved bits are ignored (R361). -/
def wrsys (s : State) (o : Opds) : State :=
  let x := get64 false o s.grp o.a 0
  let g := s.grp
  match o.d.val with
  | 0x01 => { s with trapvec0 := x }
  | 0x02 => s.setGrp { g with cause := Bits.lo x &&& 0xFF#32 }
  | 0x03 => s.setGrp { g with tpc := x }
  | 0x04 => s.setGrp { g with tval := x }
  | 0x05 => s.setGrp { g with mcr := Bits.lo x &&& 0x3#32 }
  | _ => s

/-- TLBINV waits as a release at .module scope, then counts on the stores counter until it completes (R363). -/
def tlbinv (s : State) (page ctx : Option Nat) : Res :=
  if !s.roomFor .stores then .hold false
  else if !s.releaseReady s.cur.grp .module s.nextId then .hold true
  else .done (s.startOp { cls := .stores, kind := .tlbinv page ctx })

/-- A context operand (R359). -/
def ctxOpd (s : State) (x : Opd) : Nat := Bits.field (s.grp.rk x.val) 7 0

/-- CACHEOP.l1inv (R364): the context's L1 copies that are not owned, and the tile lines its MMAs have used; its later MMAs
reuse nothing read before (R145). -/
def l1inv (s : State) : State :=
  let core := s.l1Of s.cur.grp
  let c := s.coreAt core
  let s := s.setCoreAt core { c with l1 := c.l1.filter fun e => e.2.owned || e.2.ctx != s.ctx }
  let c := s.core
  (s.setCore { c with tiles := c.tiles.filter fun t => !t.ctxs.contains s.ctx
                      mxfence := SMap.put c.mxfence s.ctx s.nextId }).fresh

def icinv (s : State) : State :=
  let c := s.core
  s.setCore { c with fetch := c.fetch.filter fun l => l.ctx != s.ctx }

end Sys

def execRdsys (o : Opds) (s : State) : Host.Outcome State Fault Refusal := issue (.rdsys o) s fun s => .done (Sys.rdsys s o)

def execWrsys (o : Opds) (s : State) : Host.Outcome State Fault Refusal := issue (.wrsys o) s fun s => .done (Sys.wrsys s o)

def execTret (o : Opds) (s : State) : Host.Outcome State Fault Refusal := issue (.tret o) s fun s => .moved s.returnTrap

def execTlbinvPage (o : Opds) (s : State) : Host.Outcome State Fault Refusal :=
  issue (.tlbinvPage o) s fun s => Sys.tlbinv s (some (s.grp.rk o.a.val).toNat) (some (Sys.ctxOpd s o.b))

def execTlbinvCtx (o : Opds) (s : State) : Host.Outcome State Fault Refusal :=
  issue (.tlbinvCtx o) s fun s => Sys.tlbinv s none (some (Sys.ctxOpd s o.a))

def execTlbinvAll (o : Opds) (s : State) : Host.Outcome State Fault Refusal :=
  issue (.tlbinvAll o) s fun s => Sys.tlbinv s none none

def execCacheopL1inv (o : Opds) (s : State) : Host.Outcome State Fault Refusal :=
  issue (.cacheopL1inv o) s fun s => .done (Sys.l1inv s)

def execCacheopIcinv (o : Opds) (s : State) : Host.Outcome State Fault Refusal :=
  issue (.cacheopIcinv o) s fun s => .done (Sys.icinv s)

end Sys2Proof.Machine
end

