-- ==== Sys2Proof/Machine/Bank.lean ====
section
/-! DEFINITION. BMV, BFENCE and BSTAT: the bank units (R224, R257 to R261, R381). -/

namespace Sys2Proof.Machine

open Sys2Proof (SMap Opd Opds)
open Sys2Proof.Float

namespace Bnk

/-- The pieces of 64 KiB that `n` bytes from `a` on touch: the first byte in each. -/
def pages (a n : Nat) : List Nat :=
  if n = 0 then []
  else (List.range ((a + n - 1) / 65536 + 1 - a / 65536)).map fun i => if i = 0 then a else (a / 65536 + i) * 65536

/-- Every page that holds lines of a tensor (R258): mantissas, then exponents. -/
def tensorPages (d : TDesc) : List Nat :=
  pages d.mbase (1024 * d.elem * d.ktiles * d.ntiles) ++ pages d.ebase (256 * d.ktiles * d.ntiles)

/-- Whether a page fails R258's last check: the cause. -/
def pageBad (s : State) (tensor va : Nat) : Option Nat :=
  match s.find s.cur.grp (MemI.priv s) .load va with
  | .fault c => some c
  | .at' (.hbm _) (some l) => if l.layout == 2 && l.tensor == tensor then none else some 0x25
  | _ => some 0x25

/-- What the checks of R258 give. -/
inductive Checked where
  | hold (send : Option Nat)
  | trap (cause tval : Nat)
  | ok (j : BmvJob) (pages : List Nat) (stamps : List Taken)

/-- R258's fourth check: the operand that is out of range. DESIGN CHOICE (log 80): columns that run beyond the tensor, COL0 in kA with
NCOL in kB, name kB, of several operands that fail the first here is named, and a region beyond LOCALSZ names kD. -/
def rangeBad (s : State) (d : TDesc) (kd ka kb : W64) : Option W64 :=
  let ncol := Bits.field kb 16 0
  let col0 := Bits.field ka 55 32
  let x := Bits.field kd 50 32
  let y := Bits.field kd 18 0
  let xn := 128 * d.ktiles
  if ncol = 0 || 65536 < ncol || 128 * d.ntiles < col0 + ncol then some kb
  else if !Bits.fieldZero kd 63 51 || !Bits.fieldZero kd 31 19 then some kd
  else if !Bits.fieldZero ka 63 56 || !Bits.fieldZero ka 31 20 then some ka
  else if !Bits.fieldZero kb 63 17 then some kb
  else if s.team.localsz < x + xn || s.team.localsz < y + 4 * ncol then some kd
  else if x < y + 4 * ncol && y < x + xn then some kd
  else none

/-- The checks of R258 in its order. DESIGN CHOICE (log 80): TVAL of cause 0x28 is the offset itself, XOFF before YOFF. -/
def check (s : State) (o : Opds) : Checked :=
  let kd := s.grp.rk o.d.val
  let ka := s.grp.rk o.a.val
  let kb := s.grp.rk o.b.val
  let ctl := Forms.code o.c
  let n := Bits.field ka 19 0
  let a := Tensor.addrOf s s.ctx n
  match s.slot? (ctl % 8) with
  | none => .trap 0x0A 0
  | some sl =>
    if sl.fmt ≠ 4 then .trap 0x29 ctl
    else match Tensor.read s n with
      | .hold q => .hold q
      | .fault c => .trap c a
      | .bad => .trap 0x26 a
      | .desc none _ => .trap 0x29 a
      | .desc (some d) st =>
        if d.elem ≠ sl.mant then .trap 0x29 a
        else match rangeBad s d kd ka kb with
          | some k => .trap 0x29 k.toNat
          | none =>
            let x := Bits.field kd 50 32
            let y := Bits.field kd 18 0
            if x % 4 ≠ 0 then .trap 0x28 x
            else if y % 4 ≠ 0 then .trap 0x28 y
            else
              let ps := tensorPages d
              match ps.findSome? fun va => (pageBad s n va).map fun c => (c, va) with
              | some (c, va) => .trap c va
              | none =>
                .ok { xoff := x, yoff := y, col0 := Bits.field ka 55 32, ncol := Bits.field kb 16 0,
                      bf := Nat.testBit ctl 3, acc := Nat.testBit ctl 4, mant := sl.mant, mbase := d.mbase,
                      ebase := d.ebase, ktiles := d.ktiles, ntiles := d.ntiles } ps st

/-! ### The product -/

/-- The aligned 8-byte word at a virtual address as the bank units read it: from the arrays, reconstructed where its channel has
failed or the stack reports its line uncorrectable (R224, R376, R381), or from local memory. -/
def word (s : State) (u va : Nat) : BankWord :=
  match s.find u true .load va with
  | .at' (.hbm p) _ =>
    let line := lineOf p
    let re := Up.needsRebuild s line
    { val := BitVec.ofNat 64 (Bits.ofBytes (if re then ((Up.rebuilt s line).drop (p % 128)).take 8 else s.dramBytes p 8))
      bad := if Up.lostLine s line || s.dramBad.contains (p / 8) then some (0x26, va) else none
      recon := re }
  | .at' (.loc t off) _ =>
    { val := BitVec.ofNat 64 (s.readLoc t off 8), bad := if s.locBad t off 8 then some (0x26, va) else none }
  | .at' _ _ => { val := 0#64, bad := some (0x25, va) }
  | .fault c => { val := 0#64, bad := some (c, va) }

/-- A word of a BMV's operands: as it was read, or as it is read now. -/
def wordFor (s : State) (u : Nat) (j : BmvJob) (n : Nat) : BankWord := (SMap.get? j.seen n).getD (word s u (8 * n))

/-- The numbers of the aligned 8-byte words that `n` bytes at `va` touch. -/
def wordsAt (va n : Nat) : List Nat := (List.range ((va + n - 1) / 8 + 1 - va / 8)).map (· + va / 8)

/-- What some bytes of the operands give. -/
structure Meet where
  bytes : List Byte := []
  /-- why they cannot be used: cause and TVAL -/
  bad : Option (Nat × Nat) := none
deriving Inhabited

/-- Bytes of the operands, word by word. -/
def bytesFor (s : State) (u : Nat) (j : BmvJob) (va n : Nat) : Meet :=
  let ws := (wordsAt va n).map (wordFor s u j)
  { bytes := ((ws.flatMap fun x => Bits.bytesOf 8 x.val.toNat).drop (va % 8)).take n, bad := ws.findSome? fun x => x.bad }

/-- The tensor as the bank units address it. -/
def tensorOf (j : BmvJob) : TDesc :=
  { mbase := j.mbase, ebase := j.ebase, ktiles := j.ktiles, ntiles := j.ntiles, elem := j.mant }

/-- The blocks of column `n` of the tensor, in the order of its reduction (R257). -/
def blocksOf (j : BmvJob) (n : Nat) : List Nat :=
  (List.range (2 * j.ktiles)).map fun i => 256 * (i / 2 * j.ntiles + n / 128) + 2 * (n % 128) + i % 2

/-- Column `n` of the tensor, all its elements: mantissas and exponent are accesses of their own (R93). -/
def columnOf (s : State) (u : Nat) (j : BmvJob) (n : Nat) : List FV × Option (Nat × Nat) :=
  (blocksOf j n).foldl (fun acc b =>
    let at' := Dot.blockAt (tensorOf j) b
    let m := bytesFor s u j at'.1 (4 * j.mant)
    let e := bytesFor s u j at'.2 1
    (acc.1 ++ Dot.blockElems j.mant m.bytes (Bits.ofBytes e.bytes), acc.2.or (m.bad.or e.bad))) ([], none)

/-- The words of the tensor that column `n` needs. -/
def columnWords (j : BmvJob) (n : Nat) : List Nat :=
  (blocksOf j n).flatMap fun b =>
    let at' := Dot.blockAt (tensorOf j) b
    wordsAt at'.1 (4 * j.mant) ++ wordsAt at'.2 1

/-- Whether a line of column `n` is served by reconstruction: the column is then computed in the base die (R261, R381). -/
def columnRecon (s : State) (u : Nat) (j : BmvJob) (n : Nat) : Bool :=
  (columnWords j n).any fun w => (wordFor s u j w).recon

/-- The words of the tensor that a BMV needs. -/
def tensorWords (j : BmvJob) : List Nat := (List.range j.ncol).flatMap fun i => columnWords j (j.col0 + i)

/-! ### Columns in banks (R258, R381) -/

/-- The lines of HBM that hold some words of the tensor. -/
def linesOf (s : State) (u : Nat) (ws : List Nat) : List Nat :=
  (ws.filterMap fun n => match s.find u true .load (8 * n) with
    | .at' (.hbm p) _ => some (lineOf p)
    | _ => none).eraseDups

/-- A place of a bank outside the reserve whose line is none of `keep`, from the `k`-th on. -/
def spareSpot (s : State) (bank : Place) (keep : List Nat) (k : Nat) : Option Place :=
  let spots := Config.channelLines / Config.banks
  (List.range (keep.length + 1)).findSome? fun i =>
    let n := (k + i) % spots
    let off := (n / Config.rowLines * Config.banks + Up.bankOf bank.off) * Config.rowLines + n % Config.rowLines
    match Up.occupant s bank.chan off with
    | some l => if keep.contains l then none else some ⟨bank.chan, off⟩
    | none => none

/-- A line and what lies at a place of its column's bank change places, each with the state of its DRAM. -/
def exchange (s : State) (line : Nat) (x : Place) : State :=
  let y := Up.place s line
  let sick (p : Place) := s.badSectors.filter fun z => z / 4 == Up.spot p.chan p.off
  let move (p q : Place) := (sick p).map fun z => Up.spot q.chan q.off * 4 + z % 4
  match Up.occupant s x.chan x.off with
  | none => s
  | some l => { s with
    places := SMap.put (SMap.put s.places line x) l y
    badSectors := if s.badSectors.isEmpty then [] else
      move x y ++ move y x ++ s.badSectors.filter fun z => !(sick x).contains z && !(sick y).contains z }

/-- The lines of a column lie in one bank, that of the first of them, or where columns share lines (R136) that of the first of those
columns: a line that lies elsewhere, in a channel that has not failed, has been placed there. DESIGN CHOICE (log 80): the base die's
placement shows when a BMV first names the column. -/
def placeColumn (keep : List Nat) (s : State) (lines : List Nat) : State :=
  match (lines.findSome? (SMap.get? s.leads)).or lines.head? with
  | none => s
  | some lead =>
    let bank := Up.place s lead
    let s := lines.foldl (fun s l =>
      if Up.bankAt s l == Up.bankOfPlace bank || Up.down s (Up.channelAt s l) || Up.down s bank.chan then s
      else match spareSpot s bank keep (Config.freeNat s.choice l) with
        | some x => exchange s l x
        | none => s) s
    { s with leads := lines.foldl (fun m l => SMap.put m l lead) s.leads }

/-- The columns of a BMV are where the base die has placed them. -/
def placeColumns (s : State) (u : Nat) (j : BmvJob) : State :=
  let keep := linesOf s u (tensorWords j) ++ s.leads.map Prod.fst
  let t := (List.range j.ncol).foldl (fun s i => placeColumn keep s (linesOf s u (columnWords j (j.col0 + i)))) s
  { s with places := t.places, leads := t.leads, badSectors := t.badSectors }

def start (s : State) (o : Opds) : Res :=
  match check s o with
  | .hold q => .holdFor q
  | .trap c v => .trap c v
  | .ok j ps st =>
    if !s.roomFor .bank then .hold false
    else
      let u := s.cur.grp
      let s := ps.foldl (fun s va => Paging.fill s (s.clusterOf u) s.ctx va) (s.noteStamps u st)
      .done ((placeColumns s u j).startOp { cls := .bank, kind := .bmv j })

/-! ### Columns and results -/

/-- The input vector (R257): the words that hold it, and its elements. -/
def inputWords (j : BmvJob) : List Nat := wordsAt (State.localVa j.xoff) (128 * j.ktiles)
def input (s : State) (u : Nat) (j : BmvJob) : List FV × Option (Nat × Nat) :=
  let m := bytesFor s u j (State.localVa j.xoff) (128 * j.ktiles)
  (Dot.halves (if j.bf then .bf16 else .f16) m.bytes (64 * j.ktiles), m.bad)

/-- One column: its result is written, or its fault is kept and its word left as it is (R259). -/
def column (s : State) (u : Nat) (keep : Bool) (j : BmvJob) (x : List FV × Option (Nat × Nat)) (i : Nat) :
    State × Option (Nat × Nat) × Bool :=
  let team := (s.grpAt u).team
  let y := j.yoff + 4 * i
  let c := columnOf s u j (j.col0 + i)
  let re := columnRecon s u j (j.col0 + i)
  let old : Option (Nat × Nat) := if j.acc && s.locBad team y 4 then some (0x26, State.localVa y) else none
  match c.2.or (x.2.or old) with
  | some f => (s, some f, re)
  | none =>
    let acc := if j.acc then s.readLoc team y 4 else 0
    (if keep then s.writeLoc team y (Bits.bytesOf 4 (Dot.dot acc x.1 c.1)) else s, none, re)

/-- Every column, in ascending order; one whose result has been performed keeps how that ended. DESIGN CHOICE (log 80): of several
columns that fail, the lowest is reported, and of one column the tensor's failure before the input vector's and that before the
accumulator's. -/
def columns (s : State) (u : Nat) (keep : Bool) (j : BmvJob) (x : List FV × Option (Nat × Nat)) :
    State × Option (Nat × Nat) × Bool :=
  (List.range j.ncol).foldl (fun acc i =>
    let r := match SMap.get? j.cols i with
      | some r => (acc.1, r)
      | none => column acc.1 u keep j x i
    (r.1, acc.2.1.or r.2.1, acc.2.2 || r.2.2)) (s, none, false)

/-! ### The bank fences -/

/-- Whether what a BFENCE.W before operation `id` waits for has reached DRAM (R224). -/
def fenceMet (s : State) (g : Group) (f : Op) : Bool :=
  match f.kind with
  | .bfenceW t =>
    (g.ops.all fun o => !(o.cls == .stores && decide (o.id < f.id)))
      && s.dramAt.all fun e => decide (t < e.2)
  | _ => true

/-- Fences that hold nothing back any longer go. -/
def settle (s : State) (u : Nat) : State :=
  s.modGrp u fun g =>
    { g with ops := g.ops.filter fun f =>
        match f.kind with
        | .bfenceW _ => !fenceMet s g f
        | .bfenceR => g.ops.any fun b => b.cls == .bank && decide (b.id < f.id)
        | _ => true }

/-- Whether a BMV may read its operands now. -/
def ready (s : State) (u : Nat) (o : Op) (j : BmvJob) : Bool :=
  let g := s.grpAt u
  let near (off n : Nat) := s.onWay u o.id (State.engineAccess (State.localVa off) (.loc g.team off) n)
  !o.done && !s.blocked u { o with cls := .loads } && !near j.xoff (128 * j.ktiles) && !near j.yoff (4 * j.ncol)
    && g.ops.all fun f => decide (o.id < f.id) || fenceMet s g f

/-- Whether a word of the tensor may not be read from its bank now (R385, R386). -/
def bankWaits (s : State) (u n : Nat) : Bool :=
  match s.find u true .load (8 * n) with
  | .at' (.hbm p) _ => Up.bankBusy s (lineOf p)
  | _ => false

/-- What the banks have read for a BMV: a line that needed reconstruction counts for its bank (R378). -/
def countReads (s : State) (u : Nat) (ws : List Nat) : State :=
  if Up.ailing s then (linesOf s u ws).foldl Up.countRebuild s else s

/-- A bank unit reads one word of a BMV's operands ahead of the rest, in any order (R93, R224, R259). -/
def readWord (s : State) (u id va : Nat) : State :=
  match (s.grpAt u).op? id with
  | none => s
  | some o =>
    match o.kind with
    | .bmv j =>
      let n := va / 8
      if ready s u o j && (inputWords j ++ tensorWords j).contains n && (SMap.get? j.seen n).isNone && !bankWaits s u n then
        (countReads s u [n]).modGrp u fun g => g.setOp id fun o => { o with kind := .bmv { j with seen := SMap.put j.seen n (word s u (8 * n)) } }
      else s
    | _ => s

/-- Words that no step has read are read now. -/
def readNow (s : State) (u : Nat) (j : BmvJob) (ws : List Nat) : State × BmvJob :=
  let new := ws.filter fun n => (SMap.get? j.seen n).isNone
  (countReads s u new, { j with seen := new.foldl (fun m n => SMap.put m n (word s u (8 * n))) j.seen })

/-- Whether the words of some columns can be read now. -/
def readable (s : State) (u : Nat) (j : BmvJob) (ws : List Nat) : Bool :=
  ws.all fun n => (SMap.get? j.seen n).isSome || !bankWaits s u n

/-- The result of one column is performed in local memory, ahead of the others and of the counter (R224, R259): the input vector
is read once, and the column's words that no step has read yet are read now. -/
def writeColumn (s : State) (u id i : Nat) : State :=
  match (s.grpAt u).op? id with
  | none => s
  | some o =>
    match o.kind with
    | .bmv j =>
      let ws := columnWords j (j.col0 + i)
      if ready s u o j && decide (i < j.ncol) && (SMap.get? j.cols i).isNone && readable s u j ws then
        let x := readNow s u j (inputWords j ++ ws)
        let r := column x.1 u (!o.dropped) x.2 (input x.1 u x.2) i
        r.1.modGrp u fun g => g.setOp id fun o => { o with kind := .bmv { x.2 with cols := SMap.put j.cols i r.2 } }
      else s
    | _ => s

/-- The results are in local memory and the counter falls in issue order; what no step has read yet is read now. -/
def complete (s : State) (u id : Nat) : Option State :=
  ((s.grpAt u).op? id).bind fun o =>
    match o.kind with
    | .bmv j =>
      if ready s u o j && readable s u j (tensorWords j) then
        let team := (s.grpAt u).team
        let r := columns s u (!o.dropped) j (input s u j)
        let s := (countReads r.1 u ((tensorWords j).filter fun n => (SMap.get? j.seen n).isNone)).noteStamps u
          [{ stamp := .known (s.locStamp team j.xoff (128 * j.ktiles)) }]
        let s := s.modGrp u fun g =>
          (g.setOp id fun o => { o with done := true, fault := r.2.1, recon := r.2.2 }).retire
        some (settle s u)
      else none
    | _ => none

def fence (s : State) (w r : Bool) : State :=
  let s := if w then s.startOp { cls := .none, kind := .bfenceW (Nat.max s.gtime s.grp.horizon) } else s
  if r && s.grp.counter .bank != 0 then s.startOp { cls := .none, kind := .bfenceR } else s

/-- BSTAT's value (R261). -/
def stat (s : State) (sel : Nat) : W64 :=
  let g := s.grp
  let recon := (s.channels.filter fun e => e.2.failed && !e.2.retired).length
  BitVec.ofNat 64 (if sel = 0 then g.bmvLast * 16 + g.counter .bank else recon * 65536 + Sys.channelsUp s)

end Bnk

open Bnk

def execBmv (o : Opds) (s : State) : Host.Outcome State Fault Refusal := issue (.bmv o) s fun s => start s o

def execBmvComplete (grp op : Nat) (s : State) : Host.Outcome State Fault Refusal := happen s (complete s grp op)

def execBfenceW (o : Opds) (s : State) : Host.Outcome State Fault Refusal :=
  issue (.bfenceW o) s fun s => .done (fence s true false)

def execBfenceR (o : Opds) (s : State) : Host.Outcome State Fault Refusal :=
  issue (.bfenceR o) s fun s => .done (fence s false true)

def execBfenceWr (o : Opds) (s : State) : Host.Outcome State Fault Refusal :=
  issue (.bfenceWr o) s fun s => .done (fence s true true)

def execBstat (o : Opds) (s : State) : Host.Outcome State Fault Refusal :=
  issue (.bstat o) s fun s => .done (s.setGrp (s.grp.wk o.d.val (stat s (Forms.code o.a))))

end Sys2Proof.Machine
end

