-- ==== Sys2Proof/Machine/Coherence.lean ====
section
/-! DEFINITION. The steps of the memory system (R207 to R219): arrival at home slices, completion, leases,
ownership, releases and acquires. A step whose condition does not hold leaves the state as it is. -/

namespace Sys2Proof.Machine

open Sys2Proof (SMap)

namespace Coh

/-- Whether an operation's access may be performed at its slice now (R205, R208, R214, R215); while a core owns the
line every access at the slice waits (R218), and what is to come from DRAM waits for a refresh that is due (R385). -/
def clear (s : State) (u : Nat) (o : Op) (a : Access) (p : Nat) : Bool :=
  a.st == .waiting && !Up.stalled s (lineOf p) && !s.blocked u o && !(o.rel.isSome && !o.released) && !s.outOfOrder u o a false
    && (s.ownerOf (lineOf p)).isNone && !s.l1Behind u o.id a
    && ((o.gathers && o.viewOf a == 0#16) || !s.foreign (s.l1Of u) (a.tag (s.ctxOf u) o.hyp) (lineOf p))

/-- Whether an operation's lane reads at the slice: a load, or an atomic that takes no ownership (R266, R239, R273). -/
def readsAtSlice (o : Op) (a : Access) : Bool :=
  match o.kind with
  | .load _ | .gather _ => true
  | .atomic _ _ _ _ => a.readOnly || o.dropped || o.hyp != 0#16
  | _ => false

/-- A lane's load arrives: the core serves it if it can by now, else the home slice. -/
def load (s : State) (u id lane : Nat) : State :=
  let s := s.performAtCore u id lane
  match s.lane? u id lane with
  | none => s
  | some (o, a) =>
    match a.loc with
    | .hbm p =>
      if readsAtSlice o a && !a.locked && clear s u o a p then
        s.eachLane u id (o.sameWord a) fun s o a => if readsAtSlice o a then s.loadAtSlice u p o a else s
      else s
    | _ => s

/-- A lane's store arrives: its words enter the L1 if they have not yet, and its home slice gives it its stamp. -/
def store (s : State) (u id lane : Nat) : State :=
  let s := s.performAtCore u id lane
  match s.lane? u id lane with
  | none => s
  | some (o, a) =>
    match o.kind, a.loc with
    | .store, .hbm p =>
      if a.l1At != 0 && !a.locked && clear s u o a p then
        let ctx := s.ctxOf u
        let r := s.sliceWrite ctx o.hyp p a.bytes
        (r.1.leaseWords (s.l1Of u) (o.storeId lane) (r.2 + s.rlease ctx)).setLane u id lane fun x =>
          { x with st := .performed, stamps := [.known r.2] }
      else s
    | _, _ => s

/-- Whether every lane of a store has been performed and its stamp is known. -/
def storeReady (o : Op) : Bool :=
  o.kind == .store && !o.done && o.lanes.all fun a => a.st == .performed && State.stampsKnown a

/-- Lanes of a mask that have been performed and are to be delivered. -/
def due (o : Op) (m : Mask) : Bool :=
  o.cls == .loads && o.lanes.any fun a => a.st == .performed && Bits.has m (a.lane % 32)

/-- The home slice grants ownership for a waiting atomic (R218): the latest lease has run out, nobody owns the line,
and no store that the core issued before it to the line is still on its way. With no leaf behind the line the L1 does not keep it
(R344). -/
def grant (s : State) (u id lane : Nat) : Option State :=
  (s.lane? u id lane).bind fun x =>
    match x.1.kind, x.2.loc with
    | .atomic _ _ _ _, .hbm p =>
      let core := s.l1Of u
      if !readsAtSlice x.1 x.2 && !x.2.locked && clear s u x.1 x.2 p
          && decide (s.frontierOf (lineOf p) ≤ s.gtime) && !s.l1Store? core (lineOf p) id then
        let t := ((s.retake u x.2).takeOwnership (lineOf p) core (s.olease (s.ctxOf u)) (x.2.tag (s.ctxOf u) 0#16)).performOp u id
        some (if t.backed u x.2 then t else t.endOwnership (lineOf p))
      else none
    | _, _ => none

/-- Whether the wait of an acquire is over (R215, R217, R230). -/
def acquireReady (s : State) (u : Nat) (o : Op) (sc : Scope) : Bool :=
  let g := s.grpAt u
  let extra := match sc with | .system => 16 | _ => 0
  let wide := s.wideScope u sc
  let due (a : Access) := a.st != .waiting
    && (!wide || (State.allKnown a.stamps && decide (State.latest a.stamps + extra ≤ s.gtime)))
  !o.acquired && (match o.kind with
    | .fence =>
      (o.rel.isNone || o.released)
        && (g.ops.filter fun e => decide (e.id < o.id) && e.cls == .loads).all (fun e => e.lanes.all due)
        && (!wide || (g.pending.isEmpty && decide (g.horizon + extra ≤ s.gtime)))
    | .walk _ => false
    | _ => o.lanes.all due)

/-- An acquire ends: the L1's unowned words go at a wide scope, and what follows may proceed. -/
def acquireEnd (s : State) (u : Nat) (o : Op) (sc : Scope) : State :=
  let s := if s.wideScope u sc then s.discardL1 (s.l1Of u) else s
  s.modGrp u fun g =>
    (g.setOp o.id fun o => { o with acquired := true, done := o.done || o.kind == .fence }).retire

/-- A release is performed: its own store, or the way is free for the group's later stores (R214). -/
def release (s : State) (u : Nat) (o : Op) : State :=
  let s := s.modGrp u fun g =>
    g.setOp o.id fun o => { o with released := true, done := o.done || (o.kind == .fence && o.acq.isNone) }
  (s.performOp u o.id).modGrp u fun g => g.retire

/-- The causes that an owner's refusal, its uncorrectable data or its paused flow gives an access (R347, R349, R372). -/
def causeOk (o : Op) (c : Nat) : Bool :=
  match o.kind with
  | .atomic _ _ _ _ => [0x21, 0x22, 0x26, 0x27].contains c
  | _ => if o.cls == .loads then [0x21, 0x26, 0x27].contains c else [0x22, 0x27].contains c

/-- How a group is named across a save and a restore. -/
def groupKey (s : State) (u n : Nat) : Nat × Nat × Nat × Nat := ((s.teamOf u).launch, (s.teamOf u).id, (s.grpAt u).gid, n)

/-- What a completed walk operation of group `u` counts for in its walk (R184, R195, R197): a merged node, a WKSUBS of the group. -/
def countWalk (s : State) (u : Nat) (k : WalkOp) (w : Walk) : Walk :=
  match k.act with
  | .merge n => { w with states := SMap.put w.states n { SMap.get {} w.states n with merged := true } }
  | .subs n _ _ _ => { w with subsBy := groupKey s u n :: w.subsBy }
  | _ => w

/-- A walk operation is complete: it counts in its walk, and the stamps of its arena writes belong to that, to enter HORIZON where
it ends (R198, R223). -/
def walkDone (s : State) (u : Nat) (k : WalkOp) (t : Nat) : State :=
  let c := s.clusterAt k.cluster
  match SMap.get? c.walks k.slot with
  | some w =>
    if w.seq = k.seq then
      s.setClusterAt k.cluster { c with
        walks := SMap.put c.walks k.slot (countWalk s u k { w with horizon := Nat.max w.horizon t }) }
    else s
  | none => s

/-- A walk operation that was waiting only for answers is complete. -/
def answered (s : State) (u id : Nat) : State :=
  match (s.grpAt u).op? id with
  | some o =>
    if o.ended && !o.done && o.lanes.all fun a => a.st != .waiting then
      let bad := (o.lanes.find? fun a => a.fault.isSome).map fun a => (a.fault.getD 0x27, a.va)
      let s := match o.kind with
        | .walk k => walkDone s u k (o.lanes.foldl (fun t a => Nat.max t (State.lastStamp a)) 0)
        | _ => s
      s.modGrp u fun g => (g.setOp id fun o => { o with done := true, fault := o.fault.or bad }).retire
    else s
  | none => s

/-- What a peer's answer does in the core (R209, R210, R220, R228): a load leaves the bytes read under a lease that ends 16 cycles
early, tagged with its view (R267), a store's words serve hits as long, an atomic leaves none. -/
def peerServed (s : State) (u : Nat) (o : Op) (a : Access) (p : Nat) (r : Reply) : State :=
  let core := s.l1Of u
  let ws := wordsOf p a.size
  match o.kind with
  | .store => s.leaseWords core (o.storeId a.lane) (r.expiry - 16)
  | .load _ =>
    let s := s.retake u a
    if a.readOnly || !s.backed u a then s
    else s.l1Put core (a.tag (s.ctxOf u) o.hyp) (lineOf p) o.hyp (r.expiry - 16) (State.needOf p a.size) (ws.map fun w =>
      (w, BitVec.ofNat 32 (r.value % 2 ^ (8 * a.size) * 2 ^ (8 * (p % 4)) / 2 ^ (32 * (w - p / 4))), .known r.stamp, false))
  | _ => s.l1Forget core ws

/-- A peer answers an access: a value with its stamp, the stamp of a store, or a cause (R220, R228, R347). -/
def peerAnswer (s : State) (u id lane : Nat) (r : Reply) : State :=
  let s := s.performAtCore u id lane
  match s.lane? u id lane with
  | some (o, a) =>
    (match a.loc, a.loc.cached with
    | .peer _ _ _, some p =>
      if s.answerable u o a && s.fabricUp then
        match r.cause with
        | some c =>
          if causeOk o c then
            answered ((s.l1Drop (s.l1Of u) (wordsOf p a.size) o.hyp).setLane u id lane fun x =>
              { x with st := .performed, fault := some c }) u id
          else s
        | none =>
          answered ((peerServed s u o a p r).setLane u id lane fun x =>
            { x with st := .performed, stamps := [.known r.stamp]
                     wrote := if o.kind matches .atomic _ _ _ _ then [.known r.stamp] else []
                     value := if o.cls == .loads then r.value % 2 ^ (8 * x.size) else x.value }) u id
      else s
    | _, _ => s)
  | none => s

/-- The host link answers: a value read, or the acknowledgement of a posted write (R228). -/
def hostAnswer (s : State) (u id lane value : Nat) : State :=
  match s.lane? u id lane with
  | some (o, a) =>
    (match a.loc with
    | .host _ =>
      if s.answerable u o a then
        answered (s.setLane u id lane fun x =>
          { x with st := .performed, value := if o.cls == .loads then value % 2 ^ (8 * x.size) else x.value }) u id
      else s
    | _ => s)
  | none => s

/-- An L1 drops a word that it does not own (R209). -/
def l1Evict (s : State) (core key : Nat) : State :=
  let c := s.coreAt core
  s.setCoreAt core { c with l1 := c.l1.filter fun e => e.1 != key || e.2.owned }

/-- An L1 gives up a line that it owns (R219). -/
def ownEvict (s : State) (line : Nat) : State := s.endOwnership line

/-- Whether a line that an L1 holds is one that a leaf reaches: a hit in it needs no translation (R344). -/
def reached (e : TlbLeaf) (ctx va p : Nat) (tile : Option Nat) : Bool :=
  if tile.isSome then
    let l : Leaf := ⟨e.base, e.size, e.w0, e.w1, e.at'⟩
    (l.target l.base).cached.any fun q => decide (q ≤ p) && decide (p < q + l.size)
  else ctx == e.ctx && decide (e.base ≤ va) && decide (va < e.base + e.size)

/-- A TLB drops a leaf, its count going to memory (R348); the lines of its L1s whose hits rest on it go with it, owned ones by a
hand-back (R219). -/
def tlbEvict (s : State) (cluster i : Nat) : State :=
  match (s.clusterAt cluster).tlb[i]? with
  | none => s
  | some e =>
    let s := s.addAcount cluster i
    let c := s.clusterAt cluster
    let s := s.setClusterAt cluster { c with tlb := c.tlb.eraseIdx i }
    let s := (s.owners.filter fun x => x.2.core / 4 == cluster && reached e x.2.ctx x.2.va (x.1 * 128) x.2.tile).foldl
      (fun s x => s.endOwnership x.1) s
    (List.range 4).foldl (fun s i =>
      let k := s.coreAt (cluster * 4 + i)
      let gone (w : Nat × L1Word) : Bool := reached e w.2.ctx (w.2.va * 4) (w.1 / 65536 * 4) w.2.tile
      if k.l1.any gone then s.setCoreAt (cluster * 4 + i) { k with l1 := k.l1.filter fun w => !gone w } else s) s

/-- Whether another core, or an engine of one, waits for a line (R218); what fragments and the walk units read is seen where the turn
is taken. -/
def wanted (s : State) (line core : Nat) : Bool :=
  s.groups.any fun e => s.l1Of e.1 != core && e.2.ops.any fun o => o.engine
    || o.lanes.any fun a => a.st == .waiting && (match a.loc with | .hbm p => lineOf p == line | _ => false)

/-- A slice renews an ownership for which no other core waits (R218). -/
def ownRenew (s : State) (line : Nat) : State :=
  match s.ownerOf line with
  | some ow =>
    if wanted s line ow.core || ow.hand then s
    else { s with owners := SMap.put s.owners line { ow with expiry := Nat.max ow.expiry (s.gtime + s.olease ow.ctx) } }
  | none => s

/-! ### Capacity (R13, R16, R344) -/

/-- The lines that an L1 holds: words of a line under each view, and lines that the core owns. -/
def l1Held (s : State) (core : Nat) : List (Nat × Nat) :=
  let owned := (s.owners.filter fun e => e.2.core == core).map fun e => (e.1, 0)
  (((s.coreAt core).l1.map fun (e : Nat × L1Word) => (State.keyLine e.1, e.1 % 65536)) ++ owned).eraseDups

/-- How many lines an L1 has room for. -/
def l1Cap (s : State) (core : Nat) : Nat :=
  if core % 4 = 0 && s.groups.any fun e => s.fused e.1 && s.l1Of e.1 == core then Config.l1Fused else Config.l1Lines

/-- An L1 that holds more lines than it has room for gives lines up, chosen freely, until it fits. -/
def l1Fit (s : State) (core : Nat) : Nat → State
  | 0 => s
  | n + 1 =>
    let c := s.coreAt core
    if c.l1.length + s.owners.length ≤ l1Cap s core then s
    else
      let held := l1Held s core
      if held.length ≤ l1Cap s core then s
      else
        let x := held.getD (Config.freeNat s.choice core % held.length) (0, 0)
        let s := s.setCoreAt core { c with l1 := c.l1.filter fun e => (State.keyLine e.1, e.1 % 65536) != x }
        let s := if x.2 = 0 && (s.ownerOf x.1).any (fun ow => ow.core == core) then s.endOwnership x.1 else s
        l1Fit { s with choice := s.choice + 1 } core n

/-- A TLB whose sets hold more leaves than they have ways drops leaves, chosen freely. -/
def tlbFit (s : State) (cluster : Nat) : Nat → State
  | 0 => s
  | n + 1 =>
    let l := (s.clusterAt cluster).tlb
    let set (e : TlbLeaf) := Config.tlbSet e.ctx e.base % (Config.tlbEntries / Config.tlbWays)
    if l.length ≤ Config.tlbWays then s
    else
      let crowded := (List.range l.length).filter fun i => match l[i]? with
        | some e => decide (Config.tlbWays < (l.filter fun x => set x == set e).length)
        | none => false
      if crowded.isEmpty then s
      else
        let i := crowded.getD (Config.freeNat s.choice cluster % crowded.length) 0
        tlbFit { tlbEvict s cluster i with choice := s.choice + 1 } cluster n

/-- The set of its slice that a line falls in: 512 sets of 16 ways (R16, R268). -/
def l2SetOf (s : State) (line : Nat) : Nat × Nat := (s.homeOf line, Config.l2Set line % Config.l2Sets)

/-- The lines of versions that slices hold: by context, slot and line. -/
def versionLines (s : State) : List Nat := ((s.versions.filter fun e => !e.2.spilled).map fun e => e.1 / 32).eraseDups

/-- The committed lines that slices hold. -/
def l2Lines (s : State) : List Nat := s.dramAt.map Prod.fst ++ s.l2.filter fun l => (SMap.get? s.dramAt l).isNone

/-- How many ways of a set hold committed lines and versions. -/
def l2Used (s : State) (x : Nat × Nat) : Nat :=
  ((l2Lines s).filter fun l => l2SetOf s l == x).length + ((versionLines s).filter fun k => l2SetOf s (k % 2 ^ 41) == x).length

/-- A slice gives up a line: what DRAM does not hold yet is written back first (R224). -/
def l2Evict (s : State) (line : Nat) : State := Up.dropLine (Up.writeLine s line) line

/-- Committed lines go, chosen freely, where their set has no room for them (R16, R268). -/
def l2Fit (s : State) : Nat → State
  | 0 => s
  | n + 1 =>
    if s.dramAt.length + s.l2.length + s.versions.length ≤ Config.l2Ways then s
    else
      let crowded := (l2Lines s).filter fun l => decide (Config.l2Ways < l2Used s (l2SetOf s l))
      if crowded.isEmpty then s
      else l2Fit { l2Evict s (crowded.getD (Config.freeNat s.choice 0 % crowded.length) 0) with choice := s.choice + 1 } n

/-- A slice writes a line back to DRAM (R224, R375). -/
def writeBack (s : State) (line : Nat) : State := Up.writeLine s line

end Coh

def execLoadAtHomeSlice (grp op lane : Nat) (s : State) : Host.Outcome State Fault Refusal :=
  happen s (some (Coh.load s grp op lane))

def execLoadComplete (grp op : Nat) (lanes : Mask) (s : State) : Host.Outcome State Fault Refusal :=
  happen s (((s.grpAt grp).op? op).bind fun o => if Coh.due o lanes then some (s.deliverLanes grp op lanes) else none)

def execStoreAtHomeSlice (grp op lane : Nat) (s : State) : Host.Outcome State Fault Refusal :=
  happen s (some (Coh.store s grp op lane))

def execStoreStampReturn (grp op : Nat) (s : State) : Host.Outcome State Fault Refusal :=
  happen s (((s.grpAt grp).op? op).bind fun o => if Coh.storeReady o then some (s.finishStore grp op) else none)

def execL1LeaseExpiry (core line : Nat) (s : State) : Host.Outcome State Fault Refusal :=
  let c := s.coreAt core
  happen s (some (s.setCoreAt core { c with l1 := c.l1.filter fun e =>
    !(State.keyLine e.1 == line && !e.2.fresh s.gtime) }))

def execOwnershipGrant (grp op lane : Nat) (s : State) : Host.Outcome State Fault Refusal :=
  happen s (Coh.grant s grp op lane)

def execOwnershipExpiry (line : Nat) (s : State) : Host.Outcome State Fault Refusal :=
  happen s ((s.ownerOf line).bind fun ow => if ow.expiry ≤ s.gtime then some (s.endOwnership line) else none)

def execOwnershipHandbackArrival (line : Nat) (s : State) : Host.Outcome State Fault Refusal :=
  happen s ((s.ownerOf line).bind fun ow => if ow.hand then some (s.endOwnership line) else none)

def execReleasePerform (grp op : Nat) (s : State) : Host.Outcome State Fault Refusal :=
  happen s (((s.grpAt grp).op? op).bind fun o => o.rel.bind fun sc =>
    if !o.released && s.releaseReady grp sc op then some (Coh.release s grp o) else none)

def execAcquireWaitEnd (grp op : Nat) (s : State) : Host.Outcome State Fault Refusal :=
  happen s (((s.grpAt grp).op? op).bind fun o => o.acq.bind fun sc =>
    if Coh.acquireReady s grp o sc then some (Coh.acquireEnd s grp o sc) else none)

end Sys2Proof.Machine
end

