-- ==== Sys2Proof/Machine/Fetch.lean ====
section
/-! DEFINITION. Fetching a line and landing on a checked target (R49 to R55, R343, R350). -/

namespace Sys2Proof.Machine

open Sys2Proof (SMap)

/-- What the fetch of a line gives. -/
inductive Fetched where
  | line (n : Nat)
  | fault (cause : Nat)
  /-- a core owns the line of memory, or its bank is to be refreshed: the fetch waits at the slice (R218, R385) -/
  | wait
deriving DecidableEq, Repr

/-- The checks on a fetched line: parity first (R52), then the line word (R55). -/
def checkLine (n : Nat) : Fetched :=
  if !Line.parityOk n then .fault 0x43 else if !Line.kindOk n then .fault 0x49 else .line n

namespace State

/-- A line that the core of group `u` has fetched (R53). -/
def keptLine (s : State) (u va : Nat) : Option FetchLine :=
  (s.coreAt (s.coreOf u)).fetch.find? fun l => l.ctx == s.ctxOf u && l.va == va

/-- A line as its place holds it. A mismatch there persists: the refetch of R52 reads the same. -/
def readLine (s : State) : Loc → Fetched
  | .hbm p =>
    if (s.ownerOf (lineOf p)).isSome || Up.stalled s (lineOf p) then .wait
    else if s.badAt p 64 then .fault 0x43
    else checkLine (s.readMem p 64)
  | .host a => checkLine (Config.freeNat a s.choice % 2 ^ 512)
  | _ => .fault 0x23

/-- The fetch of the line at `va` for group `u`: the line that the core keeps, refetched once where its parity fails (R52,
R53). -/
def fetchLine (s : State) (u : Nat) (priv : Bool) (va : Nat) : Fetched :=
  match s.find u priv .fetch va with
  | .fault c => .fault c
  | .at' loc _ =>
    match s.keptLine u va with
    | some l => if Line.parityOk l.line then checkLine l.line else s.readLine loc
    | none => s.readLine loc

/-- Whether the line that the core keeps has lost its parity, so that it is fetched again (R52). -/
def keptBad (s : State) (u va : Nat) : Bool := (s.keptLine u va).any fun l => !Line.parityOk l.line

/-- A fetch at va that finds no line kept reads it at its home slice (R53, R376). -/
def bringFetched (s : State) (u va : Nat) : State :=
  match s.keptLine u va, s.find u true .fetch va with
  | none, .at' (.hbm p) _ => Up.bringIn s (lineOf p)
  | _, _ => s

/-- A line kept whose refetch for parity fails is an uncorrectable error (R417). -/
def noteFetch (s : State) (u va cause : Nat) : State :=
  if cause = 0x43 && s.keptBad u va then Up.note s 2 5 (Up.whereOf (s.clusterOf u / 20) (s.clusterOf u)) va else s

/-- The core keeps a line that it has fetched and that passed its checks (log 65), and the TLB its translation; a refetch for parity
counts as an error corrected (R417). -/
def keepLine (s : State) (u va n : Nat) : State :=
  let s := (Paging.fill s (s.clusterOf u) (s.ctxOf u) va).bringFetched u va
  let s := if s.keptBad u va then Up.noteCorrected s 5 (Up.whereOf (s.clusterOf u / 20) (s.clusterOf u)) 1 else s
  if (s.keptLine u va).any fun l => l.line == n then s
  else
    let c := s.coreAt (s.coreOf u)
    let others := c.fetch.filter fun l => !(l.ctx == s.ctxOf u && l.va == va)
    s.setCoreAt (s.coreOf u) { c with fetch := ⟨s.ctxOf u, va, n⟩ :: others }

/-- The base of the line that holds a PC. -/
def lineBase (pc : W64) : Nat := pc.toNat / 64 * 64

end State

/-- How a checked transfer ends (R54, R55). -/
inductive Landing where
  | ok (s : State)
  | fail (cause : Nat)
  | wait

/-- The check of a target PC for the issuing fragment. -/
def State.land (s : State) (pc : W64) : Landing :=
  match (if pc.toNat < 2 ^ 56 then Line.slotOf pc else none) with
  | none => .fail 0x41
  | some i =>
    match s.fetchLine s.cur.grp (s.privAt s.cur.grp s.cur.frag) (State.lineBase pc) with
    | .fault c => .fail c
    | .wait => .wait
    | .line n => if Line.target n i then .ok (s.keepLine s.cur.grp (State.lineBase pc) n) else .fail 0x41

end Sys2Proof.Machine
end

