-- ==== Sys2Proof/Machine/Control.lean ====
section
/-! DEFINITION. Branches, stitch markers, exit, barriers, SPAWN, LAUNCH, LQSIGNAL, ranges, YIELD, LIFE, RWS, NOP
and TRAP (R284 to R334). -/

namespace Sys2Proof.Machine

open Sys2Proof (SMap Opd Opds Hint)
open Operands

namespace Ctl

/-! ### Branches (R286, R287, R314 to R317) -/

/-- The PC at a displacement from the instruction's own. -/
def target (s : State) (o : Opds) : W64 := s.cur.pc + Bits.sext64 o.imm

/-- The join register a branch names. -/
def joinOf (o : Opds) : Option Nat := match o.b with | .j n => some n.toNat | _ => none

/-- A .uniform branch whose active lanes disagree is counted (R315). -/
def countMiss (h : Hint) (act taken : Mask) (g : Group) : Group :=
  if h == .uniform && taken != act && taken != 0#32 then { g with uhmiss := g.uhmiss + 1 } else g

/-- The taken side goes to `pc`, the other to `other`; `pre` is what the instruction writes before it branches. -/
def goTo (s : State) (h : Hint) (taken : Mask) (pc other : W64) (jn : Option Nat) (pre : Group → Group) : Res :=
  match s.land pc with
  | .fail c => .trapWith (fun s => s.noteFetch s.cur.grp (State.lineBase pc) c) c pc.toNat
  | .wait => .hold false
  | .ok s =>
    match (countMiss h s.active taken (pre s.grp)).branch s.cur.frag taken pc other jn with
    | .error v => .trap 0x45 v
    | .ok g => .moved (s.setGrp g)

/-- The targets of BRX and RET are checked lane by lane; the lowest lane whose target fails is reported. -/
def landAll (s : State) (at' : Nat → W64) : List Nat → Except (Option (Nat × W64)) State
  | [] => .ok s
  | i :: r =>
    match s.land (at' i) with
    | .fail c => .error (some (c, at' i))
    | .wait => .error none
    | .ok s => landAll s at' r

/-- R287: the lanes whose target is the reference lane's are taken, the others stay. -/
def indirect (s : State) (h : Hint) (o : Opds) : Res :=
  let at' := fun i => get64 false o s.grp o.a i
  let t0 := at' s.refLane
  let taken := Bits.maskOf fun i => Bits.has s.active i && at' i == t0
  match landAll s at' (Bits.members s.active) with
  | .error none => .hold false
  | .error (some t) => .trapWith (fun s => s.noteFetch s.cur.grp (State.lineBase t.2) t.1) t.1 t.2.toNat
  | .ok s => goTo s h taken t0 s.cur.pc (joinOf o) id

/-- CALL's link: in the taken lanes of a pair, or once in a k register (R316). -/
def link (o : Opds) (taken : Mask) (x : W64) (g : Group) : Group :=
  match o.d with
  | .v n => (Bits.members taken).foldl (fun g i => g.wv2 n.toNat i x) g
  | .k n => g.wk n.toNat x
  | _ => g

/-! ### Barriers (R321 to R324) -/

/-- The scope of a barrier's arrival (R232). -/
def scopeAt (b : Nat) : Scope := if b < 16 then .team else if b = 16 then .cluster else .module

/-- Whether a group has arrived at a barrier in this phase. -/
def hasArrived (s : State) (u b : Nat) : Bool :=
  (s.barrierAt u b).arrived.contains (arrivalKey (s.teamOf u) (s.grpAt u) b)

/-- Whether all the group's fragments are parked at `b` and its release condition holds; no arrival is made for an orphaned
group (R274). -/
def mayArrive (s : State) (u b : Nat) : Bool :=
  (s.grpAt u).barrierOf == some b && (s.grpAt u).orphan.isNone && !hasArrived s u b && s.releaseReady u (scopeAt b) s.nextId

/-- Group `u` arrives; the phase completes if it was the last. -/
def arrive (s : State) (u b : Nat) : State :=
  let x := s.barrierAt u b
  let s := s.setBarrierAt u b { x with arrived := arrivalKey (s.teamOf u) (s.grpAt u) b :: x.arrived }
  s.completeBarrier u b

/-- Another barrier at which a fragment of the group is parked. -/
def otherBarrier (g : Group) (b : Nat) : Option Nat :=
  (List.range 8).findSome? fun q =>
    let x := g.quad q
    if x.st == .parkedBar && x.waitno != b then some x.waitno else none

/-- R324's traps. -/
def barTrap (s : State) (b : Nat) (bytes : W64) : Option (Nat × Nat) :=
  let r := s.launch.record
  if b = 17 && !r.gridbar then some (0x44, 0)
  else if b = 16 && !r.cluster then some (0x4B, 0x200)
  else match otherBarrier s.grp b with
    | some n => some (0x4B, 0x100 + n)
    | none => if bytes.toNat < 2 ^ 24 then none else some (0x4B, 0x300 + b)

/-- A barrier instruction at barrier `b` (16 for CBAR, 17 for GBAR). -/
def barrier (s : State) (b : Nat) (bytes : W64) : Res :=
  match barTrap s b bytes with
  | some t => .trap t.1 t.2
  | none =>
    let u := s.cur.grp
    let x := s.barrierAt u b
    let s := s.setBarrierAt u b { x with pend := (x.pend + bytes.toNat) % 2 ^ 24 }
    let s := s.setGrp (s.grp.parkBar s.cur.frag b s.cur.pc)
    let s := if s.wideScope u (scopeAt b) then s.handBack u else s
    .moved (if mayArrive s u b then arrive s u b else s.completeBarrier u b)

/-! ### SPAWN (R303, R325) -/

/-- The lowest GROUPID not in use in a team. -/
def freeGid (s : State) (team : Nat) : Nat :=
  ((List.range 32).find? fun i => (s.groupsOf team).all fun e => e.2.gid != i).getD 0

/-- The partition for a spawned group, where R303's conditions hold. -/
def spawnRoom (s : State) : Option Nat :=
  let g := s.grp
  if (s.groupsOf g.team).length < 32 && s.saveFits g.team (recordBytes g.nv g.nk g.nm) then
    State.roomAt (s.usage s.team.core) (State.footprint g.nv g.nm)
  else none

/-- The new group: R27's state but for the eight registers, HCUR and HORIZON. -/
def spawned (s : State) (o : Opds) (part : Nat) : Group :=
  let g := s.grp
  let n := State.freshGroup g.team (freeGid s g.team) g.role g.nv g.nk g.nm g.present g.helpers (target s o)
    s.launch.recaddr s.launch.record.args
  let n := (List.range 8).foldl (fun n j =>
    (Bits.members g.present).foldl (fun n i => n.wv (o.b.val + j) i (g.rv (o.b.val + j) i)) n) n
  { n with hcur := g.hcur, horizon := g.horizon, partition := part }.startsAt s.gtime

/-- Write a predicate result in every lane of active_mask. -/
def setP (s : State) (x : Opd) (b : Bool) : State :=
  s.setGrp (s.grp.wp x.val s.active (if b then ~~~0#32 else 0#32))

/-- Write a k result. -/
def setK (s : State) (x : Opd) (v : W64) : State := s.setGrp (s.grp.wk x.val v)

def spawn (s : State) (o : Opds) : State :=
  match (if s.exec o.guard == 0#32 then none else spawnRoom s) with
  | none => setP s o.d false
  | some p =>
    let n := s.nextId
    ((setP s o.d true).setGrpAt n (spawned s o p)).fresh

/-! ### LAUNCH, LQSIGNAL (R295 to R298, R326, R327) -/

/-- The entry handle of a position (R296). -/
def handleOf (s : State) (pos : Nat) : W32 :=
  BitVec.ofNat 32 (SMap.get 0 s.queueSeq pos % 65536 * 65536 + pos % 64 * 16 + pos / 64)

/-- The position a handle names, if its sequence number is the present one. -/
def posOf (s : State) (h : W32) : Option Nat :=
  let pos := Bits.field h 3 0 * 64 + Bits.field h 9 4
  if handleOf s pos == h && (SMap.get? s.queues pos).isSome then some pos else none

/-- The status word of an entry (R297). -/
def statusWord (under : Bool) (code : Nat) : Nat := (if under then 256 else 0) + code

end Ctl

/-- Where an access for a context leads, with or without the right to pages with U = 0. -/
def State.findAs (s : State) (ctx : Nat) (priv : Bool) (w : Want) (va : Nat) : Found :=
  if windowBase ≤ va then .fault 0x20
  else match Paging.walkBare s ctx va with
    | .fault c => .fault c
    | .leaf l _ =>
      match l.deny priv w with
      | some c => .fault c
      | none => .at' (l.target va) (some l)

/-- An access by the module for a context: with the rights of its user code (R337). -/
def State.findFor (s : State) (ctx : Nat) (w : Want) (va : Nat) : Found := s.findAs ctx (ctx == 0) w va

/-- A store by the dispatcher at a virtual address of a context, at the root, with the rights of what asked for it: nothing
is written where the address leads nowhere (R299). DESIGN CHOICE (log 83): it does not wait for a migration lock. -/
def State.dispatcherStore (s : State) (ctx : Nat) (priv : Bool) (va n x : Nat) : State :=
  match s.findAs ctx priv .store va with
  | .at' (.hbm p) _ => (s.endOwnership (lineOf p)).moduleStore p (Bits.bytesOf n x)
  | _ => s

/-- The team whose local memory a place lies in, while it is resident. -/
def State.nookTeam (s : State) (k : Nook) : Option Nat :=
  (s.teams.find? fun t => t.2.launch == k.launch && t.2.id == k.team).map Prod.fst

/-- The place of local memory that an address of the issuing group leads to. -/
def State.nookOf (s : State) (priv : Bool) (w : Want) (va : Nat) : Option Nook :=
  match s.find s.cur.grp priv w va with
  | .at' (.loc t off) _ => some ⟨(s.teamAt t).launch, (s.teamAt t).id, off⟩
  | _ => none

/-- The dispatcher writes the status word of an entry: in a context's space, or where it lies in the local memory of a team, as long
as that is resident. -/
def State.writeStatus (s : State) (ctx : Nat) (priv : Bool) (va : Nat) (under : Bool) (code : Nat) (at' : Option Nook := none) : State :=
  match at' with
  | none => s.dispatcherStore ctx priv va 4 (Ctl.statusWord under code)
  | some k =>
    match s.nookTeam k with
    | some t => s.writeLoc t k.off (Bits.bytesOf 4 (Ctl.statusWord under code))
    | none => s

namespace Ctl

/-- LAUNCH's grid, queue and count (R326). -/
structure Grid where
  gx : Nat
  gy : Nat
  gz : Nat
  queue : Nat
  count : Nat
  high : Nat

def gridOf (g : Group) (o : Opds) : Grid :=
  let b := g.rk o.b.val
  let c := g.rk (o.b.val + 1)
  { gx := Bits.field b 31 0, gy := Bits.field b 63 32, gz := Bits.field c 31 0, queue := Bits.field c 51 48,
    count := Bits.field c 47 32, high := Bits.field c 63 52 }

/-- LAUNCH's checks, in order. -/
def launchTrap (s : State) (r : Grid) (rec st : Nat) : Option (Nat × Nat) :=
  let priv := s.privAt s.cur.grp s.cur.frag
  if r.queue = 0 || !(s.descAt s.ctx).qgrant.getLsbD r.queue then some (0x4C, 0x100)
  else if r.gx = 0 || r.gy = 0 || r.gz = 0 || decide (2 ^ 32 ≤ r.gx * r.gy * r.gz) then some (0x4C, 0x200)
  else if r.high ≠ 0 then some (0x4C, 0x300)
  else if rec % 256 ≠ 0 then some (0x28, rec)
  else if st % 4 ≠ 0 then some (0x28, st)
  else match s.find s.cur.grp priv .load rec, s.find s.cur.grp priv .store st with
    | .fault c, _ => some (c, rec)
    | _, .fault c => some (c, st)
    | _, _ => none

/-- The lowest free position of a launch queue. -/
def freePos (s : State) (q : Nat) : Option Nat :=
  ((List.range 64).map fun i => q * 64 + i).find? fun pos => (SMap.get? s.queues pos).isNone

/-- Take a position of a queue for an entry (R295, R296). -/
def enqueue (s : State) (pos : Nat) (e : QEntry) : State :=
  { s with queues := SMap.put s.queues pos e
           queueSeq := SMap.put s.queueSeq pos ((SMap.get 0 s.queueSeq pos + 1) % 65536) }

def launch (s : State) (o : Opds) : Res :=
  let g := s.grp
  let r := gridOf g o
  let rec' := (g.rk o.a.val).toNat
  let st := (g.rk (o.a.val + 1)).toNat
  let priv := s.privAt s.cur.grp s.cur.frag
  match launchTrap s r rec' st with
  | some t => .trap t.1 t.2
  | none =>
    if !s.releaseReady s.cur.grp .module s.nextId then .hold true
    else match freePos s r.queue with
      | none => .done (setP (setK s o.d 0#64) o.c false)
      | some pos =>
        let s := enqueue s pos
          { ctx := s.ctx, record := rec', status := st, gx := r.gx, gy := r.gy, gz := r.gz, count := r.count,
            under := false, st := if r.count = 0 then .ready else .waiting, since := s.gtime, launch := g.horizon
            priv := priv, recordAt := s.nookOf priv .load rec', statusAt := s.nookOf priv .store st }
        let s := s.writeStatus s.ctx priv st false (if r.count = 0 then 1 else 0) (s.nookOf priv .store st)
        .done (setP (setK s o.d (Bits.zext64 (handleOf s pos))) o.c true)

/-- The effect of an LQSIGNAL on the entry at a position (R327). -/
def signal (s : State) (pos : Nat) (e : QEntry) : State × Bool :=
  if e.st == .waiting then
    let n := e.count - 1
    let e := { e with count := n, st := if n = 0 then .ready else .waiting, since := s.gtime }
    let s := { s with queues := SMap.put s.queues pos e }
    (if n = 0 then s.writeStatus e.ctx e.priv e.status e.under 1 e.statusAt else s, true)
  else
    let e := { e with under := true }
    let s := { s with queues := SMap.put s.queues pos e }
    (s.writeStatus e.ctx e.priv e.status true (if e.st == .running then 2 else 1) e.statusAt, false)

def lqsignal (s : State) (o : Opds) : Res :=
  if !s.releaseReady s.cur.grp .module s.nextId then .hold true
  else match posOf s (Bits.lo (s.grp.rk o.a.val)) with
    | none => .done (setP s o.d false)
    | some pos =>
      match SMap.get? s.queues pos with
      | none => .done (setP s o.d false)
      | some e =>
        if e.ctx != s.ctx then .done (setP s o.d false)
        else
          let r := signal s pos e
          .done (setP r.1 o.d r.2)

/-! ### Ranges (R304, R305, R328, R329) -/

/-- The range handle of range `n` of a cluster. -/
def rangeHandle (seq n cluster : Nat) : W32 := BitVec.ofNat 32 (seq % 65536 * 65536 + n * 128 + cluster)

def rangeInit (s : State) (o : Opds) : Res :=
  let a := s.grp.rk o.a.val
  let b := s.grp.rk o.b.val
  if Bits.field a 63 32 = 0 then .trap 0x4D a.toNat
  else if Bits.field b 15 0 = 0 || !Bits.fieldZero b 63 16 then .trap 0x4D b.toNat
  else
    let cl := s.clusterOf s.cur.grp
    let c := s.clusterAt cl
    match (List.range 16).find? fun n => (SMap.get? c.ranges n).isNone with
    | none => .done (setP (setK s o.d 0#64) o.c false)
    | some n =>
      let seq := (SMap.get 0 c.rangeSeq n + 1) % 65536
      let r : Range := { total := Bits.field a 31 0, next := 0, min := Bits.field a 63 32, d := Bits.field b 15 0,
                         ctx := s.ctx, launch := s.team.launch }
      let h := rangeHandle seq n cl
      let s := s.setClusterAt cl { c with ranges := SMap.put c.ranges n r, rangeSeq := SMap.put c.rangeSeq n seq }
      let s := s.setTeam { s.team with ranges := s.team.ranges ++ [h] }
      .done (setP (setK s o.d (Bits.zext64 h)) o.c true)

/-- The cluster and number of the range a handle names for a context. -/
def rangeOf (s : State) (ctx : Nat) (h : W32) : Option (Nat × Nat × Range) :=
  let cl := Bits.field h 6 0
  let n := Bits.field h 10 7
  let c := s.clusterAt cl
  if Bits.fieldZero h 15 11 && decide (cl < 80) && !s.lostClusters.contains cl
      && rangeHandle (SMap.get 0 c.rangeSeq n) n cl == h then
    (SMap.get? c.ranges n).bind fun r => if r.ctx == ctx then some (cl, n, r) else none
  else none

/-- One take: start and length, and the range after it (R305). -/
def take (r : Range) : (Nat × Nat) × Range :=
  let rem := r.total - r.next
  if rem = 0 then ((r.next, 0), r)
  else
    let len := Nat.min rem (Nat.max r.min ((rem + r.d - 1) / r.d))
    ((r.next, len), { r with next := r.next + len })

def rangeTake (s : State) (o : Opds) : Res :=
  let h := Bits.lo (s.grp.rk o.a.val)
  match rangeOf s s.ctx h with
  | none => .trap 0x4D h.toNat
  | some _ =>
    if !s.roomFor .loads then .hold false
    else
      let lanes := Bits.members (s.exec o.guard)
      let s := s.startOp { cls := .loads, kind := .take o.d.val h, done := lanes.isEmpty,
                           lanes := lanes.map fun i => { lane := i, va := 0, loc := .host 0, size := 8, st := .finished } }
      .done (s.setGrp s.grp.retire)

/-- The takes of a RANGE.TAKE are served together, in ascending lane order; a helper lane takes nothing. -/
def serve (s : State) (u : Nat) (o : Op) (d : Nat) (h : W32) : State :=
  let write (s : State) (i a b : Nat) : State :=
    s.modGrp u fun g => (g.wv d i (BitVec.ofNat 32 a)).wv (d + 1) i (BitVec.ofNat 32 b)
  let s := o.lanes.foldl (fun s a =>
    match rangeOf s (s.ctxOf u) h with
    | none => write s a.lane 0 0
    | some (cl, n, r) =>
      if (s.grpAt u).isHelper a.lane then write s a.lane r.total 0
      else
        let x := take r
        let c := s.clusterAt cl
        write (s.setClusterAt cl { c with ranges := SMap.put c.ranges n x.2 }) a.lane x.1.1 x.1.2) s
  (s.wroteRegs u [(1, d), (1, d + 1)]).modGrp u fun g =>
    ((g.markWritten (granulesOf [(1, d), (1, d + 1)])).setOp o.id fun o => { o with done := true }).retire

/-! ### LIFE (R306, R331) -/

/-- The masks a LIFE names. -/
def lifeMasks (o : Opds) : Granules :=
  { v := o.imm, k := BitVec.ofNat 8 (Forms.code o.b), m := BitVec.ofNat 8 (Forms.code o.c),
    z := BitVec.ofNat 16 (Forms.code o.d + 256 * Forms.code o.a) }

def life (s : State) (o : Opds) : State :=
  let g := s.grp
  let r := g.frag s.cur.frag
  s.setGrp (g.setFrag s.cur.frag
    { r with life := lifeMasks o, count := 0, written := {}, stopped := r.stopped || s.team.preempt })

end Ctl

open Ctl

def execBra (h : Hint) (o : Opds) (s : State) : Host.Outcome State Fault Refusal :=
  issue (.bra h o) s fun s =>
    let taken := s.exec o.guard
    if taken == 0#32 then .done s else goTo s h taken (target s o) (Line.next s.cur.pc) (joinOf o) id

def execBrx (h : Hint) (o : Opds) (s : State) : Host.Outcome State Fault Refusal :=
  issue (.brx h o) s fun s => indirect s h o

def execCall (h : Hint) (o : Opds) (s : State) : Host.Outcome State Fault Refusal :=
  issue (.call h o) s fun s =>
    let taken := s.exec o.guard
    if taken == 0#32 then .done s
    else goTo s h taken (target s o) (Line.next s.cur.pc) (joinOf o) (link o taken (Line.next s.cur.pc))

def execRet (o : Opds) (s : State) : Host.Outcome State Fault Refusal :=
  issue (.ret o) s fun s => indirect s .none o

def execRegang (o : Opds) (s : State) : Host.Outcome State Fault Refusal :=
  issue (.regang o) s fun s => .moved (s.setGrp (s.grp.regang s.cur.frag o.a.val s.cur.pc))

/-- R291. DESIGN CHOICE (log 83): with no fragment stopped, those that rest at their markers under a pending request are freed too. -/
def execGroupStuckRelease (grp : Nat) (s : State) : Host.Outcome State Fault Refusal :=
  happen s (if (s.grpAt grp).stuck then some (s.modGrp grp Group.unstick) else none)

def execExit (o : Opds) (s : State) : Host.Outcome State Fault Refusal :=
  issue (.exit o) s fun s => .moved (s.endLanes (s.exec o.guard) (Line.next s.cur.pc))

def execBar (o : Opds) (s : State) : Host.Outcome State Fault Refusal :=
  issue (.bar o) s fun s => barrier s (Forms.code o.a) 0#64

def execBarx (o : Opds) (s : State) : Host.Outcome State Fault Refusal :=
  issue (.barx o) s fun s => barrier s (Forms.code o.a) (s.grp.rk o.b.val)

def execBarrierArrive (grp : Nat) (s : State) : Host.Outcome State Fault Refusal :=
  happen s ((s.grpAt grp).barrierOf.bind fun b => if mayArrive s grp b then some (arrive s grp b) else none)

def execCbar (o : Opds) (s : State) : Host.Outcome State Fault Refusal :=
  issue (.cbar o) s fun s => barrier s 16 0#64

def execGbar (o : Opds) (s : State) : Host.Outcome State Fault Refusal :=
  issue (.gbar o) s fun s => barrier s 17 0#64

def execSpawn (o : Opds) (s : State) : Host.Outcome State Fault Refusal :=
  issue (.spawn o) s fun s => .done (spawn s o)

def execLaunch (o : Opds) (s : State) : Host.Outcome State Fault Refusal :=
  issue (.launch o) s fun s => launch s o

def execLqsignal (o : Opds) (s : State) : Host.Outcome State Fault Refusal :=
  issue (.lqsignal o) s fun s => lqsignal s o

def execRangeInit (o : Opds) (s : State) : Host.Outcome State Fault Refusal :=
  issue (.rangeInit o) s fun s => rangeInit s o

def execRangeTake (o : Opds) (s : State) : Host.Outcome State Fault Refusal :=
  issue (.rangeTake o) s fun s => rangeTake s o

def execRangeTakeServe (grp op : Nat) (s : State) : Host.Outcome State Fault Refusal :=
  happen s (((s.grpAt grp).op? op).bind fun o =>
    match o.kind with
    | .take d h => if o.done then none else some (serve s grp o d h)
    | _ => none)

def execYield (o : Opds) (s : State) : Host.Outcome State Fault Refusal :=
  issue (.yield o) s fun s =>
    let n := Forms.code o.a
    let r := s.grp.frag s.cur.frag
    .done (s.setGrp (s.grp.setFrag s.cur.frag
      (if n = 0 then { r with skip := true } else { r with notBefore := s.gtime + n + 1 })))

def execLife (o : Opds) (s : State) : Host.Outcome State Fault Refusal :=
  issue (.life o) s fun s => .done (life s o)

def execRws (o : Opds) (s : State) : Host.Outcome State Fault Refusal := issue (.rws o) s fun s => .done s

def execNop (o : Opds) (s : State) : Host.Outcome State Fault Refusal := issue (.nop o) s fun s => .done s

def execTrap (o : Opds) (s : State) : Host.Outcome State Fault Refusal :=
  issue (.trap o) s fun s =>
    let x := s.exec o.guard
    if x == 0#32 then .done s else .trapAt (Line.next s.cur.pc) (0xE0 + Forms.code o.a) x.toNat

end Sys2Proof.Machine
end

