-- ==== Sys2Proof/Machine/WalkTree.lean ====
section
/-! DEFINITION. Prefix trees in memory (R175 to R179), the snapshot of one with its checks (R177, R182, R183, R191),
and the fold of partial states (R186). -/

namespace Sys2Proof.Machine

open Sys2Proof (SMap)
open Sys2Proof.Float

namespace Wk

/-- No node. -/
def nil : Nat := 0xFFFFFFFF

/-! ### The header (R175) -/

structure Header where
  live : Nat
  gen : Nat
  opens : Nat
  /-- OPEN of the record that is not live -/
  others : Nat
  qbase : Nat
  pbase : Nat
  blen : Nat
  hdim : Nat
  nbase : Nat
  ncount : Nat
  root : Nat
deriving DecidableEq, Repr, Inhabited

/-- A header from its 128 bytes; none when it is malformed (R190). -/
def parse (bs : List Byte) : Option Header :=
  let f (off n : Nat) : Nat := Tensor.fieldAt bs off n
  let live := f 2 1 % 2
  let r := 0x28 + 16 * live
  let h : Header :=
    { live := live, gen := f 4 4, opens := f (8 + 4 * live) 4, others := f (12 - 4 * live) 4, qbase := f 0x10 8
      pbase := f 0x18 8, blen := f 0x20 2, hdim := f 0x22 2, nbase := f r 8, ncount := f (r + 8) 4, root := f (r + 12) 4 }
  if f 0 2 == 1 && f 2 1 < 2 && f 3 1 == 0 && f 0x25 3 == 0 && f 0x48 56 == 0 && 1 ≤ h.blen && h.blen ≤ 256
      && [64, 128, 192, 256].contains h.hdim && [2, 3].contains (f 0x24 1) && h.qbase % 128 == 0
      && h.pbase % 128 == 0 && h.nbase % 32 == 0 && 1 ≤ h.ncount && h.ncount ≤ 65536 && h.root < h.ncount
  then some h else none

/-- Bytes of a query entry and of an arena record (R178, R179). -/
def qsz (w : Walk) : Nat := Bits.alignUp (16 + 2 * w.hdim) 128
def psz (w : Walk) : Nat := 16 + 4 * w.hdim

/-- The address of a sequence's query entry, and of a node's record of a rank. -/
def queryAt (w : Walk) (seq : Nat) : Nat := (w.qbase + seq * qsz w) % 2 ^ 64
def recordAt (w : Walk) (x : SNode) (rank : Nat) : Nat := (w.pbase + (x.poff + rank) * psz w) % 2 ^ 64

/-! ### Reading the node table -/

/-- A node record (R176). -/
structure NodeRec where
  parent : Nat
  fchild : Nat
  nsib : Nat
  tokens : Nat
  nflags : Nat
  kt : Nat
  vt : Nat
  poff : Nat
  seq : Nat
  nleaf : Nat
deriving DecidableEq, Repr, Inhabited

def nodeOf (bs : List Byte) : NodeRec :=
  let f (off n : Nat) : Nat := Tensor.fieldAt bs off n
  { parent := f 0 4, fchild := f 4 4, nsib := f 8 4, tokens := f 12 2, nflags := f 14 2, kt := f 16 4, vt := f 20 4,
    poff := f 24 4, seq := f 28 2, nleaf := f 30 2 }

/-- Who reads: group, operation, rights, view. -/
structure Reader where
  u : Nat
  bound : Nat
  priv : Bool
  h : BitVec 16

/-- Where word `key` of a walk's tables lies: even keys the node table, odd keys the query entries. -/
def wordVa (w : Walk) (key : Nat) : Nat :=
  if key % 2 = 0 then (w.nbase + 8 * (key / 2)) % 2 ^ 64 else queryAt w (key / 2)

/-- One word of the tables: as read before, or now. -/
def word (s : State) (w : Walk) (r : Reader) (key : Nat) : Except Stop (List Byte × List Taken) :=
  match SMap.get? w.read key with
  | some x => .ok (Bits.bytesOf 8 x.toNat, [])
  | none => s.seeAll r.u r.bound r.priv r.h (wordVa w key) 8

/-- A node record, word by word. -/
def record (s : State) (w : Walk) (r : Reader) (n : Nat) : Except Stop (NodeRec × List Taken) := do
  let a ← word s w r (8 * n)
  let b ← word s w r (8 * n + 2)
  let c ← word s w r (8 * n + 4)
  let d ← word s w r (8 * n + 6)
  return (nodeOf (a.1 ++ b.1 ++ c.1 ++ d.1), a.2 ++ b.2 ++ c.2 ++ d.2)

/-- How far the reading of a tree has come. -/
structure Trav where
  /-- nodes visited, the last one first -/
  order : List Nat := []
  recs : SMap NodeRec := []
  kids : SMap (List Nat) := []
  seen : List Nat := []
  /-- records charged with a failure of R177 -/
  bad : List Nat := []
  fails : List (Nat × Nat × Nat) := []
  /-- something has to wait, a read that is still to be sent to a peer among it -/
  hold : Option (Option Nat) := none
  stamps : List Taken := []
deriving Inhabited

/-- Read node `n`'s record if it has not been read. -/
def load (s : State) (w : Walk) (r : Reader) (t : Trav) (n : Nat) : Trav :=
  if (SMap.get? t.recs n).isSome || t.fails.any (fun f => f.1 == n) then t
  else match record s w r n with
    | .ok x => { t with recs := SMap.put t.recs n x.1, stamps := t.stamps ++ x.2 }
    | .error (.hold q) => { t with hold := t.hold.or (some q) }
    | .error (.fault c a) => { t with fails := t.fails ++ [(n, c, a)] }

/-- Follow a child list of `owner` from `c`, reached through `prev`'s record. -/
def follow (s : State) (w : Walk) (r : Reader) (owner : Nat) : Nat → Nat → Nat → List Nat → Trav → List Nat × Trav
  | 0, _, _, acc, t => (acc, t)
  | f + 1, prev, c, acc, t =>
    if c = nil then (acc, t)
    else if w.ncount ≤ c || t.seen.contains c then (acc, { t with bad := prev :: t.bad })
    else
      let t := load s w r { t with seen := c :: t.seen } c
      match SMap.get? t.recs c with
      | none => (c :: acc, t)
      | some x =>
        follow s w r owner f c x.nsib (c :: acc) (if x.parent = owner then t else { t with bad := c :: t.bad })

/-- Put a number into an ascending list. -/
def insertAsc (x : Nat) : List Nat → List Nat
  | [] => [x]
  | y :: r => if x ≤ y then x :: y :: r else y :: insertAsc x r

def sortAsc (l : List Nat) : List Nat := l.foldl (fun acc x => insertAsc x acc) []

/-- Visit nodes in canonical preorder (R177). -/
def visit (s : State) (w : Walk) (r : Reader) : Nat → List Nat → Trav → Trav
  | 0, _, t => t
  | _ + 1, [], t => t
  | f + 1, n :: rest, t =>
    let t := load s w r t n
    let t := { t with order := n :: t.order }
    match SMap.get? t.recs n with
    | none => visit s w r f rest { t with kids := SMap.put t.kids n [] }
    | some x =>
      let k := follow s w r n (w.ncount + 1) n x.fchild [] t
      let ks := sortAsc k.1
      visit s w r f (ks ++ rest) { k.2 with kids := SMap.put k.2.kids n ks }

/-! ### The checks of R177 -/

/-- Whether a record breaks a condition on its own fields. -/
def ownBad (w : Walk) (x : NodeRec) (kids : List Nat) : Bool :=
  let leaf := x.nflags % 2 == 1
  decide (2 ≤ x.nflags) || decide (2 ^ 20 ≤ x.kt) || decide (2 ^ 20 ≤ x.vt) || x.tokens == 0 || decide (w.blen < x.tokens)
    || x.nleaf == 0 || decide (4096 < x.nleaf) || (if leaf then decide (4095 < x.seq) else x.seq != 0)
    || leaf != kids.isEmpty

/-- Leaves beneath each visited node; the list has children before their parents. DESIGN CHOICE (log 35): what is behind a link that
breaks R177 does not count beneath the list's owner. -/
def leaves (t : Trav) : SMap Nat :=
  t.order.foldl (fun m n =>
    let ks := SMap.get [] t.kids n
    SMap.put m n (if ks.isEmpty then 1 else (ks.map fun k => SMap.get 0 m k).foldl (· + ·) 0)) []

/-- Records, in reading order, whose SEQ or POFF range an earlier record holds. -/
def clashes (t : Trav) : List Nat :=
  (t.order.reverse.foldl (fun (acc : List Nat × List Nat × List (Nat × Nat)) n =>
    let x := SMap.get default t.recs n
    let leaf := (SMap.get [] t.kids n).isEmpty
    let twice := leaf && acc.2.1.contains x.seq
    let spent := acc.2.2.any fun r => decide (r.1 < x.poff + x.nleaf) && decide (x.poff < r.2)
    (if twice || spent then n :: acc.1 else acc.1,
     if leaf then x.seq :: acc.2.1 else acc.2.1, (x.poff, x.poff + x.nleaf) :: acc.2.2)) ([], [], [])).1

/-- Every record charged. -/
def charged (w : Walk) (t : Trav) : List Nat :=
  let cnt := leaves t
  let own := t.order.filter fun n =>
    let x := SMap.get default t.recs n
    ownBad w x (SMap.get [] t.kids n) || SMap.get 0 cnt n != x.nleaf
  t.bad ++ own ++ clashes t

/-! ### The snapshot (R182, R183, R191) -/

/-- What the snapshot comes to. -/
inductive Snap where
  | hold (send : Option Nat)
  /-- what was read before, and beside, the failure or the malformed record goes with it -/
  | fail (cause tval : Nat) (stamps : List Taken)
  | bad (addr : Nat) (stamps : List Taken)
  | ok (nodes : List SNode) (stamps : List Taken)

/-- What reading the query entries comes to: slots posted, the first entry refused for a reserved bit, stamps, the first failure. -/
structure Posted where
  slots : List Nat := []
  refused : Option Nat := none
  stamps : List Taken := []
  fault : Option (Nat × Nat) := none
  hold : Option (Option Nat) := none

/-- Whether the reserved bytes of a query entry behind QFLAGS are set, as far as they can be read (R178), with what was read. -/
def gap (s : State) (w : Walk) (r : Reader) (q : Nat) : Except Stop (Bool × List Taken) :=
  match s.seeAll r.u r.bound r.priv r.h (queryAt w q + 8) 8 with
  | .ok b => .ok (b.1.any (· != 0#8), b.2)
  | .error (.hold p) => .error (.hold p)
  | .error (.fault _ _) => .ok (false, [])

/-- A query entry's STEP and flags for the snapshot: a reserved bit that is set refuses it (R8, R178). -/
def postedOne (s : State) (w : Walk) (r : Reader) (x : Posted) (q : Nat) : Posted :=
  match word s w r (2 * q + 1), gap s w r q with
  | .error (.fault c a), _ => { x with fault := x.fault.or (some (c, a)) }
  | .error (.hold p), _ | _, .error (.hold p) => { x with hold := x.hold.or (some p) }
  | _, .error (.fault _ _) => x
  | .ok b, .ok g =>
    { x with
      slots := if Tensor.fieldAt b.1 0 4 = w.step then x.slots ++ [q] else x.slots
      refused := if g.1 || decide (2 ≤ Tensor.fieldAt b.1 4 4) then x.refused.or (some q) else x.refused
      stamps := x.stamps ++ b.2 ++ g.2 }

/-- STEP of each leaf's query entry, in ascending sequence slot: the slots posted. -/
def posted (s : State) (w : Walk) (r : Reader) (seqs : List Nat) : Posted := seqs.foldl (postedOne s w r) {}

/-- The subscribers of each visited node, ascending. -/
def subscribers (t : Trav) (post : List Nat) : SMap (List Nat) :=
  t.order.foldl (fun m n =>
    let ks := SMap.get [] t.kids n
    let x := SMap.get default t.recs n
    let own := if ks.isEmpty && post.contains x.seq then [x.seq] else []
    SMap.put m n (ks.foldl (fun acc k => (SMap.get [] m k).foldl (fun acc q => insertAsc q acc) acc) own)) []

def snapNode (t : Trav) (subs : SMap (List Nat)) (n : Nat) : SNode :=
  let x := SMap.get default t.recs n
  { n := n, parent := x.parent, tokens := x.tokens, leaf := x.nflags % 2 == 1, kt := x.kt, vt := x.vt, poff := x.poff,
    seq := x.seq, subs := SMap.get [] subs n }

/-- Read and check the tree of a walk. DESIGN CHOICE (log 35): a node record that cannot be read is reported before any that breaks
R177; where one breaks R177 the query entries are not read, so that none of theirs that cannot be read is reported then; and a query
entry with a reserved bit set is reported as a malformed tree, at the entry's address. -/
def snapshot (s : State) (w : Walk) (r : Reader) : Snap :=
  let t := visit s w r (w.ncount + 1) [w.root] { seen := [w.root] }
  match t.hold with
  | some q => .hold q
  | none => match t.order.reverse.findSome? fun n => (t.fails.find? fun f => f.1 == n).map fun f => f.2 with
    | some f => .fail f.1 f.2 t.stamps
    | none =>
      let c := charged w t
      match t.order.reverse.find? fun n => c.contains n with
      | some n => .bad ((w.nbase + 32 * n) % 2 ^ 64) t.stamps
      | none =>
        let seqs := sortAsc ((t.order.filter fun n => (SMap.get [] t.kids n).isEmpty).map fun n =>
          (SMap.get default t.recs n).seq)
        let p := posted s w r seqs
        let st := t.stamps ++ p.stamps
        match p.hold, p.fault, p.refused with
          | some q, _, _ => .hold q
          | none, some f, _ => .fail f.1 f.2 st
          | none, none, some q => .bad (queryAt w q) st
          | none, none, none => .ok (t.order.reverse.map (snapNode t (subscribers t p.slots))) st

/-! ### The fold (R186) -/

/-- A partial state: M, L, STATUS and O, as words. -/
structure Part where
  m : W32
  l : W32
  status : Nat
  o : List W32
deriving DecidableEq, Repr, Inhabited

/-- p·a + q·b, both products exact, rounded once. -/
def fma2 (p a q b : W32) : W32 :=
  BitVec.ofNat 32 (roundFV .f32 .rn (addFV .rn (mulFV (fval p) (fval a)) (mulFV (fval q) (fval b))))

/-- The factor of a maximum against the joint one. -/
def factor (x m : W32) : W32 :=
  if compare .f32 0 x.toNat m.toNat then 0x3F800000#32 else fexp2 (fmul (fsub x m) 0x3FB8AA3B#32)

def merge (c n : Part) : Part :=
  let st := Nat.max c.status n.status
  let nan (x : W32) : Bool := isNaN .f32 x.toNat
  let q : W32 := BitVec.ofNat 32 (defaultNaN .f32)
  if st = 2 || nan c.m || nan c.l || nan n.m || nan n.l then { m := q, l := q, status := st, o := n.o.map fun _ => q }
  else
    let m := BitVec.ofNat 32 (minmax .f32 true c.m.toNat n.m.toNat)
    let a1 := factor c.m m
    let a2 := factor n.m m
    { m := m, l := fma2 c.l a1 n.l a2, status := st, o := List.zipWith (fun x y => fma2 x a1 y a2) c.o n.o }

/-- A partial state from a record's bytes, and its first 12 bytes and O from it. -/
def partOf (bs : List Byte) (hdim : Nat) : Part :=
  let f (off : Nat) : W32 := BitVec.ofNat 32 (Tensor.fieldAt bs off 4)
  { m := f 0, l := f 4, status := (f 8).toNat, o := (List.range hdim).map fun j => f (16 + 4 * j) }

def headBytes (p : Part) : List Byte := Bits.bytesOf 4 p.m.toNat ++ Bits.bytesOf 4 p.l.toNat ++ Bits.bytesOf 4 p.status
def outBytes (p : Part) : List Byte := p.o.flatMap fun x => Bits.bytesOf 4 x.toNat

end Wk

end Sys2Proof.Machine
end

