-- ==== Sys2Proof/Machine/Walk.lean ====
section
/-! DEFINITION. The walk instructions and the steps of the walk units (R180 to R200). -/

namespace Sys2Proof.Machine

open Sys2Proof (SMap Opd Opds)

namespace Wk

/-! ### Walks by name (R181, R189) -/

def walk? (s : State) (cl slot : Nat) : Option Walk := SMap.get? (s.clusterAt cl).walks slot

def setWalk (s : State) (cl slot : Nat) (w : Walk) : State :=
  let c := s.clusterAt cl
  s.setClusterAt cl { c with walks := SMap.put c.walks slot w }

/-- A walk's handle. -/
def handle (cl slot seq : Nat) (gen : W32) : W64 :=
  BitVec.ofNat 64 (gen.toNat * 2 ^ 32 + seq * 65536 + slot * 128 + cl)

/-- The hypothesis whose view a walk has (R189, R273). -/
def view (w : Walk) : BitVec 16 := w.orphan.getD w.hyp

def node? (w : Walk) (n : Nat) : Option SNode := w.nodes.find? fun x => x.n == n
def stOf (w : Walk) (n : Nat) : WNode := SMap.get {} w.states n
def modNode (w : Walk) (n : Nat) (f : WNode → WNode) : Walk := { w with states := SMap.put w.states n (f (stOf w n)) }

/-- What naming a walk gives. -/
inductive Named where
  | stop (r : Res)
  | ok (cl slot : Nat) (w : Walk)

/-- The walk a handle names; `closing` for WKEND, which a failed or malformed walk does not trap. -/
def named (s : State) (h : W64) (closing : Bool) : Named :=
  let cl := Bits.field h 6 0
  let slot := Bits.field h 8 7
  if !Bits.fieldZero h 15 9 || 80 ≤ cl || s.lostClusters.contains cl then .stop (.trap 0xA0 h.toNat)
  else match walk? s cl slot with
    | none => .stop (.trap 0xA0 h.toNat)
    | some w =>
      if w.seq ≠ Bits.field h 31 16 || w.gen ≠ Bits.hi h || w.ctx ≠ s.ctx || w.ending then .stop (.trap 0xA0 h.toNat)
      else if !w.ready then .stop (.hold false)
      else match (if closing then none else w.fault) with
        | some f => .stop (.trap f.1 f.2)
        | none => .ok cl slot w

/-- The issuing fragment's rights. -/
def priv (s : State) : Bool := s.privAt s.cur.grp s.cur.frag

/-- Start a walk operation, tagged with the walk's hypothesis. -/
def start (s : State) (cl slot : Nat) (w : Walk) (act : WalkAct) (acq : Option Scope) (fault : Option (Nat × Nat)) : State :=
  let id := s.nextId
  let k : WalkOp := { cluster := cl, slot := slot, seq := w.seq, priv := priv s, act := act }
  let s := s.startOp { cls := .walk, kind := .walk k, acq := acq, fault := fault }
  s.setGrp (s.grp.setOp id fun o => { o with hyp := view w, dropped := w.orphan.isSome })

/-! ### Header operations (R175, R190, R199) -/

/-- What a header operation meets. -/
inductive Met where
  | stop (r : Res)
  | ok (loc : Loc) (h : Header) (stamps : List Taken)

def meetHeader (s : State) (va : Nat) : Met :=
  let u := s.cur.grp
  if va % 128 ≠ 0 then .stop (.trap 0xA2 va)
  else match s.find u (priv s) .load va, s.find u (priv s) .store va with
    | .fault c, _ => .stop (.trap c va)
    | _, .fault c => .stop (.trap c va)
    | .at' loc leaf, _ =>
      match s.see u s.nextId (priv s) 0#16 va 128 with
      | .hold q => .stop (.holdFor q)
      | .fault c => .stop (.trap c va)
      | .bad => .stop (.trap 0x26 va)
      | .data bs st =>
        match parse bs with
        | none => .stop (.trap 0xA2 va)
        | some h => if (leaf.map Leaf.mlock).getD false then .stop (.hold false) else .ok loc h st

/-- Write a field of a header at its place, on the committed view. -/
def putHeader (s : State) (loc : Loc) (off : Nat) (bs : List Byte) : State :=
  match loc with
  | .hbm p => (s.endOwnership (lineOf p)).moduleStore (p + off) bs
  | .loc t o => s.writeLoc t (o + off) bs
  | _ => s

/-- Read a field of a header. -/
def headerField (s : State) (loc : Loc) (off : Nat) : Nat :=
  match loc with
  | .hbm p => s.readMem (p + off) 4
  | .loc t o => s.readLoc t (o + off) 4
  | _ => 0

/-- A walk is closed: its OPEN count falls and its slot is free (R198, R389). -/
def close (s : State) (cl slot : Nat) (w : Walk) : State :=
  let off := 8 + 4 * w.live
  let s := match w.header with
    | .hbm p => s.endOwnership (lineOf p)
    | _ => s
  let n := (headerField s w.header off + 2 ^ 32 - 1) % 2 ^ 32
  let s := putHeader s w.header off (Bits.bytesOf 4 n)
  let c := s.clusterAt cl
  s.setClusterAt cl { c with walks := SMap.erase c.walks slot }

/-- Whether another operation than `id` that names a walk is under way. -/
def othersNaming (s : State) (cl slot seq id : Nat) : Bool :=
  s.groups.any fun e => e.2.ops.any fun o => match o.kind with
    | .walk x => o.id != id && !o.done && x.cluster == cl && x.slot == slot && x.seq == seq
    | _ => false

/-- Walks that are to be closed, and that no operation names any longer, are closed (R198). -/
def closeDue (s : State) : State :=
  (List.range 80).foldl (fun s cl =>
    ((s.clusterAt cl).walks.filter fun e => e.2.closing && !othersNaming s cl e.1 e.2.seq 0).foldl
      (fun s e => close s cl e.1 e.2) s) s

/-- The walks of a launch that has no team left are to be closed (R198). -/
def closeLaunch (s : State) (launch : Nat) : State :=
  closeDue { s with clusters := s.clusters.map fun c => (c.1, { c.2 with walks := c.2.walks.map fun e =>
    (e.1, if e.2.launch == launch then { e.2 with ending := true, closing := true } else e.2) }) }

/-- `wkbegin`: the free slot comes first (R190); DESIGN CHOICE (log 24): the lowest-numbered one is taken. -/
def wkbegin (s : State) (o : Opds) : Res :=
  let cl := s.team.core / 4
  let c := s.clusterAt cl
  match (List.range 4).find? fun n => (SMap.get? c.walks n).isNone with
  | none => .done (Ctl.setP (Ctl.setK s o.d 0#64) o.c false)
  | some slot =>
    if !s.roomFor .walk then .hold false
    else
      match meetHeader s (s.grp.rk o.a.val).toNat with
      | .stop r => r
      | .ok loc h st =>
        let seq := (SMap.get 0 c.walkSeq slot + 1) % 65536
        let w : Walk :=
          { ctx := s.ctx, launch := s.team.launch, hyp := s.grp.hcur, orphan := none, seq := seq, header := loc
            live := h.live, gen := BitVec.ofNat 32 h.gen, step := Bits.field (s.grp.rk o.b.val) 31 0, qbase := h.qbase
            pbase := h.pbase, blen := h.blen, hdim := h.hdim, nbase := h.nbase, ncount := h.ncount, root := h.root
            priv := priv s, read := [], ready := false, fault := none, nodes := [], states := [], subsBy := []
            horizon := 0, ending := false }
        let s := (putHeader s loc (8 + 4 * h.live) (Bits.bytesOf 4 ((h.opens + 1) % 2 ^ 32))).noteStamps s.cur.grp st
        let c := s.clusterAt cl
        let s := s.setClusterAt cl { c with walks := SMap.put c.walks slot w, walkSeq := SMap.put c.walkSeq slot seq }
        let s := start s cl slot w .begin (some .module) none
        .done (Ctl.setP (Ctl.setK s o.d (handle cl slot seq w.gen)) o.c true)

def wkswap (s : State) (o : Opds) : Res :=
  match meetHeader s (s.grp.rk o.a.val).toNat with
  | .stop r => r
  | .ok loc h st =>
    let gen := (h.gen + 1) % 2 ^ 32
    let s := (putHeader s loc 2 (Bits.bytesOf 2 (1 - h.live) ++ Bits.bytesOf 4 gen)).noteStamps s.cur.grp st
    .done (Ctl.setK s o.d (BitVec.ofNat 64 (h.opens * 2 ^ 32 + gen)))

/-! ### Hand-outs (R184, R192) -/

def wknext (s : State) (o : Opds) (merge : Bool) : Res :=
  match named s (s.grp.rk o.a.val) false with
  | .stop r => r
  | .ok cl slot w =>
    let live := w.nodes.filter fun x => !x.subs.isEmpty
    let parentMerged (x : SNode) := x.n == w.root || (stOf w x.parent).merged
    let pick := if merge then live.find? fun x => (stOf w x.n).done && !(stOf w x.n).mgiven && parentMerged x
                else live.find? fun x => !(stOf w x.n).given
    let put (s : State) (a b : Nat) (p : Bool) : Res :=
      let g := (s.grp.wk o.d.val (BitVec.ofNat 64 a)).wk (o.d.val + 1) (BitVec.ofNat 64 b)
      .done (Ctl.setP (s.setGrp g) o.c p)
    match pick with
    | none =>
      let left := merge && live.any fun x => !(stOf w x.n).mgiven
      put s ((if left then 1 else 2) * 2 ^ 62) 0 false
    | some x =>
      let w := modNode w x.n fun y =>
        if merge then { y with mgiven := true } else { y with given := true, by' := s.cur.grp, priv := priv s }
      put (setWalk s cl slot w)
        ((if x.leaf then x.seq * 2 ^ 32 + 2 ^ 25 else 0) + x.tokens * 2 ^ 16 + x.n) (x.vt * 2 ^ 20 + x.kt) true

/-- What reading some lines of a block comes to. -/
inductive Fetched where
  | hold (send : Option Nat)
  /-- uncorrectable data: the node is faulted -/
  | bad (stamps : List Taken)
  /-- another failure: the fetch stops -/
  | stop (stamps : List Taken)
  | all (stamps : List Taken)

/-- Who reads for a node's block fetch, and the reads it has sent to peers. -/
structure Fetcher where
  u : Nat
  priv : Bool
  h : BitVec 16
  sent : SMap Nat

/-- Read lines one after another. -/
def fetchLines (s : State) (f : Fetcher) : List Nat → List Taken → Fetched
  | [], st => .all st
  | va :: r, st =>
    match s.see f.u s.nextId f.priv f.h va 128 (some f.sent) with
    | .hold q => .hold q
    | .bad => .bad st
    | .fault _ => .stop st
    | .data _ x => fetchLines s f r (st ++ x)

/-- Read the lines of a tensor, its descriptor first (R192). -/
def fetchTensor (s : State) (f : Fetcher) (ctx n : Nat) (st : List Taken) : Fetched :=
  if (s.descAt ctx).ttcount ≤ n then .stop st
  else match s.see f.u s.nextId f.priv f.h (Tensor.addrOf s ctx n) 64 (some f.sent) with
    | .hold q => .hold q
    | .bad => .bad st
    | .fault _ => .stop st
    | .data bs x =>
      match Tensor.parse bs with
      | none => .stop (st ++ x)
      | some d => fetchLines s f ((List.range (d.ktiles * d.ntiles)).flatMap (Tensor.lines d)) (st ++ x)

/-- The block fetch of a node has read every line, or has stopped (R192); or it sends a read to a peer, and goes on once that has
answered (R401). DESIGN CHOICE (log 68): keys are read before values. -/
def blockFetch (s : State) (cl slot n : Nat) : Option State :=
  (walk? s cl slot).bind fun w =>
    let y := stOf w n
    if !y.given || y.fetched then none
    else (node? w n).bind fun x =>
      let f : Fetcher := ⟨y.by', y.priv, view w, y.asked⟩
      let ends (bad : Bool) (st : List Taken) : Option State :=
        some ((setWalk s cl slot (modNode w n fun y => { y with fetched := true, faulted := bad, asked := [] })).noteStamps f.u st)
      let holds (q : Option Nat) : Option State := q.map fun va =>
        (setWalk s cl slot (modNode w n fun y => { y with asked := SMap.put y.asked va s.gtime })).forward f.u va
      match fetchTensor s f w.ctx x.kt [] with
      | .hold q => holds q
      | .bad st => ends true st
      | .stop st => ends false st
      | .all st =>
        match fetchTensor s f w.ctx x.vt st with
        | .hold q => holds q
        | .bad st => ends true st
        | .stop st | .all st => ends false st

/-! ### WKSUBS, WKPART, SMXMERGE, WKDONE, WKEND: issue -/

/-- The node a node word names. -/
def nodeOpd (s : State) (x : Opd) : Nat := Bits.field (s.grp.rk x.val) 15 0

/-- What reading the query entries of some subscribers gives. -/
structure Ranks where
  ranks : List (Option Bool × Option (List Byte)) := []
  stamps : List Taken := []
  /-- the first read that failed -/
  fault : Option (Nat × Nat) := none
  /-- something has to wait, a read that is still to be sent to a peer among it -/
  hold : Option (Option Nat) := none

/-- One read among several: what it gives, or its failure, which spares the others (R240). -/
def Ranks.add {α : Type} (x : Ranks) (r : Except Stop (α × List Taken)) : Option α × Ranks :=
  match r with
  | .ok b => (some b.1, { x with stamps := x.stamps ++ b.2 })
  | .error (.hold q) => (none, { x with hold := x.hold.or (some q) })
  | .error (.fault c a) => (none, { x with fault := x.fault.or (some (c, a)) })

/-- DEPART of a query entry, none where a reserved bit is set. -/
def readFlags (s : State) (w : Walk) (q : Nat) : Except Stop (Option Bool × List Taken) :=
  let r : Reader := ⟨s.cur.grp, s.nextId, priv s, view w⟩
  (s.seeAll r.u r.bound r.priv r.h (queryAt w q + 4) 4).bind fun b =>
    (gap s w r q).map fun g =>
      (if decide (2 ≤ Tensor.fieldAt b.1 0 4) || g.1 then none else some (Tensor.fieldAt b.1 0 4 % 2 == 1), b.2 ++ g.2)

/-- The query entries of a node's subscribers: departed, and the row where it is wanted (R193). DESIGN CHOICE (log 35): an entry with a
reserved bit set is refused with cause 0xA2 at the entry's address, as a read of QFLAGS that fails (R8, R240); its list word and STATUS
are left as they are, and its row is gathered all the same. -/
def readRanks (s : State) (w : Walk) (rows : Bool) (x : SNode) : Ranks :=
  let u := s.cur.grp
  x.subs.foldl (fun acc q =>
    let f := acc.add (readFlags s w q)
    let r := if f.1 = some none then { f.2 with fault := f.2.fault.or (some (0xA2, queryAt w q)) } else f.2
    let b : Option (List Byte) × Ranks := r.add
      (if rows then s.seeAll u s.nextId (priv s) (view w) (queryAt w q + 16) (2 * w.hdim) else .ok ([], []))
    { b.2 with ranks := b.2.ranks ++ [(f.1.join, b.1)] }) {}

def wksubs (s : State) (rows : Bool) (o : Opds) : Res :=
  match named s (s.grp.rk o.a.val) false with
  | .stop r => r
  | .ok cl slot w =>
    let n := nodeOpd s o.b
    let y := stOf w n
    let kc := s.grp.rk o.c.val
    let lo := Bits.field kc 31 0
    let ro := Bits.field kc 63 32
    let x := (node? w n).getD default
    let k := x.subs.length
    if !y.given then .trap 0xA3 n
    else if !y.fetched || !s.roomFor .walk then .hold false
    else if lo % 4 ≠ 0 || s.team.localsz < lo + 4 * k then .trap 0xA3 lo
    else if rows && (ro % 128 ≠ 0 || decide (s.team.localsz < ro + 2 * w.hdim * k)) then .trap 0xA3 ro
    else
      let r := readRanks s w rows x
      match r.hold with
      | some q => .holdFor q
      | none =>
        let s := start (s.noteStamps s.cur.grp r.stamps) cl slot w (.subs n lo (if rows then some ro else none) r.ranks)
          (some .module) r.fault
        .done (Ctl.setK s o.d (BitVec.ofNat 64 (k + if y.faulted then 65536 else 0)))

/-- WKPART's 4-byte writes (R195). -/
def partWrites (s : State) (w : Walk) (x : SNode) (o : Opds) : List (Nat × W32) :=
  let hdr := Bits.field o.imm 16 16 == 1
  let chunk := Bits.field o.imm 19 17
  let rank := Bits.field o.imm 11 0
  let g := s.grp
  ((Bits.members (s.exec o.guard &&& ~~~ g.helpers)).filter fun i => decide (rank + i < x.subs.length)).flatMap fun i =>
    let a := recordAt w x (rank + i)
    if hdr then [(a, g.rv o.c.val i), (a + 4, g.rv (o.c.val + 1) i)]
    else (List.range 32).map fun j => (a + 16 + 128 * chunk + 4 * j, g.rv (o.c.val + j) i)

def wkpart (s : State) (o : Opds) : Res :=
  match named s (s.grp.rk o.a.val) false with
  | .stop r => r
  | .ok cl slot w =>
    let n := nodeOpd s o.b
    let y := stOf w n
    let hdr := Bits.field o.imm 16 16 == 1
    if y.faulted then .trap 0xA1 n
    else if !w.subsBy.contains (Coh.groupKey s s.cur.grp n) || y.done
        || (!hdr && decide (w.hdim ≤ 32 * Bits.field o.imm 19 17)) then .trap 0xA3 n
    else if !s.roomFor .walk then .hold false
    else .done (start s cl slot w (.part n (partWrites s w ((node? w n).getD default) o)) none none)

def smxmerge (s : State) (o : Opds) : Res :=
  match named s (s.grp.rk o.a.val) false with
  | .stop r => r
  | .ok cl slot w =>
    let n := nodeOpd s o.b
    let y := stOf w n
    if !y.mgiven || y.mstarted then .trap 0xA3 n
    else if !s.roomFor .walk then .hold false
    else
      let s := setWalk s cl slot (modNode w n fun y => { y with mstarted := true })
      .done (start s cl slot w (.merge n) none none)

def wkdone (s : State) (o : Opds) : Res :=
  match named s (s.grp.rk o.a.val) false with
  | .stop r => r
  | .ok cl slot w =>
    let n := nodeOpd s o.b
    if !(stOf w n).given then .trap 0xA3 n
    else if !s.roomFor .walk then .hold false
    else .done (start s cl slot w (.done n) none none)

def wkend (s : State) (o : Opds) : Res :=
  match named s (s.grp.rk o.a.val) true with
  | .stop r => r
  | .ok cl slot w =>
    if !s.roomFor .walk then .hold false
    else .done (start (setWalk s cl slot { w with ending := true }) cl slot w .fin none none)

/-! ### Completion -/

/-- Whether every earlier walk operation of the group has completed (R189). -/
def firstWalk (s : State) (u id : Nat) : Bool :=
  (s.grpAt u).ops.all fun e => !(e.cls == .walk && decide (e.id < id)) || e.done

/-- Whether the wait of an operation that acquires at module scope is over (R182, R193). -/
def acquired (s : State) (u : Nat) (o : Op) : Bool :=
  o.acq.isNone || ((s.grpAt u).pending.isEmpty && decide ((s.grpAt u).horizon ≤ s.gtime))

/-- An operation's work is over: it is complete, and counts in its walk, unless a peer or the host has still to answer for a write;
an acquire's L1 copies go, and a walk that is to be closed may close. -/
def finish (s : State) (u : Nat) (o : Op) (fault : Option (Nat × Nat)) : State :=
  let s := if o.acq.isSome then s.discardL1 (s.l1Of u) else s
  let s := s.modGrp u fun g => g.setOp o.id fun o => { o with ended := true, acquired := true, fault := o.fault.or fault }
  closeDue (Coh.answered s u o.id)

/-- A walk operation that is due, with its walk. -/
def due (s : State) (u id : Nat) : Option (Op × WalkOp × Walk) :=
  ((s.grpAt u).op? id).bind fun o =>
    match o.kind with
    | .walk k =>
      if !o.done && !o.ended && firstWalk s u id && acquired s u o then
        ((walk? s k.cluster k.slot).filter fun w => w.seq == k.seq).map fun w => (o, k, w)
      else none
    | _ => none

/-- Writes of an operation, line by line: one that fails spares the others (R240). What comes back is the latest stamp and the first
failure; none where one has to wait. -/
def putEach (u : Nat) (o : Op) (k : WalkOp) : State → List (Nat × List Byte) → Nat → Option (Nat × Nat) →
    Option (State × Nat × Option (Nat × Nat))
  | s, [], t, f => some (s, t, f)
  | s, (va, bs) :: r, t, f =>
    match s.put u o k.priv va bs with
    | .wait => none
    | .fault c => putEach u o k s r t (f.or (some (c, va)))
    | .ok s x => putEach u o k s r (Nat.max t x) f

/-- Writes cut into pieces that each lie in one line. -/
def byLine (ws : List (Nat × List Byte)) : List (Nat × List Byte) :=
  ws.flatMap fun x => (State.pieces (x.2.length / 128 + 2) x.1 x.2.length).map fun p => (p.1, (x.2.drop (p.1 - x.1)).take p.2)

/-- Carry writes out and finish: arena stamps go to the walk (R198, R223). -/
def writeOut (s : State) (u : Nat) (o : Op) (k : WalkOp) (ws : List (Nat × List Byte)) (fault : Option (Nat × Nat)) : Option State :=
  (putEach u o k s (byLine ws) 0 fault).map fun x =>
    let s := match walk? x.1 k.cluster k.slot with
      | some w => setWalk x.1 k.cluster k.slot { w with horizon := Nat.max w.horizon x.2.1 }
      | none => x.1
    finish s u o x.2.2

/-- The opener's operation of a walk whose snapshot is being read. -/
def opener (s : State) (cl slot : Nat) (w : Walk) : Option (Nat × Op) :=
  s.groups.findSome? fun e => (e.2.ops.find? fun o => match o.kind with
    | .walk k => k.cluster == cl && k.slot == slot && k.seq == w.seq && k.act == .begin
    | _ => false).map fun o => (e.1, o)

/-- Who reads for the snapshot. -/
def reader (w : Walk) (u : Nat) (o : Op) : Reader := ⟨u, o.id, w.priv, o.hyp⟩

/-- One word of the tables is read ahead of the snapshot's completion (R180). -/
def readAhead (s : State) (cl slot key : Nat) : State :=
  match walk? s cl slot with
  | none => s
  | some w =>
    match (if w.ready || (SMap.get? w.read key).isSome then none else opener s cl slot w) with
    | none => s
    | some (u, o) =>
      match word s w (reader w u o) key with
      | .ok x =>
        ((setWalk s cl slot { w with read := SMap.put w.read key (BitVec.ofNat 64 (Bits.ofBytes x.1)) }).noteStamps u x.2).spend
      | .error (.hold q) => (s.asking u o.id q).getD s
      | .error (.fault _ _) => s

/-- The snapshot is complete, well formed, malformed or failed (R189, R191). -/
def snapshotComplete (s : State) (cl slot : Nat) : Option State :=
  (walk? s cl slot).bind fun w =>
    if w.ready then none
    else (opener s cl slot w).bind fun x =>
      let u := x.1
      let o := x.2
      if !firstWalk s u o.id then none
      else
        let ends (s : State) (w : Walk) : Option State :=
          if acquired s u o then some (finish (setWalk s cl slot { w with ready := true }).spend u o none) else none
        match snapshot s w (reader w u o) with
        | .hold q => s.asking u o.id q
        | .fail c a st => ends (s.noteStamps u st) { w with fault := some (c, a) }
        | .bad a st => ends (s.noteStamps u st) { w with fault := some (0xA2, a) }
        | .ok ns st => ends (s.noteStamps u st) { w with nodes := ns }

/-- What a WKSUBS writes for one rank: arena writes, then local ones. `old` is STATUS as it stands, none where it could not be
read; a failed read keeps what it touches as it is (R193, R194, R240). -/
def rankWrites (w : Walk) (x : SNode) (y : WNode) (lo : Nat) (ro : Option Nat) (r : Nat) (e : Option Bool × Option (List Byte))
    (old : Option Nat) : List (Nat × List Byte) × List (Nat × List Byte) :=
  let q := x.subs.getD r 0
  let a := recordAt w x r
  let status : Option Nat :=
    match y.inited, y.faulted, e.1, old with
    | false, true, _, _ => some 2
    | false, false, some d, _ => some (if d then 1 else 0)
    | true, _, some d, some v => some (if v = 0 && d then 1 else v)
    | _, _, _, _ => none
  let head := if y.inited then []
    else [(a, Bits.bytesOf 4 0xFF800000 ++ Bits.bytesOf 4 0),
      (a + 12, Bits.bytesOf 2 q ++ List.replicate (2 + 4 * w.hdim) 0#8)]
  let stt := match status with
    | some v => if y.inited && old = some v then [] else [(a + 8, Bits.bytesOf 4 v)]
    | none => []
  let word := match status with
    | some v => [(State.localVa (lo + 4 * r), Bits.bytesOf 4 (q + v % 4 * 65536))]
    | none => []
  let row := match ro, e.2 with
    | some b, some bs => [(State.localVa (b + 2 * w.hdim * r), bs)]
    | _, _ => []
  (head ++ stt, word ++ row)

/-- A WKSUBS completes (R193, R194): arena records, then the list and the rows. The first of a node to complete initialises its
records; STATUS is read by the others. -/
def subsComplete (s : State) (u id : Nat) : Option State :=
  (due s u id).bind fun (o, k, w) =>
    match k.act with
    | .subs n lo ro ranks =>
      let x := (node? w n).getD default
      let y := stOf w n
      let all := (List.range x.subs.length).foldl (fun (acc : List (Option Nat) × Ranks) r =>
        if !y.inited then (acc.1 ++ [none], acc.2)
        else
          let b := acc.2.add (s.seeAll u o.id k.priv o.hyp (recordAt w x r + 8) 4)
          (acc.1 ++ [b.1.map fun v => Tensor.fieldAt v 0 4], b.2)) ([], {})
      match all.2.hold with
      | some q => s.asking u id q
      | none =>
        let ws := (List.range x.subs.length).map fun r => rankWrites w x y lo ro r (ranks.getD r (none, none)) (all.1.getD r none)
        (putEach u o k (s.noteStamps u all.2.stamps) (byLine (ws.flatMap Prod.fst)) 0 all.2.fault).bind fun a =>
          (putEach u o k a.1 (byLine (ws.flatMap Prod.snd)) 0 a.2.2).map fun b =>
            let w := { w with horizon := Nat.max w.horizon a.2.1 }
            finish (setWalk b.1 k.cluster k.slot (modNode w n fun y => { y with inited := true })) u o b.2.2
    | _ => none

/-- One of a WKPART's writes is made ahead of its completion. -/
def writeAhead (s : State) (u id n : Nat) : State :=
  match due s u id with
  | some (o, k, w) =>
    (match k.act with
    | .part x ws =>
      (match ws[n]? with
      | some (va, v) =>
        (match s.put u o k.priv va (Bits.bytesOf 4 v.toNat) with
        | .ok s t =>
          (setWalk s k.cluster k.slot { w with horizon := Nat.max w.horizon t }).modGrp u fun g =>
            g.setOp id fun o => { o with kind := .walk { k with act := .part x (ws.eraseIdx n) } }
        | _ => s)
      | none => s)
    | _ => s)
  | none => s

def partComplete (s : State) (u id : Nat) : Option State :=
  (due s u id).bind fun (o, k, _) =>
    match k.act with
    | .part _ ws => writeOut s u o k (ws.map fun x => (x.1, Bits.bytesOf 4 x.2.toNat)) none
    | _ => none

/-- The record of one rank after the fold (R197): its first three words and its O, or the failure of a read; and what was read. -/
def folded (s : State) (u : Nat) (o : Op) (k : WalkOp) (w : Walk) (x p : SNode) (r : Nat) (acc : List (Nat × List Byte) × Ranks) :
    List (Nat × List Byte) × Ranks :=
  let q := x.subs.getD r 0
  let a := recordAt w x r
  let own := acc.2.add (s.seeAll u o.id k.priv o.hyp a (psz w))
  let up := own.2.add (s.seeAll u o.id k.priv o.hyp (recordAt w p ((p.subs.findIdx? (· == q)).getD 0)) (psz w))
  match own.1, up.1 with
  | some n, some c =>
    let m := merge (partOf c w.hdim) (partOf n w.hdim)
    (acc.1 ++ [(a, headBytes m), (a + 16, outBytes m)], up.2)
  | _, _ => (acc.1, up.2)

/-- An SMXMERGE's work is done: every rank that could be read is folded; once the writes are, the node counts as merged (R197,
R240). -/
def mergeComplete (s : State) (u id : Nat) : Option State :=
  (due s u id).bind fun (o, k, w) =>
    match k.act with
    | .merge n =>
      let x := (node? w n).getD default
      let p := (node? w x.parent).getD default
      let ws := if n = w.root then ([], {}) else (List.range x.subs.length).foldl (fun acc r => folded s u o k w x p r acc) ([], {})
      match ws.2.hold with
      | some q => s.asking u id q
      | none => writeOut (s.noteStamps u ws.2.stamps) u o k ws.1 ws.2.fault
    | _ => none

def doneComplete (s : State) (u id : Nat) : Option State :=
  (due s u id).bind fun (o, k, w) =>
    match k.act with
    | .done n => some (finish (setWalk s k.cluster k.slot (modNode w n fun y => { y with done := true })) u o none)
    | _ => none

def endComplete (s : State) (u id : Nat) : Option State :=
  (due s u id).bind fun (o, k, w) =>
    match k.act with
    | .fin =>
      if othersNaming s k.cluster k.slot k.seq id || s.blocked u o then none
      else some (finish ((close s k.cluster k.slot w).modGrp u fun g => g.raise w.horizon) u o none)
    | _ => none

end Wk

open Wk

def execWkbegin (o : Opds) (s : State) : Host.Outcome State Fault Refusal := issue (.wkbegin o) s fun s => wkbegin s o

def execWalkSnapshotComplete (cluster slot : Nat) (s : State) : Host.Outcome State Fault Refusal :=
  happen s (snapshotComplete s cluster slot)

def execWknext (o : Opds) (s : State) : Host.Outcome State Fault Refusal :=
  issue (.wknext o) s fun s => wknext s o false

def execWknextMerge (o : Opds) (s : State) : Host.Outcome State Fault Refusal :=
  issue (.wknextMerge o) s fun s => wknext s o true

def execWalkBlockFetchComplete (cluster slot node : Nat) (s : State) : Host.Outcome State Fault Refusal :=
  happen s (blockFetch s cluster slot node)

def execWksubs (q : Bool) (o : Opds) (s : State) : Host.Outcome State Fault Refusal :=
  issue (.wksubs q o) s fun s => wksubs s q o

def execWksubsComplete (grp op : Nat) (s : State) : Host.Outcome State Fault Refusal := happen s (subsComplete s grp op)

def execWkpart (o : Opds) (s : State) : Host.Outcome State Fault Refusal := issue (.wkpart o) s fun s => wkpart s o

def execWkpartComplete (grp op : Nat) (s : State) : Host.Outcome State Fault Refusal := happen s (partComplete s grp op)

def execSmxmerge (o : Opds) (s : State) : Host.Outcome State Fault Refusal := issue (.smxmerge o) s fun s => smxmerge s o

def execSmxmergeComplete (grp op : Nat) (s : State) : Host.Outcome State Fault Refusal := happen s (mergeComplete s grp op)

def execWkdone (o : Opds) (s : State) : Host.Outcome State Fault Refusal := issue (.wkdone o) s fun s => wkdone s o

def execWkdoneComplete (grp op : Nat) (s : State) : Host.Outcome State Fault Refusal := happen s (doneComplete s grp op)

def execWkend (o : Opds) (s : State) : Host.Outcome State Fault Refusal := issue (.wkend o) s fun s => wkend s o

def execWkendComplete (grp op : Nat) (s : State) : Host.Outcome State Fault Refusal := happen s (endComplete s grp op)

def execWkswap (o : Opds) (s : State) : Host.Outcome State Fault Refusal := issue (.wkswap o) s fun s => wkswap s o

end Sys2Proof.Machine
end

