-- ==== Sys2Proof/Machine/Dispatcher.lean ====
section
/-! DEFINITION. The dispatcher: reading launch records (R35 to R42), starting, placing and ending launches (R297 to
R302), and the end of groups and teams (R320). -/

namespace Sys2Proof.Machine

open Sys2Proof (SMap)

namespace Dsp

/-! ### Launch records (R35 to R42) -/

/-- A field of `n` bytes at an offset. -/
def bytesAt (raw : List Byte) (off n : Nat) : Nat := Bits.ofBytes ((raw.drop off).take n)

def zeroAt (raw : List Byte) (off n : Nat) : Bool := ((raw.drop off).take n).all (· == 0#8)

/-- The role entry at an offset; lanes of 0 mark it absent. -/
def roleAt (raw : List Byte) (off : Nat) : Role :=
  { entry := BitVec.ofNat 64 (bytesAt raw off 8), lanes := bytesAt raw (off + 8) 2, vregs := bytesAt raw (off + 10) 2
    kregs := bytesAt raw (off + 12) 1, mregs := bytesAt raw (off + 13) 1 }

def roleOffs : List Nat := [0x40, 0x50, 0x60]

/-- The roles present. -/
def present (raw : List Byte) : List Nat := roleOffs.filter fun o => bytesAt raw (o + 8) 2 ≠ 0

/-- R39, R95: whether the format slot at an offset is malformed. -/
def slotBad (raw : List Byte) (off : Nat) : Bool :=
  let fmt := bytesAt raw off 1
  let mant := bytesAt raw (off + 1) 1
  let scale := bytesAt raw (off + 4) 4
  if fmt = 0 then !zeroAt raw off 16
  else decide (4 < fmt) || (if fmt = 4 then decide (mant < 2) || decide (8 < mant) else mant != 0)
    || decide (1 < bytesAt raw (off + 2) 1) || bytesAt raw (off + 3) 1 != 0
    || decide (2 ^ 31 ≤ scale) || scale / 2 ^ 23 == 0 || scale / 2 ^ 23 == 255

def slotAt (raw : List Byte) (off : Nat) : Slot :=
  { fmt := bytesAt raw off 1, mant := bytesAt raw (off + 1) 1, stochastic := bytesAt raw (off + 2) 1 == 1
    scale := BitVec.ofNat 32 (bytesAt raw (off + 4) 4), seed := BitVec.ofNat 64 (bytesAt raw (off + 8) 8) }

/-- The record that 256 bytes hold. A role that is absent keeps its place. -/
def recordOf (raw : List Byte) : Record :=
  let flags := bytesAt raw 4 4
  { args := BitVec.ofNat 64 (bytesAt raw 0x08 8), orphanpc := BitVec.ofNat 64 (bytesAt raw 0x10 8)
    savebase := bytesAt raw 0x18 8, localsz := bytesAt raw 0x20 4, zbudget := bytesAt raw 0x24 1
    prio := bytesAt raw 0x25 1 % 4, gauge := bytesAt raw 0x26 1, clteams := bytesAt raw 0x27 1
    zmom := BitVec.ofNat 16 (bytesAt raw 0x28 2), cluster := flags.testBit 0, fusel1 := flags.testBit 1
    gridbar := flags.testBit 2, strict := flags.testBit 3, roles := roleOffs.map (roleAt raw)
    slots := ((List.range 8).filter fun n => bytesAt raw (0x80 + 16 * n) 1 ≠ 0).map fun n => (n, slotAt raw (0x80 + 16 * n))
    raw := raw }

/-! ### What a team takes, and what is free (R43, R301) -/

/-- Main-file slots of a team's groups, in GROUPID order. -/
def footprints (r : Record) : List Nat :=
  r.roles.flatMap fun x => (List.range x.groups).map fun _ => State.footprint x.nv x.nm

def recordGranules (r : Record) : Nat := (r.windows.map r.granules).foldl (· + ·) 0

/-- What is taken on a core: places and slots by partition, local memory, granules, teams. -/
structure Taken where
  parts : List (Nat × Nat)
  loc : Nat
  gran : Nat
deriving DecidableEq, Repr

def Taken.none : Taken := ⟨[(0, 0), (0, 0), (0, 0), (0, 0)], 0, 0⟩

def takenOn (s : State) (core : Nat) : Taken :=
  let ts := s.teamsOn core
  ⟨s.usage core, (ts.map fun t => t.2.localsz).foldl (· + ·) 0, (ts.map fun t => State.granulesBound t.2).foldl (· + ·) 0⟩

/-- Partitions for the groups of some more teams that take so much in all. -/
def addTeams (x : Taken) (foots : List Nat) (loc gran : Nat) : Option (List Nat) :=
  if 524288 < x.loc + loc || 128 < x.gran + gran then none else State.placeAll x.parts foots

/-- Partitions for the groups of `n` more teams of a record, team by team. -/
def addOf (r : Record) (n : Nat) (x : Taken) : Option (List Nat) :=
  addTeams x (List.replicate n (footprints r)).flatten (n * r.local') (n * recordGranules r)

/-- How many teams of a record an empty core holds at once. -/
def countTeams (r : Record) : Nat := ((List.range 64).takeWhile fun n => (addOf r (n + 1) Taken.none).isSome).length

/-- Whether a core could take a kernel of a launch (R43). -/
def kernelFits (s : State) (core launch : Nat) (r : Record) : Bool :=
  let c := s.coreAt core
  c.kernels.contains launch
    || (decide (c.kernels.length < 8)
      && decide ((c.kernels.map fun k => (s.launchAt k).record.gauge).foldl (· + ·) 0 + r.gauge ≤ 64))

/-- Whether a cluster may hold teams of a launch: it is in service and keeps R36's rule on fused L1s. -/
def clusterFits (s : State) (cluster launch : Nat) (r : Record) : Bool :=
  decide (cluster < 80) && !s.lostClusters.contains cluster
    && s.teams.all fun t => t.2.core / 4 != cluster || t.2.launch == launch
      || (!r.fusel1 && !(s.launchAt t.2.launch).record.fusel1)

/-- Room for a team with these needs on a core (R301). -/
def fitsWith (s : State) (launch core : Nat) (r : Record) (foots : List Nat) (loc gran : Nat) : Bool :=
  clusterFits s (core / 4) launch r && kernelFits s core launch r && (addTeams (takenOn s core) foots loc gran).isSome

/-- Room for a team of a launch as it starts. -/
def fits (s : State) (launch core : Nat) : Bool :=
  let r := (s.launchAt launch).record
  fitsWith s launch core r (footprints r) r.local' (recordGranules r)

/-- Whether no team of a launch is on a cluster. -/
def freeOf (s : State) (cluster launch : Nat) : Bool :=
  s.teams.all fun t => t.2.core / 4 != cluster || t.2.launch != launch

/-! ### Checking a record (R42) -/

/-- Teams of a grid. -/
def total (e : QEntry) : Nat := e.gx * e.gy * e.gz
def Total (l : Launch) : Nat := l.gx * l.gy * l.gz

/-- R302: teams of a record that an empty module holds at once, R43 among the conditions. -/
def capacity (s : State) (r : Record) : Nat :=
  let per := if 64 < r.gauge then 0 else countTeams r
  let up := 80 - s.lostClusters.length
  if r.cluster then (if r.clteams ≤ 4 then Nat.min per 1 * r.clteams * up else 0) else per * 4 * up

/-- The first failed check of R42 behind 0x8C, in the table's order. -/
def refusal (s : State) (raw : List Byte) (teams : Nat) : Option Nat :=
  let r := recordOf raw
  let ps := present raw
  let roles := ps.map (roleAt raw)
  if bytesAt raw 0 2 ≠ 1 then some 0x80
  else if !zeroAt raw 2 2 || 16 ≤ bytesAt raw 4 4 || 4 ≤ bytesAt raw 0x25 1 || !zeroAt raw 0x2A 22 || !zeroAt raw 0x70 16
      || ps.any (fun o => !zeroAt raw (o + 14) 2) then some 0x81
  else if roles.any fun x => decide (256 < x.vregs) || decide (64 < x.kregs) || decide (64 < x.mregs) then some 0x82
  else if !ps.contains 0x40 || roles.any (fun x => decide (1024 < x.lanes))
      || roleOffs.any (fun o => !ps.contains o && !zeroAt raw o 16)
      || 32 < (roles.map Role.groups).foldl (· + ·) 0 then some 0x83
  else if 524288 < r.localsz then some 0x84
  else if 32 < r.zbudget then some 0x85
  else if r.gridbar && decide (capacity s r < teams) then some 0x86
  else if 64 < r.gauge then some 0x87
  else if (List.range 8).any fun n => slotBad raw (0x80 + 16 * n) then some 0x88
  else if (r.cluster && (r.clteams == 0 || teams % r.clteams != 0)) || (!r.cluster && r.clteams != 0)
      || (r.fusel1 && !r.cluster) then some 0x89
  else if r.savebase = 0 || r.savebase % 65536 ≠ 0 then some 0x8A
  else if countTeams r = 0 then some 0x8B
  else none

/-! ### Reading a record (R41) -/

/-- `n` bytes that the module loads in a context's space at the root, in pieces of one line each; none where a line faults
or holds uncorrectable data, or lies in a peer that the fabric does not reach (R402). What another module or the host holds comes back
as free values. -/
def readAs (s : State) (ctx : Nat) (priv : Bool) (va n : Nat) : Option (List Byte) :=
  (State.pieces (n / 128 + 2) va n).foldl (fun acc p => acc.bind fun bs =>
    match s.findAs ctx priv .load p.1 with
    | .at' (.hbm q) _ => if s.badAt q p.2 then none else some (bs ++ s.readBytes q p.2)
    | .at' (.peer _ _ _) _ =>
      if s.fabricUp then some (bs ++ (List.range p.2).map fun i => Config.freeByte s.choice (p.1 + i)) else none
    | .at' _ _ => some (bs ++ (List.range p.2).map fun i => Config.freeByte s.choice (p.1 + i))
    | .fault _ => none) (some [])

def readFor (s : State) (ctx va n : Nat) : Option (List Byte) := readAs s ctx (ctx == 0) va n

/-- The lines that the module is about to read are handed back and come into their slices, those of the tables with them (R218,
R376). -/
def recallAs (s : State) (ctx : Nat) (priv : Bool) (va n : Nat) : State :=
  (State.pieces (n / 128 + 2) va n).foldl (fun s p =>
    let s := Paging.bringWalk s ctx p.1
    match s.findAs ctx priv .load p.1 with
    | .at' (.hbm q) _ => Up.bringIn (s.endOwnership (lineOf q)) (lineOf q)
    | _ => s) s

def recallFor (s : State) (ctx va n : Nat) : State := recallAs s ctx (ctx == 0) va n

/-- Whether an entry comes before another in R300's order. -/
def before (a b : Nat × QEntry) : Bool :=
  let key (x : Nat × QEntry) := (x.1 / 64 / 4, x.2.since, x.1)
  let x := key a
  let y := key b
  decide (x.1 < y.1) || (x.1 == y.1 && (decide (x.2.1 < y.2.1) || (x.2.1 == y.2.1 && decide (x.2.2 ≤ y.2.2))))

/-- Entries that may start: ready, of a context that is valid and not held (R339, R365). -/
def startable (s : State) (e : QEntry) : Bool :=
  e.st == .ready && (e.ctx == 0 || (s.descAt e.ctx).valid) && !s.heldCtx.contains e.ctx

/-- Free a position. -/
def freeEntry (s : State) (pos : Nat) : State := { s with queues := SMap.erase s.queues pos }

/-- The next number in the order of starting. -/
def nextOrder (s : State) : Nat := s.launches.foldl (fun n l => Nat.max n (l.2.order + 1)) 0

/-- An entry runs. -/
def start (s : State) (pos : Nat) (e : QEntry) (raw : List Byte) : State :=
  let l : Launch :=
    { ctx := e.ctx, pos := pos, handle := Ctl.handleOf s pos, recaddr := BitVec.ofNat 64 e.record, status := e.status
      gx := e.gx, gy := e.gy, gz := e.gz, record := recordOf raw, order := nextOrder s, waitSince := s.gtime
      priv := e.priv, statusAt := e.statusAt }
  let s := { s with queues := SMap.put s.queues pos { e with st := .running } }
  ((s.setLaunchAt s.nextId l).fresh).writeStatus e.ctx e.priv e.status e.under 0x02 e.statusAt

/-- The record of an entry, where it lies; none where it cannot be read. -/
def rawRecord (s : State) (e : QEntry) : Option (List Byte) :=
  match e.recordAt with
  | none => readAs s e.ctx e.priv e.record 256
  | some k => (s.nookTeam k).bind fun t =>
    if (s.teamAt t).localsz < k.off + 256 || s.locBad t k.off 256 then none else some (s.locBytes t k.off 256)

def readRecord (s : State) (pos : Nat) : Option State :=
  (SMap.get? s.queues pos).bind fun e =>
    if startable s e && s.queues.all fun x => !startable s x.2 || before (pos, e) x then
      let s := recallAs s e.ctx e.priv e.record 256
      let code := match rawRecord s e with
        | none => Except.error 0x8C
        | some raw => match refusal s raw (total e) with
          | some c => .error c
          | none => .ok raw
      let s := s.spend
      some (match code with
        | .error c => freeEntry (s.writeStatus e.ctx e.priv e.status e.under c e.statusAt) pos
        | .ok raw => start s pos e raw)
    else none

/-! ### Placement (R27, R28, R40, R300 to R302) -/

/-- Started launches with teams still to place, of contexts that are not held. -/
def waiting (s : State) : List (Nat × Launch) :=
  s.launches.filter fun l => decide (l.2.nextTeam < Total l.2) && !s.heldCtx.contains l.2.ctx

/-- Whether a launch's next team, or its next set of CLTEAMS teams, fits somewhere. -/
def fitsSomewhere (s : State) (u : Nat) : Bool :=
  let r := (s.launchAt u).record
  if r.cluster then (List.range 80).any fun cl =>
    freeOf s cl u && decide (r.clteams ≤ ((List.range 4).filter fun i => fits s u (cl * 4 + i)).length)
  else (List.range 320).any fun c => fits s u c

/-- Whether an earlier launch keeps launch `u` from being placed (R300, R302). -/
def blockedBy (s : State) (first : Bool) (e : Nat × Launch) : Bool :=
  e.2.aged || decide (e.2.waitSince + 65536 ≤ s.gtime) || (e.2.record.gridbar && first)
    || (!e.2.record.gridbar && fitsSomewhere s e.1)

/-- Whether it is launch `u`'s turn. -/
def turnOf (s : State) (u : Nat) (l : Launch) : Bool :=
  let es := (waiting s).filter fun e => e.2.order < l.order
  (!l.record.gridbar || es.isEmpty)
    && es.all fun e => !blockedBy s (es.all fun x => e.2.order ≤ x.2.order) e && e.1 != u

/-- The groups of a new team, with their partitions. -/
def newGroups (team gtime : Nat) (l : Launch) (parts : List Nat) : List Group :=
  let specs := ((List.range 3).zip l.record.roles).flatMap fun x =>
    (List.range x.2.groups).map fun i => (x.1, x.2, x.2.lanesOf i)
  ((List.range specs.length).zip specs).map fun y =>
    let (role, x, n) := y.2
    { State.freshGroup team y.1 role x.nv x.nk x.nm (presentOf n) (helpersOf n) x.entry l.recaddr l.record.args with
      partition := parts.getD y.1 0 }.startsAt gtime

/-- The kernel of a launch on a core, and its gauge entries (R43, R294). -/
def joinKernel (s : State) (core launch : Nat) : State :=
  let c := s.coreAt core
  if c.kernels.contains launch then s
  else
    let slots := ((List.range 64).filter fun i => (SMap.get? c.gauge i).isNone).take (s.launchAt launch).record.gauge
    s.setCoreAt core { c with kernels := c.kernels ++ [launch]
                              gauge := slots.foldl (fun g i => SMap.put g i launch) c.gauge }

/-- The number of the set that a team belongs to. -/
def setOf (r : Record) (id : Nat) : Nat := if r.cluster then id / Nat.max r.clteams 1 else id

/-- Put a list of groups into the state under fresh numbers. -/
def addGroups (s : State) (gs : List Group) : State := gs.foldl (fun s g => (s.setGrpAt s.nextId g).fresh) s

/-- A team of a launch starts on a core, its groups in the partitions given. -/
def placeOne (s : State) (u core : Nat) (parts : List Nat) : Option State :=
  let l := s.launchAt u
  let r := l.record
  if !(clusterFits s (core / 4) u r && kernelFits s core u r) then none
  else
    let t := s.nextId
    let team : Team :=
      { launch := u, id := l.nextTeam, core := core, set := setOf r l.nextTeam, localsz := r.local'
        windows := r.windows.map fun n => (n, { mom := r.zmom.getLsbD n, mean := [], var := [] }) }
    let s := addGroups (s.setTeamAt t team).fresh (newGroups t s.gtime l parts)
    let s := joinKernel s core u
    some (s.setLaunchAt u { l with nextTeam := l.nextTeam + 1, live := l.live + 1, waitSince := s.gtime, aged := false })

/-- Whether a set of cores is one for a cluster set: of one cluster, each once. -/
def oneCluster (cores : List Nat) : Bool := decide (cores.eraseDups = cores) && cores.all fun c => c / 4 == cores.headD 0 / 4

/-- A team about to start: its core, and the partitions of its groups. -/
abbrev Seat := Nat × List Nat

/-- Cut a list into pieces of `n`, at most as many as it has elements. -/
def cut (n : Nat) : Nat → List Seat → List (List Seat)
  | 0, _ => []
  | f + 1, l => if l.isEmpty then [] else l.take n :: cut n f (l.drop n)

/-- The sets in which a list of teams is taken. -/
def setsOf (r : Record) (seats : List Seat) : List (List Seat) :=
  if r.cluster then cut (Nat.max r.clteams 1) seats.length seats else seats.map fun c => [c]

/-- The partitions for the teams of one step, all those of a core being placed together (R301, R302). -/
def seats (s : State) (r : Record) (cores : List Nat) : Option (List Seat) :=
  let n := (footprints r).length
  (List.range cores.length).foldl (fun acc i => acc.bind fun l =>
    let c := cores.getD i 0
    let k := (cores.take i).count c
    (addOf r (cores.count c) (takenOn s c)).map fun ps => l ++ [(c, (ps.drop (k * n)).take n)]) (some [])

/-- Place the teams of one step: for a cluster set, on a cluster that holds no other team of the launch. -/
def placeSets (s : State) (u : Nat) (sets : List (List Seat)) : Option State :=
  sets.foldl (fun acc cs => acc.bind fun s =>
    if (s.launchAt u).record.cluster && !(oneCluster (cs.map Prod.fst) && freeOf s ((cs.map Prod.fst).headD 0 / 4) u) then none
    else cs.foldl (fun acc c => acc.bind fun s => placeOne s u c.1 c.2) (some s)) (some s)

/-- How many teams one step places (R300 to R302). -/
def stepSize (l : Launch) : Nat :=
  if l.record.gridbar then Total l - l.nextTeam else if l.record.cluster then l.record.clteams else 1

def place (s : State) (u : Nat) (cores : List Nat) : Option State :=
  (SMap.get? s.launches u).bind fun l =>
    if decide (l.nextTeam < Total l) && !s.heldCtx.contains l.ctx && cores.length == stepSize l && turnOf s u l then
      (seats s l.record cores).bind fun x => placeSets s u (setsOf l.record x)
    else none

/-! ### The end of groups, teams and launches (R299, R320) -/

/-- A launch has no team left, resident or saved, and none to come: its walks and ranges go (R198, R304). -/
def dropUnits (s : State) (u : Nat) : State :=
  let s := Wk.closeLaunch s u
  { s with clusters := s.clusters.map fun e => (e.1, { e.2 with ranges := e.2.ranges.filter fun r => r.2.launch != u }) }

/-- A team leaves its core: heap, kernel and gauge entries (R43, R152). -/
def leaveCore (s : State) (t : Nat) : State :=
  let te := s.teamAt t
  let s := { s with teams := SMap.erase s.teams t }
  let c := s.coreAt te.core
  let c := if c.heap.owner == some t then { c with heap := {} } else c
  let last := (s.teamsOn te.core).all fun x => x.2.launch != te.launch
  s.setCoreAt te.core (if last then
    { c with kernels := c.kernels.filter (· != te.launch), gauge := c.gauge.filter fun e => e.2 != te.launch } else c)

/-- Whether a launch has no team left, resident or saved, and none to come (R198, R304). -/
def teamless (s : State) (u : Nat) (l : Launch) : Bool :=
  (s.teams.all fun t => t.2.launch != u) && l.saved.isEmpty && decide (Total l ≤ l.nextTeam)

/-- Whether every team of a launch has exited (R297). -/
def spent (l : Launch) : Bool := l.live == 0 && l.saved.isEmpty && l.missing.isEmpty && decide (Total l ≤ l.nextTeam)

/-- The last group of a team has gone. -/
def endTeam (s : State) (t : Nat) : State :=
  let te := s.teamAt t
  let s := leaveCore s t
  let l := s.launchAt te.launch
  let l := { l with live := l.live - 1 }
  let s := s.setLaunchAt te.launch l
  if teamless s te.launch l then dropUnits s te.launch else s

/-- A group that has gone is expected at no barrier, and its arrivals are forgotten. -/
def forget (s : State) (u : Nat) : State :=
  let g := s.grpAt u
  let t := s.teamOf u
  let drop (b : Nat) (x : Barrier) : Barrier := { x with arrived := x.arrived.filter (· != arrivalKey t g b) }
  let l := s.launchAt t.launch
  let s := { s with clusters := s.clusters.map fun (c : Nat × Cluster) => (c.1, { c.2 with walks := c.2.walks.map fun (w : Nat × Walk) =>
    (w.1, { w.2 with subsBy := w.2.subsBy.filter fun k => !(k.1 == t.launch && k.2.1 == t.id && k.2.2.1 == g.gid) }) }) }
  let s := s.setTeamAt g.team { t with barriers := t.barriers.map fun e => (e.1, drop e.1 e.2) }
  s.setLaunchAt t.launch { l with gbar := drop 17 l.gbar, cbars := l.cbars.map fun e => (e.1, drop 16 e.2) }

/-- Whether a walk's block fetch for a group is under way (R192). -/
def fetching (s : State) (u : Nat) : Bool :=
  s.clusters.any fun c => c.2.walks.any fun w => w.2.states.any fun n => n.2.given && !n.2.fetched && n.2.by' == u

/-- Faults in issue order. -/
def insertFault (f : LateFault) : List LateFault → List LateFault
  | [] => [f]
  | e :: r => if f.id < e.id then f :: e :: r else e :: insertFault f r

/-- Whether a collective of a group is under way (R406). -/
def collecting (s : State) (u : Nat) : Bool := s.tickets.any fun t => t.2.grp == u && t.2.entered && t.2.code.isNone

/-- Post the faults that an exited group carries, in issue order (R240, R320). -/
def postFaults (s : State) (u : Nat) : State :=
  let t := s.teamOf u
  ((s.grpAt u).faults.foldl (fun l f => insertFault f l) []).foldl (fun s f =>
    s.postEvent (s.ctxOf u) { kind := 1, cause := f.cause, team := t.id, value := f.tval, pc := f.pc }) s

/-- An exited group whose operations are over goes. -/
def retire (s : State) (u : Nat) : Option State :=
  if (SMap.get? s.groups u).isNone then none
  else
    let s := Bnk.settle s u
    let g := s.grpAt u
    if g.exited && g.ops.isEmpty && g.pending.isEmpty && !fetching s u && !collecting s u then
      let s := forget (postFaults s u) u
      let lu := (s.teamAt g.team).launch
      let l := s.launchAt lu
      let s := s.setLaunchAt lu { l with horizon := Nat.max l.horizon g.horizon }
      let t := s.teamAt g.team
      let s := s.setTeamAt g.team { t with exposed := g.exposed.foldl (fun m e =>
        SMap.put m e.window (SMap.get 0#32 m e.window ||| e.lanes)) t.exposed }
      let s := { s with groups := SMap.erase s.groups u }
      some (if (s.groupsOf g.team).isEmpty then endTeam s g.team else s)
    else none

/-- The dispatcher completes a launch: CODE 0x03 as a release at .module scope (R297, R299, R327). -/
def complete (s : State) (u : Nat) : Option State :=
  (SMap.get? s.launches u).bind fun l =>
    if spent l && decide (l.horizon ≤ s.gtime) then
      let under := ((SMap.get? s.queues l.pos).map QEntry.under).getD false
      let s := freeEntry (s.writeStatus l.ctx l.priv l.status under 0x03 l.statusAt) l.pos
      some { s with launches := SMap.erase s.launches u }
    else none

/-- A launch's next team has waited 65,536 cycles (R300). -/
def age (s : State) (u : Nat) : Option State :=
  (SMap.get? s.launches u).bind fun l =>
    if decide (l.nextTeam < Total l) && decide (l.waitSince + 65536 ≤ s.gtime) then
      some (s.setLaunchAt u { l with aged := true })
    else none

end Dsp

def execGroupRetire (grp : Nat) (s : State) : Host.Outcome State Fault Refusal := happen s (Dsp.retire s grp)

def execDispatcherRecordRead (queue pos : Nat) (s : State) : Host.Outcome State Fault Refusal :=
  happen s (if queue < 16 && pos < 64 then Dsp.readRecord s (queue * 64 + pos) else none)

def execTeamPlace (launch : Nat) (cores : List Nat) (s : State) : Host.Outcome State Fault Refusal :=
  happen s (Dsp.place s launch cores)

def execPlacementAgeLimit (launch : Nat) (s : State) : Host.Outcome State Fault Refusal := happen s (Dsp.age s launch)

def execLaunchComplete (launch : Nat) (s : State) : Host.Outcome State Fault Refusal := happen s (Dsp.complete s launch)

end Sys2Proof.Machine
end

