-- ==== Sys2Proof/Machine/Collective.lean ====
section
/-! DEFINITION. Collectives: CRED, CBCAST, CGATHER and CWAIT, their commit and their failures (R403 to R411). -/

namespace Sys2Proof.Machine

open Sys2Proof (SMap Opd Opds)

namespace Coll

/-! ### Descriptor and shape (R403, R404) -/

/-- A communicator descriptor. -/
structure Comm where
  ranks : Nat
  mine : Nat
  commid : Nat
  timeout : Nat
deriving DecidableEq, Repr

/-- The descriptor that 64 bytes hold; none when a field is malformed or a reserved bit is set. The fabric, not the module,
uses RANKTAB and INSWITCH. -/
def parse (bs : List Byte) : Option Comm :=
  let n := Dsp.bytesAt bs 2 2
  let m := Dsp.bytesAt bs 4 2
  let t := Dsp.bytesAt bs 0x10 4
  if Dsp.bytesAt bs 0 2 = 1 && 1 ≤ n && n ≤ 2048 && m < n && Dsp.bytesAt bs 6 2 < 2 && Dsp.bytesAt bs 8 8 % 4 = 0
      && 65536 ≤ t && t ≤ 2 ^ 31 && Dsp.zeroAt bs 0x18 40
  then some ⟨n, m, Dsp.bytesAt bs 0x14 4, t⟩ else none

def isBcast : CollKind → Bool
  | .bcast => true
  | _ => false

/-- Whether a shape is legal. -/
def shapeOk (kind : CollKind) (c : Comm) (k : W64) : Bool :=
  let n := Bits.field k 23 0
  let root := Bits.field k 47 32
  decide (1 ≤ n) && decide (n ≤ 4194304) && Bits.fieldZero k 31 24 && Bits.fieldZero k 63 48
    && (if isBcast kind then decide (root < c.ranks) else root == 0)

/-- Bytes of the destination (R405). -/
def dstBytes (kind : CollKind) (ranks count : Nat) : Nat := match kind with | .gather => 4 * count * ranks | _ => 4 * count

/-! ### The checks of R405 -/

/-- The first byte in each 64 KiB piece of a region. -/
def starts (a n : Nat) : List Nat := Bnk.pages a n

/-- A page of a region that fails translation or permission. -/
def denied (s : State) (w : Want) (a n : Nat) : Option (Nat × Nat) :=
  (starts a n).findSome? fun va => match s.find s.cur.grp (s.privAt s.cur.grp s.cur.frag) w va with
    | .fault c => some (c, va)
    | _ => none

/-- A page of a region that is not LINEAR in this module's HBM. -/
def unfit (s : State) (w : Want) (a n : Nat) : Option Nat :=
  (starts a n).find? fun va => match s.find s.cur.grp (s.privAt s.cur.grp s.cur.frag) w va with
    | .at' (.hbm _) (some l) => l.layout != 0
    | _ => true

/-- Whether source and destination overlap where they may not. -/
def overlap (kind : CollKind) (c : Comm) (src dst count : Nat) : Bool :=
  let n := 4 * count
  decide (src < dst + dstBytes kind c.ranks count) && decide (dst < src + n)
    && !(match kind with
      | .gather => src == dst + n * c.mine
      | _ => src == dst)

/-- What the checks give. -/
inductive Checked where
  | hold (send : Option Nat)
  | trap (cause tval : Nat)
  /-- a trap whose TVAL is not stated -/
  | trapFree (cause : Nat)
  | ok (c : Comm) (stamps : List Taken)

/-- The region checks, in order: alignment, translation, kind of page, overlap. -/
def regions (s : State) (kind : CollKind) (c : Comm) (src dst count : Nat) (st : List Taken) : Checked :=
  let n := 4 * count
  let m := dstBytes kind c.ranks count
  if src % 4 ≠ 0 then .trap 0x28 src
  else if dst % 4 ≠ 0 then .trap 0x28 dst
  else match (denied s .load src n).or (denied s .store dst m) with
    | some f => .trap f.1 f.2
    | none =>
      match (unfit s .load src n).or (unfit s .store dst m) with
      | some va => .trap 0x25 va
      | none => if overlap kind c src dst count then .trapFree 0x29 else .ok c st

def check (s : State) (kind : CollKind) (o : Opds) : Checked :=
  let a := (s.grp.rk o.a.val).toNat
  let k := s.grp.rk o.c.val
  if s.grp.hcur ≠ 0#16 then .trap 0x64 s.grp.hcur.toNat
  else if a % 64 ≠ 0 then .trap 0x28 a
  else match s.see s.cur.grp s.nextId (s.privAt s.cur.grp s.cur.frag) 0#16 a 64 with
    | .hold q => .hold q
    | .fault c => .trap c a
    | .bad => .trap 0x26 a
    | .data bs st =>
      match parse bs with
      | none => .trap 0x29 a
      | some c =>
        if !shapeOk kind c k then .trap 0x29 k.toNat
        else regions s kind c (s.grp.rk o.b.val).toNat (s.grp.rk (o.b.val + 1)).toNat (Bits.field k 23 0) st

/-! ### Tickets (R406, R410) -/

def freeTicket (s : State) (ctx : Nat) : Option Nat :=
  (List.range 64).find? fun n => (SMap.get? s.tickets (ctx * 64 + n)).isNone

/-- The 32-bit words of a list of bytes. -/
def words (count : Nat) (bs : List Byte) : List W32 :=
  (List.range count).map fun i => BitVec.ofNat 32 (Dsp.bytesAt bs (4 * i) 4)

/-- The ticket that a collective takes once its checks have passed, its operands with it. When the first rank contributed is a free
value: at the latest now. -/
def newTicket (s : State) (kind : CollKind) (o : Opds) (c : Comm) : Ticket :=
  let k := s.grp.rk o.c.val
  { kind := kind, commid := c.commid, turn := 0, ranks := c.ranks, rank := c.mine
    dst := (s.grp.rk (o.b.val + 1)).toNat, count := Bits.field k 23 0, root := Bits.field k 47 32, grp := s.cur.grp
    launch := s.team.launch, priv := s.privAt s.cur.grp s.cur.frag, code := none, doneAt := 0, mine := []
    src := (s.grp.rk o.b.val).toNat, first := Nat.min s.gtime (Config.freeNat s.choice 0), timeout := c.timeout
    entered := false, kd := o.d.val, was := s.grp.rk o.d.val }

/-- The collective takes ticket `n` and writes it into kD; `st` is what its checks have read. -/
def takeTicket (t : Ticket) (n : Nat) (st : List Taken) (s : State) : State :=
  let key := s.ctx * 64 + n
  let s := { (s.noteStamps s.cur.grp st).spend with
    tickets := SMap.put s.tickets key t
    ticketSeq := SMap.put s.ticketSeq key ((SMap.get 0 s.ticketSeq key + 1) % 65536) }
  s.setGrp (s.grp.wk t.kd (s.ticketWord s.ctx n))

/-- The fragment keeps the ticket of its held collective, or has one no longer. -/
def holdTicket (n : Option Nat) (s : State) : State :=
  s.setGrp (s.grp.setFrag s.cur.frag { s.grp.frag s.cur.frag with ticket := n })

/-- The collective takes its place at the engine with its contribution. -/
def enter (s : State) (t : Ticket) (n : Nat) (mine : List W32) : State :=
  { holdTicket none s with
    tickets := SMap.put s.tickets (s.ctx * 64 + n)
      { t with turn := SMap.get 0 s.collCount t.commid, code := if s.inSync then none else some 1, mine := mine, entered := true }
    collCount := SMap.put s.collCount t.commid (SMap.get 0 s.collCount t.commid + 1) }

/-- Its source as loads of the group, once R214 holds for that. -/
def source (s : State) (t : Ticket) : Except Stop (List Byte × List Taken) :=
  if s.releaseReady s.cur.grp .system s.nextId then s.seeAll s.cur.grp s.nextId t.priv 0#16 t.src (4 * t.count)
  else .error (.hold none)

/-- A collective that holds its ticket goes on: `pre` is what has to stand if it is held (R406). One whose source can no longer be
read traps, and its ticket is free again. -/
def proceed (s : State) (t : Ticket) (n : Nat) (pre : State → State) : Res :=
  match source s t with
  | .error (.hold q) => .holdWith true fun s => match q with
    | some va => (pre s).ask s.cur.grp s.nextId va
    | none => pre s
  | .error (.fault cause tval) =>
    .trapWith (fun s => match (s.grp.frag s.cur.frag).ticket with
      | some n => (holdTicket none s).freeTicket (s.ctx * 64 + n, t)
      | none => s) cause tval
  | .ok r => .done (enter (s.noteStamps s.cur.grp r.2) t n (words t.count r.1))

/-- CRED, CBCAST and CGATHER (R405, R406). -/
def issueColl (s : State) (kind : CollKind) (o : Opds) : Res :=
  match (s.grp.frag s.cur.frag).ticket.bind fun n => (SMap.get? s.tickets (s.ctx * 64 + n)).map fun t => (n, t) with
  | some (n, t) => proceed s t n id
  | none =>
    match check s kind o with
    | .hold q => .holdFor q
    | .trap c v => .trap c v
    | .trapFree c => .trapFree c
    | .ok c st =>
      match freeTicket s s.ctx with
      | none => .hold false
      | some n =>
        let t := newTicket s kind o c
        proceed (takeTicket t n st s) t n fun s => holdTicket (some n) (takeTicket t n st s)

/-- CWAIT (R410). -/
def cwait (s : State) (o : Opds) : Res :=
  let x := Bits.lo (s.grp.rk o.a.val)
  let n := Bits.field x 5 0
  let say (s : State) (c : Nat) : Res := .done (s.setGrp (s.grp.wk o.d.val (BitVec.ofNat 64 c)))
  match SMap.get? s.tickets (s.ctx * 64 + n) with
  | none => say s 3
  | some t =>
    if s.ticketWord s.ctx n ≠ Bits.zext64 x then say s 3
    else match t.code with
      | none => .hold false
      | some c =>
        if c = 0 && s.gtime < t.doneAt + 16 then .hold false
        else
          let s := { s with tickets := SMap.erase s.tickets (s.ctx * 64 + n) }
          if c = 0 then say ((s.setGrp (s.grp.raise t.doneAt)).discardL1 (s.l1Of s.cur.grp)) 0 else say s c

/-! ### Commit and failure (R407 to R409) -/

/-- One inner node of CRED's tree. -/
def combine (op : CredOp) (a b : W32) : W32 :=
  match op with
  | .addF => BitVec.ofNat 32 (Float.add .f32 .rn a.toNat b.toNat)
  | .addS => a + b
  | .maxF => BitVec.ofNat 32 (Float.minmax .f32 true a.toNat b.toNat)
  | .minF => BitVec.ofNat 32 (Float.minmax .f32 false a.toNat b.toNat)

/-- The largest power of two below `n`. -/
def powBelow (n : Nat) : Nat := 2 ^ (n - 1).log2

/-- R408's tree over ranks `lo` to `lo + n - 1`, of depth at most `f`. -/
def tree (op : CredOp) (at' : Nat → W32) : Nat → Nat → Nat → W32
  | 0, lo, _ => at' lo
  | f + 1, lo, n =>
    if n ≤ 1 then at' lo
    else combine op (tree op at' f lo (powBelow n)) (tree op at' f (lo + powBelow n) (n - powBelow n))

/-- Whether a collective is the first of its COMMID that has not completed (R407). -/
def first (s : State) (t : Ticket) : Bool :=
  s.tickets.all fun e => e.2.commid != t.commid || !e.2.entered || e.2.code.isSome || decide (t.turn ≤ e.2.turn)

/-- What a rank contributed. -/
def share (t : Ticket) (others : List (Nat × List W32)) (r : Nat) : Option (List W32) :=
  if r = t.rank then some t.mine
  else ((others.find? fun e => e.1 == r && e.2.length == t.count)).map Prod.snd

/-- Ranks whose contributions the result needs. -/
def needed (t : Ticket) : List Nat := if isBcast t.kind then [t.root] else List.range t.ranks

/-- The words of the destination, in order. -/
def result (t : Ticket) (get : Nat → List W32) : List W32 :=
  match t.kind with
  | .cred op => (List.range t.count).map fun i => tree op (fun r => (get r).getD i 0#32) 12 0 t.ranks
  | .bcast => get t.root
  | .gather => (List.range t.ranks).flatMap get

/-- Write bytes at an address for a ticket's context: stores at the root. None while MLOCK keeps them (R227), or while a line leads
nowhere in HBM: what cannot be written yet leaves the collective incomplete (R409). -/
def storeAt (s : State) (ctx : Nat) (t : Ticket) (a : Nat) (bs : List Byte) : Option (State × Nat) :=
  (State.pieces (bs.length / 128 + 2) a bs.length).foldl (fun acc p => acc.bind fun x =>
    match x.1.findAs ctx (t.priv || ctx == 0) .store p.1 with
    | .at' (.hbm q) l =>
      if (l.map Leaf.mlock).getD false then none
      else
        let y := (x.1.endOwnership (lineOf q)).sliceWrite ctx 0#16 q ((bs.drop (p.1 - a)).take p.2)
        some (y.1, Nat.max x.2 y.2)
    | _ => none) (some (s, 0))

/-- Write the whole destination. -/
def deliver (s : State) (ctx : Nat) (t : Ticket) (ws : List W32) : Option (State × Nat) :=
  storeAt s ctx t t.dst (ws.flatMap fun w => Bits.bytesOf 4 w.toNat)

/-- A collective that has not completed. -/
def pendingAt (s : State) (ctx n : Nat) : Option Ticket :=
  if ctx < 256 && n < 64 then
    (SMap.get? s.tickets (ctx * 64 + n)).bind fun t => if t.entered && t.code.isNone && first s t then some t else none
  else none

def setCode (s : State) (ctx n : Nat) (t : Ticket) (code at' : Nat) : State :=
  { s with tickets := SMap.put s.tickets (ctx * 64 + n) { t with code := some code, doneAt := at' } }

/-- The result, once the root node's value is complete: the contributions are all in. -/
def outcome (s : State) (t : Ticket) (others : List (Nat × List W32)) : Option (List W32) :=
  t.result.or
    (if s.inSync && (needed t).all fun r => (share t others r).isSome
     then some (result t fun r => (share t others r).getD []) else none)

/-- The commit point (R409), and the writes that are left. -/
def commit (s : State) (ctx n : Nat) (others : List (Nat × List W32)) : Option State :=
  (pendingAt s ctx n).bind fun t =>
    (outcome s t others).bind fun ws =>
      (deliver s ctx t ws).map fun x =>
        let at' := Nat.max t.doneAt x.2
        let s := setCode x.1 ctx n t 0 at'
        match SMap.get? s.launches t.launch with
        | some l => s.setLaunchAt t.launch { l with horizon := Nat.max l.horizon at' }
        | none => s

/-- Places of the words of a region that lie in its `i`-th aligned 8-byte word. -/
def inWord (a count i : Nat) : List Nat := (List.range count).filter fun e => (a + 4 * e) / 8 == a / 8 + i

/-- After the commit point an aligned 8-byte word of the destination may be written before the others (R410). -/
def writeWord (s : State) (ctx n i : Nat) (others : List (Nat × List W32)) : Option State :=
  (pendingAt s ctx n).bind fun t =>
    (outcome s t others).bind fun ws =>
      let es := inWord t.dst ws.length i
      (storeAt s ctx t (t.dst + 4 * es.headD 0) (es.flatMap fun e => Bits.bytesOf 4 (ws.getD e 0#32).toNat)).map fun x =>
        { x.1 with tickets := SMap.put x.1.tickets (ctx * 64 + n) { t with result := some ws, doneAt := Nat.max t.doneAt x.2 } }

/-- Before the commit point an aligned 8-byte word of the source may be read again: a word written meanwhile enters as old or
new (R406). -/
def readAgain (s : State) (ctx n i : Nat) : Option State :=
  if ctx < 256 && n < 64 then
    (SMap.get? s.tickets (ctx * 64 + n)).bind fun t =>
      let es := inWord t.src t.mine.length i
      match s.findAs ctx (t.priv || ctx == 0) .load (t.src + 4 * es.headD 0) with
      | .at' (.hbm p) _ =>
        if t.code.isSome || t.result.isSome || es.isEmpty || s.badAt p (4 * es.length) then none
        else
          let s := s.endOwnership (lineOf p)
          let mine := es.foldl (fun m e => m.set e (BitVec.ofNat 32 (s.readMem (p + 4 * (e - es.headD 0)) 4))) t.mine
          some { s with tickets := SMap.put s.tickets (ctx * 64 + n) { t with mine := mine } }
      | _ => none
  else none

/-- A collective that can still end without its result: it has several ranks, and its commit point has not come. -/
def openAt (s : State) (ctx n : Nat) : Option Ticket :=
  (pendingAt s ctx n).bind fun t => if 1 < t.ranks && t.result.isNone then some t else none

/-- Before the commit point the collective may turn out mismatched (R407). -/
def mismatch (s : State) (ctx n : Nat) : Option State := (openAt s ctx n).map fun t => setCode s ctx n t 2 0

/-- A contribution has not arrived TIMEOUT cycles after the first (R409). -/
def timeout (s : State) (ctx n : Nat) : Option State :=
  (openAt s ctx n).bind fun t => if t.first + t.timeout ≤ s.gtime then some (setCode s ctx n t 1 0) else none

def memberFails (s : State) (ctx n rank : Nat) : Option State :=
  (openAt s ctx n).bind fun t =>
    if rank < t.ranks && rank != t.rank then some (setCode s ctx n t 1 0) else none

end Coll

open Coll

def execCred (op : CredOp) (o : Opds) (s : State) : Host.Outcome State Fault Refusal :=
  issue (.cred op o) s fun s => issueColl s (.cred op) o

def execCbcast (o : Opds) (s : State) : Host.Outcome State Fault Refusal := issue (.cbcast o) s fun s => issueColl s .bcast o

def execCgather (o : Opds) (s : State) : Host.Outcome State Fault Refusal := issue (.cgather o) s fun s => issueColl s .gather o

def execCwait (o : Opds) (s : State) : Host.Outcome State Fault Refusal := issue (.cwait o) s fun s => cwait s o

def execCollectiveCommit (ctx ticket : Nat) (others : List (Nat × List W32)) (s : State) :
    Host.Outcome State Fault Refusal := happen s (commit s ctx ticket others)

def execCollectiveTimeout (ctx ticket : Nat) (s : State) : Host.Outcome State Fault Refusal := happen s (timeout s ctx ticket)

def execCollectiveMemberFailure (ctx ticket rank : Nat) (s : State) : Host.Outcome State Fault Refusal :=
  happen s (memberFails s ctx ticket rank)

def execCollectiveMismatch (ctx ticket : Nat) (s : State) : Host.Outcome State Fault Refusal := happen s (mismatch s ctx ticket)

end Sys2Proof.Machine
end

