-- ==== Sys2Proof/Machine/Area.lean ====
section
/-! DEFINITION. The layout of a save area: team header (R311), group records (R26, R46, R47, R357), and what is live at a
save (R306, R308). -/

namespace Sys2Proof.Machine

open Sys2Proof (SMap)

namespace Area

/-! ### What is live (R306, R308) -/

def allOnes (w n : Nat) : BitVec w := BitVec.ofNat w (2 ^ n - 1)

/-- Every allocated granule of a group, and every window. -/
def everything (g : Group) : Granules :=
  { v := allOnes 32 (g.nv / 8), k := allOnes 8 (g.nk / 8), m := allOnes 8 (g.nm / 8), z := allOnes 16 16 }

def within (a b : Granules) : Granules := ⟨a.v &&& b.v, a.k &&& b.k, a.m &&& b.m, a.z &&& b.z⟩

/-- Whether a fragment of the group passed 4,096 issues, or stopped because it could issue no more of them (R307, log 42). -/
def whole (g : Group) : Bool := g.fragsInUse.any fun f => decide (4096 < (g.frag f).count) || (g.frag f).cut

/-- The live granules and windows of a group. -/
def live (g : Group) : Granules :=
  if whole g then everything g
  else within (everything g) ((g.fragsInUse.map g.frag).foldl
    (fun x r => Group.joinGranules x (Group.joinGranules r.life r.written)) {})

/-! ### A group record (R46) -/

/-- Live granules below granule `n` of a mask. -/
def rank {w : Nat} (mask : BitVec w) (n : Nat) : Nat := Bits.popcount n mask.toNat

/-- Offsets of k, v and m registers in the record, where their granules are live. -/
def kOff (x : Granules) (n : Nat) : Nat := 0x400 + 64 * rank x.k (n / 8) + 8 * (n % 8)
def vOff (x : Granules) (n i : Nat) : Nat := 0x400 + 64 * rank x.k 8 + 1024 * rank x.v (n / 8) + 128 * (n % 8) + 4 * i
def mOff (x : Granules) (n i : Nat) : Nat :=
  0x400 + 64 * rank x.k 8 + 1024 * rank x.v 32 + 2048 * rank x.m (n / 8) + 256 * (n % 8) + 8 * i

/-- Registers of the live granules of a mask below `n`. -/
def liveRegs {w : Nat} (mask : BitVec w) (n : Nat) : List Nat := (List.range n).filter fun r => mask.getLsbD (r / 8)

def stateCode : QState → Nat
  | .absent => 0 | .ready => 1 | .parkedGang => 2 | .parkedBar => 3 | .exited => 4 | .orphanPending => 5

def stateOf : Nat → QState
  | 1 => .ready | 2 => .parkedGang | 3 => .parkedBar | 4 => .exited | 5 => .orphanPending | _ => .absent

/-- A quad table entry; every living quad of a group that waits for its redirection has STATE 5 (R47, R275). -/
def packQuad (g : Group) (q : Nat) : List Byte :=
  let x := g.quad q
  let st := if g.orphan.isSome && x.st != .absent && x.st != .exited then .orphanPending else x.st
  Bits.bytesOf 8 (x.pc.toNat % 2 ^ 56) ++ Bits.bytesOf 1 x.frag ++ Bits.bytesOf 1 x.lanes.toNat ++ Bits.bytesOf 1 (stateCode st)
    ++ Bits.bytesOf 1 (if st = .parkedGang || st = .parkedBar then x.waitno else 0) ++ Bits.bytesOf 4 0

/-- A join register's image (R26). -/
def packJoin (j : JReg) : List Byte :=
  Bits.bytesOf 4 j.expect.toNat ++ Bits.bytesOf 4 j.arrive.toNat
    ++ Bits.bytesOf 4 (j.entries.length % 4 + if j.active then 4 else 0) ++ Bits.bytesOf 4 0
    ++ (List.range 3).flatMap fun i =>
      match j.entries[i]? with
      | some e => Bits.bytesOf 8 (e.pc.toNat % 2 ^ 56) ++ Bits.bytesOf 4 e.lanes.toNat ++ Bits.bytesOf 4 0
      | none => Bits.bytesOf 16 0

/-- The trap state (R357). -/
def packTrap (g : Group) : List Byte :=
  if g.hmode || g.fragsInUse.any fun f => (g.frag f).trapWaits then
    Bits.bytesOf 4 g.cause.toNat ++ Bits.bytesOf 4 g.hmask.toNat ++ Bits.bytesOf 8 g.tpc.toNat ++ Bits.bytesOf 8 g.tval.toNat
      ++ Bits.bytesOf 1 (if g.hmode then 1 else 0) ++ Bits.bytesOf 39 0
  else Bits.bytesOf 64 0

/-- The fixed part of a record. -/
def packFixed (g : Group) (x : Granules) : List Byte :=
  Bits.bytesOf 8 g.horizon ++ Bits.bytesOf 4 g.mcr.toNat ++ Bits.bytesOf 4 g.hcur.toNat
    ++ Bits.bytesOf 4 x.v.toNat ++ Bits.bytesOf 1 x.k.toNat ++ Bits.bytesOf 11 x.m.toNat
    ++ (List.range 8).flatMap (fun n => Bits.bytesOf 4 (g.rp n).toNat)
    ++ (List.range 8).flatMap (packQuad g) ++ packTrap g
    ++ (List.range 16).flatMap (fun n => Bits.bytesOf 8 (g.rt n).toNat)
    ++ Bits.bytesOf 1 g.role ++ Bits.bytesOf 1 g.gid ++ Bits.bytesOf 2 g.nv ++ Bits.bytesOf 1 g.nk ++ Bits.bytesOf 3 g.nm
    ++ Bits.bytesOf 4 g.present.toNat ++ Bits.bytesOf 4 g.helpers.toNat ++ Bits.bytesOf 112 0
    ++ (List.range 8).flatMap fun n => packJoin (g.rj n)

/-- The live granules, packed. -/
def packLive (g : Group) (x : Granules) : List Byte :=
  ((liveRegs x.k g.nk).flatMap fun n => Bits.bytesOf 8 (g.rk n).toNat)
    ++ ((liveRegs x.v g.nv).flatMap fun n => Bits.lanes.flatMap fun i => Bits.bytesOf 4 (g.rv n i).toNat)
    ++ (liveRegs x.m g.nm).flatMap fun n => Bits.lanes.flatMap fun i => Bits.bytesOf 8 (g.rm n i).toNat

/-- A whole record; behind the live granules it holds free values. -/
def packGroup (choice : Nat) (g : Group) (x : Granules) : List Byte :=
  let l := packFixed g x ++ packLive g x
  l ++ (List.range (recordBytes g.nv g.nk g.nm - l.length)).map fun i => Config.freeByte choice (g.gid * 2 ^ 20 + i)

/-- Where uncorrectable registers of a group lie in its record. -/
def badIn (g : Group) (x : Granules) : List Nat :=
  g.bad.filterMap fun b =>
    match b.1 with
    | 1 => if x.v.getLsbD (b.2 / 32 / 8) then some (vOff x (b.2 / 32) (b.2 % 32)) else none
    | 2 => if x.k.getLsbD (b.2 / 8) then some (kOff x b.2) else none
    | 3 => some (0x20 + 4 * b.2)
    | 4 => if x.m.getLsbD (b.2 / 32 / 8) then some (mOff x (b.2 / 32) (b.2 % 32)) else none
    | 6 => some (0x100 + 8 * b.2)
    | 7 => some (0x200 + 64 * b.2)
    | _ => none

/-! ### Reading a group record -/

open Dsp (bytesAt)

/-- A quad table entry. DESIGN CHOICE (log 81): a FRAG above 7 counts modulo 8. -/
def unpackQuad (r : List Byte) (q : Nat) : Quad :=
  let o := 0x40 + 16 * q
  let st := stateOf (bytesAt r (o + 10) 1)
  { pc := BitVec.ofNat 64 (bytesAt r o 8), frag := bytesAt r (o + 8) 1 % 8, lanes := BitVec.ofNat 4 (bytesAt r (o + 9) 1)
    st := if st = .orphanPending then .ready else st, waitno := bytesAt r (o + 11) 1 }

def unpackJoin (r : List Byte) (n : Nat) : JReg :=
  let o := 0x200 + 64 * n
  let st := bytesAt r (o + 8) 4
  { expect := BitVec.ofNat 32 (bytesAt r o 4), arrive := BitVec.ofNat 32 (bytesAt r (o + 4) 4), active := st.testBit 2
    entries := (List.range (st % 4)).map fun i =>
      { pc := BitVec.ofNat 64 (bytesAt r (o + 16 + 16 * i) 8), lanes := BitVec.ofNat 32 (bytesAt r (o + 24 + 16 * i) 4) } }

/-- Whether the reserved bits of a record's fixed part are zero (R8, R25, R46). DESIGN CHOICE (log 81): a quad table entry whose STATE is
above 5 is refused like a reserved bit. -/
def recordOk (r : List Byte) : Bool :=
  let zero := Dsp.zeroAt r
  decide (bytesAt r 8 4 < 4) && zero 0xE 2 && zero 0x16 10 && zero 0xC1 3 && decide (bytesAt r 0xD8 1 < 2) && zero 0xD9 39
    && zero 0x186 2 && zero 0x190 112 && ((List.range 16).all fun n => decide (bytesAt r (0x107 + 8 * n) 1 < 2))
    && ((List.range 8).all fun q =>
      let o := 0x40 + 16 * q
      zero (o + 7) 1 && decide (bytesAt r (o + 9) 1 < 16) && decide (bytesAt r (o + 10) 1 ≤ 5) && zero (o + 12) 4)
    && (List.range 8).all fun n =>
      let o := 0x200 + 64 * n
      decide (bytesAt r (o + 8) 4 < 8) && zero (o + 12) 4
        && (List.range 3).all fun i => zero (o + 23 + 16 * i) 1 && zero (o + 28 + 16 * i) 4

/-- Whether a record shows a pending redirection. -/
def pendingRedirect (r : List Byte) : Bool := (List.range 8).any fun q => bytesAt r (0x40 + 16 * q + 10) 1 == 5

/-- The table that lists what is not zero. -/
def listed {w : Nat} (keys : List Nat) (f : Nat → BitVec w) : SMap (BitVec w) :=
  (keys.map fun k => (k, f k)).filter fun e => e.2 != 0#w

/-- A group from its record (R48, R310); what is not live holds free values. `z` is the mask of live windows. -/
def unpackGroup (choice team part gtime : Nat) (z : BitVec 16) (r : List Byte) : Group :=
  let x : Granules :=
    { v := BitVec.ofNat 32 (bytesAt r 0x10 4), k := BitVec.ofNat 8 (bytesAt r 0x14 1), m := BitVec.ofNat 8 (bytesAt r 0x15 1), z := z }
  let nv := bytesAt r 0x182 2
  let nk := bytesAt r 0x184 1
  let nm := bytesAt r 0x185 1
  let g : Group := default
  let g := { g with
    team := team, gid := bytesAt r 0x181 1, role := bytesAt r 0x180 1, nv := nv, nk := nk, nm := nm
    present := BitVec.ofNat 32 (bytesAt r 0x188 4), helpers := BitVec.ofNat 32 (bytesAt r 0x18C 4)
    horizon := bytesAt r 0 8, mcr := BitVec.ofNat 32 (bytesAt r 8 4) &&& 0x3#32, hcur := BitVec.ofNat 16 (bytesAt r 0xC 2)
    p := listed ((List.range 8).drop 1) fun n => BitVec.ofNat 32 (bytesAt r (0x20 + 4 * n) 4)
    t := listed (List.range 16) fun n => BitVec.ofNat 64 (bytesAt r (0x100 + 8 * n) 8)
    k := listed ((List.range nk).drop 1) fun n =>
      if x.k.getLsbD (n / 8) then BitVec.ofNat 64 (bytesAt r (kOff x n) 8) else Config.free64 choice n
    v := listed (List.range (nv * 32)) fun n =>
      if x.v.getLsbD (n / 32 / 8) then BitVec.ofNat 32 (bytesAt r (vOff x (n / 32) (n % 32)) 4) else Config.free32 choice n
    m := listed (List.range (nm * 32)) fun n =>
      if x.m.getLsbD (n / 32 / 8) then BitVec.ofNat 64 (bytesAt r (mOff x (n / 32) (n % 32)) 8) else Config.free64 choice (1024 + n)
    j := ((List.range 8).map fun n => (n, unpackJoin r n)).filter fun e => e.2 != ({} : JReg)
    quads := (List.range 8).map fun q => (q, unpackQuad r q)
    cause := BitVec.ofNat 32 (bytesAt r 0xC0 1), hmask := BitVec.ofNat 32 (bytesAt r 0xC4 4)
    tpc := BitVec.ofNat 64 (bytesAt r 0xC8 8), tval := BitVec.ofNat 64 (bytesAt r 0xD0 8), hmode := bytesAt r 0xD8 1 == 1
    partition := part, lastIssue := gtime, restoring := true }
  { g with frags := g.fragsInUse.map fun f => (f, { life := x }) }

/-! ### The team header (R311) -/

def packBarrier (b : Barrier) : List Byte :=
  Bits.bytesOf 4 (b.arrived.eraseDups.foldl (fun n g => n + 2 ^ g) 0) ++ Bits.bytesOf 3 b.pend
    ++ Bits.bytesOf 1 (if b.phase then 1 else 0)
    ++ Bits.bytesOf 8 0

def packQueue (q : Option Queue) : List Byte :=
  match q with
  | none => Bits.bytesOf 64 0
  | some x => Bits.bytesOf 8 (2 ^ 63 + (x.nslot - 1) * 2 ^ 32 + (x.slotsz / 128 - 1) * 2 ^ 24 + x.base) ++ Bits.bytesOf 2 x.free
      ++ Bits.bytesOf 1 x.head ++ Bits.bytesOf 1 x.tail ++ Bits.bytesOf 20 0
      ++ (List.range 32).flatMap fun i => Bits.bytesOf 1 (SMap.get 0 x.allow i)

def boundMask (t : Team) : Nat := t.windows.foldl (fun n w => n + 2 ^ w.1) 0

def packHeap (h : Heap) : List Byte :=
  (List.range 256).flatMap fun i => match h.entries[i]? with
    | some e => Bits.bytesOf 4 e.1.toNat ++ Bits.bytesOf 4 e.2.toNat
    | none => Bits.bytesOf 8 0

/-- The header of a team with `n` groups; `h` is the heap that it holds, if it holds it. DESIGN CHOICE (log 81): of more than 16 range
handles the first 16 are saved. -/
def packHeader (t : Team) (n : Nat) (h : Option Heap) : List Byte :=
  Bits.bytesOf 4 t.id ++ Bits.bytesOf 1 n ++ Bits.bytesOf 3 (if h.isSome then 1 else 0)
    ++ Bits.bytesOf 4 (match h with | some h => h.entries.length + (if h.ovf then 2 ^ 16 else 0) | none => 0)
    ++ Bits.bytesOf 52 (boundMask t)
    ++ (List.range 16).flatMap (fun b => packBarrier (SMap.get {} t.barriers b))
    ++ (List.range 16).flatMap (fun q => packQueue (SMap.get? t.queues q))
    ++ (List.range 16).flatMap (fun i => Bits.bytesOf 8 (t.ranges.getD i 0#32).toNat)
    ++ Bits.bytesOf 64 0 ++ packHeap (h.getD {}) ++ Bits.bytesOf 512 0

/-- The planes of a window as stored; a window that is not live leaves free values. -/
def packWindow (choice : Nat) (isLive : Bool) (n : Nat) (w : Window) : List Byte :=
  let size := if w.mom then 32768 else 16384
  if isLive then
    ((List.range 4096).flatMap fun i => Bits.bytesOf 4 (SMap.get 0#32 w.mean i).toNat)
      ++ (if w.mom then (List.range 4096).flatMap fun i => Bits.bytesOf 4 (SMap.get 0#32 w.var i).toNat else [])
  else (List.range size).map fun i => Config.freeByte choice (2 ^ 30 + n * 2 ^ 15 + i)

def unpackBarrier (h : List Byte) (b : Nat) : Barrier :=
  let o := 0x40 + 16 * b
  { arrived := (List.range 32).filter fun g => (bytesAt h o 4).testBit g
    pend := bytesAt h (o + 4) 3, phase := bytesAt h (o + 7) 1 % 2 == 1 }

/-- A queue from the header; its filled slots run from head on. -/
def unpackQueue (h : List Byte) (q : Nat) : Option Queue :=
  let o := 0x140 + 64 * q
  let c : W64 := BitVec.ofNat 64 (bytesAt h o 8)
  if !c.getLsbD 63 then none
  else
    let n := Bits.field c 39 32 + 1
    let free := bytesAt h (o + 8) 2
    let head := bytesAt h (o + 10) 1
    some { base := Bits.field c 18 0, nslot := n, slotsz := (Bits.field c 28 24 + 1) * 128, free := free, head := head
           tail := bytesAt h (o + 11) 1
           slots := (List.range (n - free)).map fun i =>
             { slot := (head + i) % n, filled := true, grp := 0, op := 0, engine := false }
           allow := ((List.range 32).map fun i => (i, bytesAt h (o + 32 + i) 1)).filter fun e => e.2 != 0 }

/-- Whether the reserved bits of a header are zero (R8, R311). DESIGN CHOICE (log 81): a HEAPSTATE.COUNT above 256, which R151 never
saves, sets no reserved bit and is taken. -/
def headerOk (h : List Byte) : Bool :=
  let zero := Dsp.zeroAt h
  decide (bytesAt h 5 1 < 2) && zero 6 2 && decide (bytesAt h 8 2 < 512) && decide (bytesAt h 10 2 < 2) && zero 0xE 50
    && ((List.range 16).all fun b => decide (bytesAt h (0x47 + 16 * b) 1 < 2) && zero (0x48 + 16 * b) 8)
    && ((List.range 16).all fun q =>
      let c : W64 := BitVec.ofNat 64 (bytesAt h (0x140 + 64 * q) 8)
      Bits.fieldZero c 62 40 && Bits.fieldZero c 31 29 && Bits.fieldZero c 23 19 && zero (0x14C + 64 * q) 20)
    && ((List.range 16).all fun i => zero (0x544 + 8 * i) 4) && zero 0x5C0 64 && zero 0xE00 512

/-- The selection heap of a header. DESIGN CHOICE (log 81): COUNT entries, also where a COUNT above 256 runs past the field. -/
def unpackHeap (h : List Byte) (team : Nat) : Heap :=
  let st := bytesAt h 8 4
  { owner := some team, ovf := st.testBit 16
    entries := (List.range (st % 512)).map fun i =>
      (BitVec.ofNat 32 (bytesAt h (0x600 + 8 * i) 4), BitVec.ofNat 32 (bytesAt h (0x604 + 8 * i) 4)) }

/-- Windows that a header marks bound. -/
def boundIn (h : List Byte) : List Nat := (List.range 16).filter fun n => (bytesAt h 0xC 2).testBit n

/-- Granules of the windows that a header marks bound. -/
def granulesIn (r : Record) (h : List Byte) : Nat := ((boundIn h).map r.granules).foldl (· + ·) 0

/-- A window from its planes. -/
def unpackWindow (mom : Bool) (bs : List Byte) : Window :=
  { mom := mom, mean := listed (List.range 4096) fun i => BitVec.ofNat 32 (bytesAt bs (4 * i) 4)
    var := if mom then listed (List.range 4096) fun i => BitVec.ofNat 32 (bytesAt bs (16384 + 4 * i) 4) else [] }

/-- A bound window that was not live at the save, as a restore leaves it: free values in its planes (R48). -/
def freeWindow (choice n : Nat) (mom : Bool) : Window :=
  let plane (k : Nat) := listed (List.range 4096) fun i => Config.free32 choice (2 ^ 20 + (2 * n + k) * 4096 + i)
  { mom := mom, mean := plane 0, var := if mom then plane 1 else [] }

/-- A saved team as its area holds it: header, windows, local memory, group records. -/
structure Image where
  id : Nat
  header : List Byte
  windows : SMap Window
  lmem : List Byte
  groups : List (List Byte)
deriving DecidableEq, Repr

/-- The group footprints of an image. -/
def Image.foots (i : Image) : List Nat := i.groups.map fun r => State.footprint (bytesAt r 0x182 2) (bytesAt r 0x185 1)

/-- Whether the team held the selection heap. -/
def Image.heap (i : Image) : Bool := bytesAt i.header 5 1 == 1

end Area

end Sys2Proof.Machine
end

