-- ==== Sys2Proof/Machine/Hypothesis.lean ====
section
/-! DEFINITION. The hypothesis tree, its instructions, resolves and orphans (R262 to R281). -/

namespace Sys2Proof.Machine

open Sys2Proof (SMap Opd Opds)

namespace Hyp

/-! ### The directory (R262 to R264) -/

/-- The identifier of a slot as it stands. -/
def idOf (s : State) (ctx n : Nat) : BitVec 16 := BitVec.ofNat 16 ((s.hslot ctx n).gen * 1024 + n)

def setSlot (s : State) (ctx n : Nat) (x : HSlot) : State :=
  let t := s.treeAt ctx
  s.setTreeAt ctx { t with slots := SMap.put t.slots n x }

/-- Slots in use, the root included. -/
def inUse (s : State) (ctx : Nat) : Nat := 1 + ((s.treeAt ctx).slots.filter fun e => e.2.used).length

/-- The depth of a live identifier. -/
def depth (s : State) (ctx : Nat) (h : BitVec 16) : Nat :=
  if h == 0#16 then 0 else (s.hslot ctx (State.hypSlot h)).depth

/-- The identifiers in use whose parent is `h`. -/
def children (s : State) (ctx : Nat) (h : BitVec 16) : List (BitVec 16) :=
  ((s.treeAt ctx).slots.filter fun e => e.2.used && !e.2.stale && e.2.parent == h).map fun e => idOf s ctx e.1

/-- A hypothesis and everything below it, within the depth that exists. -/
def subtree (s : State) (ctx : Nat) : Nat → BitVec 16 → List (BitVec 16)
  | 0, h => [h]
  | n + 1, h => h :: (children s ctx h).flatMap (subtree s ctx n)

/-- Free a slot: GEN rises, and it joins the back of the free queue (R263); a pinned slot waits (R275). -/
def freeSlot (s : State) (ctx n : Nat) : State :=
  let x := s.hslot ctx n
  if x.pins ≠ 0 then setSlot s ctx n { x with freeDue := true }
  else
    let t := s.treeAt ctx
    s.setTreeAt ctx { t with
      slots := SMap.put t.slots n { gen := (x.gen + 1) % 64 }
      free := t.free ++ [n] }

/-! ### HOPEN, HENTER, HLEAVE, HSTAT (R278, R279, R281) -/

/-- An identifier operand (R277). -/
def idOpd (s : State) (x : Opd) : BitVec 16 := BitVec.ofNat 16 (s.grp.rk x.val).toNat

def hopen (s : State) (o : Opds) : Res :=
  let ctx := s.ctx
  let p := idOpd s o.a
  if !s.live ctx p then .trap 0x60 p.toNat
  else
    let d := depth s ctx p
    let fail (why : Nat) : Res := .done (Ctl.setP (Ctl.setK s o.d (BitVec.ofNat 64 (why * 2 ^ 21))) o.c false)
    if 16 ≤ d then fail 2
    else match (s.treeAt ctx).free with
      | [] => fail 1
      | n :: rest =>
        if 1024 ≤ inUse s ctx then fail 1
        else
          let t := s.treeAt ctx
          let x : HSlot := { used := true, gen := (s.hslot ctx n).gen, parent := p, depth := d + 1 }
          let s := s.setTreeAt ctx { t with slots := SMap.put t.slots n x, free := rest }
          .done (Ctl.setP (Ctl.setK s o.d (BitVec.ofNat 64 ((d + 1) * 2 ^ 16 + (idOf s ctx n).toNat))) o.c true)

/-- Copies that serve hits under `h` in a core's L1, but for those whose stores are still on their way: a group that moves to `h` must
see what it has read and stored under another hypothesis (R208, R279). -/
def forgetView (s : State) (core ctx : Nat) (h : BitVec 16) : State :=
  let c := s.coreAt core
  s.setCoreAt core { c with l1 := c.l1.filter fun e => e.2.flying || e.2.ctx != ctx || e.1 % 65536 != h.toNat }

/-- The issuing group's HCUR becomes `h`. -/
def enter (s : State) (h : BitVec 16) : State :=
  (if s.grp.hcur == h then s else forgetView s (s.l1Of s.cur.grp) s.ctx h).setGrp { s.grp with hcur := h }

def henter (s : State) (o : Opds) : Res :=
  let h := idOpd s o.a
  if s.grp.counter .stores ≠ 0 then .hold false
  else if !s.live s.ctx h then .trap 0x60 h.toNat
  else .done (enter s h)

/-- The accepted resolves of a context whose broadcast has not reached a core, in directory order. -/
def pendingFor (s : State) (ctx core : Nat) : List Resolve :=
  (s.resolves.filter fun r => r.2.ctx == ctx && !r.2.reached.contains core).map fun r => r.2

/-- What a resolve does to the hypothesis of a group or of a walk, `a` its nearest live ancestor where it is orphaned,
when the broadcast reaches it (R271, R273, R189). -/
def meetHyp (s : State) (r : Resolve) (h : BitVec 16) (a : Option (BitVec 16)) : BitVec 16 × Option (BitVec 16) :=
  match a with
  | some a =>
    (h, some (if r.confirm && a == r.h then r.parent else if r.refuted.contains a then liveFrom s r.ctx 17 a else a))
  | none =>
    if r.confirm && h == r.h then (r.parent, none)
    else if r.refuted.contains h then (h, some (liveFrom s r.ctx 17 h))
    else (h, none)

def meet (s : State) (r : Resolve) (g : Group) : Group :=
  let x := meetHyp s r g.hcur g.orphan
  { g with hcur := x.1, orphan := x.2 }

/-- What the broadcast does to an operation that was issued before it reached the core (R271, R273). Under a refuted hypothesis what
has not begun is dropped, and what is still to be read comes from the nearest live ancestor; under a confirmed one, what waits
for a release moves along and waits for the resolve, since the release itself may wait for it (R233). -/
def meetOp (s : State) (rid : Nat) (r : Resolve) (g : Group) (o : Op) : Op :=
  if r.refuted.contains o.hyp then
    let a := liveFrom s r.ctx 17 o.hyp
    match o.kind with
    | .store =>
      { o with lanes := o.lanes.map fun x => if x.st == .waiting && x.l1At = 0 then { x with st := .performed } else x }
    | .atomic _ _ _ _ =>
      { o with hyp := a, lanes := o.lanes.map fun x => if x.st == .waiting then { x with readOnly := true } else x }
    | .copy _ | .walk _ | .bmv _ => { o with hyp := a, dropped := true }
    | _ => { o with hyp := a }
  else if r.confirm && o.hyp == r.h && ((o.rel.isSome && !o.released)
      || g.ops.any fun e => decide (e.id < o.id) && e.kind == .fence && e.rel.isSome && !e.released) then
    match o.kind with
    | .store | .atomic _ _ _ _ | .copy _ | .walk _ => { o with hyp := r.parent, after := some rid }
    | _ => o
  else o

/-- The broadcast reaches a group: its HCUR, its operations, and what it has pushed and not written yet. -/
def meetGroup (s : State) (rid : Nat) (r : Resolve) (g : Group) : Group :=
  { meet s r g with ops := g.ops.map (meetOp s rid r g) }

/-- The bytes of pushes that a refuted group has not performed are dropped (R273). -/
def dropPushes (s : State) (r : Resolve) (u : Nat) : State :=
  let g := s.grpAt u
  if !r.refuted.contains g.hcur then s
  else
    let t := s.teamAt g.team
    s.setTeamAt g.team { t with queues := t.queues.map fun q =>
      (q.1, { q.2 with slots := q.2.slots.map fun e => if e.grp == u && !e.filled then { e with data := [] } else e }) }

/-- The same for the walks of a cluster's walk unit. -/
def meetWalks (s : State) (r : Resolve) (cluster : Nat) : State :=
  let c := s.clusterAt cluster
  s.setClusterAt cluster { c with walks := c.walks.map fun e =>
    if e.2.ctx == r.ctx then
      let x := meetHyp s r e.2.hyp e.2.orphan
      (e.1, { e.2 with hyp := x.1, orphan := x.2 })
    else e }

/-- HLEAVE, as though every accepted resolve had reached the core. -/
def hleave (s : State) : Res :=
  if s.grp.counter .stores ≠ 0 then .hold false
  else
    let g := (pendingFor s s.ctx s.team.core).foldl (fun g r => meet s r g) s.grp
    let s := (enter s g.hcur).setGrp g
    if g.orphan.isSome || g.hcur == 0#16 then .done s
    else .done (enter s (s.hslot s.ctx (State.hypSlot g.hcur)).parent)

/-- Whether a resolve that makes the identifier stale has been accepted and has not completed. -/
def resolving (s : State) (ctx : Nat) (h : BitVec 16) : Bool :=
  s.resolves.any fun r => r.2.ctx == ctx && ((r.2.confirm && r.2.h == h) || r.2.refuted.contains h)

/-- Whether the arena is low (R269). -/
def arenaLow (s : State) (ctx : Nat) : Bool :=
  let t := s.treeAt ctx
  t.arenasz == 0 || decide (7 * t.arenasz < 8 * t.arena)

/-- HSTAT's word (R281). -/
def status (s : State) (ctx : Nat) (h : BitVec 16) : Nat :=
  let t := s.treeAt ctx
  let st := if s.live ctx h then 0 else if resolving s ctx h then 1 else 2
  let parent := if st = 2 then 0 else if h == 0#16 then 0xFFFF else (s.hslot ctx (State.hypSlot h)).parent.toNat
  inUse s ctx * 2 ^ 48 + (if arenaLow s ctx then 2 ^ 45 else 0)
    + (t.arena + 2 ^ 20 - 1) / 2 ^ 20 * 2 ^ 32 + st * 2 ^ 21
    + (if st = 0 then depth s ctx h * 2 ^ 16 else 0) + parent

/-! ### Resolves (R270, R271) -/

/-- The hypotheses that a resolve refutes. -/
inductive Variant where
  | cfm | cfx | ref
deriving DecidableEq, Repr

def refutedBy (s : State) (ctx : Nat) (v : Variant) (h p : BitVec 16) : List (BitVec 16) :=
  match v with
  | .cfm => []
  | .cfx => ((children s ctx p).filter (· != h)).flatMap (subtree s ctx 16)
  | .ref => subtree s ctx 16 h

/-- The directory's action on a slot that a resolve makes stale, moves up, or re-parents. -/
def actOn (ctx : Nat) (confirm : Bool) (h p : BitVec 16) (via : List (BitVec 16)) (below refuted : List (BitVec 16))
    (s : State) (n : Nat) (x : HSlot) : HSlot :=
  let id := idOf s ctx n
  let x := if refuted.contains id || (confirm && id == h) then { x with stale := true } else x
  let x := if confirm && x.used && x.parent == h && id != h then { x with parent := p, via := x.via ++ h :: via } else x
  let x := if confirm && below.contains id && id != h then { x with depth := x.depth - 1 } else x
  -- what saved groups would be running under (R275)
  if x.pins ≠ 0 && confirm && x.pinNow == h then { x with pinNow := p }
  else if x.pins ≠ 0 && refuted.contains x.pinNow then { x with pinNow := p, pinOrphan := true }
  else x

/-- Acceptance of a resolve: identifiers go stale, the tree changes, and the broadcast sets out. -/
def accept (s : State) (v : Variant) (h : BitVec 16) (grp op : Nat) : State :=
  let ctx := s.ctxOf grp
  let x := s.hslot ctx (State.hypSlot h)
  let confirm := v != .ref
  let refuted := refutedBy s ctx v h x.parent
  let below := subtree s ctx 16 h
  let t := s.treeAt ctx
  let s' := s.setTreeAt ctx { t with
    slots := t.slots.map fun e => (e.1, actOn ctx confirm h x.parent x.via below refuted s e.1 e.2) }
  let r : Resolve := { ctx := ctx, h := h, parent := x.parent, confirm := confirm, refuted := refuted, grp := grp,
                       op := op, reached := [], reported := [], slices := [], moved := [], time := 0 }
  { s' with resolves := SMap.put s'.resolves op r }

/-- A group that refutes a hypothesis containing its own HCUR is orphaned at once (R280). -/
def orphanSelf (s : State) (rid : Nat) : State :=
  match SMap.get? s.resolves rid with
  | some r => if r.refuted.contains s.grp.hcur then s.setGrp (meet s r s.grp) else s
  | none => s

/-- HRESOLVE: the resolve is numbered by its operation. -/
def hresolve (s : State) (v : Variant) (o : Opds) : Res :=
  let h := idOpd s o.a
  if !s.live s.ctx h then .trap 0x60 h.toNat
  else if h == 0#16 then .trap 0x64 h.toNat
  else if !s.roomFor .stores then .hold false
  else
    let id := s.nextId
    let s := s.startOp { cls := .stores, kind := .resolve id }
    .done (orphanSelf (accept s v h s.cur.grp id) id)

def setResolve (s : State) (rid : Nat) (r : Resolve) : State := { s with resolves := SMap.put s.resolves rid r }

/-- Whether an identifier's writes belong to what the resolve settles. -/
def settles (r : Resolve) (h : BitVec 16) : Bool := (r.confirm && h == r.h) || r.refuted.contains h

/-- The broadcast reaches a core, in directory order (R271). -/
def broadcast (s : State) (rid core : Nat) : Option State :=
  (SMap.get? s.resolves rid).bind fun r =>
    if core < 320 && !r.reached.contains core
        && (s.resolves.all fun e => !(decide (e.1 < rid) && e.2.ctx == r.ctx) || e.2.reached.contains core) then
      let here (u : Nat) : Bool := s.coreOf u == core && s.ctxOf u == r.ctx
      let us := (s.groups.map Prod.fst).filter here
      let gs := s.groups.map fun e => if here e.1 then (e.1, meetGroup s rid r e.2) else e
      let s := us.foldl (fun s u => dropPushes s r u) { s with groups := gs }
      let s := meetWalks s r (core / 4)
      let c := s.coreAt core
      let s := s.setCoreAt core { c with l1 := c.l1.filter fun e =>
        !(e.2.ctx == r.ctx && settles r (BitVec.ofNat 16 (e.1 % 65536)) && e.1 % 65536 != 0) }
      some (setResolve s rid { r with reached := core :: r.reached })
    else none

/-- Whether every write of a core that the resolve settles has arrived at its home slice; the writes of a cluster's walks count
at each of its cores. -/
def drained (s : State) (r : Resolve) (core : Nat) : Bool :=
  s.groups.all fun e => s.ctxOf e.1 != r.ctx || e.2.ops.all fun o =>
    o.dropped || !settles r o.hyp || (match o.kind with
      | .store | .atomic _ _ _ _ => s.coreOf e.1 != core || o.lanes.all fun a => a.st != .waiting
      | .copy _ => s.coreOf e.1 != core || o.done
      | .walk w => w.cluster != core / 4 || o.done || o.ended
      | _ => true)

def report (s : State) (rid core : Nat) : Option State :=
  (SMap.get? s.resolves rid).bind fun r =>
    if r.reached.contains core && !r.reported.contains core && drained s r core then
      some (setResolve s rid { r with reported := core :: r.reported })
    else none

/-- Cores that take part in a resolve: those of clusters in service. -/
def coresUp (s : State) : List Nat := (List.range 320).filter fun c => !s.lostClusters.contains (c / 4)

/-- The context and slot part, and the word, of a version's key. -/
def keyWord (k : Nat) : Nat := k % 2 ^ 46
def keySlot (k : Nat) : Nat := k / 2 ^ 46

/-- The versions of identifier `h` that a slice holds, with those of lines that have since moved to a slice that has performed the
resolve. -/
def versionsAt (s : State) (r : Resolve) (h : BitVec 16) (slice : Nat) : List (Nat × Version) :=
  s.versions.filter fun e =>
    keySlot e.1 == r.ctx * 1024 + State.hypSlot h && (slice :: r.slices).contains (s.homeOf (keyWord e.1 / 32))

/-- One version of `h` becomes its parent's, or the committed value, its unit's check bits with it (R271, R371). -/
def carry (r : Resolve) (t : Nat) (s : State) (e : Nat × Version) : State :=
  let w := keyWord e.1
  let k := State.verKey r.ctx r.parent w
  let s := { s with
    versions := SMap.erase s.versions e.1
    resolves := s.resolves.map fun (x : Nat × Resolve) => (x.1, { x.2 with moved := x.2.moved.filter (· != k) }) }
  if r.parent == 0#16 then
    let s := (s.endOwnership (w / 32)).writeMem (4 * w) (Bits.bytesOf 4 e.2.val.toNat) t
    if s.verBad e.2 then s.spoilUnit (w / 2) else s
  else { s with versions := SMap.put s.versions k { e.2 with stamp := t, bad := s.verBad e.2 } }

/-- Whether a resolve is the first of its context for which something holds, in directory order (R270). -/
def firstOf (s : State) (rid ctx : Nat) (doneFor : Resolve → Bool) : Bool :=
  s.resolves.all fun e => !(decide (e.1 < rid) && e.2.ctx == ctx) || doneFor e.2

/-- A slice performs the resolve on its lines, after those accepted before it; a unit that a confirm writes whole has fresh check bits (R371). -/
def perform (s : State) (rid slice : Nat) : Option State :=
  (SMap.get? s.resolves rid).bind fun r =>
    if slice < 384 && !r.slices.contains slice && firstOf s rid r.ctx (fun x => x.slices.contains slice)
        && (coresUp s).all fun c => r.reported.contains c then
      let mine := if r.confirm then versionsAt s r r.h slice else []
      let gone := r.refuted.flatMap fun x => versionsAt s r x slice
      let ts := (mine ++ gone).foldl (fun t e => Nat.max t (s.frontierOf (keyWord e.1 / 32))) s.gtime
      let s := gone.foldl (fun s e => { s with versions := SMap.erase s.versions e.1 }) s
      let s := mine.foldl (carry r ts) s
      let whole (w : Nat) : Bool := r.parent == 0#16 && mine.any fun e => keyWord e.1 == w && !s.verBad e.2
      let s := { s with badUnits := s.badUnits.filter fun u => !(whole (2 * u) && whole (2 * u + 1)) }
      some (setResolve s rid { r with
        slices := slice :: r.slices
        moved := (mine.map fun e => State.verKey r.ctx r.parent (keyWord e.1)) ++ r.moved
        time := Nat.max r.time ts })
    else none

/-- What the confirm carried takes the completion time as its stamp. -/
def stampMoved (r : Resolve) (s : State) (k : Nat) : State :=
  if r.parent == 0#16 then
    { s with stamps := SMap.set 0 s.stamps (keyWord k) (Nat.max r.time (s.stampOf (keyWord k))) }
  else match SMap.get? s.versions k with
    | some v => { s with versions := SMap.put s.versions k { v with stamp := Nat.max r.time v.stamp } }
    | none => s

/-- Accesses still under a hypothesis that is to be freed run where it leads: to the parent of a confirmed one (R272), to the
nearest live ancestor of a refuted one; no L1 keeps a copy under its tag. -/
def leave (s : State) (r : Resolve) : State :=
  let to' (h : BitVec 16) : BitVec 16 :=
    if r.confirm && h == r.h then r.parent else if r.refuted.contains h then liveFrom s r.ctx 17 h else h
  { s with
    groups := s.groups.map fun e =>
      if s.ctxOf e.1 == r.ctx then (e.1, { e.2 with ops := e.2.ops.map fun (o : Op) => { o with hyp := to' o.hyp } }) else e
    cores := s.cores.map fun e => (e.1, { e.2 with l1 := e.2.l1.filter fun x =>
      !(x.2.ctx == r.ctx && x.1 % 65536 != 0 && settles r (BitVec.ofNat 16 (x.1 % 65536))) }) }

/-- The resolve completes at T, after those accepted before it: slots are freed in ascending order, T enters HORIZON and the
stores counter falls. -/
def complete (s : State) (rid : Nat) : Option State :=
  (SMap.get? s.resolves rid).bind fun r =>
    if ((List.range 384).all fun x => r.slices.contains x) && decide (r.time ≤ s.gtime) && firstOf s rid r.ctx (fun _ => false) then
      let s := r.moved.foldl (stampMoved r) { leave s r with resolves := SMap.erase s.resolves rid }
      let s := s.grantStamp (stampId r.op 0) r.time
      let t := s.treeAt r.ctx
      let s := s.setTreeAt r.ctx { t with
        slots := t.slots.map fun e => (e.1, { e.2 with via := e.2.via.filter (· != r.h) }) }
      let gone := ((List.range 1024).filter fun n =>
        (r.refuted ++ (if r.confirm then [r.h] else [])).any fun x => State.hypSlot x == n)
      let s := gone.foldl (fun s n => freeSlot s r.ctx n) s
      some (s.modGrp r.grp fun g =>
        ((g.raise r.time).setOp r.op fun o => { o with done := true, time := r.time }).retire)
    else none

/-- Bytes of arena that spilled versions take: 128 for each line of each hypothesis. -/
def spilledBytes (s : State) (ctx : Nat) : Nat :=
  128 * (((s.versions.filter fun e => e.2.spilled && keySlot e.1 / 1024 == ctx).map fun e => e.1 / 32).eraseDups).length

/-- Frogging has reclaimed the space of versions that are gone (R269). -/
def reclaim (s : State) (ctx : Nat) : State :=
  let t := s.treeAt ctx
  s.setTreeAt ctx { t with arena := Nat.min t.arena (spilledBytes s ctx) }

/-- A slice spills the versions of a line to the arena, where they fit; in what form they lie there is the slice's own (R268). -/
def spill (s : State) (key : Nat) : State :=
  let ctx := keySlot key / 1024
  let t := s.treeAt ctx
  match SMap.get? s.versions key with
  | none => s
  | some v =>
    if v.spilled || decide (t.arenasz < t.arena + 128) then s
    else
      let vs := s.versions.map fun e => if e.1 / 32 == key / 32 then (e.1, { e.2 with spilled := true, at' := t.arenabase + t.arena + 4 * (e.1 % 32) }) else e
      let bytes := (List.range 128).map (Config.freeByte s.choice)
      ({ s with versions := vs, choice := s.choice + 1 }.writeMem (t.arenabase + t.arena) bytes s.gtime).setTreeAt ctx
        { t with arena := t.arena + 128 }

/-- A slice with more lines of versions in a set than its ways spills one, chosen freely, where the arena has room; else the slice
holds it in its other ways (R268). -/
def fit (s : State) : Nat → State
  | 0 => s
  | n + 1 =>
    let l := Coh.versionLines s
    if l.length ≤ Config.versionWays then s
    else
      let crowded := l.filter fun k =>
        decide (Config.versionWays < (l.filter fun x => Coh.l2SetOf s (x % 2 ^ 41) == Coh.l2SetOf s (k % 2 ^ 41)).length)
          && (let t := s.treeAt (k / 2 ^ 41 / 1024); decide (t.arena + 128 ≤ t.arenasz))
      if crowded.isEmpty then s
      else
        let k := crowded.getD (Config.freeNat s.choice 0 % crowded.length) 0
        match s.versions.find? fun e => e.1 / 32 == k && !e.2.spilled with
        | some e => fit (spill s e.1) n
        | none => s

/-! ### Orphans (R274) -/

/-- The lanes of a quad that have not exited: active, deferred, or arrived in an open region. -/
def livingLanes (g : Group) (q : Nat) : BitVec 4 :=
  let x := g.quad q
  if x.st == .absent || x.st == .exited then 0#4
  else (List.range 8).foldl (fun acc n =>
    let j := g.rj n
    let l := j.entries.foldl (fun m e => m ||| e.lanes) (if j.active then j.arrive else 0#32)
    acc ||| Bits.quadLanes l q) x.lanes

/-- The PC at which the lowest-numbered fragment rests. -/
def restPc (g : Group) : W64 :=
  match g.fragsInUse with
  | [] => 0#64
  | f :: _ => match g.fragMembers f with
    | q :: _ => (g.quad q).pc
    | [] => 0#64

/-- Every living lane goes to ORPHANPC as one fragment, or exits when it is 0. -/
def gather (g : Group) (pc : W64) : Group :=
  let r := (g.fragsInUse.map g.frag).foldl Group.mergeRec { g.frag ((g.fragsInUse.head?).getD 0) with stopped := false }
  let g' := (List.range 8).foldl (fun x q =>
    let l := livingLanes g q
    if l == 0#4 then x
    else if pc == 0#64 then x.setQuad q { g.quad q with lanes := 0#4, st := .exited, waitno := 0 }
    else x.setQuad q { pc := pc, frag := 0, lanes := l, st := .ready, waitno := 0 }) g
  { g' with j := [], frags := [(0, { r with checkedFetch := true, stopped := false, notBefore := 0, skip := false })],
            exited := !g'.anyLane }

/-- The redirection of an orphaned group. -/
def redirect (s : State) (u : Nat) (pc : W64) : State :=
  let s := s.giveBack u
  let g := s.grpAt u
  match g.orphan with
  | none => s
  | some a =>
    let dest := (s.launchOf u).record.orphanpc
    let g := { gather g dest with
      hcur := a, orphan := none, cause := 0x63#32, tval := BitVec.ofNat 64 g.hcur.toNat, tpc := pc
      hmode := false, hmask := 0#32 }
    let s := forgetView (s.setGrpAt u g) (s.l1Of u) (s.ctxOf u) a
    if g.exited then s.judgeBarriers u else s

end Hyp

open Hyp

def execHopen (o : Opds) (s : State) : Host.Outcome State Fault Refusal := issue (.hopen o) s fun s => hopen s o

def execHenter (o : Opds) (s : State) : Host.Outcome State Fault Refusal := issue (.henter o) s fun s => henter s o

def execHleave (o : Opds) (s : State) : Host.Outcome State Fault Refusal := issue (.hleave o) s fun s => hleave s

def execHresolveCfm (o : Opds) (s : State) : Host.Outcome State Fault Refusal :=
  issue (.hresolveCfm o) s fun s => hresolve s .cfm o

def execHresolveCfx (o : Opds) (s : State) : Host.Outcome State Fault Refusal :=
  issue (.hresolveCfx o) s fun s => hresolve s .cfx o

def execHresolveRef (o : Opds) (s : State) : Host.Outcome State Fault Refusal :=
  issue (.hresolveRef o) s fun s => hresolve s .ref o

def execHstat (o : Opds) (s : State) : Host.Outcome State Fault Refusal :=
  issue (.hstat o) s fun s => .done (Ctl.setK s o.d (BitVec.ofNat 64 (status s s.ctx (idOpd s o.a))))

def execResolveBroadcastArrival (rid core : Nat) (s : State) : Host.Outcome State Fault Refusal :=
  happen s (broadcast s rid core)

def execResolveCoreDrainReport (rid core : Nat) (s : State) : Host.Outcome State Fault Refusal :=
  happen s (report s rid core)

def execResolveSlicePerform (rid slice : Nat) (s : State) : Host.Outcome State Fault Refusal :=
  happen s (perform s rid slice)

def execResolveComplete (rid : Nat) (s : State) : Host.Outcome State Fault Refusal := happen s (complete s rid)

def execArenaReclaim (ctx : Nat) (s : State) : Host.Outcome State Fault Refusal := happen s (some (reclaim s ctx))

def execOrphanRedirect (grp : Nat) (s : State) : Host.Outcome State Fault Refusal :=
  happen s (if (s.grpAt grp).orphan.isSome then
    some (redirect s grp (if s.cur.on && s.cur.grp == grp then s.cur.pc else restPc (s.grpAt grp)))
  else none)

end Sys2Proof.Machine
end

