-- ==== Sys2Proof/Machine/Copy.lean ====
section
/-! DEFINITION. CP, QPUSH, QPOP, QALLOW and the steps of the copy engine and the local queues (R249 to R255). -/

namespace Sys2Proof.Machine

open Sys2Proof (SMap Opd Opds)
open Operands

namespace Cpy

/-! ### Local queues (R252) -/

/-- A team's queue, when it is configured. -/
def queue? (s : State) (team q : Nat) : Option Queue := SMap.get? (s.teamAt team).queues q

def setQueue (s : State) (team q : Nat) (x : Queue) : State :=
  let t := s.teamAt team
  s.setTeamAt team { t with queues := SMap.put t.queues q x }

/-- A group's allowance; 255 is unlimited. -/
def allowance (x : Queue) (gid : Nat) : Nat := SMap.get 0 x.allow gid

/-- Whether a group may take the tail slot (R254). -/
def mayPush (x : Queue) (gid : Nat) : Bool := decide (0 < x.free) && allowance x gid != 0

/-- Take the tail slot for an operation. -/
def reserve (x : Queue) (gid grp op : Nat) (engine : Bool) (data : List Byte := []) : Queue :=
  let a := allowance x gid
  { x with
    free := x.free - 1
    tail := (x.tail + 1) % x.nslot
    allow := if a = 255 then x.allow else SMap.set 0 x.allow gid (a - 1)
    slots := x.slots ++ [{ slot := x.tail, filled := false, grp := grp, op := op, engine := engine, data := data }] }

/-- The local offset of a slot. -/
def slotOff (x : Queue) (n : Nat) : Nat := x.base + n * x.slotsz

/-- Mark the slot that an operation reserved as filled. DESIGN CHOICE (log 79): where QALLOW has configured the queue anew since, there
is none, and nothing happens. -/
def fillSlot (s : State) (team q op : Nat) : State :=
  match queue? s team q with
  | none => s
  | some x =>
    setQueue s team q { x with slots := x.slots.map fun e => if e.op == op then { e with filled := true, data := [] } else e }

/-- QALLOW's configuration word (R253): none when it is misuse. DESIGN CHOICE (log 79): slots reserved and not yet filled are forgotten
with the old configuration. -/
def configure (a : W64) (localsz : Nat) : Option Queue :=
  let n := Bits.field a 39 32 + 1
  let sz := (Bits.field a 28 24 + 1) * 128
  let base := Bits.field a 18 0
  if Bits.fieldZero a 63 40 && Bits.fieldZero a 31 29 && Bits.fieldZero a 23 19 && base % 128 == 0
      && decide (base + n * sz ≤ localsz) then
    some { base := base, nslot := n, slotsz := sz, free := n, head := 0, tail := 0, slots := [], allow := [] }
  else none

/-- An allowance after a grant. DESIGN CHOICE (log 79): one that is unlimited already stays unlimited. -/
def granted (b : W64) (old : Nat) : Nat :=
  let amt := Bits.field b 39 32
  if Bits.field b 40 40 = 1 || amt = 255 then amt
  else if old = 255 then 255 else Nat.min 254 (old + amt)

/-- Grant to the groups that the mask names. -/
def grant (b : W64) (x : Queue) : Queue :=
  { x with allow := (List.range 32).foldl (fun m i =>
      if b.getLsbD i then SMap.set 0 m i (granted b (SMap.get 0 m i)) else m) x.allow }

def qallow (s : State) (o : Opds) : Res :=
  let q := Forms.code o.d
  let team := s.grp.team
  let conf := if o.a.cls == 2 then configure (s.grp.rk o.a.val) s.team.localsz else queue? s team q
  let b := if o.b.cls == 2 then s.grp.rk o.b.val else 0#64
  match conf with
  | none => .trap 0x4A q
  | some x => if Bits.fieldZero b 63 41 then .done (setQueue s team q (grant b x)) else .trap 0x4A q

/-- The bytes that QPUSH writes: register by register, lane by lane, zero outside the lanes that write. -/
def pushBytes (s : State) (o : Opds) (n : Nat) : List Byte :=
  let on := s.exec o.guard &&& ~~~ s.grp.helpers
  (List.range n).flatMap fun j => Bits.lanes.flatMap fun i =>
    Bits.bytesOf 4 (if Bits.has on i then (s.grp.rv (o.a.val + j) i).toNat else 0)

/-- Whether the bytes of a push must wait: for an acquire or a fence before it (R215), or for an earlier store of the group to
them (R208). -/
def pushWaits (s : State) (u op team off n : Nat) : Bool :=
  s.blocked u { id := op, cls := .stores, kind := .store }
    || s.onWay u op (State.engineAccess (State.localVa off) (.loc team off) n)

/-- `qpush`: the slot is reserved at issue, and its bytes are written then or when nothing comes before them any longer. -/
def qpush (s : State) (o : Opds) : Res :=
  let q := Forms.code o.d
  let n := Forms.code o.b
  let team := s.grp.team
  match queue? s team q with
  | none => .trap 0x4A q
  | some x =>
    if x.slotsz < 128 * n then .trap 0x4A q
    else if !mayPush x s.grp.gid then .hold false
    else
      let off := slotOff x x.tail
      let bs := pushBytes s o n
      if pushWaits s s.cur.grp s.nextId team off (128 * n) then
        .done (setQueue s team q (reserve x s.grp.gid s.cur.grp s.nextId false bs)).fresh
      else
        .done ((setQueue s team q (reserve x s.grp.gid s.cur.grp s.nextId false)).writeLoc team off bs).fresh

/-- What a QPOP delivers to lane `i` of its `j`-th register: one access for each word, so that one that is uncorrectable spares
the others (R240, R255). -/
def popWord (s : State) (team off j i : Nat) : Access :=
  let a := off + 128 * j + 4 * i
  { lane := i + 32 * j, va := State.localVa a, loc := .loc team a, size := 4, value := s.readLoc team a 4, st := .performed
    stamps := [.known (s.locStamp team a 4)], fault := if s.locBad team a 4 then some 0x26 else none }

def qpop (s : State) (o : Opds) : Res :=
  let q := Forms.code o.a
  let n := Forms.code o.b
  let team := s.grp.team
  match queue? s team q with
  | none => .trap 0x4A q
  | some x =>
    if x.slotsz < 128 * n then .trap 0x4A q
    else if !s.roomFor .loads then .hold false
    else match x.slots with
      | e :: rest =>
        let off := slotOff x e.slot
        if !e.filled || s.blockedNow s.cur.grp
            || s.onWay s.cur.grp s.nextId (State.engineAccess (State.localVa off) (.loc team off) (128 * n)) then .hold false
        else
          let lanes := (List.range n).flatMap fun j => (Bits.members (s.exec o.guard)).map (popWord s team off j)
          let s := setQueue s team q { x with free := x.free + 1, head := (x.head + 1) % x.nslot, slots := rest }
          let s := s.startOp { cls := .loads, kind := .load ⟨1, o.d.val, 16 + n⟩, lanes := lanes, done := lanes.isEmpty }
          .done (s.setGrp s.grp.retire)
      | [] => .hold false

/-- The oldest push into a slot is filled once its bytes and the group's earlier local stores have been performed (R254). -/
def slotFill (s : State) (team q slot : Nat) : Option State :=
  (queue? s team q).bind fun x =>
    (x.slots.find? fun e => e.slot == slot && !e.filled && !e.engine).bind fun e =>
      if s.releaseReady e.grp .team e.op && (e.data.isEmpty || !s.blocked e.grp { id := e.op, cls := .stores, kind := .store }) then
        some (fillSlot (s.writeLoc team (slotOff x e.slot) e.data) team q e.op)
      else none

/-! ### Copies (R249 to R251) -/

/-- What a CP reads and where it leads. -/
structure Source where
  /-- source runs: virtual address and length -/
  runs : List (Nat × Nat)
  len : Nat
  /-- field B, where the form has it -/
  kb : W64 := 0#64
  /-- the operand that gives the length: field B, or the tile handle -/
  lenOpd : W64 := kb
  /-- the list that CP.gather reads: address and length -/
  list : List (Nat × Nat) := []
  /-- stamps of what was read at issue (R221) -/
  stamps : List Taken := []
  /-- the first row whose list entry is uncorrectable -/
  badRow : Option Nat := none

/-- What a CP reads, before its checks: it is to wait, it traps, or its source. -/
inductive Plan where
  | hold (send : Option Nat)
  | trap (cause tval : Nat)
  | runs (src : Source)

/-- CP.lin's source. -/
def planLin (s : State) (o : Opds) : Plan :=
  let b := s.grp.rk o.b.val
  let l := Bits.field b 23 0
  .runs { runs := [((s.grp.rk o.a.val).toNat, l)], len := l, kb := b }

/-- CP.tile's source: the handle's checks come first. -/
def planTile (s : State) (o : Opds) : Plan :=
  let h := s.grp.rt o.a.val
  match Tensor.check s h [2, 3, 4] false (Tensor.read s (Tensor.hTensor h)) with
  | .hold q => .hold q
  | .trap c v => .trap c v
  | .ok d st =>
    let ls := Tensor.lines d (Tensor.index d (Tensor.storedRow h) (Tensor.hTcol h))
    match ls.find? fun va => (Tensor.lineOk s (Tensor.hTensor h) va true).isNone with
    | some va => .trap 0x82 va
    | none => .runs { runs := ls.map fun va => (va, 128), len := 128 * ls.length, stamps := st, lenOpd := h }

/-- CP.gather's source: the list in local memory is read at issue, as far as it lies there. A row whose entry is uncorrectable
has no address. DESIGN CHOICE (log 79): a misaligned list offset or row length is TVAL itself, after the base address. -/
def planGather (s : State) (o : Opds) : Plan :=
  let b := s.grp.rk o.b.val
  let n := Bits.field b 15 0
  let rb := Bits.field b 27 16
  let off := Bits.field b 50 32
  let base := (s.grp.rk o.a.val).toNat
  let team := s.grp.team
  let rows := Nat.min n ((s.team.localsz - off) / 4)
  let bad (r : Nat) : Bool := s.locBad team (off + 4 * r) 4
  if base % 4 ≠ 0 then .trap 0x28 base
  else if off % 4 ≠ 0 then .trap 0x28 off
  else if rb % 4 ≠ 0 then .trap 0x28 rb
  else if s.blockedNow s.cur.grp
      || s.onWay s.cur.grp s.nextId (State.engineAccess (State.localVa off) (.loc team off) (4 * rows)) then .hold none
  else
    .runs { runs := (List.range rows).map fun r =>
              (if bad r then 0 else (base + s.readLoc team (off + 4 * r) 4) % 2 ^ 64, rb)
            len := n * rb
            kb := b
            list := [(State.localVa off, 4 * n)]
            stamps := [{ stamp := .known (s.locStamp team off (4 * rows)) }]
            badRow := (List.range rows).find? bad }

/-- Limits of R249 on field B of each form. -/
inductive Shape where
  | lin | tile | gather
deriving DecidableEq, Repr

def limitBad (sh : Shape) (b : W64) (len : Nat) : Bool :=
  decide (16777215 < len) || (match sh with
    | .lin => !Bits.fieldZero b 63 24
    | .tile => false
    | .gather => Bits.field b 15 0 == 0 || decide (4096 < Bits.field b 15 0) || decide (Bits.field b 27 16 < 4)
        || !Bits.fieldZero b 31 28 || !Bits.fieldZero b 63 51)

/-- The first byte of a region that fails R202 or R203. -/
def regionOut (s : State) (r : Nat × Nat) : Option Nat :=
  if r.2 = 0 then none
  else [r.1, (r.1 + r.2 - 1) % 2 ^ 64].find? fun a => s.outside s.cur.grp a

/-- R267: an address of the destination whose page may not take a version. -/
def hypFail (s : State) (priv : Bool) (dst len : Nat) : Option Nat :=
  if s.grp.hcur == 0#16 then none
  else ((List.range (len / 65536 + 2)).map fun i => if i = 0 then dst else (dst + 65536 * i) / 65536 * 65536).find? fun a =>
    decide (a < dst + len) && (match s.find s.cur.grp priv .store a with
      | .at' (.hbm _) l => !(l.map Leaf.hyp).getD false
      | .at' (.peer _ _ _) _ | .at' (.host _) _ => true
      | _ => false)

/-- The traps of R251, R267 and R269 once the source is known. DESIGN CHOICE (log 79): of several values that are not multiples of 4,
TVAL holds the first source address, then kD, then the length, each the number itself. -/
def copyTrap (s : State) (o : Opds) (sh : Shape) (c : Source) : Option (Nat × Nat) :=
  let src := c.runs
  let len := c.len
  let b := c.kb
  let kind := Forms.cpKind o
  let q := queue? s s.grp.team (Forms.cpNum o)
  let kd := (s.grp.rk o.d.val).toNat
  let dst := match kind, q with
    | 2, some x => State.localVa (slotOff x x.tail)
    | _, _ => kd
  let aligned := (src.map Prod.fst) ++ (if kind = 2 then [] else [kd]) ++ [len]
  match aligned.find? fun a => a % 4 != 0 with
  | some a => some (0x28, a)
  | none =>
    match (c.list ++ src ++ (if kind = 2 then [] else [(kd, len)])).findSome? (regionOut s) with
    | some a => some (0x20, a)
    | none =>
      if kind = 2 && q.isNone then some (0x4A, Forms.cpNum o)
      else if limitBad sh b len then some (0x29, b.toNat)
      else if kind == 2 && decide ((q.map Queue.slotsz).getD 0 < len) then some (0x29, c.lenOpd.toNat)
      else match hypFail s (MemI.priv s) dst len with
        | some a => some (0x61, a)
        | none => if s.grp.hcur != 0#16 && MemI.arenaLow s then some (0x62, dst) else none

/-- What a copy does at its completion: pending bytes of a barrier, or a queue slot (R250, R322). -/
def action (s : State) (u op : Nat) (j : CopyJob) : State :=
  if j.kind = 1 then
    let x := s.barrierAt u j.num
    (s.setBarrierAt u j.num { x with pend := (x.pend + 2 ^ 24 - j.len % 2 ^ 24) % 2 ^ 24 }).completeBarrier u j.num
  else if j.kind = 2 then fillSlot s (s.grpAt u).team j.num op
  else s

/-- The place of the copy that a peer's or the host's answer concerns. -/
def placeOf (j : CopyJob) (a : Access) : Nat := (a.va + 2 ^ 64 - j.dst % 2 ^ 64) % 2 ^ 64

/-- The lowest place at which a copy has failed, with cause and TVAL: a line it met, or one that a peer answered for. -/
def stopAt (o : Op) (j : CopyJob) : Option (Nat × Nat × Nat) :=
  (o.lanes.filterMap fun a => a.fault.map fun c => (placeOf j a, c, a.va)).foldl (fun acc f =>
    match acc with
    | none => some f
    | some e => if f.1 < e.1 then some f else some e) j.stop

/-- How far a copy goes: to its failing place, or to its end. -/
def limitOf (o : Op) (j : CopyJob) : Nat := ((stopAt o j).map Prod.fst).getD j.len

/-- How many bytes of some parts lie below a place. -/
def below (m : Nat) (l : List (Nat × Nat)) : Nat := l.foldl (fun n x => if x.1 < m then n + Nat.min x.2 (m - x.1) else n) 0

/-- Whether a part of a copy meets one of some parts. -/
def meets (l : List (Nat × Nat)) (off n : Nat) : Bool := l.any fun x => decide (x.1 < off + n) && decide (off < x.1 + x.2)

/-- A copy completes: the stamps of its writes enter HORIZON (R221), its action is taken, the counter falls in issue order. -/
def finish (s : State) (u : Nat) (o : Op) (j : CopyJob) : State :=
  (action s u o.id j).modGrp u fun g =>
    ((g.raise (o.lanes.foldl (fun t a => Nat.max t (State.lastStamp a)) j.stamp)).setOp o.id fun o =>
      { o with done := true, fault := o.fault.or ((stopAt o j).map Prod.snd) }).retire

/-- Whether every earlier copy of the group has completed. -/
def firstCopy (s : State) (u id : Nat) : Bool :=
  (s.grpAt u).ops.all fun e => !(e.cls == .copies && decide (e.id < id)) || e.done

/-- A CP whose checks have passed issues; one of length 0 completes at once. -/
def start (s : State) (o : Opds) (c : Source) : Res :=
  let kind := Forms.cpKind o
  let num := Forms.cpNum o
  let team := s.grp.team
  let id := s.nextId
  let u := s.cur.grp
  let go (s : State) (dst slot : Nat) : Res :=
    let j : CopyJob :=
      { src := c.runs, dst := dst, len := c.len, kind := kind, num := num, slot := slot, priv := MemI.priv s,
        stop := c.badRow.map fun r =>
          (r * Bits.field c.kb 27 16, 0x26, State.localVa (Bits.field c.kb 50 32 + 4 * r)) }
    let s := (s.noteStamps u c.stamps).startOp { cls := .copies, kind := .copy j }
    .done (match (s.grpAt u).op? id with
      | some op => if c.len = 0 && firstCopy s u id then finish s u op j else s
      | none => s)
  if !s.roomFor .copies then .hold false
  else if kind = 2 then
    match queue? s team num with
    | none => .trap 0x4A num
    | some x =>
      if !mayPush x s.grp.gid then .hold false
      else go (setQueue s team num (reserve x s.grp.gid u id true)) (State.localVa (slotOff x x.tail)) x.tail
  else go s (s.grp.rk o.d.val).toNat 0

def copy (s : State) (o : Opds) (sh : Shape) : Plan → Res
  | .hold q => .holdFor q
  | .trap c v => .trap c v
  | .runs c =>
    match copyTrap s o sh c with
    | some t => .trap t.1 t.2
    | none => start s o c

/-- The run that holds byte `m` of a copy: its address and length, and the place at which it starts. -/
def srcAt : List (Nat × Nat) → Nat → Nat → Option (Nat × Nat × Nat)
  | [], _, _ => none
  | (a, n) :: r, at', m => if m < at' + n then some (a, n, at') else srcAt r (at' + n) m

/-- Change a copy's progress. -/
def setJob (s : State) (u id : Nat) (f : CopyJob → CopyJob) : State :=
  s.modGrp u fun g => g.setOp id fun o =>
    match o.kind with
    | .copy j => { o with kind := .copy (f j) }
    | _ => o

/-- A copy fails at a place, which counts if it is the lowest. -/
def fail (s : State) (u id off cause tval : Nat) : State :=
  setJob s u id fun j => { j with stop := match j.stop with
    | some x => if off < x.1 then some (off, cause, tval) else some x
    | none => some (off, cause, tval) }

/-- Where the part of a run that begins at place `off` is read from: at the aligned 8-byte word that holds it, or where the run starts. -/
def partAddr (a at' off : Nat) : Nat := Nat.max a ((a + (off - at')) / 8 * 8)

/-- The engine reads `n` aligned 8-byte words of the source, from the one that holds place `off` on, within its run and its
line; the parts of a copy may be read in any order (R221, R251). The copy stops where the failing part begins, and names the
failing unit: R251 leaves open how much of the failing line before that unit is copied. -/
def readPart (s : State) (u id off n : Nat) : State :=
  match (s.grpAt u).op? id with
  | none => s
  | some o =>
    match o.kind with
    | .copy j =>
      match srcAt j.src 0 off with
      | none => s
      | some (a, len, at') =>
        let sa := partAddr a at' off
        let stop := Nat.min (a + len) (Nat.min (sa / 8 * 8 + 8 * Nat.max 1 n) (sa / 128 * 128 + 128))
        let place := at' + (sa - a)
        let k := stop - sa
        if o.done || k = 0 || limitOf o j ≤ place || meets j.read place k then s
        else match s.see u id j.priv o.hyp sa k with
          | .hold q => (s.asking u id q).getD s
          | .fault c => fail s u id place c sa
          | .bad =>
            let x := ((List.range 16).map fun i => Nat.max sa (sa / 8 * 8 + 8 * i)).find? fun x =>
              decide (x < stop) && s.see u id j.priv o.hyp x (Nat.min stop (x / 8 * 8 + 8) - x) == .bad
            fail s u id place 0x26 (x.getD sa)
          | .data bs st =>
            setJob (s.noteStamps u st).spend u id fun j =>
              { j with read := (place, k) :: j.read
                       buf := SMap.overlay j.buf ((List.range k).map fun i => (place + i, bs.getD i 0#8)) }
    | _ => s

/-- Whether nothing below a place can make the copy stop there any longer: it has been read, its pages take stores, and the
peers have answered (R251). -/
def clearBelow (s : State) (u : Nat) (o : Op) (j : CopyJob) (off : Nat) : Bool :=
  below off j.read == off
    && (o.lanes.all fun a => decide (off ≤ placeOf j a) || (a.st != .waiting && a.fault.isNone))
    && (List.range (off / 65536 + 2)).all fun i =>
      let a := if i = 0 then j.dst else (j.dst / 65536 + i) * 65536
      decide (j.dst + off ≤ a) || (match s.find u j.priv .store a with
        | .at' _ _ => true
        | .fault _ => false)

/-- The engine writes up to `n` bytes from place `off` on, within one line; the parts may be written in any order (R221). -/
def writePart (s : State) (u id off n : Nat) : State :=
  match (s.grpAt u).op? id with
  | none => s
  | some o =>
    match o.kind with
    | .copy j =>
      let da := (j.dst + off) % 2 ^ 64
      let k := Nat.min (Nat.min (Nat.max 4 (n / 4 * 4)) (limitOf o j - off)) (128 - da % 128)
      let part := (List.range k).map fun i => SMap.get? j.buf (off + i)
      if o.done || off % 4 ≠ 0 || k = 0 || meets j.wrote off k || part.any Option.isNone || !clearBelow s u o j off then s
      else match s.put u o j.priv da (part.filterMap fun x => x) with
        | .wait => s
        | .fault c => fail s u id off c da
        | .ok s t =>
          setJob s u id fun j =>
            { j with wrote := (off, k) :: j.wrote, stamp := Nat.max j.stamp t
                     buf := j.buf.filter fun e => decide (e.1 < off) || decide (off + k ≤ e.1) }
    | _ => s

/-- A copy whose parts are all written, up to where it stops, and answered for, completes after every earlier one. -/
def complete (s : State) (u id : Nat) : Option State :=
  ((s.grpAt u).op? id).bind fun o =>
    match o.kind with
    | .copy j =>
      let m := limitOf o j
      if !o.done && below m j.wrote == m && (o.lanes.all fun a => a.st != .waiting) && firstCopy s u id then
        some (finish s u o j)
      else none
    | _ => none

end Cpy

open Cpy

def execCpLin (o : Opds) (s : State) : Host.Outcome State Fault Refusal :=
  issue (.cpLin o) s fun s => copy s o .lin (planLin s o)

def execCpTile (o : Opds) (s : State) : Host.Outcome State Fault Refusal :=
  issue (.cpTile o) s fun s => copy s o .tile (planTile s o)

def execCpGather (o : Opds) (s : State) : Host.Outcome State Fault Refusal :=
  issue (.cpGather o) s fun s => copy s o .gather (planGather s o)

def execCopyComplete (grp op : Nat) (s : State) : Host.Outcome State Fault Refusal := happen s (complete s grp op)

def execQpush (o : Opds) (s : State) : Host.Outcome State Fault Refusal := issue (.qpush o) s fun s => qpush s o

def execQueueSlotFill (team queue slot : Nat) (s : State) : Host.Outcome State Fault Refusal :=
  happen s (slotFill s team queue slot)

def execQpop (o : Opds) (s : State) : Host.Outcome State Fault Refusal := issue (.qpop o) s fun s => qpop s o

def execQallow (o : Opds) (s : State) : Host.Outcome State Fault Refusal := issue (.qallow o) s fun s => qallow s o

end Sys2Proof.Machine
end

