-- ==== Sys2Proof/Machine/Peers.lean ====
section
/-! DEFINITION. Peers and the fabric: accesses that arrive from other modules (R347, R349), accesses of this module that
go unanswered (R401), forwarded-access counts (R348), held events (R352), the Uluber ports (R400, R401) and the
synchronisation of gtime (R402). -/

namespace Sys2Proof.Machine

open Sys2Proof (SMap)

namespace Peer

/-- 16,777,216 cycles. -/
def limit : Nat := 16777216

/-! ### Inbound accesses (R347, R349) -/

abbrev Packet := Nat × W64 × AccKind × List Byte

/-- What the owner's own page table says of a packet. -/
inductive Judged where
  /-- it waits: its flow pauses -/
  | pause
  /-- a store waits while MLOCK is set (R227) -/
  | locked
  /-- its leaf refuses it, with this cause -/
  | refuse (cause : Nat)
  | ok (p : Nat)

def wantOf : AccKind → Want
  | .read => .load | .write => .store | .atomic _ => .atomic | .fetch => .fetch

/-- R349, R347: translation in the packet's context, then the leaf's permissions. -/
def judge (s : State) (k : Packet) : Judged :=
  match Paging.walkBare s k.1 k.2.1.toNat with
  | .fault c => if c = 0x26 then .refuse 0x26 else .pause
  | .leaf l _ =>
    if l.type ≠ 1 then .pause
    else match l.deny (k.1 == 0) (wantOf k.2.2.1) with
      | some c => .refuse c
      | none =>
        if l.mlock && (k.2.2.1 matches .write | .atomic _) then .locked
        else match l.target k.2.1.toNat with
          | .hbm p => .ok p
          | _ => .pause

/-- Bytes of memory that an atomic packet names: a compare and swap carries two operands. -/
def atomBytes (op : AtomOp) (n : Nat) : Nat := if op = .cas then n / 2 else n

/-- A packet performed at its home slice, and its answer: a value with its stamp and lease, or a stamp; uncorrectable data is
an error (R209, R210, R220, R228). -/
def perform (s : State) (k : Packet) (p : Nat) : State × Reply :=
  let s := Up.bringIn ((Paging.bringWalk s k.1 k.2.1.toNat).endOwnership (lineOf p)) (lineOf p)
  let n := k.2.2.2.length
  let expiry := s.gtime + s.rlease k.1
  match k.2.2.1 with
  | .read | .fetch =>
    if s.badAt p n then (s, { cause := some 0x26 })
    else (s.raiseFrontier (lineOf p) expiry, { value := s.readMem p n, stamp := s.stampOver p n, expiry := expiry })
  | .write =>
    let r := s.sliceWrite k.1 0#16 p k.2.2.2
    (r.1, { stamp := r.2, expiry := r.2 + s.rlease k.1 })
  | .atomic op =>
    let m := atomBytes op n
    if s.badAt p m then (s, { cause := some 0x26 })
    else
      let old := s.readMem p m
      match State.atomNew op (8 * m) old (Bits.ofBytes (k.2.2.2.take m)) (Bits.ofBytes (k.2.2.2.drop m)) with
      | none => (s, { value := old, stamp := s.stampOver p m })
      | some v =>
        let r := s.sliceWrite k.1 0#16 p (Bits.bytesOf m v)
        (r.1, { value := old, stamp := r.2 })

/-- Send an answer, on the channel of responses (R400). -/
def answer (s : State) (port : Nat) (x : Reply) : State := { s with peerAnswers := s.peerAnswers ++ [(port, 1, x)] }

def flowKey (port vc : Nat) : Nat := port * 8 + vc

/-- Whether an event about a paused flow would be taken: written, or held on chip. -/
def takesEvent (s : State) (e : Event) : Bool :=
  let held := SMap.get [] s.heldEvents 0
  decide (held.length < 16) || (s.writeEvent 0 e).isSome

/-- Post the event of kind 3 of a paused flow, if it can be taken (R349, R352). -/
def postPause (s : State) (key : Nat) : State :=
  match SMap.get? s.flows key with
  | some f =>
    (match f.posted || f.locked, f.held with
    | false, k :: _ =>
      let e : Event := { kind := 3, value := k.2.1.toNat }
      if takesEvent s { e with ctx := k.1, time := s.gtime } then
        { s.postTo 0 k.1 e with flows := SMap.put s.flows key { f with posted := true } }
      else s
    | _, _ => s)
  | none => s

/-- A flow pauses at a packet. -/
def pause (s : State) (key : Nat) (ks : List Packet) : State :=
  postPause { s with flows := SMap.put s.flows key { since := s.gtime, held := ks, posted := false } } key

/-- A flow waits at a store or an atomic to a page that carries the migration lock (R227). -/
def lock (s : State) (key : Nat) (ks : List Packet) : State :=
  { s with flows := SMap.put s.flows key { since := s.gtime, held := ks, posted := false, locked := true } }

/-- Take the packets of a flow in order, until one has to wait. -/
def run (s : State) (port vc : Nat) : List Packet → State
  | [] => { s with flows := SMap.erase s.flows (flowKey port vc) }
  | k :: r =>
    match judge s k with
    | .pause => pause s (flowKey port vc) (k :: r)
    | .locked => lock s (flowKey port vc) (k :: r)
    | .refuse c => run (answer s port { cause := some c }) port vc r
    | .ok p => let x := perform s k p; run (answer x.1 port x.2) port vc r

/-- A packet arrives on the channel of requests (R400): behind a paused flow it waits. It lies within one line. -/
def arrive (s : State) (port vc ctx : Nat) (va : W64) (kind : AccKind) (bytes : List Byte) : Option State :=
  let k : Packet := (ctx, va, kind, bytes)
  if !(decide (port < 18) && decide (vc = 0) && decide (ctx < 256)) || bytes.isEmpty
      || 128 < va.toNat % 128 + bytes.length || !(SMap.get {} s.ports port).up then none
  else match SMap.get? s.flows (flowKey port vc) with
    | some f => some { s with flows := SMap.put s.flows (flowKey port vc) { f with held := f.held ++ [k] } }
    | none => some (run s port vc [k])

/-- The addresses of the page that covers `va` in a context's table, as it stands. -/
def pageOf (s : State) (ctx va : Nat) : Nat × Nat :=
  match Paging.walkBare s ctx va with
  | .leaf l _ => (l.base, l.size)
  | .fault _ => (va / 65536 * 65536, 65536)

/-- A TLBINV that covers the address of the first packet of a flow has completed: the flow goes on. A paused one waits for a
TLBINV.page (R349), one held by a migration lock for any (R227). -/
def resume (s : State) (page : Bool) (covers : Nat → Nat → Bool) : State :=
  s.flows.foldl (fun s f =>
    match f.2.held with
    | k :: _ => if (page || f.2.locked) && covers k.1 k.2.1.toNat then run s (f.1 / 8) (f.1 % 8) f.2.held else s
    | [] => s) s

/-- A flow that has stayed paused is answered with errors (R349). -/
def timeout (s : State) (port vc : Nat) : Option State :=
  (SMap.get? s.flows (flowKey port vc)).bind fun f =>
    if vc < 8 && !f.locked && f.since + limit ≤ s.gtime then
      let s := f.held.foldl (fun s _ => answer s port { cause := some 0x27 }) s
      let s := { s with flows := SMap.erase s.flows (flowKey port vc) }
      some (match f.held with
        | k :: _ => s.postTo 0 k.1 { kind := 6, value := k.2.1.toNat }
        | [] => s)
    else none

/-! ### Accesses of this module (R401, R402) -/

/-- A lane's peer access fails: unanswered for long enough since it was sent, or the module is out of sync. -/
def failLane (s : State) (u id lane : Nat) : Option State :=
  (s.lane? u id lane).bind fun x =>
    match x.2.loc with
    | .peer _ _ _ =>
      if x.2.st == .waiting && (x.2.sent.any (fun t => decide (t + limit ≤ s.gtime)) || !s.inSync) then
        some (Coh.answered (s.setLane u id lane fun a => { a with st := .performed, fault := some 0x27, stamps := [] }) u id)
      else none
    | _ => none

/-- The first place of a copy that has not been read. -/
def unread (j : CopyJob) : Nat := (0 :: j.read.map fun x => x.1 + x.2).foldl (fun m x => if Cpy.below x j.read == x then Nat.max m x else m) 0

/-- A copy stops at a place of its source at a peer: the read it has sent there goes unanswered for long enough, or the module is out
of sync and nothing keeps the read from being made. -/
def failCopy (s : State) (u : Nat) (o : Op) (j : CopyJob) : Option State :=
  let off := unread j
  if o.done || Cpy.limitOf o j ≤ off then none
  else match Cpy.srcAt j.src 0 off with
    | none => none
    | some (a, _, at') =>
      let sa := Cpy.partAddr a at' off
      match s.find u j.priv .load sa with
      | .at' (.peer p c x) _ =>
        if ((SMap.get? o.asked sa).any fun t => decide (t + limit ≤ s.gtime)) || (!s.inSync && !s.engineWaits u o.id sa (.peer p c x) 8) then
          some (Cpy.fail s u o.id off 0x27 sa)
        else none
      | _ => none

/-- An access of an operation goes unanswered: one of its lanes, or the next read of a copy. -/
def fail (s : State) (u id lane : Nat) : Option State :=
  ((s.grpAt u).op? id).bind fun o =>
    match o.kind with
    | .copy j => if (s.lane? u id lane).isSome then failLane s u id lane else failCopy s u o j
    | _ => failLane s u id lane

/-! ### Held events (R352) -/

/-- Write held events while slots are free. -/
def writeHeld (s : State) (owner : Nat) : List Event → State
  | [] => { s with heldEvents := SMap.erase s.heldEvents owner }
  | e :: r =>
    match s.writeEvent owner e with
    | some s' => writeHeld s' owner r
    | none => { s with heldEvents := SMap.put s.heldEvents owner (e :: r) }

/-- Of the events that waited for a line, those beyond the 16 that the chip holds are lost. -/
def cutHeld (s : State) (owner : Nat) : State :=
  let held := SMap.get [] s.heldEvents owner
  if s.eventWaits owner || held.length ≤ 16 then s
  else
    let s := s.loseEvents owner (((held.drop 16).filter fun e => e.kind != 3).length)
    { s with heldEvents := SMap.put s.heldEvents owner (held.take 16) }

/-- A retry: what is held for an area, then paused packets whose event was refused. -/
def retry (s : State) (owner : Nat) : State :=
  let s := cutHeld (writeHeld s owner (SMap.get [] s.heldEvents owner)) owner
  if owner = 0 then s.flows.foldl (fun s f => postPause s f.1) s else s

/-! ### Ports (R400, R401) -/

def port (s : State) (n : Nat) : Port := SMap.get {} s.ports n
def setPort (s : State) (n : Nat) (p : Port) : State := { s with ports := SMap.put s.ports n p }

/-- A change of one of the 18 ports, where its condition holds. -/
def onPort (s : State) (n : Nat) (ok : Port → Bool) (f : Port → Port) : Option State :=
  if n < 18 && (port s n).up && ok (port s n) then some (setPort s n (f (port s n))) else none

/-- The module marks itself out of sync: its collectives end with status 1 (R402). -/
def outOfSync (s : State) : State :=
  { s with inSync := false
           tickets := s.tickets.map fun e => (e.1, if e.2.code.isNone && e.2.result.isNone then { e.2 with code := some 1 } else e.2) }

end Peer

def execPeerAccessArrival (port vc ctx : Nat) (va : W64) (kind : AccKind) (bytes : List Byte) (s : State) :
    Host.Outcome State Fault Refusal := happen s (Peer.arrive s port vc ctx va kind bytes)

def execPeerFlowTimeout (port vc : Nat) (s : State) : Host.Outcome State Fault Refusal := happen s (Peer.timeout s port vc)

def execPeerAccessTimeout (grp op lane : Nat) (s : State) : Host.Outcome State Fault Refusal :=
  happen s (Peer.fail s grp op lane)

def execAcountFlush (cluster entry : Nat) (s : State) : Host.Outcome State Fault Refusal :=
  happen s (some (s.addAcount cluster entry))

def execEventPostRetry (ctx : Nat) (s : State) : Host.Outcome State Fault Refusal :=
  happen s (if (s.descAt ctx).valid then some (Peer.retry s ctx) else none)

def execUluberFlitRetry (port : Nat) (s : State) : Host.Outcome State Fault Refusal :=
  happen s (Peer.onPort s port (fun _ => true) fun p => { p with retries := p.retries + 1 })

def execUluberLaneSpare (port lane : Nat) (s : State) : Host.Outcome State Fault Refusal :=
  happen s (if lane < 8 then Peer.onPort s port (fun p => !p.spared) fun p => { p with spared := true } else none)

def execUluberPortHalve (port : Nat) (s : State) : Host.Outcome State Fault Refusal :=
  happen s (Peer.onPort s port (fun p => p.spared && p.lanes == 8) fun p => { p with lanes := 4 })

def execUluberPortDown (port : Nat) (s : State) : Host.Outcome State Fault Refusal :=
  happen s (Peer.onPort s port (fun _ => true) fun p => { p with up := false })

def execGtimeOutOfSync (s : State) : Host.Outcome State Fault Refusal := happen s (some (Peer.outOfSync s))

def execGtimeBackInSync (s : State) : Host.Outcome State Fault Refusal := happen s (some { s with inSync := true })

end Sys2Proof.Machine
end

