-- ==== Sys2Proof/Machine/Context.lean ====
section
/-! DEFINITION. The system kernel's instructions on contexts: the completion of TLBINV with its descriptor reads (R276,
R339, R363), CTXSAVE and the saving of teams (R307, R308, R365, R366), CTXLOAD and the restore (R48, R275, R310, R367, R418). -/

namespace Sys2Proof.Machine

open Sys2Proof (SMap Opd Opds)

namespace Ctx

open Dsp (bytesAt zeroAt)

/-! ### Context descriptors (R338, R339) -/

/-- Physical bytes of HBM. -/
def hbmSize : Nat := Config.capMib * 2 ^ 20

/-- Whether a lease is in range: 0 stands for the default. -/
def leaseOk (x : Nat) : Bool := x == 0 || (decide (64 ≤ x) && decide (x ≤ 4096))

/-- Whether the 128 bytes of a descriptor have a reserved bit set or a field out of range. -/
def malformed (d : List Byte) : Bool :=
  decide (2 ≤ bytesAt d 0 4) || !leaseOk (bytesAt d 4 2) || !leaseOk (bytesAt d 6 2) || bytesAt d 8 8 % 4096 != 0
    || bytesAt d 0x10 8 % 64 != 0 || bytesAt d 0x1C 2 % 2 != 0 || bytesAt d 0x20 8 % 65536 != 0
    || decide (4096 < bytesAt d 0x28 4) || !zeroAt d 0x2C 4 || bytesAt d 0x30 8 % 4096 != 0
    || decide (hbmSize < bytesAt d 0x30 8 + 0x810) || !zeroAt d 0x40 64

/-- The fields of a descriptor. -/
def parse (d : List Byte) : Desc :=
  let lease (x dflt : Nat) : Nat := if x = 0 then dflt else x
  { valid := bytesAt d 0 4 == 1, rlease := lease (bytesAt d 4 2) 256, olease := lease (bytesAt d 6 2) 1024
    ptroot := bytesAt d 8 8, ttbase := bytesAt d 0x10 8, ttcount := bytesAt d 0x18 4
    qgrant := BitVec.ofNat 16 (bytesAt d 0x1C 2), migthr := bytesAt d 0x1E 2, arenabase := bytesAt d 0x20 8
    arenasz := bytesAt d 0x28 4, evbase := bytesAt d 0x30 8, trapvec := BitVec.ofNat 64 (bytesAt d 0x38 8) }

/-- Free every slot of a tree, GEN rising by 1 for those in use or pinned (R276). -/
def freshTree (t : HypTree) : HypTree :=
  { (default : HypTree) with slots := t.slots.map fun e => (e.1, { gen := if e.2.used || e.2.pins != 0 then (e.2.gen + 1) % 64 else e.2.gen }) }

/-- A context's hypothesis state is reset (R276); resolves under way have nothing left to do. -/
def resetHyp (s : State) (ctx : Nat) : State :=
  { s.setTreeAt ctx (freshTree (s.treeAt ctx)) with
    versions := s.versions.filter fun e => Hyp.keySlot e.1 / 1024 != ctx
    resolves := s.resolves.map fun e => if e.2.ctx == ctx then (e.1, { e.2 with confirm := false, refuted := [] }) else e
    cores := s.cores.map fun c => (c.1, { c.2 with l1 := c.2.l1.filter fun w => !(w.2.ctx == ctx && w.1 % 65536 != 0) }) }

/-- Whether a context has no slot in use but the root and no spilled version. -/
def arenaIdle (s : State) (ctx : Nat) : Bool :=
  (s.treeAt ctx).slots.all (fun e => !e.2.used && e.2.pins == 0)
    && s.versions.all fun e => !(e.2.spilled && Hyp.keySlot e.1 / 1024 == ctx)

/-- The arena values take effect where they may. -/
def takeArena (s : State) (ctx : Nat) (d : Desc) : State :=
  if arenaIdle s ctx then
    s.setTreeAt ctx { s.treeAt ctx with arenabase := d.arenabase, arenasz := d.arenasz * 2 ^ 20 }
  else s

/-- The module reads descriptor `n` (R339); one of descriptor 0 that is malformed ends what WRSYS gave TRAPVEC too, and the values last
read stand. What is held for the area of a context that is no longer valid goes to context 0's
(R352). -/
def readDesc (s : State) (n : Nat) : State :=
  let p := Config.ctxtBase + 128 * n
  let s := Up.bringIn (s.endOwnership (lineOf p)) (lineOf p)
  let old := s.descAt n
  let raw := s.readBytes p 128
  let bad := malformed raw || s.badAt p 128
  let d := parse raw
  if n = 0 then
    let s :=
      if bad then { s with trapvec0 := (s.descAt 0).trapvec }
      else takeArena { s with descs := SMap.put s.descs 0 { d with valid := true, everValid := true }, trapvec0 := d.trapvec } 0 d
    if bad then s.postTo 0 0 { kind := 5 } else s
  else
    let ok := d.valid && !bad
    let s := if old.valid && !ok then resetHyp s n else s
    let held := if ok then [] else SMap.get [] s.heldEvents n
    let s := if ok then s else { s with heldEvents := SMap.erase s.heldEvents n }
    let s := held.foldl (fun s e => s.sendEvent 0 e) s
    let s := { s with descs := SMap.put s.descs n { d with valid := ok, everValid := old.everValid || ok } }
    let s := takeArena s n d
    if bad then s.postTo 0 n { kind := 5 } else s

/-! ### TLBINV (R345, R346, R363) -/

/-- What a TLBINV names: every context or one, every address or one. -/
structure Scope where
  page : Option Nat
  ctx : Option Nat

def Scope.has (x : Scope) (ctx : Nat) : Bool := (x.ctx.map fun c => c == ctx).getD true

/-- Addresses of a context that a TLBINV covers in a cluster: the page of the leaf held there, or where the TLB holds none
the largest page there is. -/
def Scope.span (x : Scope) (c : Cluster) (ctx : Nat) : Nat × Nat :=
  match x.page with
  | none => (0, 2 ^ 57)
  | some va =>
    match c.tlb.find? fun e => e.ctx == ctx && decide (e.base ≤ va) && decide (va < e.base + e.size) with
    | some e => (e.base, e.base + e.size)
    | none => (va / 2 ^ 30 * 2 ^ 30, va / 2 ^ 30 * 2 ^ 30 + 2 ^ 30)

def Scope.covers (x : Scope) (c : Cluster) (ctx va : Nat) : Bool :=
  x.has ctx && decide ((x.span c ctx).1 ≤ va) && decide (va < (x.span c ctx).2)

/-- Whether a physical line lies under a leaf that is being removed; where no leaf is known, every line counts. -/
def Scope.under (x : Scope) (c : Cluster) (ctx line : Nat) : Bool :=
  x.has ctx && (match x.page with
    | none => true
    | some va =>
      match c.tlb.find? fun e => e.ctx == ctx && decide (e.base ≤ va) && decide (va < e.base + e.size) with
      | none => true
      | some e => match (Leaf.mk e.base e.size e.w0 e.w1 e.at').target e.base with
        | .hbm p => decide (lineOf p ≤ line) && decide (line < lineOf (p + e.size))
        | _ => false)

/-- Whether the TLBINV covers a page. -/
def Scope.meets (x : Scope) (base size : Nat) : Bool :=
  match x.page with
  | none => true
  | some va => decide (base ≤ va) && decide (va < base + size)

/-- Whether the TLBINV removes a leaf. -/
def Scope.drops (x : Scope) (e : TlbLeaf) : Bool := x.has e.ctx && x.meets e.base e.size

/-- The counts of the leaves that go are added first (R348); a core that owns an entry's line gives it up for that. -/
def flushCounts (x : Scope) (s : State) (cl : Nat) : State :=
  (List.range (s.clusterAt cl).tlb.length).foldl (fun s i =>
    match (s.clusterAt cl).tlb[i]? with
    | some e => if x.drops e && e.count != 0 then (s.endOwnership (lineOf e.at')).addAcount cl i else s
    | none => s) s

/-- The TLB entries that stay. -/
def keepTlb (x : Scope) (c : Cluster) : Cluster :=
  { c with
    tlb := c.tlb.filter fun e => !x.drops e
    nodes := c.nodes.filter fun n => !(x.has n.ctx && x.meets n.base (2 ^ Paging.shift (n.level + 1))) }

/-- Whether a word of an L1 goes with the leaves: by the context and address that filled it, or, a tile's, by any leaf that reaches its
line (R344, R363). -/
def Scope.takes (x : Scope) (c : Cluster) (w : Nat × L1Word) : Bool :=
  x.covers c w.2.ctx (w.2.va * 4)
    || c.tlb.any fun e => x.drops e && Coh.reached e w.2.ctx (w.2.va * 4) (w.1 / 65536 * 4) w.2.tile

/-- What a core of a cluster keeps. -/
def keepCore (x : Scope) (c : Cluster) (k : Core) : Core :=
  { k with
    l1 := k.l1.filter fun w => !x.takes c w
    fetch := k.fetch.filter fun l => !x.covers c l.ctx l.va
    tiles := k.tiles.filter fun t => t.ctxs.all fun n => !x.under c n (lineOf t.phys) }

/-- Owned lines of a cluster's cores that the TLBINV covers are handed back: by the context under whose tag the core holds them, and by
those of the groups that have accessed them (R219, R363). -/
def handOver (x : Scope) (s : State) (cl : Nat) : State :=
  let c := s.clusterAt cl
  (s.owners.filter fun e => e.2.core / 4 == cl
      && (x.under c e.2.ctx e.1 || e.2.groups.any fun u => x.under c (s.ctxOf u) e.1)).foldl (fun s e => s.endOwnership e.1) s

/-- Accesses of a cluster that were translated by a leaf that goes keep their translation and rest on no leaf any longer (R346); one
that is still to be sent to a peer counts for that leaf now (R348). -/
def detach (x : Scope) (s : State) (cl : Nat) : State :=
  let covered (u : Nat) (a : Access) : Bool := x.has (s.ctxOf u) && x.meets a.page.1 a.page.2
  let unsent (a : Access) : Bool := a.st == .waiting && a.sent.isNone && !a.locked && a.leaf.isSome && (a.loc matches .peer _ _ _)
  let here := s.groups.filter fun e => s.clusterOf e.1 == cl
  let s' := here.foldl (fun s e => (e.2.ops.flatMap fun o => o.lanes.filter fun a => unsent a && covered e.1 a).foldl
    (fun s a => (s.retake e.1 a).countForwarded cl (s.ctxOf e.1) a.va) s) s
  let lane (u : Nat) (a : Access) : Access := if covered u a then { a with leaf := none } else a
  { s' with groups := s'.groups.map fun e =>
      if s.clusterOf e.1 == cl then (e.1, { e.2 with ops := e.2.ops.map fun o => { o with lanes := o.lanes.map (lane e.1) } }) else e }

/-- One cluster and its cores finish. -/
def sweep (x : Scope) (s : State) (cl : Nat) : State :=
  let s := flushCounts x (handOver x (detach x s cl) cl) cl
  let c := s.clusterAt cl
  let s := { s with cores := s.cores.map fun e => if e.1 / 4 == cl then (e.1, keepCore x c e.2) else e }
  if (SMap.get? s.clusters cl).isSome then s.setClusterAt cl (keepTlb x c) else s

/-- A store held for MLOCK is translated again (R227, R346). -/
def release (s : State) (u : Nat) (a : Access) : Access :=
  if a.locked && a.st == .waiting then
    match Paging.walk s (s.clusterOf u) (s.ctxOf u) a.va with
    | .leaf l _ => { a with loc := l.target a.va, locked := l.mlock, page := (l.base, l.size), leaf := some l }
    | .fault _ => a
  else a

/-- The same for every held store whose page the TLBINV covers; the others keep the translation they hold (R346). -/
def releaseHeld (x : Scope) (s : State) : State :=
  let lane (u : Nat) (a : Access) : Access := if x.has (s.ctxOf u) && x.meets a.page.1 a.page.2 then release s u a else a
  let op (u : Nat) (o : Op) : Op := { o with lanes := o.lanes.map (lane u) }
  { s with groups := s.groups.map fun e => (e.1, { e.2 with ops := e.2.ops.map (op e.1) }) }

/-- Descriptors that are read again. -/
def reread (x : Scope) : List Nat :=
  match x.page, x.ctx with
  | some _, _ => []
  | none, some c => [c]
  | none, none => List.range 256

def invalidate (s : State) (x : Scope) : State :=
  let s := (List.range 80).foldl (sweep x) s
  let s := (reread x).foldl readDesc s
  let s := releaseHeld x s
  match x.page with
  | some va => Peer.resume s true fun c a =>
      let pg := Peer.pageOf s c va
      x.has c && decide (pg.1 ≤ a) && decide (a < pg.1 + pg.2)
  | none => Peer.resume s false fun c _ => x.has c

/-- Every recipient has finished; the time enters HORIZON and the counter falls. -/
def tlbinvComplete (s : State) (u id : Nat) : Option State :=
  ((s.grpAt u).op? id).bind fun o =>
    match o.kind with
    | .tlbinv page ctx =>
      if o.done then none
      else
        let s := invalidate s ⟨page, ctx⟩
        some (s.modGrp u fun g => ((g.raise s.gtime).setOp id fun o => { o with done := true }).retire)
    | _ => none

/-! ### CTXSAVE (R365, R366) -/

def teamsOf (s : State) (ctx : Nat) : List (Nat × Team) := s.teams.filter fun t => (s.launchAt t.2.launch).ctx == ctx
def launchesOf (s : State) (ctx : Nat) : List (Nat × Launch) := s.launches.filter fun l => l.2.ctx == ctx

/-- Bytes of a launch image with `n` saved teams. -/
def imageBytes (n : Nat) : Nat := Bits.alignUp (0x140 + 4 * n) 64

/-- The address of a team's save area (R44). -/
def areaOf (r : Record) (id : Nat) : Nat := r.savebase + id * r.stride

/-- Whether every page of a region can be written in a context's space, with the rights of the system kernel. -/
def writable (s : State) (ctx a n : Nat) : Bool :=
  (Bnk.pages a n).all fun va => match s.findAs ctx true .store va with
    | .at' _ _ => true
    | .fault _ => false

/-- Bytes of a context's manifest, every resident team counted as saved. -/
def manifestBytes (s : State) (ctx : Nat) : Nat :=
  (launchesOf s ctx).foldl (fun n l => n + imageBytes (l.2.saved.length + l.2.live)) 64

/-- CODE of a CTXSAVE. -/
def saveCode (s : State) (ctx man : Nat) : Nat :=
  if ctx = 0 || !(s.descAt ctx).valid then 0x94
  else if (teamsOf s ctx).isEmpty then 0x93
  else if writable s 0 man (manifestBytes s ctx) && (teamsOf s ctx).all fun t =>
      let r := (s.launchAt t.2.launch).record
      writable s ctx (areaOf r t.2.id) r.stride
  then 0 else 0x95

/-- A pre-emption request for every team of a context, and the hold on its launches. -/
def preempt (s : State) (ctx : Nat) : State :=
  let ts := (teamsOf s ctx).map Prod.fst
  let held := if s.heldCtx.contains ctx then s.heldCtx else ctx :: s.heldCtx
  let mark (t : Nat × Team) : Nat × Team := if ts.contains t.1 then (t.1, { t.2 with preempt := true }) else t
  { s with heldCtx := held, teams := s.teams.map mark }

def ctxsave (s : State) (o : Opds) : Res :=
  if !s.roomFor .loads then .hold false
  else
    let ctx := Sys.ctxOpd s o.a
    let man := (s.grp.rk o.b.val).toNat
    let code := saveCode s ctx man
    let s := s.startOp { cls := .loads, kind := .ctxsave o.d.val ctx man code 0 }
    .done (if code = 0 then (preempt s ctx).handBack s.cur.grp else s)

/-- Write bytes in a context's space for the module, and the latest stamp: nothing where a line leads nowhere. -/
def put (s : State) (ctx va : Nat) (bs : List Byte) : State × Nat :=
  (State.pieces (bs.length / 128 + 2) va bs.length).foldl (fun (x : State × Nat) p =>
    match x.1.findAs ctx true .store p.1 with
    | .at' (.hbm q) _ =>
      let y := (x.1.endOwnership (lineOf q)).sliceWrite 0 0#16 q ((bs.drop (p.1 - va)).take p.2)
      (y.1, Nat.max x.2 y.2)
    | _ => x) (s, 0)

/-- Mark the unit at an address of a context uncorrectable (R371). -/
def spoil (s : State) (ctx va : Nat) : State :=
  match s.findAs ctx true .store va with
  | .at' (.hbm p) _ => { s with badUnits := p / 8 :: s.badUnits.filter (· != p / 8) }
  | _ => s

/-! ### Saving a team (R275, R307, R308) -/

/-- Groups by GROUPID. -/
def insertGroup (x : Nat × Group) : List (Nat × Group) → List (Nat × Group)
  | [] => [x]
  | y :: r => if x.2.gid < y.2.gid then x :: y :: r else y :: insertGroup x r

def byGid (l : List (Nat × Group)) : List (Nat × Group) := l.foldl (fun acc x => insertGroup x acc) []

/-- Whether a core still owns a line that the group has accessed. -/
def owning (s : State) (u : Nat) : Bool := s.owners.any fun e => e.2.core == s.l1Of u && e.2.groups.contains u

/-- Whether a group is at rest and drained. -/
def drained (s : State) (u : Nat) : Bool :=
  let g := s.grpAt u
  !g.exited && s.rested u && g.ops.isEmpty && g.pending.isEmpty && !owning s u && !Dsp.fetching s u && !Dsp.collecting s u

/-- The hypothesis of a group as every accepted resolve leaves it. -/
def settled (s : State) (core ctx : Nat) (g : Group) : Group := (Hyp.pendingFor s ctx core).foldl (fun g r => Hyp.meet s r g) g

/-- The saved HCUR pins its slot (R275). -/
def pin (s : State) (ctx : Nat) (g : Group) : State :=
  let n := State.hypSlot g.hcur
  let x := s.hslot ctx n
  if g.hcur == 0#16 || !x.used || x.gen != State.hypGen g.hcur then s
  else Hyp.setSlot s ctx n
    (if x.pins = 0 then { x with pins := 1, pinNow := g.orphan.getD g.hcur, pinOrphan := g.orphan.isSome }
     else { x with pins := x.pins + 1 })

/-- Offsets of a team's windows, in ascending number. -/
def windowOffs (t : Team) : List (Nat × Nat) :=
  (t.windows.foldl (fun (x : List (Nat × Nat) × Nat) w => (x.1 ++ [(w.1, x.2)], x.2 + if w.2.mom then 32768 else 16384)) ([], 4096)).1

/-- Offsets of uncorrectable units in a save area. -/
def badOffs (t : Team) (recs : List (Nat × Group × Granules)) (h : Heap) : List Nat :=
  let base := 4096 + 16384 * State.granulesBound t
  (h.bad.map fun i => 0x600 + 8 * i)
    ++ (t.bad.filterMap fun b =>
      if b.1 = 0 then some (base + 8 * b.2)
      else ((windowOffs t).find? fun w => w.1 == Team.unitWindow b.2).map fun w =>
        w.2 + 16384 * Team.unitPlane b.2 + 512 * Team.unitRow b.2 + 4 * Team.unitCol b.2)
    ++ recs.flatMap fun r => (Area.badIn r.2.1 r.2.2).map (r.1 + ·)

/-- The group records with their offsets from the start of the area. -/
def layout (t : Team) (gs : List Group) : List (Nat × Group × Granules) :=
  (gs.foldl (fun (x : List (Nat × Group × Granules) × Nat) g =>
    (x.1 ++ [(x.2, g, Area.live g)], x.2 + recordBytes g.nv g.nk g.nm))
    ([], 4096 + 16384 * State.granulesBound t + t.localsz)).1

/-- The selection heap that a team holds; an empty one where it holds none. -/
def heapOf (s : State) (t : Nat) : Heap :=
  let h := (s.coreAt (s.teamAt t).core).heap
  if h.owner == some t then h else {}

/-- The bytes of a team's save area (R45). -/
def areaBytes (s : State) (t : Nat) (recs : List (Nat × Group × Granules)) : List Byte :=
  let te := s.teamAt t
  let h := heapOf s t
  let z := recs.foldl (fun z r => z ||| r.2.2.z) 0#16
  Area.packHeader te recs.length (if h.owner == some t then some h else none)
    ++ te.windows.flatMap (fun w => Area.packWindow s.choice (z.getLsbD w.1) w.1 w.2)
    ++ s.locBytes t 0 te.localsz
    ++ recs.flatMap fun r => Area.packGroup s.choice r.2.1 r.2.2

/-- What the chip keeps of a saved group. -/
def keptOf (z : BitVec 16) (rows : SMap Mask) (g : Group) : Kept :=
  { gid := g.gid, faults := g.faults, seqs := g.seqs, bmvLast := g.bmvLast, bmvRecon := g.bmvRecon, z := z
    exposed := g.exposed, rows := rows, fenced := g.fenced }

/-- Every CTXSAVE of the context counts a saved team, and waits for its bytes. -/
def countSave (s : State) (ctx t : Nat) : State :=
  { s with groups := s.groups.map fun e => (e.1, { e.2 with ops := e.2.ops.map fun (o : Op) =>
      match o.kind with
      | .ctxsave d c m 0 n => if c = ctx then { o with kind := .ctxsave d c m 0 (n + 1), time := Nat.max o.time t } else o
      | _ => o }) }

/-- A team at rest and drained is saved and leaves its core. -/
def saveTeam (s : State) (t : Nat) : Option State :=
  (SMap.get? s.teams t).bind fun te =>
    let s := (s.groupsOf t).foldl (fun s g => (Bnk.settle s g.1).giveBack g.1) s
    let gs := byGid (s.groupsOf t)
    if te.preempt && !gs.isEmpty && gs.all (fun g => drained s g.1)
        && te.queues.all fun q => q.2.slots.all fun e => e.filled then
      let l := s.launchAt te.launch
      let gs' := gs.map fun g => settled s te.core l.ctx g.2
      let recs := layout te gs'
      let base := areaOf l.record te.id
      let x := put s l.ctx base (areaBytes s t recs)
      let s := (badOffs te recs (heapOf s t)).foldl (fun s off => spoil s l.ctx (base + off)) x.1.spend
      let s := gs'.foldl (fun s g => pin s l.ctx g) s
      let z := recs.foldl (fun z r => z ||| r.2.2.z) 0#16
      let s := gs.foldl (fun s g => { s with groups := SMap.erase s.groups g.1 }) s
      let s := Dsp.leaveCore s t
      let l := s.launchAt te.launch
      let s := s.setLaunchAt te.launch
        { l with live := l.live - 1, saved := SMap.put l.saved te.id (gs'.map (keptOf z te.exposed))
                 horizon := gs'.foldl (fun h g => Nat.max h g.horizon) l.horizon }
      some (countSave s l.ctx x.2)
    else none

/-! ### The end of a CTXSAVE -/

/-- A launch image (R366). -/
def packImage (l : Launch) : List Byte :=
  let ids := l.saved.map Prod.fst
  let body := ((List.range 256).map fun i => l.record.raw.getD i 0#8) ++ Bits.bytesOf 8 l.status ++ Bits.bytesOf 4 l.gx
    ++ Bits.bytesOf 4 l.gy ++ Bits.bytesOf 4 l.gz ++ Bits.bytesOf 4 l.nextTeam ++ Bits.bytesOf 4 ids.length
    ++ Bits.bytesOf 4 l.handle.toNat ++ Bits.bytesOf 32 0 ++ ids.flatMap (Bits.bytesOf 4)
  body ++ (List.replicate (imageBytes ids.length - body.length) 0#8)

def packManifest (s : State) (ctx : Nat) : List Byte :=
  let ls := launchesOf s ctx
  let body := ls.flatMap fun l => packImage l.2
  Bits.bytesOf 2 1 ++ Bits.bytesOf 2 ctx ++ Bits.bytesOf 4 ls.length ++ Bits.bytesOf 8 (64 + body.length) ++ Bits.bytesOf 48 0 ++ body

/-- The result reaches kD and the counter falls. -/
def finishSave (s : State) (u id dst value : Nat) : State :=
  (s.wroteRegs u [(2, dst)]).modGrp u fun g =>
    (((g.wk dst (BitVec.ofNat 64 value)).markWritten (granulesOf [(2, dst)])).setOp id fun o => { o with done := true }).retire

def ctxsaveComplete (s : State) (u id : Nat) : Option State :=
  ((s.grpAt u).op? id).bind fun o =>
    match o.kind with
    | .ctxsave dst ctx man code n =>
      if o.done then none
      else if code ≠ 0 then some (finishSave s u id dst code)
      else if (teamsOf s ctx).isEmpty && decide (o.time ≤ s.gtime) && s.releaseReady u .module id then
        let x := put s 0 man (packManifest s ctx)
        some (finishSave x.1 u id dst (n * 2 ^ 32))
      else none
    | _ => none

/-! ### CTXLOAD (R367, R418) -/

/-- A launch image as read. -/
structure Loaded where
  raw : List Byte
  status : Nat
  gx : Nat
  gy : Nat
  gz : Nat
  next : Nat
  handle : W32
  teams : List Nat
deriving DecidableEq, Repr

/-- What reading the manifest gives. -/
inductive Found' where
  | hold (send : Option Nat)
  | bad
  | ok (ctx : Nat) (images : List Loaded)

/-- Read `n` bytes of the system kernel's space for the issuing group. -/
def peek (s : State) (va n : Nat) : Except Stop (List Byte) :=
  (s.seeAll s.cur.grp s.nextId true (s.viewOf s.cur.grp) va n).map Prod.fst

/-- Images of a manifest from an address on. -/
def loadImages (s : State) : Nat → Nat → Except Stop (Option (List Loaded))
  | 0, _ => .ok (some [])
  | n + 1, va =>
    match peek s va 0x140 with
    | .error e => .error e
    | .ok h =>
      let k := bytesAt h 0x118 4
      match peek s (va + 0x140) (imageBytes k - 0x140) with
      | .error e => .error e
      | .ok r =>
        if !zeroAt h 0x120 0x20 || !zeroAt r (4 * k) (r.length - 4 * k) then .ok none
        else match loadImages s n (va + imageBytes k) with
          | .error e => .error e
          | .ok none => .ok none
          | .ok (some l) => .ok (some ({ raw := h.take 256, status := bytesAt h 0x100 8, gx := bytesAt h 0x108 4, gy := bytesAt h 0x10C 4
                                         gz := bytesAt h 0x110 4, next := bytesAt h 0x114 4
                                         handle := BitVec.ofNat 32 (bytesAt h 0x11C 4)
                                         teams := (List.range k).map fun i => bytesAt r (4 * i) 4 } :: l))

def loadManifest (s : State) (va : Nat) : Found' :=
  match peek s va 64 with
  | .error (.hold q) => .hold q
  | .error (.fault _ _) => .bad
  | .ok h =>
    if bytesAt h 0 2 ≠ 1 || bytesAt h 3 1 ≠ 0 || !zeroAt h 0x10 48 then .bad
    else match loadImages s (bytesAt h 4 4) (va + 64) with
      | .error (.hold q) => .hold q
      | .error (.fault _ _) => .bad
      | .ok none => .bad
      | .ok (some l) => .ok (bytesAt h 2 1) l

/-- The group records of a save area from an address on. -/
def loadRecords (s : State) (ctx : Nat) : Nat → Nat → Option (List (List Byte))
  | 0, _ => some []
  | n + 1, va =>
    (Dsp.readAs s ctx true va 0x400).bind fun f =>
      if !Area.recordOk f then none else
      let size := recordBytes (bytesAt f 0x182 2) (bytesAt f 0x184 1) (bytesAt f 0x185 1)
      (Dsp.readAs s ctx true va size).bind fun r => (loadRecords s ctx n (va + size)).map fun l => r :: l

/-- The windows of a save area from an address on. -/
def loadWindows (s : State) (ctx : Nat) (r : Record) : List Nat → Nat → Option (SMap Window)
  | [], _ => some []
  | n :: rest, va =>
    let size := 16384 * r.granules n
    (Dsp.readAs s ctx true va size).bind fun bs =>
      (loadWindows s ctx r rest (va + size)).map fun l => (n, Area.unpackWindow (r.zmom.getLsbD n) bs) :: l

/-- A team's save area; none where it cannot be read, has a reserved bit set (R8), or holds another team. -/
def loadTeam (s : State) (ctx : Nat) (r : Record) (id : Nat) : Option Area.Image :=
  let base := areaOf r id
  (Dsp.readAs s ctx true base 4096).bind fun h =>
    if bytesAt h 0 4 ≠ id || !Area.headerOk h then none
    else
      let wins := base + 4096
      let loc := wins + 16384 * Area.granulesIn r h
      (loadWindows s ctx r (Area.boundIn h) wins).bind fun w =>
        (Dsp.readAs s ctx true loc r.local').bind fun lm =>
          (loadRecords s ctx (bytesAt h 4 1) (loc + r.local')).map fun gs =>
            { id := id, header := h, windows := w, lmem := lm, groups := gs }

/-- Every team that the images name. -/
def loadTeams (s : State) (ctx : Nat) (images : List Loaded) : Option (List (Loaded × List Area.Image)) :=
  images.foldl (fun acc im => acc.bind fun l =>
    (im.teams.foldl (fun acc id => acc.bind fun ts =>
      (loadTeam s ctx (Dsp.recordOf im.raw) id).map fun t => ts ++ [t]) (some [])).map fun ts => l ++ [(im, ts)]) (some [])

/-- The launch on this module that a handle names: a running entry of the context. -/
def launchFor (s : State) (ctx : Nat) (h : W32) : Option Nat :=
  ((launchesOf s ctx).find? fun l => l.2.handle == h && (SMap.get? s.queues l.2.pos).isSome).map Prod.fst

/-- The lowest free position of the queues of a class. -/
def classPos (s : State) (prio : Nat) : Option Nat := (List.range 4).findSome? fun i => Ctl.freePos s (4 * prio + i)

/-- The launch of an image, resumed or made anew (R418). Where the record lies is not in the manifest: that address is a free value.
An entry that runs here keeps what it knows of teams that the manifest does not name: those that are saved, and those that were lost.
DEDUCED (log 53): of a launch made anew, the teams below NEXTTEAM that the manifest does not name have exited. `start` is the state in
which the CTXLOAD began: a handle names what ran then. -/
def claim (start s : State) (ctx : Nat) (im : Loaded) : Option (State × Nat) :=
  match launchFor start ctx im.handle with
  | some u =>
    let l := s.launchAt u
    some (s.setLaunchAt u { l with record := Dsp.recordOf im.raw, nextTeam := im.next, waitSince := s.gtime, aged := false, live := 0
                                   saved := l.saved.filter fun e => im.teams.contains e.1 || decide (e.1 < im.next)
                                   missing := l.missing.filter fun n => !im.teams.contains n && decide (n < im.next) }, u)
  | none =>
    let r := Dsp.recordOf im.raw
    (classPos s r.prio).map fun pos =>
      let rec' := Config.free64 s.choice 0
      let s := Ctl.enqueue s pos
        { ctx := ctx, record := rec'.toNat, status := im.status, gx := im.gx, gy := im.gy, gz := im.gz, count := 0
          under := false, st := .running, since := s.gtime, launch := s.gtime, priv := true }
      let l : Launch :=
        { ctx := ctx, pos := pos, handle := Ctl.handleOf s pos, recaddr := rec', status := im.status, gx := im.gx, gy := im.gy
          gz := im.gz, record := r, nextTeam := im.next, order := Dsp.nextOrder s, waitSince := s.gtime, priv := true }
      let u := s.nextId
      ((((s.setLaunchAt u l).fresh).spend).writeStatus ctx true im.status false 0x02, u)

/-- A slot's pin goes; the slot is freed when its last pin goes and a resolve has asked for it. -/
def unpin (s : State) (ctx n : Nat) : State :=
  let x := s.hslot ctx n
  if x.pins ≤ 1 then
    let s := Hyp.setSlot s ctx n { x with pins := 0, pinNow := 0#16, pinOrphan := false, freeDue := false }
    if x.freeDue then Hyp.freeSlot s ctx n else s
  else Hyp.setSlot s ctx n { x with pins := x.pins - 1 }

/-- A restored group's hypothesis (R275). -/
def underNow (s : State) (ctx : Nat) (redirect : Bool) (g : Group) : State × Group :=
  if g.hcur == 0#16 then (s, g)
  else
    let n := State.hypSlot g.hcur
    let x := s.hslot ctx n
    if x.used && x.gen == State.hypGen g.hcur && x.pins != 0 then
      (unpin s ctx n, if x.pinOrphan || redirect then { g with orphan := some x.pinNow } else { g with hcur := x.pinNow })
    else (s, { g with orphan := some 0#16 })

/-- A group of a restored team. -/
def restoreGroup (s : State) (ctx team part : Nat) (wins : BitVec 16) (kept : List Kept) (r : List Byte) : State :=
  let k := kept.find? fun k => k.gid == bytesAt r 0x181 1
  let g := Area.unpackGroup s.choice team part s.gtime ((k.map Kept.z).getD wins) r
  let x := underNow s ctx (Area.pendingRedirect r) g
  let g := match k with
    | some k => { x.2 with faults := k.faults, seqs := k.seqs, bmvLast := k.bmvLast, bmvRecon := k.bmvRecon, exposed := k.exposed, fenced := k.fenced }
    | none => { x.2 with fenced := true }
  ((x.1.setGrpAt x.1.nextId g).fresh).spend

/-- The windows of a restored team: those that were not live at the save hold free values (R48). What was live is known from the save
where this module made it; else the area's bytes stand. -/
def restoredWindows (choice : Nat) (kept : List Kept) (ws : SMap Window) : SMap Window :=
  ws.map fun e => (e.1, if (kept.head?.map fun k => k.z.getLsbD e.1).getD true then e.2 else Area.freeWindow choice e.1 e.2.mom)

/-- A saved team starts again on a core, its groups in the partitions given. -/
def restoreTeam (s : State) (u core : Nat) (i : Area.Image) (parts : List Nat) : State :=
  let l := s.launchAt u
  let r := l.record
  let t := s.nextId
  let kept := SMap.get [] l.saved i.id
  let team : Team :=
    { launch := u, id := i.id, core := core, set := Dsp.setOf r i.id, localsz := r.local'
      lmem := (List.range i.lmem.length).zip i.lmem, windows := restoredWindows s.choice kept i.windows
      barriers := ((List.range 16).map fun b => (b, Area.unpackBarrier i.header b)).filter fun e => e.2 != ({} : Barrier)
      queues := (List.range 16).filterMap fun q => (Area.unpackQueue i.header q).map fun x => (q, x)
      ranges := ((List.range 16).map fun n => BitVec.ofNat 32 (bytesAt i.header (0x540 + 8 * n) 4)).filter (· != 0#32) }
  let wins := BitVec.ofNat 16 (bytesAt i.header 0xC 2)
  let s := (s.setTeamAt t { team with exposed := (kept.head?.map Kept.rows).getD [] }).fresh
  let s := ((List.range i.groups.length).zip i.groups).foldl
    (fun s x => restoreGroup s l.ctx t (parts.getD x.1 0) wins kept x.2) s
  let s := if i.heap then s.setCoreAt core { s.coreAt core with heap := Area.unpackHeap i.header t } else s
  let s := Dsp.joinKernel s core u
  let l := s.launchAt u
  s.setLaunchAt u { l with live := l.live + 1, saved := SMap.erase l.saved i.id }

/-! ### Where the teams of a load go (R367) -/

/-- A list that starts at its `n`-th element. -/
def rotate {α : Type} (n : Nat) (l : List α) : List α := l.drop (n % Nat.max l.length 1) ++ l.take (n % Nat.max l.length 1)

/-- A team with the core found for it: launch, core, image. -/
abbrev Berth := Nat × Nat × Area.Image

/-- What a team of a launch takes of local memory and granules. -/
def needs (s : State) (u : Nat) (i : Area.Image) : Nat × Nat :=
  let r := (s.launchAt u).record
  (r.local', Area.granulesIn r i.header)

def total (l : List Nat) : Nat := l.foldl (· + ·) 0

/-- Partitions for the teams found for a core and one more list of them. -/
def berths (s : State) (acc : List Berth) (core : Nat) : Option (List Nat) :=
  let mine := acc.filter fun x => x.2.1 == core
  Dsp.addTeams (Dsp.takenOn s core) (mine.flatMap fun x => x.2.2.foots)
    (total (mine.map fun x => (needs s x.1 x.2.2).1)) (total (mine.map fun x => (needs s x.1 x.2.2).2))

/-- Whether a saved team of launch `u` fits on a core beside those already found for it (R43, R152, R301). -/
def fitsOn (s : State) (acc : List Berth) (u core : Nat) (i : Area.Image) : Bool :=
  let r := (s.launchAt u).record
  let mine := acc.filter fun x => x.2.1 == core
  let ks := ((s.coreAt core).kernels ++ mine.map Prod.fst).eraseDups
  Dsp.clusterFits s (core / 4) u r
    && (acc.all fun x => x.2.1 / 4 != core / 4 || x.1 == u || (!r.fusel1 && !(s.launchAt x.1).record.fusel1))
    && (ks.contains u || (decide (ks.length < 8) && decide (total (ks.map fun k => (s.launchAt k).record.gauge) + r.gauge ≤ 64)))
    && (!i.heap || ((s.coreAt core).heap.owner.isNone && mine.all fun x => !x.2.2.heap))
    && (berths s (acc ++ [(u, core, i)]) core).isSome

/-- What tells one core from another while places are sought: the same for its cluster's other cores. -/
structure Mark where
  taken : Dsp.Taken
  kernels : List Nat
  heap : Bool
  /-- launch, footprints, local memory and granules, heap, of the teams found for it -/
  found : List (Nat × List Nat × (Nat × Nat) × Bool)
deriving DecidableEq, Repr

def coreMark (s : State) (acc : List Berth) (core : Nat) : Mark :=
  { taken := Dsp.takenOn s core, kernels := (s.coreAt core).kernels, heap := (s.coreAt core).heap.owner.isSome
    found := (acc.filter fun x => x.2.1 == core).map fun x => (x.1, x.2.2.foots, needs s x.1 x.2.2, x.2.2.heap) }

def clusterMark (s : State) (acc : List Berth) (cluster : Nat) : Bool × List Mark :=
  (s.lostClusters.contains cluster, (List.range 4).map fun i => coreMark s acc (cluster * 4 + i))

/-- The first of each kind. -/
def oneOfEach {α β : Type} [DecidableEq β] (key : α → β) : List α → List β → List α
  | [], _ => []
  | x :: r, seen => if seen.contains (key x) then oneOfEach key r seen else x :: oneOfEach key r (key x :: seen)

/-- Ways to give each team of a set a core of its own. -/
def assign (s : State) (acc : List Berth) (u : Nat) : List Area.Image → List Nat → List (List Berth)
  | [], _ => [[]]
  | i :: rest, cores =>
    (cores.filter fun c => fitsOn s acc u c i).flatMap fun c =>
      (assign s acc u rest (cores.filter (· != c))).map fun l => (u, c, i) :: l

/-- Where a set of teams could go; cores that nothing tells apart count once, and the search starts at a free choice. -/
def spots (s : State) (acc : List Berth) (u : Nat) (is : List Area.Image) : List (List Berth) :=
  let k := Config.freeNat s.choice 0
  if (s.launchAt u).record.cluster then
    let cls := (rotate k (List.range 80)).filter fun cl =>
      Dsp.freeOf s cl u && acc.all fun x => x.2.1 / 4 != cl || x.1 != u
    (oneOfEach (clusterMark s acc) cls []).flatMap fun cl => assign s acc u is ((rotate k (List.range 4)).map (cl * 4 + ·))
  else
    (oneOfEach (fun c => (coreMark s acc c, clusterMark s acc (c / 4))) (rotate k (List.range 320)) []).flatMap fun c =>
      assign s acc u is [c]

/-- The teams of an image in sets. -/
def setsIn (r : Record) (is : List Area.Image) : List (List Area.Image) :=
  let key (i : Area.Image) := Dsp.setOf r i.id
  ((is.map key).eraseDups).map fun n => is.filter fun i => key i == n

/-- Cores for every set of every launch at once, if there are such. -/
def plan (s : State) : List (Nat × List Area.Image) → List Berth → Option (List Berth)
  | [], acc => some acc
  | x :: rest, acc => (spots s acc x.1 x.2).findSome? fun l => plan s rest (acc ++ l)

/-- Restore every team where the plan puts it. -/
def restoreAll (s : State) (acc : List Berth) : State :=
  let one (i : Nat) (t : State) : State :=
    match acc[i]? with
    | none => t
    | some (u, c, im) =>
      let before := ((acc.take i).filter fun x => x.2.1 == c).flatMap fun x => x.2.2.foots
      restoreTeam t u c im ((((berths s acc c).getD []).drop before.length).take im.foots.length)
  (List.range acc.length).foldl (fun t i => one i t) s

/-- Claim every launch, then place every team. -/
def placeAll (start : State) (ctx : Nat) (l : List (Loaded × List Area.Image)) : Option State :=
  (l.foldl (fun (acc : Option (State × List Nat)) x => acc.bind fun (s, us) =>
      (claim start s ctx x.1).map fun y => (y.1, us ++ [y.2])) (some (start, []))).bind fun (s, us) =>
    (plan s ((us.zip l).flatMap fun x => (setsIn (s.launchAt x.1).record x.2.2).map fun is => (x.1, is)) []).map fun acc =>
      restoreAll s.spend acc

/-- Phases that the save held back are judged again. -/
def judgeAll (s : State) (ctx : Nat) : State :=
  (s.groups.filter fun g => s.ctxOf g.1 == ctx).foldl (fun s g => s.judgeBarriers g.1) s

/-- The restore: a code, and the state it leaves. -/
def load (s : State) (ctx : Nat) (images : List Loaded) : State × Nat :=
  match loadTeams s ctx images with
  | none => (s, 0x90)
  | some l =>
    if (ctx != 0 && !(s.descAt ctx).valid) || !(teamsOf s ctx).isEmpty then (s, 0x92)
    else match placeAll s ctx l with
      | none => (s, 0x91)
      | some t => (judgeAll { t with heldCtx := t.heldCtx.filter (· != ctx) } ctx, 0)

/-- The lines of the manifest and the save areas that a CTXLOAD reads are handed back (R218). -/
def recalled (s : State) (ctx man : Nat) (images : List Loaded) : State :=
  let s := Dsp.recallAs s 0 true man (images.foldl (fun n im => n + imageBytes im.teams.length) 64)
  images.foldl (fun s im =>
    let r := Dsp.recordOf im.raw
    im.teams.foldl (fun s id => Dsp.recallAs s ctx true (areaOf r id) r.stride) s) s

def ctxload (s : State) (o : Opds) : Res :=
  let finishLoad (s : State) (code : Nat) : Res :=
    let a : Access := { lane := s.refLane, va := 0, loc := .host 0, size := 8, value := code, st := .performed }
    .done (s.startOp { cls := .loads, kind := .load ⟨2, o.d.val, 5⟩, lanes := [a] })
  if !s.roomFor .loads then .hold false
  else match loadManifest s (s.grp.rk o.a.val).toNat with
    | .hold q => .holdFor q
    | .bad => finishLoad s 0x90
    | .ok ctx images =>
      let x := load (recalled s ctx (s.grp.rk o.a.val).toNat images) ctx images
      finishLoad x.1 x.2

/-- A restored group may issue (R226, R275). -/
def resume (s : State) (u : Nat) : Option State :=
  (SMap.get? s.groups u).bind fun g =>
    if g.restoring && decide (g.horizon ≤ s.gtime) && (g.orphan.isSome || s.live (s.ctxOf u) g.hcur) then
      some (s.setGrpAt u { g with restoring := false })
    else none

end Ctx

open Ctx

def execTlbinvComplete (grp op : Nat) (s : State) : Host.Outcome State Fault Refusal := happen s (tlbinvComplete s grp op)

def execCtxsave (o : Opds) (s : State) : Host.Outcome State Fault Refusal := issue (.ctxsave o) s fun s => ctxsave s o

def execTeamSave (team : Nat) (s : State) : Host.Outcome State Fault Refusal := happen s (saveTeam s team)

def execCtxsaveComplete (grp op : Nat) (s : State) : Host.Outcome State Fault Refusal := happen s (ctxsaveComplete s grp op)

def execCtxload (o : Opds) (s : State) : Host.Outcome State Fault Refusal := issue (.ctxload o) s fun s => ctxload s o

def execGroupRestoreResume (grp : Nat) (s : State) : Host.Outcome State Fault Refusal := happen s (resume s grp)

end Sys2Proof.Machine
end

