-- ==== Sys2Proof/Machine/Crossbar.lean ====
section
/-! DEFINITION. Quad exchanges and group instructions (R126 to R132). -/

namespace Sys2Proof.Machine

open Operands

namespace Xbar

/-- A lane's register A for a quad exchange: an absent lane contributes 0 (R126). -/
def source (o : Opds) (g : Group) (i : Nat) : W64 :=
  if Bits.has g.present i then Bits.zext64 (get32 false o g o.a i) else 0#64

/-- R128's source lane. -/
def shfl (m : ShMode) (i b : Nat) : Nat :=
  match m with
  | .idx => b % 32
  | .up => if b ≤ i then i - b else i
  | .down => if i + b ≤ 31 then i + b else i
  | .xor => i ^^^ (b % 32)

/-- R129's operations and identities. -/
def op : XOp → W32 → W32 → W32
  | .addS, a, b | .addN, a, b => a + b
  | .addF, a, b => Float.fadd a b
  | .minS, a, b => if a.slt b then a else b
  | .maxS, a, b => if a.slt b then b else a
  | .minN, a, b => if a.ult b then a else b
  | .maxN, a, b => if a.ult b then b else a
  | .minF, a, b => BitVec.ofNat 32 (Float.minmax .f32 false a.toNat b.toNat)
  | .maxF, a, b => BitVec.ofNat 32 (Float.minmax .f32 true a.toNat b.toNat)
  | .and, a, b => a &&& b
  | .or, a, b => a ||| b
  | .xor, a, b => a ^^^ b

def identity : XOp → W32
  | .addS | .addN | .or | .xor | .maxN => 0#32
  | .addF => 0x80000000#32
  | .minS => 0x7FFFFFFF#32
  | .maxS => 0x80000000#32
  | .minN | .and => 0xFFFFFFFF#32
  | .minF => 0x7F800000#32
  | .maxF => 0xFF800000#32

/-- The combination of the contributions of lanes 0 to i, in ascending order. -/
def upTo (x : XOp) (val : Nat → W32) (i : Nat) : W32 :=
  (List.range (i + 1)).foldl (fun acc l => op x acc (val l)) (identity x)

/-- The fill of a k destination (R129). -/
def fill : XOp → IType
  | .addS | .minS | .maxS => .s32
  | _ => .n32

/-- GSAMPLE's choice (R132). -/
def sample (w : Nat → W32) (u : W32) : Nat :=
  let clean (x : W32) : W32 := if Float.isNaN .f32 x.toNat || Float.compare .f32 2 x.toNat 0 then 0#32 else x
  let ws := (List.range 32).map fun i => clean (w i)
  let u := clean u
  let u := if Float.compare .f32 5 u.toNat 0x3F800000 then 0x3F7FFFFF#32 else u
  match (List.range 32).find? fun i => ws.getD i 0#32 == 0x7F800000#32 with
  | some i => i
  | none =>
    let sums := ((ws.foldl (fun (acc : W32 × List W32) x =>
      let t := Float.fadd acc.1 x
      (t, t :: acc.2)) (0x80000000#32, [])).2).reverse
    let total := sums.getD 31 0#32
    if Float.compare .f32 0 total.toNat 0 then 32
    else
      let t := if total == 0x7F800000#32 && Float.compare .f32 0 u.toNat 0 then 0#32 else Float.fmul u total
      match (List.range 32).find? fun i => Float.compare .f32 2 t.toNat (sums.getD i 0#32).toNat with
      | some i => i
      | none => ((List.range 32).reverse.find? fun i => Float.compare .f32 4 (ws.getD i 0#32).toNat 0).getD 0

end Xbar

def execQswp (dir : QDir) (o : Opds) (s : State) : Host.Outcome State Fault Refusal :=
  issue (.qswp dir o) s fun s =>
    let x := match dir with | .horiz => 1 | .vert => 2 | .diag => 3
    .done (write s o (putInt .n32 o.d) fun g i => Xbar.source o g (i ^^^ x))

def execQbcst (lane : BitVec 2) (o : Opds) (s : State) : Host.Outcome State Fault Refusal :=
  issue (.qbcst lane o) s fun s =>
    .done (write s o (putInt .n32 o.d) fun g i => Xbar.source o g (i / 4 * 4 + lane.toNat))

def execXshfl (mode : ShMode) (o : Opds) (s : State) : Host.Outcome State Fault Refusal :=
  issue (.xshfl mode o) s fun s =>
    let ex := s.exec o.guard
    .done (write s o (putInt .n32 o.d) fun g i =>
      let src := Xbar.shfl mode i (get32 false o g o.b i).toNat
      Bits.zext64 (get32 false o g o.a (if Bits.has ex src then src else i)))

def execXscan (op : XOp) (o : Opds) (s : State) : Host.Outcome State Fault Refusal :=
  issue (.xscan op o) s fun s =>
    let con := contributors s o
    .done (write s o (putInt .n32 o.d) fun g i =>
      Bits.zext64 (Xbar.upTo op (fun l => if Bits.has con l then get32 false o g o.a l else Xbar.identity op) i))

def execXred (op : XOp) (o : Opds) (s : State) : Host.Outcome State Fault Refusal :=
  issue (.xred op o) s fun s =>
    let con := contributors s o
    .done (write s o (putInt (Xbar.fill op) o.d) fun g _ =>
      Bits.zext64 (Xbar.upTo op (fun l => if Bits.has con l then get32 false o g o.a l else Xbar.identity op) 31))

/-- R130. -/
def execVote (op : VoteOp) (o : Opds) (s : State) : Host.Outcome State Fault Refusal :=
  issue (.vote op o) s fun s =>
    let con := contributors s o
    let p := s.grp.rp o.a.val
    match op with
    | .all => .done (Flags.setExec s o.d o.guard ((con &&& ~~~p) == 0#32))
    | .any => .done (Flags.setExec s o.d o.guard ((con &&& p) != 0#32))
    | .ballot => .done (write s o (putInt .n32 o.d) fun _ _ => Bits.zext64 (con &&& p))

/-- R131. -/
def execElect (o : Opds) (s : State) : Host.Outcome State Fault Refusal :=
  issue (.elect o) s fun s =>
    let con := contributors s o
    let from' := if con == 0#32 then s.exec o.guard else con
    .done (Flags.setLanes s o.d o.guard fun i => Bits.lowest from' == some i)

/-- R132. -/
def execGsample (o : Opds) (s : State) : Host.Outcome State Fault Refusal :=
  issue (.gsample o) s fun s =>
    let con := contributors s o
    let g := s.grp
    let c := Xbar.sample (fun i => if Bits.has con i then get32 false o g o.a i else 0#32)
      (get32 false o g o.b s.refLane)
    let s := write s o (putInt .n32 o.d) fun _ _ => BitVec.ofNat 64 c
    .done (Flags.setExec s o.c o.guard (decide (c < 32)))

end Sys2Proof.Machine
end

