-- ==== Sys2Proof/Machine/Floating.lean ====
section
/-! DEFINITION. Floating instructions (R116 to R122). -/

namespace Sys2Proof.Machine

open Operands

def execFadd (f : FFmt) (r : Rnd) (o : Opds) (s : State) : Host.Outcome State Fault Refusal :=
  issue (.fadd f r o) s (flt2 f (Float.add f r) o)

def execFsub (f : FFmt) (r : Rnd) (o : Opds) (s : State) : Host.Outcome State Fault Refusal :=
  issue (.fsub f r o) s (flt2 f (Float.sub f r) o)

def execFmul (f : FFmt) (r : Rnd) (o : Opds) (s : State) : Host.Outcome State Fault Refusal :=
  issue (.fmul f r o) s (flt2 f (Float.mul f r) o)

def execFfma (f : FFmt) (r : Rnd) (o : Opds) (s : State) : Host.Outcome State Fault Refusal :=
  issue (.ffma f r o) s (flt3 f (Float.fma f r) o)

def execFmin (f : FFmt) (r : Rnd) (o : Opds) (s : State) : Host.Outcome State Fault Refusal :=
  issue (.fmin f r o) s (flt2 f (Float.minmax f false) o)

def execFmax (f : FFmt) (r : Rnd) (o : Opds) (s : State) : Host.Outcome State Fault Refusal :=
  issue (.fmax f r o) s (flt2 f (Float.minmax f true) o)

/-- R118. -/
def execFcmp (f : FFmt) (r : Rnd) (o : Opds) (s : State) : Host.Outcome State Fault Refusal :=
  issue (.fcmp f r o) s fun s =>
    let g := s.grp
    .done (Flags.setLanes s o.d o.guard fun i =>
      Float.compare f (Forms.code o.c) (getF f o g o.a i) (getF f o g o.b i))

def execFrcp (f : FFmt) (r : Rnd) (o : Opds) (s : State) : Host.Outcome State Fault Refusal :=
  issue (.frcp f r o) s (flt1 f (Float.rcp r) o)

def execFrsq (f : FFmt) (r : Rnd) (o : Opds) (s : State) : Host.Outcome State Fault Refusal :=
  issue (.frsq f r o) s (flt1 f Float.rsq o)

def execFsqrt (f : FFmt) (r : Rnd) (o : Opds) (s : State) : Host.Outcome State Fault Refusal :=
  issue (.fsqrt f r o) s (flt1 f (Float.sqrt r) o)

def execFexp2 (f : FFmt) (r : Rnd) (o : Opds) (s : State) : Host.Outcome State Fault Refusal :=
  issue (.fexp2 f r o) s (flt1 f Float.exp2 o)

def execFlog2 (f : FFmt) (r : Rnd) (o : Opds) (s : State) : Host.Outcome State Fault Refusal :=
  issue (.flog2 f r o) s (flt1 f Float.log2 o)

def execFsin (f : FFmt) (r : Rnd) (o : Opds) (s : State) : Host.Outcome State Fault Refusal :=
  issue (.fsin f r o) s (flt1 f (Float.sinCos false) o)

def execFcos (f : FFmt) (r : Rnd) (o : Opds) (s : State) : Host.Outcome State Fault Refusal :=
  issue (.fcos f r o) s (flt1 f (Float.sinCos true) o)

def execFtanh (f : FFmt) (r : Rnd) (o : Opds) (s : State) : Host.Outcome State Fault Refusal :=
  issue (.ftanh f r o) s (flt1 f Float.tanh o)

def execHadd2 (f : FFmt) (r : Rnd) (o : Opds) (s : State) : Host.Outcome State Fault Refusal :=
  issue (.hadd2 f r o) s (packed (fun a b _ => Float.add f r a b) o)

def execHmul2 (f : FFmt) (r : Rnd) (o : Opds) (s : State) : Host.Outcome State Fault Refusal :=
  issue (.hmul2 f r o) s (packed (fun a b _ => Float.mul f r a b) o)

def execHfma2 (f : FFmt) (r : Rnd) (o : Opds) (s : State) : Host.Outcome State Fault Refusal :=
  issue (.hfma2 f r o) s (packed (fun a b c => Float.fma f r a b c) o)

def execFrnd (f : FFmt) (r : Rnd) (o : Opds) (s : State) : Host.Outcome State Fault Refusal :=
  issue (.frnd f r o) s (flt1 f (Float.integral f r) o)

end Sys2Proof.Machine
end

