-- ==== Sys2Proof/Machine/Host.lean ====
section
/-! DEFINITION. The host link: launch rings (R396 to R399), the BAR2 window (R394, R395), and the management window
with Molnufin's commands (R414 to R417). -/

namespace Sys2Proof.Machine

open Sys2Proof (SMap)

namespace Hst

/-- The context that a function acts for (R394). -/
def ctxOf (fn : Nat) : Nat := if fn = 0 then 0 else Config.contextOf fn % 256

/-- The physical function and 64 virtual functions. -/
def isFn (fn : Nat) : Bool := decide (fn < 65)

/-! ### Rings (R396, R398, R399) -/

def ring (s : State) (fn : Nat) : Ring := SMap.get {} s.rings fn
def setRing (s : State) (fn : Nat) (r : Ring) : State := { s with rings := SMap.put s.rings fn r }

/-- Entries of a ring. -/
def entries (r : Ring) : Nat := 2 ^ (r.size + 4)

/-- A PROD that runs ahead of CONS by more than the ring's size stops the ring. -/
def doorbell (s : State) (fn : Nat) (prod : W32) : State :=
  let r := ring s fn
  setRing s fn { r with prod := prod, stopped := r.stopped || decide (entries r < (prod - r.cons).toNat) }

def baseWrite (s : State) (fn : Nat) (base : W64) : State :=
  let r := ring s fn
  setRing s fn { base := base.toNat, log := r.log, size := r.log, prod := 0#32, cons := 0#32, stopped := false }

def logWrite (s : State) (fn : Nat) (log : BitVec 4) : State :=
  if 12 ≤ log.toNat then s else setRing s fn { ring s fn with log := log.toNat }

/-- Whether a ring has an entry that may be consumed. -/
def eligible (s : State) (fn : Nat) : Bool :=
  let r := ring s fn
  r.base != 0 && !r.stopped && r.cons != r.prod

/-- The ring that the round-robin visits next. -/
def nextRing (s : State) : Option Nat :=
  let fs := (List.range 65).filter (eligible s)
  ((fs.filter (s.ringLast < ·)) ++ fs.filter (· ≤ s.ringLast)).head?

/-- An entry taken into queue 0, as LAUNCH does (R326), with its handle at STATUS + 4. -/
def enqueue (s : State) (ctx rec' st gx gy gz count pos : Nat) : State :=
  let s := Ctl.enqueue s pos
    { ctx := ctx, record := rec', status := st, gx := gx, gy := gy, gz := gz, count := count, under := false
      st := if count = 0 then .ready else .waiting, since := s.gtime, launch := s.gtime, priv := ctx == 0 }
  (s.writeStatus ctx (ctx == 0) st false (if count = 0 then 1 else 0)).dispatcherStore ctx (ctx == 0) (st + 4) 4 (Ctl.handleOf s pos).toNat

/-- The effect of a ring entry's 64 bytes; `pos` is a free position of queue 0. -/
def take (s : State) (ctx pos : Nat) (e : List Byte) : State :=
  let st := Dsp.bytesAt e 8 8
  let gx := Dsp.bytesAt e 0x10 4
  let gy := Dsp.bytesAt e 0x14 4
  let gz := Dsp.bytesAt e 0x18 4
  if st % 8 ≠ 0 || (s.findFor ctx .store st matches .fault _) then s.postEvent ctx { kind := 8, value := st }
  else if !Dsp.zeroAt e 0x1E 34 then s.writeStatus ctx (ctx == 0) st false 0x81
  else if gx = 0 || gy = 0 || gz = 0 || 2 ^ 32 ≤ gx * gy * gz then s.writeStatus ctx (ctx == 0) st false 0x8D
  else enqueue s ctx (Dsp.bytesAt e 0 8) st gx gy gz (Dsp.bytesAt e 0x1C 2) pos

/-- The latest stamp of the words that `n` bytes of a context's space lie in. -/
def stampAt (s : State) (ctx va n : Nat) : Nat :=
  (State.pieces (n / 128 + 2) va n).foldl (fun t p =>
    match s.findFor ctx .load p.1 with
    | .at' (.hbm q) _ => (wordsOf q p.2).foldl (fun t w => Nat.max t (s.stampOf w)) t
    | _ => t) 0

/-- Whether the function's last host write has completed (R395). -/
def settled (s : State) (fn : Nat) : Bool := decide (SMap.get 0 s.hostAt fn ≤ s.gtime)

/-- The module consumes the entry at CONS (R398), read as an acquire at .system scope (R215). An entry that cannot be read
stays where it is, and the round-robin goes on. -/
def consume (s : State) (fn : Nat) : Option State :=
  if nextRing s != some fn || !s.running then none
  else
    let r := ring s fn
    let ctx := ctxOf fn
    let va := r.base + 64 * (r.cons.toNat % entries r)
    (Ctl.freePos s 0).bind fun pos =>
      let s := Dsp.recallFor s ctx va 64
      match Dsp.readFor s ctx va 64 with
      | none => some { s with ringLast := fn }
      | some e =>
        if settled s fn && decide (stampAt s ctx va 64 + 16 ≤ s.gtime) then
          let s := take s.spend ctx pos e
          some { setRing s fn { r with cons := r.cons + 1 } with ringLast := fn }
        else none

/-! ### BAR2 (R394, R395) -/

def barSize : Nat := 64 * 2 ^ 30

/-- Where bytes of the window lie, piece by piece: none when one of them may not be reached. -/
def reach (s : State) (ctx : Nat) (w : Want) (off n : Nat) : Option (List (Nat × Nat × Nat × Bool)) :=
  if n = 0 || barSize < off + n || (ctx != 0 && !(s.descAt ctx).valid) then none
  else (State.pieces (n / 128 + 2) off n).foldl (fun acc p => acc.bind fun l =>
    match s.findFor ctx w p.1 with
    | .at' (.hbm q) leaf => some (l ++ [(p.1, p.2, q, (leaf.map Leaf.mlock).getD false)])
    | _ => none) (some [])

/-- A host write: a store at the root, whole or not at all; the earlier one of the function has completed. -/
def barWrite (s : State) (fn off : Nat) (bytes : List Byte) : Option State :=
  let ctx := ctxOf fn
  if !settled s fn then none
  else match reach s ctx .store off bytes.length with
    | none => some { s with bar2Answer := none }
    | some ps =>
      if ps.any fun p => p.2.2.2 then none
      else
        let r := ps.foldl (fun (x : State × Nat) p =>
          let y := (x.1.endOwnership (lineOf p.2.2.1)).sliceWrite ctx 0#16 p.2.2.1 ((bytes.drop (p.1 - off)).take p.2.1)
          (y.1, Nat.max x.2 y.2)) (s, 0)
        some { r.1 with hostAt := SMap.put r.1.hostAt fn r.2, bar2Answer := some [] }

/-- A host read: a load at the home slice. Uncorrectable bytes come back as free values. -/
def barRead (s : State) (fn off len : Nat) : State :=
  let ctx := ctxOf fn
  match reach s ctx .load off len with
  | none => { s with bar2Answer := none }
  | some ps =>
    let s := ps.foldl (fun s p => Up.bringIn ((Paging.bringWalk s ctx p.1).endOwnership (lineOf p.2.2.1)) (lineOf p.2.2.1)) s
    let bs := ps.flatMap fun p =>
      if s.badAt p.2.2.1 p.2.1 then (List.range p.2.1).map fun i => Config.freeByte s.choice (p.1 + i)
      else s.readBytes p.2.2.1 p.2.1
    { s.spend with bar2Answer := some bs }

/-! ### The management window (R414 to R417) -/

/-- Bytes of DATA as the command found them when it started. -/
def dataAt (s : State) (off n : Nat) : List Byte := (List.range n).map fun i => SMap.get 0#8 s.mgmt.input (off + i)

/-- An 8-byte word of the window: the command word, the status word, DATA, which is free while a command executes. -/
def windowWord (s : State) (off : Nat) : W64 :=
  let m := s.mgmt
  BitVec.ofNat 64 (if off = 0 then m.arg % 2 ^ 32 * 2 ^ 32 + m.cmd % 256
    else if off = 8 then m.boot % 256 * 256 + (if m.ovr then 128 else 0) + (if m.busy then 64 else 0) + m.result % 64
    else if 0x100 ≤ off && off < 0x200 then
      Bits.ofBytes ((List.range 8).map fun i => if m.busy then Config.freeByte s.choice (off + i) else SMap.get 0#8 m.data (off - 0x100 + i))
    else 0)

/-- A function reads an aligned word at `off` from 0x1000 on; a virtual function reads zero (R414). -/
def readWindow (s : State) (fn off : Nat) : State :=
  { s.spend with mgmt := { s.mgmt with answer := if fn = 0 && off % 8 = 0 then windowWord s off else 0#64 } }

/-- A command ends: RESULT, output from byte 0 of DATA on, and BUSY falls. -/
def finish (s : State) (result : Nat) (out : List Byte) : State :=
  let m := s.mgmt
  { s with mgmt := { m with
    busy := false, result := result
    data := ((List.range out.length).zip out).foldl (fun d x => SMap.set 0#8 d x.1 x.2) m.data } }

/-- Whether a command word is unknown or has reserved bits set. -/
def badWord (w : W64) : Bool := !Bits.fieldZero w 31 8 || Bits.field w 7 0 = 0 || decide (6 < Bits.field w 7 0)

/-- A command word that is discarded or refused. -/
def refuse (s : State) (w : W64) : Option State :=
  let m := s.mgmt
  if m.busy then some { s with mgmt := { m with ovr := true } }
  else if badWord w then some { s with mgmt := { m with cmd := Bits.field w 7 0, arg := Bits.field w 63 32, result := 1 } }
  else none

/-- The host writes the command word. -/
def command (s : State) (w : W64) : State :=
  match refuse s w with
  | some s => s
  | none =>
    let m := s.mgmt
    { s with mgmt := { m with cmd := Bits.field w 7 0, arg := Bits.field w 63 32, busy := true, ovr := false, input := m.data } }

/-- A function writes the command word: the physical function alone has the window. -/
def commandBy (s : State) (fn : Nat) (w : W64) : State := if fn = 0 then command s w else s

/-- A function writes a byte of DATA. -/
def putData (s : State) (fn off : Nat) (x : Byte) : State :=
  if fn = 0 && off < 256 then
    let m := s.mgmt
    { s with mgmt := { m with data := SMap.set 0#8 m.data off x } }
  else s

/-- A command that is executing. -/
def executing (s : State) (op : Nat) : Bool := s.mgmt.busy && s.mgmt.cmd == op

/-- A list of bytes cut or filled up with zeros to a length. -/
def fit (n : Nat) (l : List Byte) : List Byte := (List.range n).map fun i => l.getD i 0#8

def serial : List Byte := fit 16 Config.serial

def attest (s : State) : List Byte :=
  let digest := fit 48 Config.imageDigest
  digest ++ fit 96 (Config.signature (dataAt s 0 48 ++ digest ++ serial))

/-- An error record's 32 bytes (R417). -/
def errBytes (e : ErrRec) : List Byte :=
  Bits.bytesOf 8 e.time ++ Bits.bytesOf 1 e.kind ++ Bits.bytesOf 1 e.unit ++ Bits.bytesOf 2 e.at'
    ++ Bits.bytesOf 4 e.resets ++ Bits.bytesOf 8 e.value ++ Bits.bytesOf 8 0

/-- Set scrubber (R384): fields out of range leave SCRUBCTL unchanged; reserved bits stay zero. -/
def setScrubber (s : State) : State :=
  let w : W64 := BitVec.ofNat 64 (Bits.ofBytes (dataAt s 0 8))
  let d := Bits.field w 63 32
  let t := Bits.field w 14 8
  if d < 3600 || 2592000 < d || t < 1 || 100 < t then finish s 2 []
  else finish { s with scrubctl := BitVec.ofNat 64 (d * 2 ^ 32 + t * 256 + Bits.field w 0 0) } 0 []

/-- Set matrix idle time (R416). -/
def setIdle (s : State) : State :=
  let x := s.mgmt.arg % 65536
  if x < 64 then finish s 2 []
  else finish { s with mxIdle := x, mxIdleWas := (s.gtime, s.mxIdle) :: s.mxIdleWas } 0 []

def powerReading (s : State) : State :=
  finish s.spend 0 (Bits.bytesOf 8 (Config.power s.choice) ++ Bits.bytesOf 8 s.withheld)

end Hst

open Hst

def execHostRingDoorbell (fn : Nat) (prod : W32) (s : State) : Host.Outcome State Fault Refusal :=
  happen s (if isFn fn && settled s fn then some (doorbell s fn prod) else none)

def execHostRingBaseWrite (fn : Nat) (base : W64) (s : State) : Host.Outcome State Fault Refusal :=
  happen s (if isFn fn && settled s fn then some (baseWrite s fn base) else none)

def execHostRingLogWrite (fn : Nat) (log : BitVec 4) (s : State) : Host.Outcome State Fault Refusal :=
  happen s (if isFn fn && settled s fn then some (logWrite s fn log) else none)

def execRingEntryConsume (fn : Nat) (s : State) : Host.Outcome State Fault Refusal := happen s (consume s fn)

def execHostBar2Write (fn off : Nat) (bytes : List Byte) (s : State) : Host.Outcome State Fault Refusal :=
  happen s (if isFn fn then barWrite s fn off bytes else none)

def execHostBar2Read (fn off len : Nat) (s : State) : Host.Outcome State Fault Refusal :=
  happen s (if isFn fn then some (barRead s fn off len) else none)

def execHostLinkTrainDown (width : Nat) (s : State) : Host.Outcome State Fault Refusal :=
  happen s (if width < s.hostLink && [1, 2, 4, 8].contains width then some { s with hostLink := width } else none)

def execMgmtIdentity (s : State) : Host.Outcome State Fault Refusal :=
  happen s (if executing s 1 then some (finish s 0 (serial ++ fit 97 Config.publicKey)) else none)

def execMgmtAttest (s : State) : Host.Outcome State Fault Refusal :=
  happen s (if executing s 2 then some (finish s 0 (attest s)) else none)

def execMgmtErrorRecord (s : State) : Host.Outcome State Fault Refusal :=
  happen s (if executing s 3 then
    some (match s.errors[s.mgmt.arg]? with
      | some e => finish s 0 (errBytes e)
      | none => finish s 3 [])
  else none)

def execMgmtSetScrubber (s : State) : Host.Outcome State Fault Refusal :=
  happen s (if executing s 4 then some (setScrubber s) else none)

def execMgmtSetMatrixIdle (s : State) : Host.Outcome State Fault Refusal :=
  happen s (if executing s 5 then some (setIdle s) else none)

def execMgmtPowerReading (s : State) : Host.Outcome State Fault Refusal :=
  happen s (if executing s 6 then some (powerReading s) else none)

def execMgmtCommandRefused (word : W64) (s : State) : Host.Outcome State Fault Refusal := happen s (refuse s word)

end Sys2Proof.Machine
end

