-- ==== Sys2Proof/Machine/Integer.lean ====
section
/-! DEFINITION. Integer and address instructions (R108 to R115). -/

namespace Sys2Proof.Machine

open Operands

namespace Alu

/-- R109: the high half of the exact product. -/
def mulh (w : Nat) (signed : Bool) (a b : BitVec w) : BitVec w :=
  if signed then ((a.signExtend (2 * w) * b.signExtend (2 * w)) >>> w).truncate w
  else ((a.zeroExtend (2 * w) * b.zeroExtend (2 * w)) >>> w).truncate w

/-- R110: the quotient truncated toward zero, and its two fixed cases. -/
def div (w : Nat) (signed : Bool) (a b : BitVec w) : BitVec w :=
  if b = 0 then BitVec.allOnes w else if signed then a.sdiv b else a.udiv b

def min (w : Nat) (signed : Bool) (a b : BitVec w) : BitVec w :=
  if (if signed then a.slt b else a.ult b) then a else b
def max (w : Nat) (signed : Bool) (a b : BitVec w) : BitVec w :=
  if (if signed then a.slt b else a.ult b) then b else a

/-- R111: counts are unsigned and may pass the width. -/
def shl (w : Nat) (a : BitVec w) (n : W32) : BitVec w := if n.toNat < w then a <<< n.toNat else 0
def shr (w : Nat) (a : BitVec w) (n : W32) : BitVec w := if n.toNat < w then a >>> n.toNat else 0
def sar (w : Nat) (a : BitVec w) (n : W32) : BitVec w :=
  if n.toNat < w then a.sshiftRight n.toNat else if a.msb then BitVec.allOnes w else 0

/-- R112: position and effective length from the control word. -/
def fieldPos (ctl : W32) : Nat := Bits.field ctl 7 0
def fieldLen (w : Nat) (ctl : W32) : Nat :=
  let len := if w ≤ fieldPos ctl then 0 else Bits.field ctl 15 8
  Nat.min len (w - fieldPos ctl)

def bfx (w : Nat) (signed : Bool) (a : BitVec w) (ctl : W32) : BitVec w :=
  let len := fieldLen w ctl
  let f := a.toNat / 2 ^ fieldPos ctl % 2 ^ len
  if signed && decide (0 < len) && f.testBit (len - 1) then BitVec.ofInt w (f - (2 ^ len : Nat)) else BitVec.ofNat w f

def bfi (w : Nat) (a b : BitVec w) (ctl : W32) : BitVec w :=
  let mask := BitVec.ofNat w ((2 ^ fieldLen w ctl - 1) * 2 ^ fieldPos ctl)
  (a &&& ~~~mask) ||| ((b <<< fieldPos ctl) &&& mask)

end Alu

def execMov (ty : IType) (o : Opds) (s : State) : Host.Outcome State Fault Refusal :=
  issue (.mov ty o) s (int1 ty (fun _ _ a => a) o)

/-- R114. -/
def execMovi (ty : IType) (form : MoviForm) (o : Opds) (s : State) : Host.Outcome State Fault Refusal :=
  issue (.movi ty form o) s fun s =>
    match form with
    | .whole => int1 ty (fun _ _ a => a) o s
    | .lo => .done (write s o (putInt .n64 o.d) fun g _ => Bits.join (Bits.hi (g.rk o.d.val)) o.imm)
    | .hi => .done (write s o (putInt .n64 o.d) fun g _ => Bits.join o.imm (Bits.lo (g.rk o.d.val)))

def execIadd (ty : IType) (o : Opds) (s : State) : Host.Outcome State Fault Refusal :=
  issue (.iadd ty o) s (int2 ty (fun _ _ a b => a + b) o)

def execIsub (ty : IType) (o : Opds) (s : State) : Host.Outcome State Fault Refusal :=
  issue (.isub ty o) s (int2 ty (fun _ _ a b => a - b) o)

def execImul (ty : IType) (o : Opds) (s : State) : Host.Outcome State Fault Refusal :=
  issue (.imul ty o) s (int2 ty (fun _ _ a b => a * b) o)

def execImulh (ty : IType) (o : Opds) (s : State) : Host.Outcome State Fault Refusal :=
  issue (.imulh ty o) s (int2 ty Alu.mulh o)

def execImad (ty : IType) (o : Opds) (s : State) : Host.Outcome State Fault Refusal :=
  issue (.imad ty o) s (int3 ty (fun _ _ a b c => a * b + c) o)

def execIdiv (ty : IType) (o : Opds) (s : State) : Host.Outcome State Fault Refusal :=
  issue (.idiv ty o) s (int2 ty Alu.div o)

def execImin (ty : IType) (o : Opds) (s : State) : Host.Outcome State Fault Refusal :=
  issue (.imin ty o) s (int2 ty Alu.min o)

def execImax (ty : IType) (o : Opds) (s : State) : Host.Outcome State Fault Refusal :=
  issue (.imax ty o) s (int2 ty Alu.max o)

def execIabs (ty : IType) (o : Opds) (s : State) : Host.Outcome State Fault Refusal :=
  issue (.iabs ty o) s (int1 ty (fun _ _ a => if a.msb then -a else a) o)

def execIneg (ty : IType) (o : Opds) (s : State) : Host.Outcome State Fault Refusal :=
  issue (.ineg ty o) s (int1 ty (fun _ _ a => -a) o)

def execAnd (ty : IType) (o : Opds) (s : State) : Host.Outcome State Fault Refusal :=
  issue (.and ty o) s (int2 ty (fun _ _ a b => a &&& b) o)

def execOr (ty : IType) (o : Opds) (s : State) : Host.Outcome State Fault Refusal :=
  issue (.or ty o) s (int2 ty (fun _ _ a b => a ||| b) o)

def execXor (ty : IType) (o : Opds) (s : State) : Host.Outcome State Fault Refusal :=
  issue (.xor ty o) s (int2 ty (fun _ _ a b => a ^^^ b) o)

def execShl (ty : IType) (o : Opds) (s : State) : Host.Outcome State Fault Refusal :=
  issue (.shl ty o) s (intCtl ty (fun w _ => Alu.shl w) o)

def execShr (ty : IType) (o : Opds) (s : State) : Host.Outcome State Fault Refusal :=
  issue (.shr ty o) s (intCtl ty (fun w _ => Alu.shr w) o)

def execSar (ty : IType) (o : Opds) (s : State) : Host.Outcome State Fault Refusal :=
  issue (.sar ty o) s (intCtl ty (fun w _ => Alu.sar w) o)

def execBfx (ty : IType) (o : Opds) (s : State) : Host.Outcome State Fault Refusal :=
  issue (.bfx ty o) s (intCtl ty Alu.bfx o)

/-- R112; the control stands in field C. -/
def execBfi (ty : IType) (o : Opds) (s : State) : Host.Outcome State Fault Refusal :=
  issue (.bfi ty o) s fun s =>
    .done (write s o (putInt ty o.d) fun g i =>
      let ctl := get32 ty.signed o g o.c i
      at2 ty (fun w _ a b => Alu.bfi w a b ctl) (getInt ty o g o.a i) (getInt ty o g o.b i))

def execPopc (ty : IType) (o : Opds) (s : State) : Host.Outcome State Fault Refusal :=
  issue (.popc ty o) s (int1 ty (fun w _ a => BitVec.ofNat w (Bits.popcount w a.toNat)) o)

def execClz (ty : IType) (o : Opds) (s : State) : Host.Outcome State Fault Refusal :=
  issue (.clz ty o) s (int1 ty (fun w _ a => BitVec.ofNat w (Bits.leadingZeros w a.toNat)) o)

def execBrev (ty : IType) (o : Opds) (s : State) : Host.Outcome State Fault Refusal :=
  issue (.brev ty o) s (int1 ty (fun w _ a => BitVec.ofNat w (Bits.reverse w a.toNat)) o)

/-- R113. -/
def execIcmp (ty : IType) (o : Opds) (s : State) : Host.Outcome State Fault Refusal :=
  issue (.icmp ty o) s fun s =>
    let g := s.grp
    .done (Flags.setLanes s o.d o.guard fun i =>
      Flags.icmpAt ty (Forms.code o.c) (getInt ty o g o.a i) (getInt ty o g o.b i))

def execSel (ty : IType) (o : Opds) (s : State) : Host.Outcome State Fault Refusal :=
  issue (.sel ty o) s fun s =>
    .done (write s o (putInt ty o.d) fun g i =>
      if Bits.has (g.rp o.c.val) i then getInt ty o g o.a i else getInt ty o g o.b i)

/-- R115. -/
def execLea (ty : IType) (sh : BitVec 2) (o : Opds) (s : State) : Host.Outcome State Fault Refusal :=
  issue (.lea ty sh o) s (int2 ty (fun _ _ a b => a + (b <<< sh.toNat)) o)

end Sys2Proof.Machine
end

