-- ==== Sys2Proof/Machine/Upkeep.lean ====
section
/-! DEFINITION. The memory's own upkeep and spare units (R374 to R391), the error history (R417), bring-up and power (R412
to R415). -/

namespace Sys2Proof.Machine

open Sys2Proof (SMap)

namespace Up

/-! ### Scrubbing (R377, R382 to R384) -/

/-- The rows of a channel's reserve in which lines lie that have been moved there (R380). -/
def movedRows (s : State) (c : Nat) : List Nat :=
  ((s.places.filter fun e => e.2.chan == c && decide (Config.channelLines ≤ e.2.off)).map fun e => e.2.off / Config.rowLines).eraseDups

/-- The rows that a pass reads: those of data and parity, a replaced one where it lies now, and reserve rows in use otherwise. -/
def inPass (s : State) (c row : Nat) : Bool := decide (row < Config.dataRows) || (movedRows s c).contains row

/-- The places of a row that the stack reports uncorrectable. -/
def sickSpots (s : State) (c row : Nat) : List Nat :=
  ((s.badSectors.map (· / 4)).eraseDups.filter fun x => x / 2 ^ 25 == c && x % 2 ^ 25 / Config.rowLines == row)

/-- Whether what lies at a sick place cannot be reconstructed: a data line, or the parity of a stripe. -/
def lostSpot (s : State) (c off : Nat) : Bool :=
  if c = parityAt s c off then (mates s c off).any fun l => down s (channelAt s l) || sick s l
  else (occupant s c off).any (lostLine s)

/-- The sick places of a row, as the controller meets them: each that can be reconstructed is written back (R376, R382). -/
def mendRow (s : State) (c row : Nat) : State :=
  (sickSpots s c row).foldl (fun s x =>
    let off := x % 2 ^ 25
    let t := match occupant s c off with
      | some l => countRebuild s l
      | none => s
    if lostSpot s c off then t else { t with badSectors := t.badSectors.filter fun y => y / 4 != x }) s

/-- What a record says of a row's uncorrectable data: the address of its first sick line, else the row. -/
def sickAddress (s : State) (c row : Nat) : Nat :=
  ((sickSpots s c row).findSome? fun x => occupant s c (x % 2 ^ 25)).elim row fun l => l * 128

/-- Whether the banks of a row's stripes, which a reconstruction reads, wait for a refresh. -/
def stripeWaits (s : State) (c row : Nat) : Bool :=
  (List.range 16).any fun i => refreshDue s (bankKey (groupOf c * 16 + i) (row % Config.banks))

/-- Whether reading a row waits for a refresh: of its bank, and of those of its stripes where it is to be reconstructed (R385). -/
def scrubWaits (s : State) (c row : Nat) : Bool :=
  refreshDue s (bankKey c (row % Config.banks)) || (!(sickSpots s c row).isEmpty && stripeWaits s c row)

/-- The scrubber reads a row, once in a pass (R382). A sector that the stack can no longer correct is found, whatever else is; where
none is known and one is found, which it is, is free; it is reconstructed at once unless a bank of its stripe has to be refreshed first. How many errors the stack corrects in a row is free too. Data under way is
not touched: a scrub never overwrites newer data. -/
def scrub (s : State) (c row : Nat) (seen : ReadOutcome) : Option State :=
  let x := channel s c
  if inService s c && s.scrubctl.getLsbD 0 && !x.scrubbed.contains row && inPass s c row && !scrubWaits s c row then
    let known := !(sickSpots s c row).isEmpty
    let s := setChannel s c { x with scrubbed := row :: x.scrubbed }
    some (match (if known then .uncorrectable else seen) with
      | .clean => s
      | .correctable =>
        let n := 1 + Config.freeNat s.choice c % (4 * Config.rowLines)
        noteCorrected { setChannel s c { channel s c with errors := SMap.put x.errors row (SMap.get 0 x.errors row + n) } with
          choice := s.choice + 1 } 6 (whereChannel c) n
      | .uncorrectable =>
        let at' := spot c (row * Config.rowLines + Config.freeNat s.choice c % Config.rowLines)
        let s := if known then s else { s with badSectors := 4 * at' :: s.badSectors, choice := s.choice + 1 }
        note (if stripeWaits s c row then s else mendRow s c row) 2 6 (whereChannel c) (sickAddress s c row))
  else none

/-- A pass ends once every row of every channel in service has been read; the next begins. -/
def passEnd (s : State) : Option State :=
  if (List.range 384).all fun c => !inService s c || (decide (Config.dataRows ≤ ((channel s c).scrubbed.filter (· < Config.dataRows)).length)
      && (movedRows s c).all (channel s c).scrubbed.contains) then
    let s := { s with passStart := s.gtime
                      channels := s.channels.map fun e => (e.1, { e.2 with scrubbed := [], errors := [], banks := [] }) }
    some (note s 8 6 0 0)
  else none

/-- A row of a channel's reserve, in the bank of a row, that nothing uses. -/
def freeRow (s : State) (c row : Nat) : Option Nat :=
  ((List.range Config.reserveRows).map (Config.dataRows + ·)).find? fun r =>
    r % Config.banks == row % Config.banks && ((channel s c).rows.all fun e => e.2 != r) && !(movedRows s c).contains r

/-- The replaced rows of a channel once `row` is mapped to reserve row `r`: a reserve row that stood in for it before is worn, and stays
out of use under its own number. -/
def mapRow (rows : SMap Nat) (row r : Nat) : SMap Nat :=
  SMap.put (match SMap.get? rows row with
    | some old => SMap.put rows old old
    | none => rows) row r

/-- A row with a second correctable error within one pass is replaced from the reserve, in the same bank, corrected on the way, as
long as that lasts (R377), once no bank it reads has to be refreshed first (R385); what cannot be reconstructed keeps failing check bits
(R371). At a quarter of the reserve the channel fails (R378). -/
def replaceRow (s : State) (c row : Nat) : Option State :=
  let x := channel s c
  if inService s c && 2 ≤ SMap.get 0 x.errors row && x.rows.length < Config.reserveRows && !scrubWaits s c row then
    (freeRow s c row).map fun r =>
      let t := mendRow s c row
      let x := channel t c
      let t := note (setChannel t c { x with rows := mapRow x.rows row r, errors := SMap.erase x.errors row }) 3 6 (whereChannel c) row
      if Config.reserveRows ≤ 4 * (channel t c).rows.length then markFailed t c else t
  else none

/-! ### Retiring a channel (R378 to R381) -/

/-- A channel is marked failed by its training or a link check (R378). -/
def failChannel (s : State) (c : Nat) : Option State :=
  if inService s c && !(channel s c).failed then some (markFailed s c) else none

/-- Free reserve of a die outside a channel's group, in 1/65536 MiB of data under parity (R379). -/
def reserve (s : State) (c : Nat) : Nat :=
  let out := (List.range 384).filter fun d => dieOf d == dieOf c && groupOf d != groupOf c
  let used := (out.map fun d => 60 * 65536 * (channel s d).rows.length / Config.reserveRows).foldl (· + ·) 0
  let gone := ((List.range 384).filter fun d => dieOf d == dieOf c && ((channel s d).retiring || (channel s d).retired)).length
  out.length * 60 * 65536 - used - gone * 1984 * 65536

/-- Whether a channel holds its group's parity now. -/
def holdsParity (s : State) (c : Nat) : Bool := c == parityAt s c Config.channelLines

/-- The channels of a group that can take its parity over from `c`. -/
def heirs (s : State) (c : Nat) : List Nat :=
  ((List.range 16).map fun i => groupOf c * 16 + i).filter fun d => d != c && !(channel s d).failed && !(channel s d).retired

/-- The reserve check of a failed channel: the rebuild starts, or the history records the refusal. A parity channel's part goes to
another channel of its group, chosen freely, whose lines are moved in its place. -/
def retireStart (s : State) (c : Nat) : Option State :=
  let x := channel s c
  if inService s c && x.failed && !x.retiring then
    if 1984 * 65536 ≤ reserve s c then
      let h := heirs s c
      some (setChannel s c { x with
        retiring := true, heir := if holdsParity s c then h[Config.freeNat s.choice c % h.length]? else none })
    else if x.refused then none
    else some (note (setChannel s c { x with refused := true }) 6 6 (whereChannel c) 0)
  else none

/-- The channels to whose reserve a line of channel `c` may move: in service on its die, outside its group, neither failed nor about
to leave, and no parity channels (R379). -/
def homes (s : State) (c : Nat) : List Nat :=
  (List.range 384).filter fun d =>
    dieOf d == dieOf c && groupOf d != groupOf c && !(channel s d).failed && !(channel s d).retired && !holdsParity s d

/-- A free place in the reserve of a channel, in a bank where one is asked for. -/
def freePlace (s : State) (d : Nat) (bank : Option Nat) : Option Place :=
  ((List.range Config.reserveLines).map (Config.channelLines + ·)).findSome? fun off =>
    if (bank.all fun b => bankOf off == b) && ((channel s d).rows.all fun e => e.2 != off / Config.rowLines)
        && (occupant s d off).isNone then some ⟨d, off⟩ else none

/-- A free place for a line of channel `c`, in a channel chosen freely (R380). -/
def anyPlace (s : State) (c line : Nat) : Option Place :=
  let l := homes s c
  let k := Config.freeNat s.choice line % l.length
  (l.drop k ++ l.take k).findSome? fun d => freePlace s d none

/-- Where the lines of a line's tensor column have gone that have left channel `c`'s group already (R381). -/
def kinPlace (s : State) (c line : Nat) : Option Place :=
  ((s.leads.filter fun e => e.1 != line && some e.2 == SMap.get? s.leads line).map fun e => place s e.1).find? fun p =>
    (homes s c).contains p.chan

/-- A line is rebuilt and switched to a new place (R380). What cannot be reconstructed keeps failing check bits (R371). -/
def switch (s : State) (line : Nat) (p : Place) : State :=
  let old := place s line
  let bad := if lostLine s line then unitsOf line else []
  { s with places := SMap.put s.places line p
           dramBad := bad ++ s.dramBad.filter (!bad.contains ·)
           badSectors := s.badSectors.filter fun x => x / 4 != spot old.chan old.off }

/-- One line is rebuilt and switched, where its banks, its stripe's and those of its new place and that one's parity may be used (R385). -/
def moveTo (s : State) (line : Nat) (p : Place) : Option State :=
  if refreshWaits s line || refreshDue s (bankOfPlace p) || refreshDue s (bankKey (parityAt s p.chan p.off) (bankOf p.off)) then none
  else some (switch s line p)

/-- One line of channel `c` moves: to the bank where lines of its tensor column have gone (R381), in which another line makes room for it
where its reserve is full, else to a free place. -/
def rebuildLine (s : State) (c line : Nat) : Option State :=
  match kinPlace s c line with
  | none => (anyPlace s c line).bind (moveTo s line)
  | some p =>
    match freePlace s p.chan (some (bankOf p.off)) with
    | some q => moveTo s line q
    | none =>
      (Bnk.spareSpot s p (s.leads.map Prod.fst) (Config.freeNat s.choice line)).bind fun q =>
        (occupant s q.chan q.off).bind fun l => (anyPlace s c l).bind fun r => (moveTo s l r).bind fun t => moveTo t line q

/-- The lines that a channel still holds in its reserve. -/
def strays (s : State) (c : Nat) : List Nat := (s.places.filter fun e => e.2.chan == c).map Prod.fst

/-- One line of the channel, or of the one that takes its parity over, is rebuilt and switched to its new place, its stripe re-formed
with it; after the last offset and the last line in the reserve the channel leaves service (R380). -/
def moveLine (s : State) (c : Nat) : Option State :=
  let x := channel s c
  let src := x.heir.getD c
  if inService s c && x.retiring then
    if x.rebuilt < Config.channelLines then
      let t := match occupant s src x.rebuilt with
        | some l => rebuildLine s c l
        | none => some s
      t.map fun t => setChannel t c { x with rebuilt := x.rebuilt + 1 }
    else match strays s src with
      | l :: _ => rebuildLine s c l
      | [] => some (note (setChannel s c { x with retiring := false, retired := true }) 5 6 (whereChannel c) 0)
  else none

/-! ### Refresh (R385, R386) -/

/-- A bank's refresh is postponed once more, up to its limit. -/
def postpone (s : State) (c b : Nat) : State :=
  let k := bankKey c b
  if c < 384 && b < 1024 && !refreshDue s k then { s with postponed := SMap.put s.postponed k (SMap.get 0 s.postponed k + 1) } else s

/-- A bank at its limit is refreshed ahead of all other work (R385); what it delays goes on with the same result. -/
def refresh (s : State) (c b : Nat) : Option State :=
  if c < 384 && b < 1024 && refreshDue s (bankKey c b) then
    some { s with refreshAt := SMap.put s.refreshAt (bankKey c b) s.gtime, postponed := SMap.erase s.postponed (bankKey c b) }
  else none

/-- An activation-count alert: at its limit, the bank's refresh first; then refresh management, while bank operations on the
channel pause (R386). -/
def alert (s : State) (c b : Nat) : Option State :=
  if c < 384 && b < 1024 then
    let s := (refresh s c b).getD s
    some { setChannel s c { channel s c with pause := s.gtime + Config.backoff } with
      rfmAt := SMap.put s.rfmAt (bankKey c b) s.gtime }
  else none

/-! ### Clusters (R387 to R389) -/

/-- Report a lost walk or range. -/
def reportLost (s : State) (ctx : Nat) (handle : Nat) : State := s.postEvent ctx { kind := 7, value := handle }

/-- The walks of a failed cluster are closed by the dispatcher and reported. -/
def loseWalks (s : State) (cl : Nat) : State :=
  (s.clusterAt cl).walks.foldl (fun s e =>
    reportLost (Wk.close s cl e.1 e.2) e.2.ctx (Wk.handle cl e.1 e.2.seq e.2.gen).toNat) s

/-- Its ranges are reported. -/
def loseRanges (s : State) (cl : Nat) : State :=
  let c := s.clusterAt cl
  c.ranges.foldl (fun s e => reportLost s e.2.ctx (Ctl.rangeHandle (SMap.get 0 c.rangeSeq e.1) e.1 cl).toNat) s

/-- SEQNO of every slot one above the value held. -/
def bump (n : Nat) (m : SMap Nat) : SMap Nat := (List.range n).map fun i => (i, (SMap.get 0 m i + 1) % 65536)

/-- A block fetch that a lost group was handed out goes on for another group of the walk's context, on its cluster if one is there;
with none it has stopped (log 53). -/
def adopt (s : State) (cl : Nat) (w : Walk) : Walk :=
  let kin := (s.groups.map Prod.fst).filter fun u => s.ctxOf u == w.ctx
  let heir := (kin.find? fun u => s.clusterOf u == cl).or kin.head?
  { w with states := w.states.map fun n =>
      if n.2.given && !n.2.fetched && (SMap.get? s.groups n.2.by').isNone then
        (n.1, match heir with | some u => { n.2 with by' := u } | none => { n.2 with fetched := true })
      else n }

def adoptAll (s : State) : State :=
  { s with clusters := s.clusters.map fun c => (c.1, { c.2 with walks := c.2.walks.map fun w => (w.1, adopt s c.1 w.2) }) }

/-- The teams on a cluster are lost with their groups and what its cores and units held; a launch that has no team left then loses
its walks and ranges elsewhere (R198, R304). -/
def loseTeams (s : State) (cl : Nat) : State :=
  let ts := (s.teams.filter fun t => t.2.core / 4 == cl)
  let here (t : Nat) : Bool := ts.any fun x => x.1 == t
  let c := s.clusterAt cl
  let s := { s with
    groups := s.groups.filter fun g => !here g.2.team
    tickets := s.tickets.filter fun t => t.2.entered || !here (s.grpAt t.2.grp).team
    teams := s.teams.filter fun t => !here t.1
    launches := s.launches.map fun l =>
      (l.1, { l.2 with live := l.2.live - (ts.filter fun t => t.2.launch == l.1).length
                       missing := l.2.missing ++ (ts.filter fun t => t.2.launch == l.1).map fun t => t.2.id })
    cores := s.cores.filter fun k => k.1 / 4 != cl
    owners := s.owners.filter fun e => e.2.core / 4 != cl
    clusters := SMap.put s.clusters cl { walkSeq := bump 4 c.walkSeq, rangeSeq := bump 16 c.rangeSeq } }
  Wk.closeDue ((ts.map fun t => t.2.launch).eraseDups.foldl (fun s l =>
    if (SMap.get? s.launches l).isSome && Dsp.teamless s l (s.launchAt l) then Dsp.dropUnits s l else s) (adoptAll s))

/-- A cluster fails: the die's spare takes its index, or the die goes on without it. -/
def failCluster (s : State) (cl : Nat) : Option State :=
  if cl < 80 && !s.lostClusters.contains cl then
    let s := loseTeams (loseRanges (loseWalks s cl) cl) cl
    let die := cl / 20
    some (if s.sparesUsed.contains die then { s with lostClusters := cl :: s.lostClusters }
          else note { s with sparesUsed := die :: s.sparesUsed } 7 1 (whereOf die cl) 0)
  else none

/-! ### Slices (R390) -/

/-- A slice is retired: its ownerships end, its versions spill, its lines are written back, and the spare starts from its
largest frontier. -/
def retireSlice (s : State) (x : Nat) : Option State :=
  let die := x / 96
  if x < 384 && SMap.get 0 s.sliceSpares die < 4 then
    let s := (s.owners.filter fun e => s.homeOf e.1 == x).foldl (fun s e => s.endOwnership e.1) s
    let s := (s.versions.filter fun e => s.homeOf (Hyp.keyWord e.1 / 32) == x).foldl (fun s e => Hyp.spill s e.1) s
    let s := (s.dramAt.filter fun e => s.homeOf e.1 == x).foldl (fun s e => Coh.writeBack s e.1) s
    let s := { s with l2 := s.l2.filter fun l => s.homeOf l != x }
    let top := (s.frontier.filter fun e => s.homeOf e.1 == x).foldl (fun t e => Nat.max t e.2) (SMap.get 0 s.sliceFloor x)
    let spares := SMap.put s.sliceSpares die (SMap.get 0 s.sliceSpares die + 1)
    some (note { s with sliceFloor := SMap.put s.sliceFloor x top, sliceSpares := spares } 7 4 (whereOf die x) 0)
  else none

/-- A slice fails with dirty lines: a module fault, after which nothing runs until the module is reset (R392). -/
def failSlice (s : State) (x : Nat) : Option State :=
  if x < 384 && !s.slicesLost.contains x then
    some (note { s with slicesLost := x :: s.slicesLost, running := false } 2 4 (whereOf (x / 96) x) 0)
  else none

/-! ### Bring-up (R412, R413) -/

/-- What outlives a reset: memory with the state of its DRAM, the error history, and the count of resets. DESIGN CHOICE (log 82):
channels that failed or were retired stay so. -/
def afterReset (s : State) (resets : Nat) : State :=
  { State.reset with
    mem := s.mem, badUnits := s.badUnits, badSectors := s.badSectors, places := s.places, leads := s.leads
    dramBad := s.badUnits ++ s.dramBad.filter fun x => !holds s (x / 16)
    channels := s.channels.map fun e => (e.1, { e.2 with scrubbed := [], errors := [], banks := [], pause := 0 })
    errors := s.errors, corrected := s.corrected, resets := resets
    choice := s.choice + 1, nextId := s.nextId, turns := s.turns }

/-- BOOTSTAT after a failing step. -/
def stopAt (s : State) (code : Nat) : State := { s with mgmt := { s.mgmt with boot := code } }

/-- Step 7: every descriptor is read. -/
def readAll (s : State) : State := (List.range 256).foldl Ctx.readDesc s

/-- Whether descriptor 0 stops bring-up. -/
def noKernel (s : State) : Bool :=
  let d := s.readBytes Config.ctxtBase 128
  Ctx.malformed d || Dsp.bytesAt d 0 4 != 1 || s.badAt Config.ctxtBase 128

/-- Channels that fail training, each once. -/
def untrained (n : Nat) : List Nat := ((Config.bootChannels n).filter (· < 384)).eraseDups

/-- Step 4: channels that fail training are marked failed; it fails where a parity group has two of them. -/
def train (s : State) : State := (untrained s.resets).foldl (fun s c => (failChannel s c).getD s) s
def pairFails (n : Nat) : Bool := (untrained n).any fun c => (untrained n).any fun d => c != d && groupOf c == groupOf d

/-- Step 5: a spare of a die takes the place of a unit that fails self-test; which unit, as the record names it, is free (R417). -/
def substitute (s : State) (n : Nat) : State :=
  (List.range 4).foldl (fun s d =>
    let k := Config.freeNat s.choice d
    let s := if Config.bootClusters n d = 0 then s
      else note { s with sparesUsed := s.sparesUsed ++ [d] } 7 1 (whereOf d (20 * d + k % 20)) 0
    let m := Nat.min 4 (Config.bootSlices n d)
    (List.range m).foldl (fun s i => note s 7 4 (whereOf d (96 * d + (k + i) % 96)) 0)
      (if m = 0 then s else { s with sliceSpares := SMap.put s.sliceSpares d m })) s
def poorDie (n : Nat) : Bool :=
  (List.range 4).any fun d => decide (1 < Config.bootClusters n d) || decide (4 < Config.bootSlices n d)

/-- Bring-up: R412's steps in order. A failing first step leaves no link. -/
def bringUp (s : State) : State :=
  let n := s.resets
  if Config.bootFails 1 n then { s with hostLink := 0 }
  else if Config.bootFails 2 n then stopAt s 0x81
  else if Config.bootFails 3 n then stopAt s 0x82
  else
    let s := train s
    if pairFails n then stopAt s 0x83
    else
      let s := substitute s n
      if poorDie n then stopAt s 0x84
      else if Config.bootFails 6 n then stopAt s 0x85
      else
        let s := { s with gtime := 0, scrubctl := Config.imageScrubctl, mxIdle := Config.imageMxIdle, mxIdleWas := [] }
        if noKernel s then stopAt s 0x86 else { stopAt (readAll s) 1 with running := true }

/-- Power-on: the machine as it is after reset comes up. -/
def powerOn (s : State) : State := bringUp (afterReset s (s.resets + 1))

/-- The same, after a module reset from the host link. -/
def hostReset (s : State) : State := bringUp (afterReset s (s.resets + 1))

/-! ### Power (R415) -/

/-- Whether some partition has issued at this gtime. -/
def issuedNow (s : State) : Bool := s.cores.any fun k => k.2.issuedAt.any fun e => e.2 == s.gtime + 1

/-- Issue cycles withheld in every partition: time passes, and nothing issues. A cycle in which a partition has issued already is none
of them. -/
def throttle (s : State) (n : Nat) : State :=
  { s with gtime := s.gtime + (if issuedNow s then 1 else 0) + n, withheld := s.withheld + n }

end Up

open Up

def execScrubRead (channel row : Nat) (seen : ReadOutcome) (s : State) : Host.Outcome State Fault Refusal :=
  happen s (scrub s channel row seen)

def execScrubPassEnd (s : State) : Host.Outcome State Fault Refusal := happen s (passEnd s)

def execRowReplace (channel row : Nat) (s : State) : Host.Outcome State Fault Refusal := happen s (replaceRow s channel row)

def execChannelFail (channel : Nat) (s : State) : Host.Outcome State Fault Refusal := happen s (failChannel s channel)

def execChannelRetireStart (channel : Nat) (s : State) : Host.Outcome State Fault Refusal := happen s (retireStart s channel)

def execChannelLineMove (channel : Nat) (s : State) : Host.Outcome State Fault Refusal := happen s (moveLine s channel)

def execRefreshForced (channel bank : Nat) (s : State) : Host.Outcome State Fault Refusal := happen s (refresh s channel bank)

def execActivationAlert (channel bank : Nat) (s : State) : Host.Outcome State Fault Refusal := happen s (alert s channel bank)

def execClusterFailure (cluster : Nat) (s : State) : Host.Outcome State Fault Refusal := happen s (failCluster s cluster)

def execSliceRetire (slice : Nat) (s : State) : Host.Outcome State Fault Refusal := happen s (retireSlice s slice)

def execSliceAbruptFailure (slice : Nat) (s : State) : Host.Outcome State Fault Refusal := happen s (failSlice s slice)

def execPowerOnReset (s : State) : Host.Outcome State Fault Refusal := happen s (some (powerOn s))

def execHostModuleReset (s : State) : Host.Outcome State Fault Refusal := happen s (some (hostReset s))

def execPowerLimitThrottle (cycles : Nat) (s : State) : Host.Outcome State Fault Refusal := happen s (some (throttle s cycles))

end Sys2Proof.Machine
end

