-- ==== Sys2Proof/Machine/Dispatch.lean ====
section
/-! DEFINITION. One arm per constructor of Instr: the meaning of each row of the opcode table. -/

namespace Sys2Proof.Machine

def exec (i : Instr) (s : State) : Host.Outcome State Fault Refusal :=
  match i with
  | .mov ty o => Sys2Proof.Machine.execMov ty o s
  | .movi ty form o => Sys2Proof.Machine.execMovi ty form o s
  | .iadd ty o => Sys2Proof.Machine.execIadd ty o s
  | .isub ty o => Sys2Proof.Machine.execIsub ty o s
  | .imul ty o => Sys2Proof.Machine.execImul ty o s
  | .imulh ty o => Sys2Proof.Machine.execImulh ty o s
  | .imad ty o => Sys2Proof.Machine.execImad ty o s
  | .idiv ty o => Sys2Proof.Machine.execIdiv ty o s
  | .imin ty o => Sys2Proof.Machine.execImin ty o s
  | .imax ty o => Sys2Proof.Machine.execImax ty o s
  | .iabs ty o => Sys2Proof.Machine.execIabs ty o s
  | .ineg ty o => Sys2Proof.Machine.execIneg ty o s
  | .and ty o => Sys2Proof.Machine.execAnd ty o s
  | .or ty o => Sys2Proof.Machine.execOr ty o s
  | .xor ty o => Sys2Proof.Machine.execXor ty o s
  | .shl ty o => Sys2Proof.Machine.execShl ty o s
  | .shr ty o => Sys2Proof.Machine.execShr ty o s
  | .sar ty o => Sys2Proof.Machine.execSar ty o s
  | .bfx ty o => Sys2Proof.Machine.execBfx ty o s
  | .bfi ty o => Sys2Proof.Machine.execBfi ty o s
  | .popc ty o => Sys2Proof.Machine.execPopc ty o s
  | .clz ty o => Sys2Proof.Machine.execClz ty o s
  | .brev ty o => Sys2Proof.Machine.execBrev ty o s
  | .icmp ty o => Sys2Proof.Machine.execIcmp ty o s
  | .sel ty o => Sys2Proof.Machine.execSel ty o s
  | .lea ty sh o => Sys2Proof.Machine.execLea ty sh o s
  | .fadd f r o => Sys2Proof.Machine.execFadd f r o s
  | .fsub f r o => Sys2Proof.Machine.execFsub f r o s
  | .fmul f r o => Sys2Proof.Machine.execFmul f r o s
  | .ffma f r o => Sys2Proof.Machine.execFfma f r o s
  | .fmin f r o => Sys2Proof.Machine.execFmin f r o s
  | .fmax f r o => Sys2Proof.Machine.execFmax f r o s
  | .fcmp f r o => Sys2Proof.Machine.execFcmp f r o s
  | .frcp f r o => Sys2Proof.Machine.execFrcp f r o s
  | .frsq f r o => Sys2Proof.Machine.execFrsq f r o s
  | .fsqrt f r o => Sys2Proof.Machine.execFsqrt f r o s
  | .fexp2 f r o => Sys2Proof.Machine.execFexp2 f r o s
  | .flog2 f r o => Sys2Proof.Machine.execFlog2 f r o s
  | .fsin f r o => Sys2Proof.Machine.execFsin f r o s
  | .fcos f r o => Sys2Proof.Machine.execFcos f r o s
  | .ftanh f r o => Sys2Proof.Machine.execFtanh f r o s
  | .hadd2 f r o => Sys2Proof.Machine.execHadd2 f r o s
  | .hmul2 f r o => Sys2Proof.Machine.execHmul2 f r o s
  | .hfma2 f r o => Sys2Proof.Machine.execHfma2 f r o s
  | .cvt f r o => Sys2Proof.Machine.execCvt f r o s
  | .cvtBlock f r o => Sys2Proof.Machine.execCvtBlock f r o s
  | .frnd f r o => Sys2Proof.Machine.execFrnd f r o s
  | .qswp dir o => Sys2Proof.Machine.execQswp dir o s
  | .qbcst lane o => Sys2Proof.Machine.execQbcst lane o s
  | .xshfl mode o => Sys2Proof.Machine.execXshfl mode o s
  | .xscan op o => Sys2Proof.Machine.execXscan op o s
  | .xred op o => Sys2Proof.Machine.execXred op o s
  | .vote op o => Sys2Proof.Machine.execVote op o s
  | .elect o => Sys2Proof.Machine.execElect o s
  | .gsample o => Sys2Proof.Machine.execGsample o s
  | .mset o => Sys2Proof.Machine.execMset o s
  | .madd o => Sys2Proof.Machine.execMadd o s
  | .msub o => Sys2Proof.Machine.execMsub o s
  | .mmul o => Sys2Proof.Machine.execMmul o s
  | .mscl o => Sys2Proof.Machine.execMscl o s
  | .msqr o => Sys2Proof.Machine.execMsqr o s
  | .mrcp o => Sys2Proof.Machine.execMrcp o s
  | .mexp o => Sys2Proof.Machine.execMexp o s
  | .mrelu o => Sys2Proof.Machine.execMrelu o s
  | .mlog o => Sys2Proof.Machine.execMlog o s
  | .mcol kind o => Sys2Proof.Machine.execMcol kind o s
  | .mchk o => Sys2Proof.Machine.execMchk o s
  | .mmaH o => Sys2Proof.Machine.execMmaH o s
  | .mmaKb o => Sys2Proof.Machine.execMmaKb o s
  | .mmaMom o => Sys2Proof.Machine.execMmaMom o s
  | .mmaMomQn o => Sys2Proof.Machine.execMmaMomQn o s
  | .thnd o => Sys2Proof.Machine.execThnd o s
  | .zclr o => Sys2Proof.Machine.execZclr o s
  | .zrd o => Sys2Proof.Machine.execZrd o s
  | .zwr o => Sys2Proof.Machine.execZwr o s
  | .zepi o => Sys2Proof.Machine.execZepi o s
  | .zepiHeap o => Sys2Proof.Machine.execZepiHeap o s
  | .zalloc o => Sys2Proof.Machine.execZalloc o s
  | .zfree o => Sys2Proof.Machine.execZfree o s
  | .mxfence o => Sys2Proof.Machine.execMxfence o s
  | .hpinit o => Sys2Proof.Machine.execHpinit o s
  | .hpread o => Sys2Proof.Machine.execHpread o s
  | .wkbegin o => Sys2Proof.Machine.execWkbegin o s
  | .walkSnapshotComplete cluster slot => Sys2Proof.Machine.execWalkSnapshotComplete cluster slot s
  | .wknext o => Sys2Proof.Machine.execWknext o s
  | .wknextMerge o => Sys2Proof.Machine.execWknextMerge o s
  | .walkBlockFetchComplete cluster slot node => Sys2Proof.Machine.execWalkBlockFetchComplete cluster slot node s
  | .wksubs q o => Sys2Proof.Machine.execWksubs q o s
  | .wksubsComplete grp op => Sys2Proof.Machine.execWksubsComplete grp op s
  | .wkpart o => Sys2Proof.Machine.execWkpart o s
  | .wkpartComplete grp op => Sys2Proof.Machine.execWkpartComplete grp op s
  | .smxmerge o => Sys2Proof.Machine.execSmxmerge o s
  | .smxmergeComplete grp op => Sys2Proof.Machine.execSmxmergeComplete grp op s
  | .wkdone o => Sys2Proof.Machine.execWkdone o s
  | .wkdoneComplete grp op => Sys2Proof.Machine.execWkdoneComplete grp op s
  | .wkend o => Sys2Proof.Machine.execWkend o s
  | .wkendComplete grp op => Sys2Proof.Machine.execWkendComplete grp op s
  | .wkswap o => Sys2Proof.Machine.execWkswap o s
  | .ld sc acq o => Sys2Proof.Machine.execLd sc acq o s
  | .st sc rel o => Sys2Proof.Machine.execSt sc rel o s
  | .gather sc o => Sys2Proof.Machine.execGather sc o s
  | .scatter sc o => Sys2Proof.Machine.execScatter sc o s
  | .atom wide op o => Sys2Proof.Machine.execAtom wide op o s
  | .fenceRel sc o => Sys2Proof.Machine.execFenceRel sc o s
  | .fenceAcq sc o => Sys2Proof.Machine.execFenceAcq sc o s
  | .fenceAr sc o => Sys2Proof.Machine.execFenceAr sc o s
  | .wait o => Sys2Proof.Machine.execWait o s
  | .cpLin o => Sys2Proof.Machine.execCpLin o s
  | .cpTile o => Sys2Proof.Machine.execCpTile o s
  | .cpGather o => Sys2Proof.Machine.execCpGather o s
  | .copyComplete grp op => Sys2Proof.Machine.execCopyComplete grp op s
  | .qpush o => Sys2Proof.Machine.execQpush o s
  | .queueSlotFill team queue slot => Sys2Proof.Machine.execQueueSlotFill team queue slot s
  | .qpop o => Sys2Proof.Machine.execQpop o s
  | .qallow o => Sys2Proof.Machine.execQallow o s
  | .pref o => Sys2Proof.Machine.execPref o s
  | .bmv o => Sys2Proof.Machine.execBmv o s
  | .bmvComplete grp op => Sys2Proof.Machine.execBmvComplete grp op s
  | .bfenceW o => Sys2Proof.Machine.execBfenceW o s
  | .bfenceR o => Sys2Proof.Machine.execBfenceR o s
  | .bfenceWr o => Sys2Proof.Machine.execBfenceWr o s
  | .bstat o => Sys2Proof.Machine.execBstat o s
  | .hopen o => Sys2Proof.Machine.execHopen o s
  | .henter o => Sys2Proof.Machine.execHenter o s
  | .hleave o => Sys2Proof.Machine.execHleave o s
  | .hresolveCfm o => Sys2Proof.Machine.execHresolveCfm o s
  | .hresolveCfx o => Sys2Proof.Machine.execHresolveCfx o s
  | .hresolveRef o => Sys2Proof.Machine.execHresolveRef o s
  | .hstat o => Sys2Proof.Machine.execHstat o s
  | .resolveBroadcastArrival rid core => Sys2Proof.Machine.execResolveBroadcastArrival rid core s
  | .resolveCoreDrainReport rid core => Sys2Proof.Machine.execResolveCoreDrainReport rid core s
  | .resolveSlicePerform rid slice => Sys2Proof.Machine.execResolveSlicePerform rid slice s
  | .resolveComplete rid => Sys2Proof.Machine.execResolveComplete rid s
  | .arenaReclaim ctx => Sys2Proof.Machine.execArenaReclaim ctx s
  | .orphanRedirect grp => Sys2Proof.Machine.execOrphanRedirect grp s
  | .bra h o => Sys2Proof.Machine.execBra h o s
  | .brx h o => Sys2Proof.Machine.execBrx h o s
  | .call h o => Sys2Proof.Machine.execCall h o s
  | .ret o => Sys2Proof.Machine.execRet o s
  | .regang o => Sys2Proof.Machine.execRegang o s
  | .groupStuckRelease grp => Sys2Proof.Machine.execGroupStuckRelease grp s
  | .exit o => Sys2Proof.Machine.execExit o s
  | .groupRetire grp => Sys2Proof.Machine.execGroupRetire grp s
  | .bar o => Sys2Proof.Machine.execBar o s
  | .barx o => Sys2Proof.Machine.execBarx o s
  | .barrierArrive grp => Sys2Proof.Machine.execBarrierArrive grp s
  | .cbar o => Sys2Proof.Machine.execCbar o s
  | .gbar o => Sys2Proof.Machine.execGbar o s
  | .spawn o => Sys2Proof.Machine.execSpawn o s
  | .launch o => Sys2Proof.Machine.execLaunch o s
  | .lqsignal o => Sys2Proof.Machine.execLqsignal o s
  | .rangeInit o => Sys2Proof.Machine.execRangeInit o s
  | .rangeTake o => Sys2Proof.Machine.execRangeTake o s
  | .rangeTakeServe grp op => Sys2Proof.Machine.execRangeTakeServe grp op s
  | .yield o => Sys2Proof.Machine.execYield o s
  | .life o => Sys2Proof.Machine.execLife o s
  | .rws o => Sys2Proof.Machine.execRws o s
  | .nop o => Sys2Proof.Machine.execNop o s
  | .trap o => Sys2Proof.Machine.execTrap o s
  | .rdsys o => Sys2Proof.Machine.execRdsys o s
  | .wrsys o => Sys2Proof.Machine.execWrsys o s
  | .tret o => Sys2Proof.Machine.execTret o s
  | .tlbinvPage o => Sys2Proof.Machine.execTlbinvPage o s
  | .tlbinvCtx o => Sys2Proof.Machine.execTlbinvCtx o s
  | .tlbinvAll o => Sys2Proof.Machine.execTlbinvAll o s
  | .tlbinvComplete grp op => Sys2Proof.Machine.execTlbinvComplete grp op s
  | .cacheopL1inv o => Sys2Proof.Machine.execCacheopL1inv o s
  | .cacheopIcinv o => Sys2Proof.Machine.execCacheopIcinv o s
  | .ctxsave o => Sys2Proof.Machine.execCtxsave o s
  | .teamSave team => Sys2Proof.Machine.execTeamSave team s
  | .ctxsaveComplete grp op => Sys2Proof.Machine.execCtxsaveComplete grp op s
  | .ctxload o => Sys2Proof.Machine.execCtxload o s
  | .groupRestoreResume grp => Sys2Proof.Machine.execGroupRestoreResume grp s
  | .cred op o => Sys2Proof.Machine.execCred op o s
  | .cbcast o => Sys2Proof.Machine.execCbcast o s
  | .cgather o => Sys2Proof.Machine.execCgather o s
  | .cwait o => Sys2Proof.Machine.execCwait o s
  | .collectiveCommit ctx ticket others => Sys2Proof.Machine.execCollectiveCommit ctx ticket others s
  | .collectiveTimeout ctx ticket => Sys2Proof.Machine.execCollectiveTimeout ctx ticket s
  | .collectiveMemberFailure ctx ticket rank => Sys2Proof.Machine.execCollectiveMemberFailure ctx ticket rank s
  | .skeinStart core => Sys2Proof.Machine.execSkeinStart core s
  | .skeinComplete core => Sys2Proof.Machine.execSkeinComplete core s
  | .matrixPowerGate core => Sys2Proof.Machine.execMatrixPowerGate core s
  | .loadAtHomeSlice grp op lane => Sys2Proof.Machine.execLoadAtHomeSlice grp op lane s
  | .loadComplete grp op lanes => Sys2Proof.Machine.execLoadComplete grp op lanes s
  | .storeAtHomeSlice grp op lane => Sys2Proof.Machine.execStoreAtHomeSlice grp op lane s
  | .storeStampReturn grp op => Sys2Proof.Machine.execStoreStampReturn grp op s
  | .l1LeaseExpiry core line => Sys2Proof.Machine.execL1LeaseExpiry core line s
  | .ownershipGrant grp op lane => Sys2Proof.Machine.execOwnershipGrant grp op lane s
  | .ownershipExpiry line => Sys2Proof.Machine.execOwnershipExpiry line s
  | .ownershipHandbackArrival line => Sys2Proof.Machine.execOwnershipHandbackArrival line s
  | .releasePerform grp op => Sys2Proof.Machine.execReleasePerform grp op s
  | .acquireWaitEnd grp op => Sys2Proof.Machine.execAcquireWaitEnd grp op s
  | .dispatcherRecordRead queue pos => Sys2Proof.Machine.execDispatcherRecordRead queue pos s
  | .teamPlace launch cores => Sys2Proof.Machine.execTeamPlace launch cores s
  | .placementAgeLimit launch => Sys2Proof.Machine.execPlacementAgeLimit launch s
  | .launchComplete launch => Sys2Proof.Machine.execLaunchComplete launch s
  | .hostRingDoorbell fn prod => Sys2Proof.Machine.execHostRingDoorbell fn prod s
  | .hostRingBaseWrite fn base => Sys2Proof.Machine.execHostRingBaseWrite fn base s
  | .hostRingLogWrite fn log => Sys2Proof.Machine.execHostRingLogWrite fn log s
  | .ringEntryConsume fn => Sys2Proof.Machine.execRingEntryConsume fn s
  | .hostBar2Write fn off bytes => Sys2Proof.Machine.execHostBar2Write fn off bytes s
  | .hostBar2Read fn off len => Sys2Proof.Machine.execHostBar2Read fn off len s
  | .hostLinkTrainDown width => Sys2Proof.Machine.execHostLinkTrainDown width s
  | .peerAccessArrival port vc ctx va kind bytes => Sys2Proof.Machine.execPeerAccessArrival port vc ctx va kind bytes s
  | .peerFlowTimeout port vc => Sys2Proof.Machine.execPeerFlowTimeout port vc s
  | .peerAccessTimeout grp op lane => Sys2Proof.Machine.execPeerAccessTimeout grp op lane s
  | .acountFlush cluster entry => Sys2Proof.Machine.execAcountFlush cluster entry s
  | .eventPostRetry ctx => Sys2Proof.Machine.execEventPostRetry ctx s
  | .uluberFlitRetry port => Sys2Proof.Machine.execUluberFlitRetry port s
  | .uluberLaneSpare port lane => Sys2Proof.Machine.execUluberLaneSpare port lane s
  | .uluberPortHalve port => Sys2Proof.Machine.execUluberPortHalve port s
  | .uluberPortDown port => Sys2Proof.Machine.execUluberPortDown port s
  | .gtimeOutOfSync => Sys2Proof.Machine.execGtimeOutOfSync s
  | .scrubRead channel row seen => Sys2Proof.Machine.execScrubRead channel row seen s
  | .scrubPassEnd => Sys2Proof.Machine.execScrubPassEnd s
  | .rowReplace channel row => Sys2Proof.Machine.execRowReplace channel row s
  | .channelFail channel => Sys2Proof.Machine.execChannelFail channel s
  | .channelRetireStart channel => Sys2Proof.Machine.execChannelRetireStart channel s
  | .channelLineMove channel => Sys2Proof.Machine.execChannelLineMove channel s
  | .refreshForced channel bank => Sys2Proof.Machine.execRefreshForced channel bank s
  | .activationAlert channel bank => Sys2Proof.Machine.execActivationAlert channel bank s
  | .clusterFailure cluster => Sys2Proof.Machine.execClusterFailure cluster s
  | .sliceRetire slice => Sys2Proof.Machine.execSliceRetire slice s
  | .sliceAbruptFailure slice => Sys2Proof.Machine.execSliceAbruptFailure slice s
  | .powerOnReset => Sys2Proof.Machine.execPowerOnReset s
  | .hostModuleReset => Sys2Proof.Machine.execHostModuleReset s
  | .powerLimitThrottle cycles => Sys2Proof.Machine.execPowerLimitThrottle cycles s
  | .mgmtIdentity => Sys2Proof.Machine.execMgmtIdentity s
  | .mgmtAttest => Sys2Proof.Machine.execMgmtAttest s
  | .mgmtErrorRecord => Sys2Proof.Machine.execMgmtErrorRecord s
  | .mgmtSetScrubber => Sys2Proof.Machine.execMgmtSetScrubber s
  | .mgmtSetMatrixIdle => Sys2Proof.Machine.execMgmtSetMatrixIdle s
  | .mgmtPowerReading => Sys2Proof.Machine.execMgmtPowerReading s
  | .gtimeBackInSync => Sys2Proof.Machine.execGtimeBackInSync s
  | .collectiveMismatch ctx ticket => Sys2Proof.Machine.execCollectiveMismatch ctx ticket s
  | .mgmtCommandRefused word => Sys2Proof.Machine.execMgmtCommandRefused word s

end Sys2Proof.Machine
end

