-- ==== Sys2Proof/Machine/Issue.lean ====
section
/-! DEFINITION. The issue cycle of a partition: which fragment issues (R293, R294), fetching its instruction or
pair (R49 to R55, R66, R67), and the redirection of an orphaned group in its place (R274). -/

namespace Sys2Proof.Machine

open Sys2Proof (SMap)

namespace Iss

/-! ### One fragment -/

/-- Select fragment `f` of group `u`. -/
def pick (s : State) (u f : Nat) : State :=
  { s with cur := { grp := u, frag := f, pc := (s.grpAt u).fragPc f, status := .none, on := true
                    asked := ((s.grpAt u).frag f).asked } }

/-- No fragment is selected; what became of the last one stands. -/
def drop (s : State) : State := { s with cur := { s.cur with on := false } }

/-- The fragment waits. -/
def held (s : State) : State := { s with cur := { s.cur with status := .held } }

/-- The first fetch of a checked transfer has been made. -/
def landed (s : State) : State :=
  s.setGrp (s.grp.setFrag s.cur.frag { s.grp.frag s.cur.frag with checkedFetch := false })

/-- The registers that the fields of a word name, its guard's among them, whether or not the word decodes (R56). -/
def named (w : BitVec 96) : List Forms.Reg :=
  ([(48, 16), (52, 24), (56, 32), (60, 40)].map fun x => (Bits.field w (x.1 + 3) x.1, Bits.field w (x.2 + 7) x.2)).filter
    (fun r => decide (1 ≤ r.1) && decide (r.1 ≤ 7)) ++ [(3, Bits.field w 14 12)]

/-- The registers of a pair do not meet (R66). A word that does not decode writes nothing, and touches what its fields name
(log 62). -/
def disjoint (w1 w2 : BitVec 96) : Bool :=
  let mine := match decode w1 with | some i => Forms.writes i | none => []
  let other := match decode w2 with | some j => Issue.touched j | none => named w2
  mine.all fun r => !other.contains r

/-- The issue class of a slot's word, by its major opcode (R66). -/
def classOf (w : BitVec 96) : Nat := Forms.issueClass (Bits.field w 7 0)

/-- Whether the classes of a pair are legal: one is X, the other L, M or S. -/
def classesOk (a b : Nat) : Bool := (a == 0 && 1 ≤ b && b ≤ 3) || (b == 0 && 1 ≤ a && a ≤ 3)

/-- R66 for slots `i` and `i + 1` of a line. -/
def pairLegal (line i : Nat) : Bool :=
  classesOk (classOf (Line.slot line i)) (classOf (Line.slot line (i + 1))) && !Line.paired line (i + 1)
    && disjoint (Line.slot line i) (Line.slot line (i + 1))

/-- The state of an outcome of a meaning; one that stops is passed on as it is. -/
abbrev Out := Host.Outcome State Fault Refusal

/-- Carry on with the next state. -/
def thenDo (r : Out) (f : State → Out) : Out :=
  match r with
  | .next s => f s
  | .fault x => .fault x
  | .refused x => .refused x

/-- Issue one word: the decoded instruction, or cause 0x40 (R63). -/
def single (s : State) (w : BitVec 96) : Out :=
  match decode w with
  | some i => exec i s
  | none => .next (Issue.trap s 0x40 0 s.cur.pc)

/-- The second slot of a pair is about to issue. -/
def second (s : State) (pc : W64) : State := { s with cur := { s.cur with pc := Line.next pc, status := .none } }

/-- Whether the selected fragment is held because its trap waits (R355). -/
def trapHeld (g : Group) (f : Nat) : Bool := g.hmode && (g.frag f).trapWaits

/-- The selected fragment is held with its trap waiting. -/
def heldTrap (s : State) : State :=
  held (s.setGrp (s.grp.setFrag s.cur.frag { s.grp.frag s.cur.frag with trapWaits := true }))

/-- A pair is held by its second instruction, which left `t`; a read that it has still to send to a peer is sent (R401). -/
def heldBy (s t : State) : State :=
  held (match t.cur.ask with
    | some va => s.ask s.cur.grp s.nextId va
    | none => s)

/-- A pair whose first instruction has trapped counts as two all the same (R67, log 63). -/
def countSecond (s : State) (f : Nat) : State := if s.grp.fragsInUse.contains f then Issue.tally 1 s else s

/-- Issue a pair (R67): neither issues while either is held. The second runs on what the first leaves, or is looked at on
the state before where the first traps. A pair whose second must trap and wait is held whole at its first slot (log 63). -/
def pair (s : State) (w1 w2 : BitVec 96) : Out :=
  thenDo (single s w1) fun s1 =>
    match s1.cur.status with
    | .issued => thenDo (single (second s1 s.cur.pc) w2) fun s2 =>
      if s2.cur.status != .held then .next s2
      else .next (if trapHeld s2.grp s.cur.frag then heldTrap s else heldBy s s2)
    | .trapped => thenDo (single (second s s.cur.pc) w2) fun s2 =>
      if s2.cur.status == .held && !trapHeld s2.grp s.cur.frag then .next (heldBy s s2) else .next (countSecond s1 s.cur.frag)
    | _ => .next s1

/-- Issue what stands in slot `i` of a line. -/
def slotIssue (s : State) (line i : Nat) : Out :=
  if Line.paired line i then
    if pairLegal line i then pair s (Line.slot line i) (Line.slot line (i + 1))
    else .next (Issue.trap s 0x42 0 s.cur.pc)
  else single s (Line.slot line i)

/-- The selected fragment fetches and issues: a failing fetch traps with TPC and TVAL the PC (R55). DEDUCED (log 14): a first fetch at
an ENTRY, TRAPVEC, ORPHANPC or SPAWN target with bits 63:56 set gives cause 0x20 by the address checks (R202), where BRA, CALL, BRX and
RET give 0x41 (R317). A line kept whose refetch fails is an uncorrectable error (R417). -/
def fetchIssue (s : State) : Out :=
  let pc := s.cur.pc
  let checked := (s.grp.frag s.cur.frag).checkedFetch
  match Line.slotOf pc with
  | none => .next (s.takeTrap (if checked then 0x41 else 0x48) pc.toNat pc)
  | some i =>
    match s.fetchLine s.cur.grp (s.privAt s.cur.grp s.cur.frag) (State.lineBase pc) with
    | .wait => .next (held s)
    | .fault c => .next ((s.noteFetch s.cur.grp (State.lineBase pc) c).takeTrap c pc.toNat pc)
    | .line n =>
      if checked && !Line.target n i then .next (s.takeTrap 0x41 pc.toNat pc)
      else slotIssue (landed (s.keepLine s.cur.grp (State.lineBase pc) n)) n i

/-- An orphaned group's fragment would issue: the redirection takes its place, and the issue is undone (R274). -/
def redirectIn (s : State) (u f : Nat) : Out := exec (.orphanRedirect u) (pick s u f)

/-- One fragment's try: it issues, traps, is redirected, or is found held. -/
def attempt (s : State) (u f : Nat) : Out :=
  thenDo (fetchIssue (pick s u f)) fun s1 =>
    if s1.cur.status != .held && (s.grpAt u).orphan.isSome then
      thenDo (redirectIn s u f) fun s2 => .next { s2 with cur := { s2.cur with status := .trapped } }
    else .next s1

/-- Whether a fragment might issue: it has quads that are not parked, it is not stopped, and no YIELD keeps it. -/
def open' (s : State) (g : Group) (f : Nat) : Bool :=
  g.fragQuads f != [] && !(g.frag f).stopped && decide ((g.frag f).notBefore ≤ s.gtime)

/-- Whether a fragment that might issue is held (R293). -/
def isHeld (s : State) (u f : Nat) : Bool :=
  trapHeld (s.grpAt u) f || (match attempt s u f with | .next t => t.cur.status == .held | _ => true)

/-! ### Rest for pre-emption (R307) -/

/-- Whether a fragment's next instruction is the first of a legal pair. -/
def pairNext (s : State) (u f : Nat) : Bool :=
  let pc := (s.grpAt u).fragPc f
  match Line.slotOf pc, s.fetchLine u (s.privAt u f) (State.lineBase pc) with
  | some i, .line n => Line.paired n i && pairLegal n i
  | _, _ => false

/-- Whether what a fragment would issue next goes beyond the lifeline bound, a pair counting as two (R67, R309). -/
def atBound (s : State) (u f : Nat) : Bool :=
  let n := ((s.grpAt u).frag f).count
  decide (Config.lifeBound ≤ n) || (n + 1 == Config.lifeBound && pairNext s u f)

/-- Stop a fragment for pre-emption. -/
def stop (s : State) (u f : Nat) : State :=
  let cut := (s.grpAt u).orphan.isNone && !isHeld s u f
  s.modGrp u fun g => g.setFrag f { g.frag f with stopped := true, cut := cut }

/-- A fragment of a team with a request pending rests where it is: held, at the lifeline bound, or of an orphaned group. -/
def rests (s : State) (u f : Nat) : Bool :=
  let g := s.grpAt u
  open' s g f && (g.orphan.isSome || atBound s u f || isHeld s u f)

/-- The groups of teams with a request pending, those that have exited among them: their operations drain too (R308). -/
def asked (s : State) : List Nat :=
  if s.teams.all fun t => !t.2.preempt then []
  else (s.groups.filter fun e => (s.teamAt e.2.team).preempt && !e.2.restoring).map Prod.fst

/-- The fragments of one group come to rest, and its operations are pulled forward when all have. -/
def restGroup (s : State) (u : Nat) : State :=
  ((s.grpAt u).fragsInUse.foldl (fun s f => if rests s u f then stop s u f else s) s).pullForward u

/-- An orphaned group none of whose fragments is ready, and none stopped, is redirected where it rests (R274). -/
def idleOrphan (s : State) (u : Nat) : Bool :=
  let g := s.grpAt u
  g.orphan.isSome && !g.restoring && !(s.teamOf u).preempt && g.fragsInUse.all fun f =>
    !(g.frag f).stopped && (!open' s g f || isHeld s u f)

/-- Ownerships whose lease has run out end (R219). -/
def endOwned (s : State) : State :=
  (s.owners.filter fun e => decide (e.2.expiry ≤ s.gtime)).foldl (fun s e => s.endOwnership e.1) s

/-- What does not fit gives way: lines of L1s, leaves of TLBs, lines and versions of slices (R13, R16, R268). -/
def fitAll (s : State) : State :=
  let l1s := (s.cores.map Prod.fst ++ s.owners.map fun e => e.2.core).eraseDups
  let s := l1s.foldl (fun s c => Coh.l1Fit s c ((s.coreAt c).l1.length + s.owners.length)) s
  let s := (s.clusters.map Prod.fst).foldl (fun s c => Coh.tlbFit s c (s.clusterAt c).tlb.length) s
  Hyp.fit (Coh.l2Fit s (s.dramAt.length + s.l2.length)) s.versions.length

/-- What follows every move: ownerships end, fragments rest for pre-emption, idle orphans are redirected, and caches shed what
they have no room for. -/
def settle (s : State) : State :=
  let s := endOwned s
  let s := (asked s).foldl restGroup s
  fitAll ((s.groups.map Prod.fst).foldl
    (fun s u => if idleOrphan s u then Hyp.redirect s u (Hyp.restPc (s.grpAt u)) else s) s)

/-! ### The choice (R294) -/

/-- Fragments of a group that may be chosen, after the one that issued last. -/
def fragsOf (s : State) (g : Group) : List Nat :=
  let fs := (List.range 8).filter fun f => open' s g f && !trapHeld g f
  fs.filter (g.lastFrag < ·) ++ fs.filter (· ≤ g.lastFrag)

/-- Put into a list ordered by `le`, after its equals. -/
def insertBy {α : Type} (le : α → α → Bool) (x : α) : List α → List α
  | [] => [x]
  | y :: r => if le y x then y :: insertBy le x r else x :: y :: r

/-- Sort by insertion. -/
def sortBy {α : Type} (le : α → α → Bool) (l : List α) : List α := l.foldl (fun acc x => insertBy le x acc) []

/-- The groups of a kernel in a partition, the one that has waited longest first, then by GROUPID. DESIGN CHOICE (log 16): of groups of
different teams with the same GROUPID, the one with the lower state number first. -/
def groupsOf (s : State) (core part k : Nat) : List (Nat × Group) :=
  let gs := s.groups.filter fun e =>
    e.2.partition == part && !e.2.exited && !e.2.restoring
      && (let t := s.teamAt e.2.team; t.core == core && t.launch == k)
  sortBy (fun a b => decide (a.2.lastIssue < b.2.lastIssue)
    || (a.2.lastIssue == b.2.lastIssue && decide (a.2.gid ≤ b.2.gid))) gs

/-- The candidates of a kernel, best first. -/
def candidates (s : State) (core part k : Nat) : List (Nat × Nat) :=
  (groupsOf s core part k).flatMap fun e => (fragsOf s e.2).map fun f => (e.1, f)

/-- Kernels to which a lendable line may go: by class, then round-robin from the last one chosen by lending. DESIGN CHOICE (log 16): where
that one has left the core, from the one placed first. -/
def lendOrder (s : State) (core part : Nat) : List Nat :=
  let c := s.coreAt core
  let ks := match SMap.get? c.lastLent part with
    | none => c.kernels
    | some k =>
      match c.kernels.findIdx? (· == k) with
      | none => c.kernels
      | some i => c.kernels.drop (i + 1) ++ c.kernels.take (i + 1)
  sortBy (fun a b => decide ((s.launchAt a).record.prio ≤ (s.launchAt b).record.prio)) ks

/-- The kernels in the order in which this cycle tries them, and whether each would be chosen by lending. -/
def kernelOrder (s : State) (core part : Nat) : List (Nat × Bool) :=
  let lent := (lendOrder s core part).map fun k => (k, true)
  match SMap.get? (s.coreAt core).gauge (s.gtime % 64) with
  | none => lent
  | some k => if (s.launchAt k).record.strict then [(k, false)] else (k, false) :: lent.filter fun x => x.1 != k

/-- Every try of this cycle, in order: kernel, lent, group, fragment. -/
def tries (s : State) (core part : Nat) : List (Nat × Bool × Nat × Nat) :=
  (kernelOrder s core part).flatMap fun k => (candidates s core part k.1).map fun c => (k.1, k.2, c.1, c.2)

/-- The partition has issued in this cycle, and the choice has passed over siblings that had yielded (R330). -/
def noteIssue (s : State) (core part k : Nat) (lent : Bool) : State :=
  let s := s.modGrp s.cur.grp fun g =>
    { g with frags := g.frags.map fun e => if e.1 = s.cur.frag then e else (e.1, { e.2 with skip := false }) }
  let c := s.coreAt core
  s.setCoreAt core { c with
    issuedAt := SMap.put c.issuedAt part (s.gtime + 1)
    lastLent := if lent then SMap.put c.lastLent part k else c.lastLent }

/-- The choice passes once over a fragment that has yielded. -/
def passOver (s : State) (u f : Nat) : State :=
  s.modGrp u fun g => g.setFrag f { g.frag f with skip := false }

/-- Try the candidates in order until one issues. -/
def cycle (s : State) (core part : Nat) : List (Nat × Bool × Nat × Nat) → Out
  | [] => .next s
  | (k, lent, u, f) :: r =>
    if ((s.grpAt u).frag f).skip then cycle (passOver s u f) core part r
    else thenDo (attempt s u f) fun s1 =>
      if s1.cur.status == .held then cycle (drop s1) core part r
      else .next (drop (noteIssue s1 core part k lent))

/-- One issue cycle of a partition; at most one issue for each value of gtime. -/
def partition (s : State) (core part : Nat) : Out :=
  if !s.running || SMap.get 0 (s.coreAt core).issuedAt part == s.gtime + 1 then .next s
  else cycle s core part (tries s core part)

end Iss

end Sys2Proof.Machine
end

