-- ==== Sys2Proof/Machine/Turns.lean ====
section
/-! DEFINITION. The moves of a step that have no row of their own: issue cycles, the passing of time, replacement in
caches, answers from outside, soft errors. -/

namespace Sys2Proof.Machine

open Sys2Proof (SMap)

namespace Turns

/-- Rows that happen whether or not the module runs: bring-up and the management window (R412, R414). -/
def always : Instr → Bool
  | .powerOnReset | .hostModuleReset | .mgmtIdentity | .mgmtAttest | .mgmtErrorRecord | .mgmtSetScrubber
  | .mgmtSetMatrixIdle | .mgmtPowerReading | .mgmtCommandRefused _ => true
  | _ => false

/-- Whether a row needs the host link, which a failing first step of bring-up leaves down (R412). -/
def byLink : Instr → Bool
  | .powerOnReset => false
  | i => always i

/-- A row of the table happens on its own; an instruction word never does. -/
def happening (i : Instr) (s : State) : Host.Outcome State Fault Refusal :=
  if i.isWord || !(s.running || always i) || (byLink i && s.hostLink == 0) then .next s
  else match i with
    | .orphanRedirect u => if Iss.idleOrphan s u then exec i s else .next s
    | i => exec i s

/-- An uncorrectable soft error in a register lane (R370). -/
def softErrorReg (s : State) (u cls key : Nat) : State :=
  if (SMap.get? s.groups u).isSome then
    Up.note (s.modGrp u fun g => { g with bad := (cls, key) :: (g.mend cls key).bad }) 2 1
      (Up.whereOf (s.clusterOf u / 20) (s.clusterOf u)) key
  else s

/-- The same in a unit of local memory (class 0) or of a window (class 5, by `Team.unitKey`). -/
def softErrorTeam (s : State) (u cls key : Nat) : State :=
  if (SMap.get? s.teams u).isSome then
    let t := s.teamAt u
    Up.note (s.setTeamAt u { t with bad := (cls, key) :: t.bad.filter (· != (cls, key)) }) 2 2
      (Up.whereOf (t.core / 80) (t.core / 4)) key
  else s

/-- Whether WHERE names a unit of a structure class: a slice or a channel on its die, or a cluster (R370, R417). -/
def isWhere (unit at' : Nat) : Bool :=
  let per := if unit = 4 || unit = 6 then 96 else 20
  let n := at' % 512
  decide (n < 4 * per) && at' == Up.whereOf (n / per) n

/-- An error that a structure's code corrects: nothing shows but the count (R370, R417). -/
def corrected (s : State) (unit at' : Nat) : State :=
  if 1 ≤ unit && unit ≤ 6 && isWhere unit at' then Up.noteCorrected s unit at' 1 else s

/-- A sector that the stack cannot correct: reads of its line are reconstructed (R370, R376). -/
def softErrorDram (s : State) (x : Nat) : State :=
  if s.badSectors.contains x then s else { s with badSectors := x :: s.badSectors }

/-- An uncorrectable soft error in an 8-byte unit of the versions that a slice holds (R370). -/
def softErrorVersion (s : State) (key : Nat) : State :=
  if s.versions.any fun e => e.1 == key && !e.2.spilled then
    let h := s.homeOf (Hyp.keyWord key / 32)
    Up.note { s with versions := s.versions.map fun e =>
        (e.1, if e.1 / 2 == key / 2 && !e.2.spilled then { e.2 with bad := true } else e.2) }
      2 4 (Up.whereOf (h / 96) h) (Hyp.keyWord key / 32 * 128)
  else s

/-- The same in an 8-byte unit of a core's selection heap. -/
def softErrorHeap (s : State) (core x : Nat) : State :=
  let c := s.coreAt core
  if decide (x < c.heap.entries.length) && !c.heap.bad.contains x then
    Up.note (s.setCoreAt core { c with heap := { c.heap with bad := x :: c.heap.bad } }) 2 2 (Up.whereOf (core / 80) (core / 4)) x
  else s

/-- The same in an 8-byte unit of an L2 slice. -/
def softError (s : State) (x : Nat) : State :=
  let h := s.homeOf (x / 16)
  let s := Up.bringIn s (x / 16)
  Up.note { s with badUnits := x :: s.badUnits.filter (· != x) } 2 4 (Up.whereOf (h / 96) h) (x / 16 * 128)

/-- The same in a unit of an L1: words it owns, or has written in a line it owns, turn bad; what it does not own goes and is fetched
again (R370). -/
def softErrorL1 (s : State) (core key : Nat) : State :=
  let c := s.coreAt core
  let line := State.keyLine key
  let unit := key / 65536 / 2
  let noted (s : State) : State := Up.note s 2 3 (Up.whereOf (core / 80) (core / 4)) (line * 128)
  match (s.ownerOf line).filter fun ow => ow.core == core with
  | some ow =>
    if (State.ownUnits ow).contains unit && !ow.bad.contains unit then
      noted { s with owners := SMap.put s.owners line { ow with bad := unit :: ow.bad } }
    else s
  | none =>
  if (SMap.get? c.l1 key).isSome then
    let twin := 2 * 65536 * (key / 65536 / 2) + key % 65536
    let here (k : Nat) : Bool := k == twin || k == twin + 65536
    let l1 := (c.l1.filter fun e => !here e.1 || e.2.owned).map fun e => (e.1, if here e.1 then { e.2 with bad := true } else e.2)
    noted (s.setCoreAt core { c with l1 := l1 })
  else s

/-- The same in a line of a core's tile store: an MMA reads it again (R370). -/
def softErrorTile (s : State) (core line : Nat) : State :=
  if (s.coreAt core).tiles.any fun t => t.phys == line then
    Up.note (Mtx.tileEvict s core line) 2 3 (Up.whereOf (core / 80) (core / 4)) (line * 128)
  else s

/-- A bit of the `n`-th line that a core keeps for fetching flips (R52). -/
def softErrorFetch (s : State) (core n bit : Nat) : State :=
  let c := s.coreAt core
  match c.fetch[n]? with
  | some l => if bit < 512 then s.setCoreAt core { c with fetch := c.fetch.set n { l with line := l.line ^^^ 2 ^ bit } } else s
  | none => s

/-- Whether a fragment of another core, or a walk unit, may be waiting to read a line that a core owns (R218, log 17). -/
def awaited (s : State) (core : Nat) : Bool :=
  (s.groups.any fun e => s.l1Of e.1 != core && !e.2.restoring
      && e.2.fragsInUse.any fun f => Iss.open' s e.2 f && Iss.isHeld s e.1 f)
    || s.clusters.any fun c => c.2.walks.any fun w => !w.2.ready || w.2.states.any fun n => n.2.given && !n.2.fetched

/-- A slice renews an ownership for which nobody else waits (R218). -/
def renew (s : State) (line : Nat) : State :=
  if (s.ownerOf line).any fun ow => awaited s ow.core then s else Coh.ownRenew s line

/-- What a move does. -/
def apply (t : Turn) (s : State) : Host.Outcome State Fault Refusal :=
  match t with
  | .partition core part => Iss.partition s core part
  | .happen i => happening i s
  | .tick n => .next { s with gtime := s.gtime + n }
  | .l1Evict core key => .next (Coh.l1Evict s core key)
  | .ownEvict line => .next (Coh.ownEvict s line)
  | .tlbEvict cl i => .next (Coh.tlbEvict s cl i)
  | .tileEvict core line => .next (Mtx.tileEvict s core line)
  | .collRead ctx n i => happen s (Coll.readAgain s ctx n i)
  | .collWrite ctx n i others => happen s (Coll.writeWord s ctx n i others)
  | .tileFill u va => .next (Mtx.tileFill s u va)
  | .writeBack line => .next (Coh.writeBack s line)
  | .copyRead u op off n => .next (Cpy.readPart s u op off n)
  | .copyWrite u op off n => .next (Cpy.writePart s u op off n)
  | .bankRead u op va => .next (Bnk.readWord s u op va)
  | .dramRead line => .next (Up.readLine s line)
  | .softErrorDram x => .next (softErrorDram s x)
  | .refreshPostpone c b => .next (Up.postpone s c b)
  | .deliverReg u op lane j => .next (s.deliverOne u op lane j)
  | .ownRenew line => .next (renew s line)
  | .walkRead cl slot key => .next (Wk.readAhead s cl slot key)
  | .walkWrite u op n => .next (Wk.writeAhead s u op n)
  | .peerAnswer u op lane r => .next (Coh.peerAnswer s u op lane r)
  | .hostAnswer u op lane v => .next (Coh.hostAnswer s u op lane v)
  | .softError x => .next (softError s x)
  | .softErrorReg u cls key => .next (softErrorReg s u cls key)
  | .softErrorTeam u cls key => .next (softErrorTeam s u cls key)
  | .softErrorL1 core key => .next (softErrorL1 s core key)
  | .softErrorFetch core n bit => .next (softErrorFetch s core n bit)
  | .softErrorTile core line => .next (softErrorTile s core line)
  | .softErrorVersion key => .next (softErrorVersion s key)
  | .softErrorHeap core x => .next (softErrorHeap s core x)
  | .spill key => .next (Hyp.spill s key)
  | .corrected unit at' => .next (corrected s unit at')
  | .bankWrite u op i => .next (Bnk.writeColumn s u op i)
  | .hostMgmt fn w => .next (if s.hostLink = 0 then s else Hst.commandBy s fn w)
  | .hostData fn off x => .next (if s.hostLink = 0 then s else Hst.putData s fn off x)
  | .hostMgmtRead fn off => .next (if s.hostLink = 0 then s else Hst.readWindow s fn off)

/-- The move that comes next and the state without it: what `turns` lists first, else a free choice. -/
def next (s : State) : Turn × State :=
  match s.turns with
  | t :: r => (t, { s with turns := r })
  | [] => (Config.freeTurn s.choice, { s with choice := s.choice + 1 })

/-! ### A machine about to run one instruction -/

/-- A launch of one team of one group on core 0, everything allocated, every window bound. -/
def bootRecord : Record :=
  { roles := [{ lanes := 32, vregs := 256, kregs := 64, mregs := 64 }], zbudget := 16, localsz := 65536, gauge := 64 }

def bootTeam : Team :=
  { launch := 1, localsz := 65536, windows := (List.range 16).map fun n => (n, { mom := false, mean := [], var := [] }) }

def bootGroup : Group :=
  { State.freshGroup 1 0 0 256 64 64 (~~~0#32) 0#32 0#64 0#64 0#64 with frags := [(0, {})] }

/-- A leaf that maps the first 64 KiB of context 0's space onto the first 64 KiB of HBM, with every right. -/
def bootLeaf : TlbLeaf := { ctx := 0, base := 0, size := 65536, w0 := 0x3F#64, w1 := 0#64, at' := 0, count := 0 }

/-- `s` with `w` as the next instruction of a fragment of the system kernel on core 0, about to be fetched from
physical address 0, and nothing else resident. -/
def boot (s : State) (w : BitVec 96) : State :=
  { s with
    groups := [(1, bootGroup)], teams := [(1, bootTeam)]
    launches := [(1, { record := bootRecord, live := 1, nextTeam := 1 })]
    cores := [(0, { kernels := [1], gauge := (List.range 64).map fun i => (i, 1) })]
    clusters := [(0, { tlb := [bootLeaf] })]
    mem := Memory.write s.mem 0 (Bits.bytesOf 64 (Line.ofWord w))
    owners := SMap.erase s.owners 0, badUnits := [], l2 := 0 :: s.l2.filter (· != 0), lostClusters := []
    nextId := Nat.max s.nextId 2, running := true, turns := [.partition 0 0], cur := {} }

end Turns

end Sys2Proof.Machine
end

