-- ==== Sys2Proof/Machine/Step.lean ====
section
/-! DEFINITION. One step of the machine, and the state about to run one given instruction. -/

namespace Sys2Proof.Machine

/-- One step: the next move is taken, groups settle, and the move is applied. -/
def step (s : State) : Host.Outcome State Fault Refusal :=
  let m := Turns.next s
  Turns.apply m.1 (Iss.settle m.2)

/-- `s` with the instruction whose low `nbits` bits are `w` where the next step fetches. -/
def State.withFetchWord (s : State) (nbits w : Nat) : State := Turns.boot s (BitVec.ofNat 96 (w % 2 ^ nbits))

end Sys2Proof.Machine
end

