-- ==== Sys2Proof/Safety.lean ====
section
/-! DEFINITION. What a safe run is: no step of it faults or is refused, and what the machine holds keeps its form. -/

namespace Sys2Proof

open Sys2Proof.Machine

/-- The form that every state of a run keeps: HBM lists rising addresses and no byte that reads as an unlisted one. -/
def Machine.State.Formed (s : State) : Prop := Memory.wf s.mem = true

/-- The next step is neither a fault nor a refusal. -/
def Machine.State.Runs (s : State) : Prop := ∃ t, step s = .next t

/-- `n` steps from `s` all run. -/
def Machine.State.SafeFor : Nat → State → Prop
  | 0, s => s.Formed
  | n + 1, s => s.Formed ∧ ∃ t, step s = .next t ∧ SafeFor n t

end Sys2Proof
end

