-- ==== Sys2Proof/Certificates/Slice0/Terms.lean ====
section
/-! DEFINITION. The words in which the statements are written: when an instruction is ready, what it means that it issued,
how a result fills its destination, and what an instruction leaves alone. -/

namespace Sys2Proof.Claims

open Sys2Proof.Machine Sys2Proof.Machine.Operands

/-! ### Issue -/

/-- The conditions of R65 on state and operands: a fragment is selected, the encoding is legal (R63), the mode allows the
instruction (R69), every register is allocated (R23), and none that it reads is uncorrectable (R372). -/
structure Ready (i : Instr) (s : State) : Prop where
  on : s.cur.on = true
  legal : i.wellFormed = true
  mode : Issue.privOk i s = true
  allocated : Issue.allocOk i s = true
  correct : Issue.spoiledReg i s = none

/-- `i` issues at `s` and leaves `t`. -/
structure Issues (i : Instr) (s t : State) : Prop where
  answers : exec i s = .next t
  issued : t.cur.status = .issued

/-- The quads of the issuing fragment stand at `pc`, each otherwise as it was, and no other quad of the group has changed. -/
def AllAt (s t : State) (pc : W64) : Prop :=
  ∀ q, t.grp.quad q = if q ∈ s.grp.fragQuads s.cur.frag then { s.grp.quad q with pc := pc } else s.grp.quad q

/-- The fragment goes to the sequential next PC (R50). -/
def Advances (s t : State) : Prop := AllAt s t (Line.next s.cur.pc)

/-- `i` issues, the fragment goes to the next PC, and `P` holds of the state it leaves. -/
def Does (i : Instr) (s : State) (P : State → Prop) : Prop := ∃ t, Issues i s t ∧ Advances s t ∧ P t

/-- Lane `l` of the group runs the instruction (R61). -/
def Runs (s : State) (o : Opds) (l : Nat) : Prop := l < 32 ∧ Bits.has (s.exec o.guard) l = true

/-! ### Numbers (R58, R105, R106, R108) -/

/-- The signed value of a pattern of `w` bits. -/
def signedOf (w x : Nat) : Int := if x < 2 ^ (w - 1) then x else (x : Int) - 2 ^ w

/-- The value of a pattern by a type's signedness. -/
def valueOf (w : Nat) (sg : Bool) (x : Nat) : Int := if sg then signedOf w x else x

/-- The number that an exact value stands for. -/
def ratOf (x : Sys2Proof.Float.Ex) : Rat := (x.int : Rat) / (x.den : Rat)

/-- The bits `b` of a format hold the finite value `z` (R84, R85). -/
def Holds (f : FFmt) (b : Nat) (z : Rat) : Prop :=
  b < 2 ^ Sys2Proof.Float.width f ∧ ∃ y, Sys2Proof.Float.toFV f b = .fin y ∧ ratOf y = z

/-- The distance of two numbers. -/
def away (x y : Rat) : Rat := max (x - y) (y - x)

/-- `e` is an exact value of `v`; where that is zero, its sign is `neg`. -/
def ExactlyIs (e : Sys2Proof.Float.Ex) (v : Rat) (neg : Bool) : Prop := 0 < e.den ∧ ratOf e = v ∧ (v = 0 → e.neg = neg)

/-- R108: reduction modulo 2^w. -/
def wrap (w : Nat) (x : Int) : Nat := (x % 2 ^ w).toNat

/-- An operand of an integer type as its pattern. -/
def intArg (ty : IType) (o : Opds) (s : State) (x : Opd) (l : Nat) : Nat :=
  if ty.wide then (get64 ty.signed o s.grp x l).toNat else (get32 ty.signed o s.grp x l).toNat

/-- A 32-bit count or control operand. -/
def ctlArg (ty : IType) (o : Opds) (s : State) (x : Opd) (l : Nat) : Nat := (get32 ty.signed o s.grp x l).toNat

/-- The result `val l` of each lane stands in its destination (R105 to R107); a k register holds the one of the reference
lane, and k0 discards it (R22). -/
def Fills (ty : IType) (o : Opds) (s t : State) (val : Nat → Nat) : Prop :=
  match o.d with
  | .v n => ∀ l, Runs s o l →
      if ty.wide then (t.grp.rv2 n.toNat l).toNat = val l else (t.grp.rv n.toNat l).toNat = val l
  | .k n => t.grp.rk n.toNat = if n = 0#6 then 0#64
      else if ty.signed && !ty.wide then BitVec.ofInt 64 (signedOf 32 (val s.refLane)) else BitVec.ofNat 64 (val s.refLane)
  | _ => False

/-- Each running lane of the predicate register of field D holds `val l`; p0 stays true (R22). -/
def Judges (o : Opds) (s t : State) (val : Nat → Bool) : Prop :=
  ∀ l, Runs s o l → Bits.has (t.grp.rp o.d.val) l = if o.d.val = 0 then true else val l

/-- The moment pair of each running lane of field D's m register is `val l`. -/
def FillsM (o : Opds) (s t : State) (val : Nat → W64) : Prop := ∀ l, Runs s o l → t.grp.rm o.d.val l = val l

/-- `i` takes the trap of cause `c` with TVAL `v`, precisely: TPC is the instruction's PC (R6). It has issued, and counts (R63, R306). -/
def Traps (i : Instr) (s : State) (c v : Nat) : Prop := exec i s = .next (Issue.trap s c v s.cur.pc)

/-- `i` traps because its target `pc` fails its check (R54); where that is a line kept whose refetch for parity failed, the error history
says so (R417). -/
def TrapsAt (i : Instr) (s : State) (c : Nat) (pc : W64) : Prop :=
  exec i s = .next (Issue.trap (s.noteFetch s.cur.grp (State.lineBase pc) c) c pc.toNat s.cur.pc)

/-- `i` waits: nothing of the machine changes, and the fragment has not issued. -/
def Waits (i : Instr) (s : State) : Prop := exec i s = .next { s with cur := { s.cur with status := .held } }

/-- `i` waits, and a read of a peer at address `q`, where there is one still to be sent, is sent meanwhile (R401). -/
def WaitsFor (i : Instr) (s : State) (q : Option Nat) : Prop :=
  match q with
  | none => Waits i s
  | some va =>
    let t := s.ask s.cur.grp s.nextId va
    exec i s = .next { t with cur := { s.cur with ask := t.cur.ask, status := .held } }

/-! ### What an instruction leaves alone -/

/-- Outside the registers of the issuing group nothing that a program reads has changed: memory, local memory, other
groups, the group's special registers, counters and join registers, and the time. -/
structure Quiet (s t : State) : Prop where
  memory : ∀ p, Memory.byte t.mem p = Memory.byte s.mem p
  local' : ∀ team off, t.locByte team off = s.locByte team off
  groups : ∀ u, u ≠ s.cur.grp → t.grpAt u = s.grpAt u
  mcr : t.grp.mcr = s.grp.mcr
  hcur : t.grp.hcur = s.grp.hcur
  cause : t.grp.cause = s.grp.cause
  tpc : t.grp.tpc = s.grp.tpc
  tval : t.grp.tval = s.grp.tval
  hmode : t.grp.hmode = s.grp.hmode
  hmask : t.grp.hmask = s.grp.hmask
  horizon : t.grp.horizon = s.grp.horizon
  joins : ∀ n, t.grp.rj n = s.grp.rj n
  tensors : ∀ n, t.grp.rt n = s.grp.rt n
  counters : ∀ c, t.grp.counter c = s.grp.counter c
  gtime : t.gtime = s.gtime

/-- Of the registers v, k, p and m only those that `w` lists have changed, and of those only in lanes that run; k0 and p0
read as ever. -/
structure Spares (w : List Forms.Reg) (o : Opds) (s t : State) : Prop where
  v : ∀ n l, l < 32 → ((1, n) ∉ w ∨ ¬ Runs s o l) → t.grp.rv n l = s.grp.rv n l
  k : ∀ n, (2, n) ∉ w → t.grp.rk n = s.grp.rk n
  p : ∀ n l, l < 32 → ((3, n) ∉ w ∨ ¬ Runs s o l) → Bits.has (t.grp.rp n) l = Bits.has (s.grp.rp n) l
  m : ∀ n l, l < 32 → ((4, n) ∉ w ∨ ¬ Runs s o l) → t.grp.rm n l = s.grp.rm n l
  k0 : t.grp.rk 0 = 0#64
  p0 : t.grp.rp 0 = ~~~0#32

/-- The instructions that work on registers alone: integer, floating, quad, group and moment instructions. -/
def onRegisters : Instr → Bool
  | .mov _ _ | .movi _ _ _ | .iadd _ _ | .isub _ _ | .imul _ _ | .imulh _ _ | .imad _ _ | .idiv _ _ | .imin _ _
  | .imax _ _ | .iabs _ _ | .ineg _ _ | .and _ _ | .or _ _ | .xor _ _ | .shl _ _ | .shr _ _ | .sar _ _ | .bfx _ _
  | .bfi _ _ | .popc _ _ | .clz _ _ | .brev _ _ | .icmp _ _ | .sel _ _ | .lea _ _ _
  | .fadd _ _ _ | .fsub _ _ _ | .fmul _ _ _ | .ffma _ _ _ | .fmin _ _ _ | .fmax _ _ _ | .fcmp _ _ _ | .frcp _ _ _
  | .frsq _ _ _ | .fsqrt _ _ _ | .fexp2 _ _ _ | .flog2 _ _ _ | .fsin _ _ _ | .fcos _ _ _ | .ftanh _ _ _
  | .hadd2 _ _ _ | .hmul2 _ _ _ | .hfma2 _ _ _ | .cvt _ _ _ | .cvtBlock _ _ _ | .frnd _ _ _
  | .qswp _ _ | .qbcst _ _ | .xshfl _ _ | .xscan _ _ | .xred _ _ | .vote _ _ | .elect _ | .gsample _
  | .mset _ | .madd _ | .msub _ | .mmul _ | .mscl _ | .msqr _ | .mrcp _ | .mexp _ | .mrelu _ | .mlog _
  | .mcol _ _ | .mchk _ => true
  | _ => false

/-- A floating operand's bits (R58, R59, R120). -/
def fltArg (f : FFmt) (o : Opds) (s : State) (x : Opd) (l : Nat) : Nat := getF f o s.grp x l

/-- A 32-bit operand (R105). -/
def arg32 (o : Opds) (s : State) (x : Opd) (l : Nat) : W32 := get32 false o s.grp x l

/-- The lanes that contribute to a group instruction (R127). -/
def Contributes (s : State) (o : Opds) (l : Nat) : Bool := Bits.has (s.exec o.guard) l && !s.grp.isHelper l

/-- `i` takes a trap of cause `c` whose TVAL the spec does not state. -/
def TrapsFree (i : Instr) (s : State) (c : Nat) : Prop :=
  ∃ v, exec i s = .next (Issue.trap { s with choice := s.choice + 1 } c v s.cur.pc)

/-- The state in which the effect of `i` is computed: `s` with the issue counted and the written granules noted (R306). -/
abbrev At (i : Instr) (s : State) : State := Issue.account i s

/-- No group of the team has or had an MMA that a WAIT has not shown complete (R144). -/
def Calm (s : State) : Prop := s.team.exposed = [] ∧ ∀ e ∈ s.groupsOf s.grp.team, e.2.exposed = []

/-- An element of a window of the issuing group's team. -/
def element (s : State) (n plane row col : Nat) : W32 := Mtx.elem (Zw.window s n) plane row col

/-- Whether a window of the issuing group's team holds moments. -/
def hasMoments (s : State) (n : Nat) : Bool := (Zw.window s n).mom

/-- A happening of the hardware leaves a state of which `P` holds. -/
def Happens (i : Instr) (s : State) (P : State → Prop) : Prop := ∃ t, exec i s = .next t ∧ P t

/-- The operation that `i` starts is under way in `t`: it has the next free number, counts in its class, and `P` holds of it. -/
def Starts (s t : State) (c : Cnt) (P : Op → Prop) : Prop :=
  (∃ o ∈ t.grp.ops, o.id = s.nextId ∧ o.cls = c ∧ o.done = false ∧ P o)
  ∧ t.grp.counter c = s.grp.counter c + 1 ∧ t.nextId = s.nextId + 1

/-- `i` waits as a release does: the lines that the core owns and the group has accessed go back meanwhile (R219). -/
def WaitsHandingBack (i : Instr) (s : State) : Prop :=
  exec i s = .next { s.handBack s.cur.grp with cur := { s.cur with status := .held } }

/-- A k register holds `x`; k0 holds 0 (R22). -/
def KIs (t : State) (n : Nat) (x : W64) : Prop := t.grp.rk n = if n = 0 then 0#64 else x

/-- A predicate register holds `b` in every lane that is active in `s`; p0 holds true (R22). -/
def PIs (s t : State) (n : Nat) (b : Bool) : Prop :=
  ∀ l < 32, Bits.has s.active l = true → Bits.has (t.grp.rp n) l = if n = 0 then true else b

/-- `i` issues, and `P` holds of the state it leaves; where the fragment goes is part of `P`. -/
def Moves (i : Instr) (s : State) (P : State → Prop) : Prop := ∃ t, Issues i s t ∧ P t

/-- The registers of a group and its special registers but for HORIZON are as before. -/
structure SameFile (g h : Group) : Prop where
  v : ∀ n l, h.rv n l = g.rv n l
  k : ∀ n, h.rk n = g.rk n
  p : ∀ n, h.rp n = g.rp n
  m : ∀ n l, h.rm n l = g.rm n l
  t : ∀ n, h.rt n = g.rt n
  j : ∀ n, h.rj n = g.rj n
  mcr : h.mcr = g.mcr
  hcur : h.hcur = g.hcur
  cause : h.cause = g.cause
  tpc : h.tpc = g.tpc
  tval : h.tval = g.tval
  hmode : h.hmode = g.hmode
  hmask : h.hmask = g.hmask
  uhmiss : h.uhmiss = g.uhmiss

/-- The same with HORIZON. -/
structure SameGroup (g h : Group) : Prop extends SameFile g h where
  horizon : h.horizon = g.horizon

/-- The registers of every group are as before, but that a stamp granted by the end of an ownership may have raised a HORIZON
(R213, R219), and the time. -/
structure SameFiles (s t : State) : Prop where
  files : ∀ u, SameFile (s.grpAt u) (t.grpAt u)
  horizons : ∀ u, (s.grpAt u).horizon ≤ (t.grpAt u).horizon
  gtime : t.gtime = s.gtime

/-- No core has a write to a byte of HBM under an ownership that has not ended (R218). -/
def Settled (s : State) (p : Nat) : Prop := ∀ e ∈ s.owners, SMap.get? e.2.bytes p = none

/-- The registers of the issuing group and of every other group, and the time, are as before. -/
structure SameRegisters (s t : State) : Prop where
  mine : SameGroup s.grp t.grp
  others : ∀ u, u ≠ s.cur.grp → t.grpAt u = s.grpAt u
  gtime : t.gtime = s.gtime

/-- Every byte of HBM and of local memory reads as before. -/
structure SameMemory (s t : State) : Prop where
  hbm : ∀ p, Memory.byte t.mem p = Memory.byte s.mem p
  loc : ∀ team off, t.locByte team off = s.locByte team off

/-- What a memory instruction asks for: its kind, the bytes of a lane, whether a failure is reported by mask (R238), the
lanes that access memory, each lane's address, the counter, what the operation does, its orders, and the data of each access: a
16-byte access is two of 8 bytes, the second numbered 32 above its lane (R205). -/
structure MemForm where
  want : Want
  bytes : Nat
  byMask : Bool
  lanes : List Nat
  addr : Nat → Nat
  cls : Cnt
  kind : OpKind
  acq : Option Scope
  rel : Option Scope
  data : Nat → Nat

/-- The five memory instructions (R234 to R237, R244 to R246). -/
def memForm (i : Instr) (s : State) : Option MemForm :=
  match i with
  | .ld sc acq o => some ⟨.load, MemI.bytesOf o, false, MemI.lanesOf s o, MemI.addr o s.grp, .loads,
      .load ⟨o.d.cls, o.d.val, MemI.codeOf o⟩, if acq then some sc else none, none, fun _ => 0⟩
  | .gather _ o => some ⟨.load, Forms.widthBytes (Forms.code o.b), true, Bits.members (s.exec o.guard),
      MemI.laneAddr o s.grp, .loads, .gather ⟨1, o.d.val, Forms.code o.b⟩, none, none, fun _ => 0⟩
  | .st sc rel o => some ⟨.store, MemI.bytesOf o, false, MemI.lanesOf s o, MemI.addr o s.grp, .stores, .store, none,
      if rel then some sc else none, MemI.dataOf o s.grp (min 8 (MemI.bytesOf o))⟩
  | .scatter _ o => some ⟨.store, Forms.widthBytes (Forms.code o.b), true, Bits.members (s.exec o.guard),
      MemI.laneAddr o s.grp, .stores, .store, none, none, MemI.dataOf o s.grp (min 8 (Forms.widthBytes (Forms.code o.b)))⟩
  | .atom wide op o => some ⟨.atomic, if wide then 8 else 4, false, Bits.members (s.exec o.guard), MemI.addr o s.grp,
      .loads, .atomic op wide (Forms.atomNr o)
        (if Forms.atomNr o || o.d.cls == 0 then ⟨0, 0, 0⟩ else ⟨1, o.d.val, if wide then 5 else 4⟩),
      MemI.atomAcq o, MemI.atomRel o, fun _ => 0⟩
  | _ => none

/-- The leaf of a page takes versions (R267). -/
def takesVersions (lf : Option Leaf) : Bool := (lf.map Leaf.hyp).getD false

/-- The checks of R238 and R267 on one access of `n` bytes, in their order: the cause, or none. -/
def accessCause (b : State) (want : Want) (va n : Nat) : Option Nat :=
  if va % n ≠ 0 then some (if want == .atomic then 0x24 else 0x28)
  else match b.find b.cur.grp (b.isKernel || b.inHandler) want va with
    | .fault c => some c
    | .at' loc lf =>
      let far := match loc with | .peer _ _ _ | .host _ => true | _ => false
      let host := match loc with | .host _ => true | _ => false
      let hbm := match loc with | .hbm _ => true | _ => false
      if want == .atomic && ((lf.map Leaf.layout).getD 0 != 0 || host) then some 0x25
      else if want != .load && b.grp.hcur != 0#16 && (far || (hbm && !takesVersions lf)) then some 0x61
      else none

/-- The numbers from the next one on name no group, no team and no launch, and each launch has a number of its own. -/
structure Unused (s : State) : Prop where
  mine : s.cur.grp < s.nextId
  groups : ∀ e ∈ s.groups, e.1 < s.nextId
  teams : ∀ e ∈ s.teams, e.1 < s.nextId
  launches : ∀ e ∈ s.launches, e.1 < s.nextId
  distinct : (s.launches.map Prod.fst).Nodup

/-- Team `n` of `t` is what a save area holds (R311): its number, local memory, windows, queues and barriers; a barrier whose phase
is complete without delay has moved on (R321), and a window that was not live holds free values (R48), as far as the save is one that
the module of `s` has made. -/
structure TeamRestored (s t : State) (ctx : Nat) (im : Area.Image) (n : Nat) (te : Team) : Prop where
  here : SMap.get? t.teams n = some te
  id : te.id = im.id
  core : te.core < 320
  preempt : te.preempt = false
  context : (t.launchAt te.launch).ctx = ctx
  localsz : te.localsz = (t.launchAt te.launch).record.local'
  windows : ∃ choice kept, te.windows = Ctx.restoredWindows choice kept im.windows
    ∧ (kept = [] ∨ ∃ l ∈ s.launches, (im.id, kept) ∈ l.2.saved)
  lmem : ∀ off < im.lmem.length, t.locByte n off = im.lmem.getD off 0#8
  queues : ∀ q < 16, SMap.get? te.queues q = Area.unpackQueue im.header q
  barriers : ∀ b < 16, let x := Area.unpackBarrier im.header b
    SMap.get {} te.barriers b = x ∨ SMap.get {} te.barriers b = { arrived := [], pend := 0, phase := !x.phase }

/-- A group of team `n` of `t` is what a group record holds (R46 to R48, R310, R357), `g0` being what the record unpacks to: its
registers but HCUR, HORIZON, trap state, lanes and quads; a quad whose barrier has completed goes on. -/
structure GroupRestored (t : State) (n : Nat) (g0 g : Group) : Prop where
  here : ∃ u, SMap.get? t.groups u = some g
  team : g.team = n
  files : SameFile { g0 with hcur := g.hcur } g
  horizon : g.horizon = g0.horizon
  shape : g.gid = g0.gid ∧ g.role = g0.role ∧ g.nv = g0.nv ∧ g.nk = g0.nk ∧ g.nm = g0.nm ∧ g.present = g0.present
    ∧ g.helpers = g0.helpers
  fresh : g.ops = [] ∧ g.restoring = true ∧ ∀ f, (g.frag f).count = 0
  quads : ∀ q < 8, let x := g0.quad q
    g.quad q = x ∨ x.st = .parkedBar ∧ g.quad q = { x with st := .ready, waitno := 0, pc := Line.next x.pc }

/-- The hypothesis of a group restored from record `r`, whose slot `x` is as it was when the restore began; `n` records name the slot
(R275). -/
structure HypRestored (x : HSlot) (n : Nat) (r : List Byte) (h : BitVec 16) (g : Group) : Prop where
  root : h = 0#16 → g.hcur = 0#16 ∧ g.orphan = none
  live : h ≠ 0#16 → x.used = true → x.gen = State.hypGen h → n ≤ x.pins → x.pinOrphan = false → Area.pendingRedirect r = false →
    g.hcur = x.pinNow ∧ g.orphan = none
  orphan : h ≠ 0#16 → x.used = true → x.gen = State.hypGen h → n ≤ x.pins → x.pinOrphan = true ∨ Area.pendingRedirect r = true →
    g.hcur = h ∧ g.orphan = some x.pinNow
  unpinned : h ≠ 0#16 → x.used = false ∨ x.gen ≠ State.hypGen h ∨ x.pins = 0 → g.hcur = h ∧ g.orphan = some 0#16

/-- No open walk is to be closed as soon as no operation names it (R198). -/
def NoneClosing (s : State) : Prop := ∀ c ∈ s.clusters, ∀ x ∈ c.2.walks, x.2.closing = false

/-- Every operation under way was numbered before the next number. -/
def Numbered (s : State) : Prop := ∀ g ∈ s.groups, ∀ o ∈ g.2.ops, o.id < s.nextId

/-- The operands of an instruction without a guard. -/
def ops (d a b c : Opd) (imm : W32) : Opds :=
  { guard := { neg := false, pred := 0#3 }, d := d, a := a, b := b, c := c, imm := imm }

end Sys2Proof.Claims
end

