-- ==== Sys2Proof/Certificates/Slice0/Obligations.lean ====
section
/-! DEFINITION. The statements about the model, each after the rules of the spec that it states. -/

open Sys2Proof Sys2Proof.Machine Sys2Proof.Claims Sys2Proof.Machine.Operands

/-- R108, R109, R115: the results of the arithmetic instructions, modulo 2^w; no form traps on its values. -/
def Obligations.IntegerArithmetic : Prop := ∀ (ty : IType) (o : Opds) (s : State),
  let a := intArg ty o s o.a
  let b := intArg ty o s o.b
  let c := intArg ty o s o.c
  let w := ty.bits
  let num := valueOf w ty.signed
  let Gives (i : Instr) (val : Nat → Int) : Prop := Ready i s → Does i s fun t => Fills ty o s t fun l => wrap w (val l)
  Gives (.mov ty o) (fun l => a l)
  ∧ Gives (.movi ty .whole o) (fun l => a l)
  ∧ Gives (.iadd ty o) (fun l => a l + b l)
  ∧ Gives (.isub ty o) (fun l => a l - b l)
  ∧ Gives (.imul ty o) (fun l => a l * b l)
  ∧ Gives (.imulh ty o) (fun l => num (a l) * num (b l) / 2 ^ w)
  ∧ Gives (.imad ty o) (fun l => a l * b l + c l)
  ∧ Gives (.imin ty o) (fun l => min (num (a l)) (num (b l)))
  ∧ Gives (.imax ty o) (fun l => max (num (a l)) (num (b l)))
  ∧ Gives (.iabs ty o) (fun l => (num (a l)).natAbs)
  ∧ Gives (.ineg ty o) (fun l => -num (a l))
  ∧ ∀ sh : BitVec 2, Gives (.lea ty sh o) (fun l => a l + b l * 2 ^ sh.toNat)

/-- R109, R111, R112: the results of the bitwise instructions, of shifts by any count, and of the field instructions. -/
def Obligations.IntegerBits : Prop := ∀ (ty : IType) (o : Opds) (s : State),
  let a := intArg ty o s o.a
  let b := intArg ty o s o.b
  let w := ty.bits
  let bit (x i : Nat) : Nat := x / 2 ^ i % 2
  let pos (ctl : Nat) : Nat := ctl % 256
  let len (ctl : Nat) : Nat := if w ≤ pos ctl then 0 else min (ctl / 256 % 256) (w - pos ctl)
  let Gives (i : Instr) (val : Nat → Nat) : Prop := Ready i s → Does i s fun t => Fills ty o s t val
  Gives (.and ty o) (fun l => a l &&& b l)
  ∧ Gives (.or ty o) (fun l => a l ||| b l)
  ∧ Gives (.xor ty o) (fun l => a l ^^^ b l)
  ∧ Gives (.shl ty o) (fun l => a l * 2 ^ ctlArg ty o s o.b l % 2 ^ w)
  ∧ Gives (.shr ty o) (fun l => a l / 2 ^ ctlArg ty o s o.b l)
  ∧ Gives (.sar ty o) (fun l => wrap w (signedOf w (a l) / 2 ^ ctlArg ty o s o.b l))
  ∧ Gives (.bfx ty o) (fun l =>
      let ctl := ctlArg ty o s o.b l
      let f := a l / 2 ^ pos ctl % 2 ^ len ctl
      if ty.signed then wrap w (signedOf (len ctl) f) else f)
  ∧ Gives (.bfi ty o) (fun l =>
      let ctl := ctlArg ty o s o.c l
      let p := pos ctl
      let n := len ctl
      if n = 0 then a l else a l / 2 ^ (p + n) * 2 ^ (p + n) + b l % 2 ^ n * 2 ^ p + a l % 2 ^ p)
  ∧ Gives (.popc ty o) (fun l => ((List.range w).map (bit (a l))).sum)
  ∧ Gives (.clz ty o) (fun l => ((List.range w).find? fun n => decide (2 ^ (w - 1) ≤ a l * 2 ^ n)).getD w)
  ∧ Gives (.brev ty o) (fun l => ((List.range w).map fun i => bit (a l) i * 2 ^ (w - 1 - i)).sum)

/-- R113, R114: comparisons, selection by a predicate, and the halves of a constant; k0 and p0 discard (R22). -/
def Obligations.IntegerChoice : Prop := ∀ (ty : IType) (o : Opds) (s : State),
  let a := intArg ty o s o.a
  let b := intArg ty o s o.b
  let num := valueOf ty.bits ty.signed
  (Ready (.icmp ty o) s → Does (.icmp ty o) s fun t => Judges o s t fun l =>
    match o.c with
    | .i8 0 => num (a l) = num (b l)
    | .i8 1 => num (a l) ≠ num (b l)
    | .i8 2 => num (a l) < num (b l)
    | .i8 3 => num (a l) ≤ num (b l)
    | .i8 4 => num (b l) < num (a l)
    | _ => num (b l) ≤ num (a l))
  ∧ (Ready (.sel ty o) s → Does (.sel ty o) s fun t => Fills ty o s t fun l =>
      if Bits.has (s.grp.rp o.c.val) l then a l else b l)
  ∧ (Ready (.movi ty .lo o) s → Does (.movi ty .lo o) s fun t => t.grp.rk o.d.val =
      if o.d.val = 0 then 0#64 else Bits.join (Bits.hi (s.grp.rk o.d.val)) o.imm)
  ∧ (Ready (.movi ty .hi o) s → Does (.movi ty .hi o) s fun t => t.grp.rk o.d.val =
      if o.d.val = 0 then 0#64 else Bits.join o.imm (Bits.lo (s.grp.rk o.d.val)))

/-- R110: the quotient truncated toward zero, and its two fixed cases. -/
def Obligations.DivisionQuotient : Prop := ∀ (ty : IType) (o : Opds) (s : State),
  let a := intArg ty o s o.a
  let b := intArg ty o s o.b
  let w := ty.bits
  Ready (.idiv ty o) s → Does (.idiv ty o) s fun t => Fills ty o s t fun l =>
    if b l = 0 then 2 ^ w - 1
    else if ty.signed ∧ a l = 2 ^ (w - 1) ∧ b l = 2 ^ w - 1 then 2 ^ (w - 1)
    else wrap w ((valueOf w ty.signed (a l)).tdiv (valueOf w ty.signed (b l)))

/-- R107 and the frame of every instruction that works on registers alone: only the registers it writes change, only in
lanes of exec_mask; memory, local memory, counters, special registers and every other group are as before. -/
def Obligations.RegisterFrame : Prop := ∀ (i : Instr) (o : Opds) (s t : State),
  onRegisters i = true → Forms.opds i = some o → Issues i s t →
  Quiet s t ∧ Spares (Forms.writes i) o s t ∧ Advances s t

/-- R88, R116, R117, R120, R122: the results of the floating instructions of one to three operands, rounded once: a sum, a
difference, a product and a fused product-sum of finite operands are the exact result rounded, an exact zero with the sign that
R88 gives; FRND's result is the operand rounded to an integer. -/
def Obligations.FloatArithmetic : Prop := ∀ (f : FFmt) (r : Rnd) (o : Opds) (s : State),
  let a := fltArg f o s o.a
  let b := fltArg f o s o.b
  let c := fltArg f o s o.c
  let Gives (i : Instr) (val : Nat → Nat) : Prop :=
    Ready i s → Does i s fun t => Fills .n32 o s t fun l => val l % 2 ^ 32
  Gives (.fadd f r o) (fun l => Sys2Proof.Float.add f r (a l) (b l))
  ∧ Gives (.fsub f r o) (fun l => Sys2Proof.Float.sub f r (a l) (b l))
  ∧ Gives (.fmul f r o) (fun l => Sys2Proof.Float.mul f r (a l) (b l))
  ∧ Gives (.ffma f r o) (fun l => Sys2Proof.Float.fma f r (a l) (b l) (c l))
  ∧ Gives (.fmin f r o) (fun l => Sys2Proof.Float.minmax f false (a l) (b l))
  ∧ Gives (.fmax f r o) (fun l => Sys2Proof.Float.minmax f true (a l) (b l))
  ∧ Gives (.frnd f r o) (fun l => Sys2Proof.Float.integral f r (a l))
  ∧ (Ready (.fcmp f r o) s → Does (.fcmp f r o) s fun t =>
      Judges o s t fun l => Sys2Proof.Float.compare f (Forms.code o.c) (a l) (b l))
  ∧ ∀ p q w x y z, Sys2Proof.Float.toFV f p = .fin x → Sys2Proof.Float.toFV f q = .fin y → Sys2Proof.Float.toFV f w = .fin z →
    let sumSign (zx nx zy ny : Bool) : Bool := if zx && zy && nx == ny then nx else r == .rm
    let pn := x.neg != y.neg
    (∃ e, ExactlyIs e (ratOf x + ratOf y) (sumSign x.isZero x.neg y.isZero y.neg) ∧ Sys2Proof.Float.add f r p q = Sys2Proof.Float.round f r e)
    ∧ (∃ e, ExactlyIs e (ratOf x - ratOf y) (sumSign x.isZero x.neg y.isZero (!y.neg)) ∧ Sys2Proof.Float.sub f r p q = Sys2Proof.Float.round f r e)
    ∧ (∃ e, ExactlyIs e (ratOf x * ratOf y) pn ∧ Sys2Proof.Float.mul f r p q = Sys2Proof.Float.round f r e)
    ∧ (∃ e, ExactlyIs e (ratOf x * ratOf y + ratOf z) (sumSign (x.isZero || y.isZero) pn z.isZero z.neg)
        ∧ Sys2Proof.Float.fma f r p q w = Sys2Proof.Float.round f r e)
    ∧ Holds f (Sys2Proof.Float.integral f r p) (Sys2Proof.Float.toInt r x)
    ∧ (Sys2Proof.Float.integral f r p).testBit (Sys2Proof.Float.width f - 1) = x.neg

/-- R119, R121: the functions of one FP32 operand, with the table of their special operands and the results that are exact before
they are rounded (a reciprocal, the root of a square, a power of two and its logarithm), and the packed instructions, whose elements do
not meet. It rests on the
model's choices of log entry 30. -/
def Obligations.FloatFunctions : Prop := ∀ (f : FFmt) (r : Rnd) (o : Opds) (s : State),
  let a := fltArg f o s o.a
  let half (x : Opd) (l : Nat) (high : Bool) : Nat :=
    if high then (arg32 o s x l).toNat / 65536 else (arg32 o s x l).toNat % 65536
  let Gives (i : Instr) (val : Nat → Nat) : Prop :=
    Ready i s → Does i s fun t => Fills .n32 o s t fun l => val l % 2 ^ 32
  let Packs (i : Instr) (val : Nat → Bool → Nat) : Prop :=
    Ready i s → Does i s fun t => Fills .n32 o s t fun l => (val l false + 65536 * val l true) % 2 ^ 32
  Gives (.frcp f r o) (fun l => Sys2Proof.Float.rcp r (a l))
  ∧ Gives (.frsq f r o) (fun l => Sys2Proof.Float.rsq (a l))
  ∧ Gives (.fsqrt f r o) (fun l => Sys2Proof.Float.sqrt r (a l))
  ∧ Gives (.fexp2 f r o) (fun l => Sys2Proof.Float.exp2 (a l))
  ∧ Gives (.flog2 f r o) (fun l => Sys2Proof.Float.log2 (a l))
  ∧ Gives (.fsin f r o) (fun l => Sys2Proof.Float.sinCos false (a l))
  ∧ Gives (.fcos f r o) (fun l => Sys2Proof.Float.sinCos true (a l))
  ∧ Gives (.ftanh f r o) (fun l => Sys2Proof.Float.tanh (a l))
  ∧ Packs (.hadd2 f r o) (fun l h => Sys2Proof.Float.add f r (half o.a l h) (half o.b l h))
  ∧ Packs (.hmul2 f r o) (fun l h => Sys2Proof.Float.mul f r (half o.a l h) (half o.b l h))
  ∧ Packs (.hfma2 f r o) (fun l h => Sys2Proof.Float.fma f r (half o.a l h) (half o.b l h) (half o.c l h))
  ∧ ∀ (m : Rnd) (b : Nat),
    let v := Sys2Proof.Float.toFV .f32 b
    let rcp := Sys2Proof.Float.rcp m b
    let rsq := Sys2Proof.Float.rsq b
    let sqrt := Sys2Proof.Float.sqrt m b
    let exp2 := Sys2Proof.Float.exp2 b
    let log2 := Sys2Proof.Float.log2 b
    let sin := Sys2Proof.Float.sinCos false b
    let cos := Sys2Proof.Float.sinCos true b
    let tanh := Sys2Proof.Float.tanh b
    let nan := Sys2Proof.Float.defaultNaN .f32
    let one := 0x3F800000
    let inf := Sys2Proof.Float.infBits .f32
    let zero := Sys2Proof.Float.zeroBits .f32
    (∀ x, v = .fin x → x.num = 0 → rcp = inf x.neg ∧ rsq = inf x.neg ∧ sqrt = zero x.neg ∧ exp2 = one ∧ log2 = inf true
      ∧ sin = zero x.neg ∧ cos = one ∧ tanh = zero x.neg)
    ∧ (v = .inf false → rcp = zero false ∧ rsq = zero false ∧ sqrt = inf false ∧ exp2 = inf false ∧ log2 = inf false
      ∧ sin = nan ∧ cos = nan ∧ tanh = one)
    ∧ (v = .inf true → rcp = zero true ∧ rsq = nan ∧ sqrt = nan ∧ exp2 = zero false ∧ log2 = nan
      ∧ sin = nan ∧ cos = nan ∧ tanh = 0xBF800000)
    ∧ (∀ x, v = .fin x → x.num ≠ 0 → x.neg = true → rsq = nan ∧ sqrt = nan ∧ log2 = nan)
    ∧ (v = .nan → rcp = nan ∧ rsq = nan ∧ sqrt = nan ∧ exp2 = nan ∧ log2 = nan ∧ sin = nan ∧ cos = nan ∧ tanh = nan)
    ∧ Sys2Proof.Float.log2 one = zero false
    ∧ ∀ x, v = .fin x →
      let is (bits : Nat) (r : Rnd) (z : Rat) (neg : Bool) : Prop := ∃ e, ExactlyIs e z neg ∧ bits = Sys2Proof.Float.round .f32 r e
      (x.num ≠ 0 → is rcp m (1 / ratOf x) x.neg)
      ∧ (∀ z : Rat, 0 < z → ratOf x = z * z → is sqrt m z false ∧ is rsq .rn (1 / z) false)
      ∧ (∀ n : Int, -151 ≤ n → n < 128 → ratOf x = n → is exp2 .rn (2 ^ n) false)
      ∧ ∀ n : Int, ratOf x = 2 ^ n → is log2 .rn n false

/-- R86, R116, R117: the cases that give the default NaN, an infinite product with the opposite infinity among them, and what FMIN and
FMAX make of one NaN and of the two zeros in either order. -/
def Obligations.FloatSpecialCases : Prop := ∀ (f : FFmt) (r : Rnd) (a b c : Nat),
  let nan := Sys2Proof.Float.isNaN f
  let isInf (x : Nat) (n : Bool) : Prop := Sys2Proof.Float.toFV f x = .inf n
  let isZero (x : Nat) : Prop := ∃ y, Sys2Proof.Float.toFV f x = .fin y ∧ y.num = 0
  (nan a = true ∨ nan b = true → Sys2Proof.Float.add f r a b = Sys2Proof.Float.defaultNaN f ∧ Sys2Proof.Float.sub f r a b = Sys2Proof.Float.defaultNaN f
    ∧ Sys2Proof.Float.mul f r a b = Sys2Proof.Float.defaultNaN f ∧ Sys2Proof.Float.fma f r a b c = Sys2Proof.Float.defaultNaN f)
  ∧ (nan c = true → Sys2Proof.Float.fma f r a b c = Sys2Proof.Float.defaultNaN f)
  ∧ (∀ n, isInf a n → isInf b (!n) → Sys2Proof.Float.add f r a b = Sys2Proof.Float.defaultNaN f)
  ∧ (∀ n, isInf a n → isInf b n → Sys2Proof.Float.sub f r a b = Sys2Proof.Float.defaultNaN f)
  ∧ (∀ n, isInf a n → isZero b → Sys2Proof.Float.mul f r a b = Sys2Proof.Float.defaultNaN f ∧ Sys2Proof.Float.mul f r b a = Sys2Proof.Float.defaultNaN f
    ∧ Sys2Proof.Float.fma f r a b c = Sys2Proof.Float.defaultNaN f ∧ Sys2Proof.Float.fma f r b a c = Sys2Proof.Float.defaultNaN f)
  ∧ (∀ m n k, isInf a m → isInf b n ∨ (∃ y, Sys2Proof.Float.toFV f b = .fin y ∧ y.num ≠ 0 ∧ y.neg = n) → isInf c k → k ≠ (m != n) →
    Sys2Proof.Float.fma f r a b c = Sys2Proof.Float.defaultNaN f ∧ Sys2Proof.Float.fma f r b a c = Sys2Proof.Float.defaultNaN f)
  ∧ (∀ m, nan a = true → nan b = true → Sys2Proof.Float.minmax f m a b = Sys2Proof.Float.defaultNaN f)
  ∧ (∀ m, nan a = true → nan b = false → Sys2Proof.Float.minmax f m a b = b ∧ Sys2Proof.Float.minmax f m b a = b)
  ∧ Sys2Proof.Float.minmax f false (Sys2Proof.Float.zeroBits f true) (Sys2Proof.Float.zeroBits f false) = Sys2Proof.Float.zeroBits f true
  ∧ Sys2Proof.Float.minmax f true (Sys2Proof.Float.zeroBits f true) (Sys2Proof.Float.zeroBits f false) = Sys2Proof.Float.zeroBits f false
  ∧ Sys2Proof.Float.minmax f false (Sys2Proof.Float.zeroBits f false) (Sys2Proof.Float.zeroBits f true) = Sys2Proof.Float.zeroBits f true
  ∧ Sys2Proof.Float.minmax f true (Sys2Proof.Float.zeroBits f false) (Sys2Proof.Float.zeroBits f true) = Sys2Proof.Float.zeroBits f false

/-- R87: a value that a format holds is delivered unchanged, in every rounding mode, subnormals (R85) and the zeros of both
signs (R88) included. -/
def Obligations.RoundingIsExact : Prop := ∀ (f : FFmt) (r : Rnd) (b : Nat) (x : Sys2Proof.Float.Ex),
  b < 2 ^ Sys2Proof.Float.width f → Sys2Proof.Float.toFV f b = .fin x → Sys2Proof.Float.round f r x = b

/-- R102: a floating value goes into an integer type rounded once by the mode, clamped to the range of the type, a NaN as 0. -/
def Obligations.ConversionClamps : Prop := ∀ (r : Rnd) (sg : Bool) (w : Nat), w = 32 ∨ w = 64 →
  Sys2Proof.Float.toIntType r sg w .nan = 0
  ∧ Sys2Proof.Float.toIntType r sg w (.inf true) = (if sg then 2 ^ (w - 1) else 0)
  ∧ Sys2Proof.Float.toIntType r sg w (.inf false) = (if sg then 2 ^ (w - 1) - 1 else 2 ^ w - 1)
  ∧ ∀ x : Sys2Proof.Float.Ex,
    let v := signedOf w (Sys2Proof.Float.toIntType r sg w (.fin x))
    let u := Sys2Proof.Float.toIntType r sg w (.fin x)
    (sg = true → v = max (-(2 ^ (w - 1) : Int)) (min (2 ^ (w - 1) - 1) (Sys2Proof.Float.toInt r x)))
    ∧ (sg = false → (u : Int) = max 0 (min (2 ^ w - 1) (Sys2Proof.Float.toInt r x)))
    ∧ (0 < x.den →
        let q := ratOf x
        let n : Rat := Sys2Proof.Float.toInt r x
        (r = .rn → 2 * away n q ≤ 1 ∧ (2 * away n q = 1 → Sys2Proof.Float.toInt r x % 2 = 0))
        ∧ (r = .rz → (0 ≤ q → 0 ≤ n ∧ n ≤ q ∧ q < n + 1) ∧ (q < 0 → n ≤ 0 ∧ q ≤ n ∧ n - 1 < q))
        ∧ (r = .rp → q ≤ n ∧ n < q + 1) ∧ (r = .rm → n ≤ q ∧ q < n + 1))

/-- R123 to R125: CVT in every form whose slots are in use; it stops for an unused slot, and for a block slot with a k
destination. The row CVT_BLOCK is the form with a block slot. It rests on the model's choices of log entries 31, 71 and
72. -/
def Obligations.Conversion : Prop := ∀ (f : FFmt) (r : Rnd) (o : Opds) (s : State) (i : Instr),
  i = .cvt f r o ∨ i = .cvtBlock f r o →
  let sl := (Cvt.srcSlot o).bind s.slot?
  let dl := (Cvt.dstSlot o).bind s.slot?
  let unused := (∃ n, Cvt.srcSlot o = some n ∧ s.slot? n = none) ∨ (∃ n, Cvt.dstSlot o = some n ∧ s.slot? n = none)
  let isBlock (x : Option Slot) : Prop := ∃ y, x = some y ∧ y.fmt = 4
  let value := Cvt.value o sl s.grp s.active
  Ready i s →
  (unused → Traps i s 0x0A 0)
  ∧ (¬ unused → (isBlock sl ∨ isBlock dl) → o.d.cls ≠ 1 → Traps i s 0x40 0)
  ∧ (¬ unused → ¬ isBlock sl → ¬ isBlock dl → Does i s fun t => Fills (Cvt.fillType o) o s t fun l =>
      Cvt.result f r o dl (Cvt.base o s.grp + l) (value l) % 2 ^ (Cvt.fillType o).bits)
  ∧ (¬ unused → isBlock sl → ¬ isBlock dl → o.d.cls = 1 → Does i s fun t => Fills (Cvt.fillType o) o s t fun l =>
      Cvt.result f r o dl (Cvt.base o s.grp + l) (value l) % 2 ^ (Cvt.fillType o).bits)
  ∧ (∀ d, ¬ unused → dl = some d → d.fmt = 4 → o.d.cls = 1 → Does i s fun t => Fills .n32 o s t fun l =>
      let given (e : Nat) : Sys2Proof.Float.FV := if Contributes s o e then value e else .fin Sys2Proof.Float.Ex.zero
      Cvt.blockWord d (Block.quantise d given fun e => Cvt.base o s.grp + e) l % 2 ^ 32)

/-- R126, R128: what each running lane receives in a quad exchange and in a shuffle; an absent lane gives 0, a lane outside
exec_mask nothing. -/
def Obligations.Exchanges : Prop := ∀ (o : Opds) (s : State),
  let a (l : Nat) := (arg32 o s o.a l).toNat
  let here (l : Nat) : Nat := if Bits.has s.grp.present l then a l else 0
  let Gives (i : Instr) (val : Nat → Nat) : Prop := Ready i s → Does i s fun t => Fills .n32 o s t val
  Gives (.qswp .horiz o) (fun l => here (l ^^^ 1))
  ∧ Gives (.qswp .vert o) (fun l => here (l ^^^ 2))
  ∧ Gives (.qswp .diag o) (fun l => here (l ^^^ 3))
  ∧ (∀ n : BitVec 2, Gives (.qbcst n o) (fun l => here (l / 4 * 4 + n.toNat)))
  ∧ ∀ m : ShMode, Gives (.xshfl m o) fun l =>
      let b := (arg32 o s o.b l).toNat
      let src := match m with
        | .idx => b % 32
        | .up => if b ≤ l then l - b else l
        | .down => if l + b ≤ 31 then l + b else l
        | .xor => l ^^^ (b % 32)
      if Bits.has (s.exec o.guard) src then a src else a l

/-- R127, R129 to R132: scans and reductions in ascending lane order over the contributing lanes, votes, the elected lane,
and the sampled lane. -/
def Obligations.GroupResults : Prop := ∀ (o : Opds) (s : State),
  let con := Contributes s o
  let a := arg32 o s o.a
  let p (l : Nat) : Bool := Bits.has (s.grp.rp o.a.val) l
  (∀ x : XOp,
    let part (l : Nat) : W32 := if con l then a l else Xbar.identity x
    let upTo (l : Nat) : W32 := (List.range (l + 1)).foldl (fun acc j => Xbar.op x acc (part j)) (Xbar.identity x)
    (Ready (.xscan x o) s → Does (.xscan x o) s fun t => Fills .n32 o s t fun l => (upTo l).toNat)
    ∧ (Ready (.xred x o) s → Does (.xred x o) s fun t => Fills (Xbar.fill x) o s t fun _ => (upTo 31).toNat))
  ∧ (Ready (.vote .all o) s → Does (.vote .all o) s fun t =>
      Judges o s t fun _ => (List.range 32).all fun l => !con l || p l)
  ∧ (Ready (.vote .any o) s → Does (.vote .any o) s fun t =>
      Judges o s t fun _ => (List.range 32).any fun l => con l && p l)
  ∧ (Ready (.vote .ballot o) s → Does (.vote .ballot o) s fun t =>
      Fills .n32 o s t fun _ => ((List.range 32).map fun l => if con l && p l then 2 ^ l else 0).sum)
  ∧ (Ready (.elect o) s → Does (.elect o) s fun t => Judges o s t fun l =>
      let able (j : Nat) : Bool := if (List.range 32).any con then con j else Bits.has (s.exec o.guard) j
      (List.range 32).find? able = some l)
  ∧ (Ready (.gsample o) s → Does (.gsample o) s fun t =>
      let c := Xbar.sample (fun l => if con l then a l else 0#32) (arg32 o s o.b s.refLane)
      Fills .n32 o s t (fun _ => c)
      ∧ ∀ l, Runs s o l → Bits.has (t.grp.rp o.c.val) l = if o.c.val = 0 then true else decide (c < 32))

/-- R161, R162, R165, R166, R168: the moment instructions in every lane that runs; a negative variance and an excessive
covariance trap, naming the lanes, and write none. It rests on the model's choices of log entries 29, 30 and 74. -/
def Obligations.MomentResults : Prop := ∀ (o : Opds) (s : State),
  let a := Moment.getM s.grp o.a
  let b := Moment.getM s.grp o.b
  let cov := Moment.covOf s o s.grp
  let lanes (p : Nat → Bool) : Mask := s.exec o.guard &&& Bits.maskOf p
  let neg (x : W64) : Bool := Moment.negative (Moment.var x)
  let One (i : Instr) (val : Nat → W64) : Prop := Ready i s →
    let m := lanes fun l => neg (a l)
    (m ≠ 0#32 → Traps i s 0x08 m.toNat) ∧ (m = 0#32 → Does i s fun t => FillsM o s t val)
  let Two (i : Instr) (val : Nat → W64) : Prop := Ready i s →
    let m := lanes fun l => neg (a l) || neg (b l)
    let x := lanes fun l => match cov l with
      | .given c => Moment.excess c (Moment.plus (Moment.var (a l))) (Moment.plus (Moment.var (b l)))
      | _ => false
    (m ≠ 0#32 → Traps i s 0x08 m.toNat) ∧ (m = 0#32 → x ≠ 0#32 → Traps i s 0x09 x.toNat)
    ∧ (m = 0#32 → x = 0#32 → Does i s fun t => FillsM o s t val)
  One (.mscl o) (fun l => Moment.sclPair (a l) (Moment.getFp o s.grp o.b l) (Moment.getFp o s.grp o.c l))
  ∧ One (.msqr o) (fun l => Moment.sqrPair (a l))
  ∧ One (.mrcp o) (fun l => Moment.rcpPair (a l))
  ∧ One (.mexp o) (fun l => Moment.expPair (a l))
  ∧ One (.mrelu o) (fun l => Moment.reluPair (a l))
  ∧ One (.mlog o) (fun l => Moment.logPair (a l))
  ∧ Two (.madd o) (fun l => Moment.addPair false (a l) (b l) (cov l))
  ∧ Two (.msub o) (fun l => Moment.addPair true (a l) (b l) (cov l))
  ∧ Two (.mmul o) (fun l => Moment.mulPair (a l) (b l) (cov l))
  ∧ (Ready (.mset o) s →
      let m := lanes fun l => Moment.negative (Moment.getFp o s.grp o.b l)
      (m ≠ 0#32 → Traps (.mset o) s 0x08 m.toNat)
      ∧ (m = 0#32 → Does (.mset o) s fun t => FillsM o s t fun l =>
          if Sys2Proof.Float.isNaN .f32 (arg32 o s o.a l).toNat || Sys2Proof.Float.isNaN .f32 (arg32 o s o.b l).toNat then Moment.nanPair
          else Moment.pair (arg32 o s o.a l).toNat (arg32 o s o.b l).toNat))

/-- R166 with MCR.COV = 0: the sum of independent moments adds means and adds variances, each rounded once, and a zero
variance is +0; a product of independent moments multiplies the means. It rests on the model's choices of log entry 29. -/
def Obligations.IndependentMoments : Prop := ∀ (a b : W64),
  let num (x : W64) : Prop := Sys2Proof.Float.isNaN .f32 (Bits.lo x).toNat = false ∧ Sys2Proof.Float.isNaN .f32 (Bits.hi x).toNat = false
    ∧ Moment.negative (Moment.var x) = false
  let clean (x : W32) : W32 := if x = 0x80000000#32 then 0#32 else x
  num a → num b →
  Bits.lo (Moment.addPair false a b .indep) = Sys2Proof.Float.fadd (Bits.lo a) (Bits.lo b)
  ∧ Bits.hi (Moment.addPair false a b .indep) = clean (Sys2Proof.Float.fadd (Bits.hi a) (Bits.hi b))
  ∧ Bits.lo (Moment.addPair true a b .indep) = Sys2Proof.Float.fsub (Bits.lo a) (Bits.lo b)
  ∧ Bits.hi (Moment.addPair true a b .indep) = clean (Sys2Proof.Float.fadd (Bits.hi a) (Bits.hi b))
  ∧ Bits.lo (Moment.mulPair a b .indep) = Sys2Proof.Float.fmul (Bits.lo a) (Bits.lo b)

/-- R169, R171: collapsing moments to values, and the test of a moment against a bound. It rests on the model's choices of log entries 30 and 74. -/
def Obligations.MomentCollapse : Prop := ∀ (o : Opds) (s : State),
  let a := Moment.getM s.grp o.a
  (∀ k : MCol, Ready (.mcol k o) s →
    let m := s.exec o.guard &&& Bits.maskOf fun l => k != .mean && Moment.negative (Moment.var (a l))
    (m ≠ 0#32 → Traps (.mcol k o) s 0x08 m.toNat)
    ∧ (m = 0#32 → Does (.mcol k o) s fun t => Fills .n32 o s t fun l => (Moment.collapse k (a l) (arg32 o s o.b l)).toNat))
  ∧ (Ready (.mcol .mean o) s → Does (.mcol .mean o) s fun t => Fills .n32 o s t fun l => (Bits.lo (a l)).toNat)
  ∧ (Ready (.mchk o) s → Does (.mchk o) s fun t => Judges o s t fun l =>
      let tau := match o.b with | .k n => Sys2Proof.Float.fval (Bits.lo (s.grp.rk n.toNat)) | _ => Sys2Proof.Float.fval o.imm
      let theta := match o.b with | .k n => Sys2Proof.Float.fval (Bits.hi (s.grp.rk n.toNat)) | _ => .fin Sys2Proof.Float.Ex.zero
      Moment.check (a l) tau theta)

/-- R139, R146, R149, R150, R145: tile handles, reading, writing and clearing rows of a window while no MMA is exposed,
binding and unbinding, and MXFENCE. It rests on the model's choices of log entry 26. -/
def Obligations.Windows : Prop := ∀ (o : Opds) (s : State),
  (Ready (.thnd o) s → s.slot? (Forms.code o.b % 8) = none → Traps (.thnd o) s 0x0A 0)
  ∧ (Ready (.thnd o) s → s.slot? (Forms.code o.b % 8) ≠ none → Does (.thnd o) s fun t =>
      t.grp.rt o.d.val = BitVec.ofNat 64 (Forms.code o.b / 8 * 2 ^ 56 + 2 ^ 55 + Forms.code o.b % 8 * 2 ^ 52
        + (s.grp.rk o.a.val).toNat % 2 ^ 52))
  ∧ (Ready (.zclr o) s → Calm s → Does (.zclr o) s fun t => ∀ i c, i < 32 → c < 128 →
      (Bits.has s.active i = true → element t o.d.val 0 i c = 0#32
        ∧ (hasMoments s o.d.val = true → element t o.d.val 1 i c = 0#32))
      ∧ (Bits.has s.active i = false → ∀ p < 2, element t o.d.val p i c = element s o.d.val p i c))
  ∧ (Ready (.zrd o) s → Calm s → (Forms.zPlane o = 1 → hasMoments s o.a.val = true) → Does (.zrd o) s fun t =>
      ∀ l j, Runs s o l → j < Forms.zCount o →
        t.grp.rv (o.d.val + j) l = element s o.a.val (Forms.zPlane o) l (Forms.zCol o + j))
  ∧ (Ready (.zwr o) s → Calm s → (Forms.zPlane o = 1 → hasMoments s o.d.val = true) → Does (.zwr o) s fun t =>
      ∀ l j, l < 32 → Bits.has s.active l = true → j < Forms.zCount o →
        element t o.d.val (Forms.zPlane o) l (Forms.zCol o + j) = s.grp.rv (o.a.val + j) l)
  ∧ (Ready (.zrd o) s → Calm s → Forms.zPlane o = 1 → hasMoments s o.a.val = false → TrapsFree (.zrd o) s 0x81)
  ∧ (Ready (.zwr o) s → Calm s → Forms.zPlane o = 1 → hasMoments s o.d.val = false → TrapsFree (.zwr o) s 0x81)
  ∧ (Ready (.zalloc o) s → Does (.zalloc o) s fun t =>
      let b := At (.zalloc o) s
      let mom := s.launch.record.zmom.getLsbD o.a.val
      let k := if mom then 2 else 1
      let bound := (SMap.get? s.team.windows o.a.val).isSome
      let fits := State.granulesBound b.team + k ≤ 32 ∧ k ≤ Zw.freeGranules b b.team.core
        ∧ b.saveFits b.grp.team (16384 * k) = true
      (bound = false → fits → SMap.get? t.team.windows o.a.val = some { mom := mom, mean := [], var := [] })
      ∧ (∀ l < 32, Bits.has s.active l = true →
          (Bits.has (t.grp.rp o.d.val) l = true ↔ o.d.val = 0 ∨ bound = true ∨ fits)))
  ∧ (Ready (.zfree o) s → Zw.busy (At (.zfree o) s) s.grp.team o.d.val = true → Waits (.zfree o) s)
  ∧ (Ready (.zfree o) s → Zw.busy (At (.zfree o) s) s.grp.team o.d.val = false → Does (.zfree o) s fun t =>
      SMap.get? t.team.windows o.d.val = none)
  ∧ (Ready (.mxfence o) s → Does (.mxfence o) s fun t =>
      SMap.get 0 t.core.mxfence s.ctx = s.nextId ∧ t.grp.fenced = true ∧ t.nextId = s.nextId + 1)

/-- R147, R148, R151 to R154: the epilogue into registers and into the selection heap, its traps, claiming and releasing the heap,
and reading ranks of it with their weights and the top-p cut. It rests on the model's choices of log entry 69. -/
def Obligations.EpilogueAndHeap : Prop := ∀ (o : Opds) (s : State),
  let slot := s.slot? (Forms.epiSlot o)
  let slotOk : Prop := Forms.epiScale o = true → slot ≠ none
  let sl := if Forms.epiScale o then slot else none
  let planeOk : Prop := Forms.epiPlane o = 1 → hasMoments s o.a.val = true
  let kb := s.grp.rk o.b.val
  let held := s.core.heap.owner = some s.grp.team
  let whole := Zw.heapBad s = false
  (∀ i : Instr, i = .zepi o ∨ i = .zepiHeap o → Ready i s →
    (¬ slotOk → Traps i s 0x0A 0)
    ∧ (slotOk → Calm s → Forms.epiPlane o = 1 → hasMoments s o.a.val = false → TrapsFree i s 0x81))
  ∧ (Ready (.zepi o) s → slotOk → Calm s → planeOk → Does (.zepi o) s fun t =>
      ∀ l j, Runs s o l → j < Forms.epiCount o → t.grp.rv (o.d.val + j) l =
        Zw.epilogue (Forms.epiAct o) (Forms.epiOut o) sl (Bits.lo kb) (Bits.hi kb)
          (element s o.a.val (Forms.epiPlane o) l (Forms.epiCol o + j)))
  ∧ (Ready (.zepiHeap o) s → slotOk → Calm s → planeOk → held → whole → Does (.zepiHeap o) s fun t =>
      t.core.heap = { ((List.range (Forms.epiCount o)).map fun j =>
        (Zw.scaled sl (element s o.a.val (Forms.epiPlane o) (Forms.code o.d) (Forms.epiCol o + j)),
         Bits.lo kb + BitVec.ofNat 32 (Forms.epiCol o + j))).foldl Zw.insert s.core.heap with bad := [] })
  ∧ (Ready (.zepiHeap o) s → slotOk → Calm s → planeOk → held → ¬ whole → TrapsFree (.zepiHeap o) s 0x26)
  ∧ (Ready (.zepiHeap o) s → slotOk → Calm s → planeOk → ¬ held → TrapsFree (.zepiHeap o) s 0x84)
  ∧ (Ready (.hpinit o) s → Does (.hpinit o) s fun t =>
      let free := s.core.heap.owner = none
      let claims := Forms.code o.a = 0
      (claims → free ∨ held → t.core.heap = { owner := some s.grp.team, entries := [], ovf := false })
      ∧ (¬ claims → held → t.core.heap.owner = none)
      ∧ (¬ held → ¬ (claims ∧ free) → t.core.heap = s.core.heap)
      ∧ ∀ l < 32, Bits.has s.active l = true →
          (Bits.has (t.grp.rp o.d.val) l = true ↔ o.d.val = 0 ∨ held ∨ (claims ∧ free)))
  ∧ (Ready (.hpread o) s → ¬ held → TrapsFree (.hpread o) s 0x84)
  ∧ (Ready (.hpread o) s → held → ¬ whole → TrapsFree (.hpread o) s 0x26)
  ∧ (let ka := s.grp.rk o.a.val
     let h := s.core.heap
     let n := h.entries.length
     let value (r : Nat) : W32 := (h.entries.getD r default).1
     let c := Bits.hi ka
     let p := Bits.hi kb
     let less (x y : W32) : Prop := Sys2Proof.Float.compare .f32 2 x.toNat y.toNat = true
     let tempered := less 0#32 c ∧ less c 0x7F800000#32
     let w (r : Nat) : W32 := if r = 0 then 0x3F800000#32 else if ¬ tempered then 0#32
       else if Sys2Proof.Float.compare .f32 0 (value r).toNat (value 0).toNat then 0x3F800000#32
       else Sys2Proof.Float.fexp2 (Sys2Proof.Float.fmul (Sys2Proof.Float.fsub (value r) (value 0)) c)
     let cum (r : Nat) : W32 := (List.range (r + 1)).foldl (fun x i => Sys2Proof.Float.fadd x (w i)) 0#32
     let cutting := less 0#32 p ∧ less p 0x3F800000#32
     let first := (List.range n).find? fun r =>
       Sys2Proof.Float.compare .f32 5 (cum r).toNat (Sys2Proof.Float.fmul p (Bits.lo kb)).toNat
     let out := cutting ∧ first = none ∧ h.ovf = true
     Ready (.hpread o) s → held → whole →
     (out → Traps (.hpread o) s 0x83 n)
     ∧ (¬ out → Does (.hpread o) s fun t => t.core.heap = h ∧ ∀ l, Runs s o l →
         let r := Bits.field ka 7 0 + l
         match h.entries[r]? with
         | some e => t.grp.rv o.d.val l = e.1 ∧ t.grp.rv (o.d.val + 1) l = e.2
             ∧ t.grp.rv (o.d.val + 2) l = (if cutting ∧ ∃ x, first = some x ∧ x < r then 0#32 else w r)
         | none => t.grp.rv o.d.val l = 0xFF800000#32 ∧ t.grp.rv (o.d.val + 1) l = 0xFFFFFFFF#32
             ∧ t.grp.rv (o.d.val + 2) l = 0#32))

/-- R138, R141, R144, R155, R156, R173: an MMA whose handle, tile, window and operands pass the checks takes the last entry of
the merge buffer, with the rows of its active lanes and its deadline; a full buffer or counter holds it; an invalid handle
and an unused slot trap first; of the lines of its tile the first that fails, in stored order, traps. It rests on the model's choices
of log entries 26, 27, 49 and 73. -/
def Obligations.MatrixIssue : Prop := ∀ (kind : MmaKind) (o : Opds) (s : State),
  let i : Instr := match kind with | .h => .mmaH o | .kb => .mmaKb o | .mom => .mmaMom o | .momQn => .mmaMomQn o
  let b := At i s
  let h := s.grp.rt o.b.val
  let room := b.core.mbuf.length < 8 ∧ b.roomFor .matrix = true
  let deep := Mtx.deep32 kind
  Ready i s →
  (¬ room → Waits i s)
  ∧ (room → Tensor.hValid h = false → Traps i s 0x82 0)
  ∧ (room → Tensor.hValid h = true → s.slot? (Tensor.hSlot h) = none → Traps i s 0x0A 0)
  ∧ ∀ d st, room → Tensor.check b h (Mtx.suits kind) deep (Mtx.seeDesc b (Tensor.hTensor h)) = .ok d st →
      let vas := Tensor.lines d (Tensor.index d (Tensor.storedRow h) (Tensor.hTcol h))
      let tagged (va : Nat) := Tensor.lineOk b (Tensor.hTensor h) va false
      let seen (va : Nat) := Mtx.seeLine b va
      let unasked (va : Nat) : Prop := ∃ q x y z lf, seen va = .hold q ∧ tagged va = some (.peer x y z, lf)
      let passes (va : Nat) : Prop := (tagged va).isSome = true ∧ (∀ c, seen va ≠ .fault c) ∧ ¬ unasked va
      (∀ l va r, vas = l ++ va :: r → (∀ x ∈ l, passes x) →
        (tagged va = none → (∀ c, seen va ≠ .fault c) → Traps i s 0x82 va)
        ∧ (∀ c, seen va = .fault c → Traps i s (if c = 0x26 ∨ c = 0x27 then c else 0x82) va)
        ∧ (∀ q, unasked va → seen va = .hold q → WaitsFor i s q))
      ∧ ((∀ va ∈ vas, passes va) →
        (hasMoments b o.d.val ≠ deep → TrapsFree i s 0x81)
        ∧ (hasMoments b o.d.val = deep → deep = true → Mtx.negatives b o.a.val ≠ 0#32 →
            Traps i s 0x08 (Mtx.negatives b o.a.val).toNat))
      ∧ ((∀ va ∈ vas, (tagged va).isSome = true) →
      hasMoments b o.d.val = deep → (deep = true → Mtx.negatives b o.a.val = 0#32) →
      (∀ va ∈ vas, ∃ bs ws, seen va = .data bs ws) →
      Does i s fun t => Starts s t .matrix (fun op => ∃ p, op.kind = .mma p ∧ p.kind = kind ∧ p.window = o.d.val
          ∧ p.areg = o.a.val ∧ p.lanes = s.active ∧ p.badLine = none
          ∧ p.deadline = s.gtime + Mtx.holdLimit s.launch.record.prio)
        ∧ t.core.mbuf = s.core.mbuf ++ [{ grp := s.cur.grp, op := s.nextId }])

/-- R142, R143, R156, R157, R160: a skein starts with at most 128 rows and holds the unit for its cycles; at its end a lone
member has updated each row of its active lanes by the dot-product rule and no other row; an idle sub-array is gated. It
rests on the model's choices of log entries 26 and 28. -/
def Obligations.Skeins : Prop := ∀ (s : State) (core : Nat),
  let c := s.coreAt core
  (∀ l m r, c.skein = none → Mtx.chosen s core = some l → Mtx.takeRows 128 l = m :: r →
    Happens (.skeinStart core) s fun t =>
      ((m :: r).map Mtx.rows).sum ≤ 128
      ∧ (∃ sk, (t.coreAt core).skein = some sk ∧ sk.members = (m :: r).map (fun x => { grp := x.grp, op := x.op })
        ∧ sk.ends = s.gtime + (if c.gated || Mtx.idle s core then 212 else 0) + (if m.p.elem = 16 then 64 else 8 * m.p.elem))
      ∧ (t.coreAt core).mbuf = c.mbuf.filter fun x => !((m :: r).any fun y => y.grp == x.grp && y.op == x.op))
  ∧ (∀ sk, c.skein = some sk → sk.ends ≤ s.gtime → Happens (.skeinComplete core) s fun t =>
      (t.coreAt core).skein = none ∧ (t.coreAt core).lastSkein = s.gtime)
  ∧ (∀ sk m w, c.skein = some sk → sk.ends ≤ s.gtime → sk.members.filterMap (Mtx.memberOf s) = [m] → m.p.badLine = none →
      m.spoiled = 0#32 → Mtx.window? s (s.grpAt m.grp).team m.p.window = some w →
      Happens (.skeinComplete core) s fun t => ∃ w', Mtx.window? t (s.grpAt m.grp).team m.p.window = some w'
        ∧ ∀ i n, i < 32 → n < 128 →
          (Mtx.elem w' 0 i n = if Bits.has m.p.lanes i then (Mtx.update (s.grpAt m.grp) m.p w i n).1 else Mtx.elem w 0 i n)
          ∧ (Mtx.deep32 m.p.kind = true → Mtx.elem w' 1 i n =
              if Bits.has m.p.lanes i then (Mtx.update (s.grpAt m.grp) m.p w i n).2 else Mtx.elem w 1 i n))
  ∧ (Mtx.idle s core = true → Happens (.matrixPowerGate core) s fun t => (t.coreAt core).gated = true)

/-- R181, R189, R190, R192, R199: opening a walk, handing out nodes, and flipping the generations. It rests on the model's
choices of log entries 24, 34 and 35. -/
def Obligations.WalkHandOuts : Prop := ∀ (o : Opds) (s : State),
  (let i : Instr := .wkbegin o
   let b := At i s
   let cl := s.team.core / 4
   let slot? := (List.range 4).find? fun n => (SMap.get? (s.clusterAt cl).walks n).isNone
   Ready i s →
   (slot? = none → Does i s fun t => KIs t o.d.val 0#64 ∧ PIs s t o.c.val false ∧ SameMemory s t ∧ t.grp.ops = s.grp.ops)
   ∧ (slot? ≠ none → b.roomFor .walk = false → Waits i s)
   ∧ ∀ slot p h st, b.roomFor .walk = true → slot? = some slot →
      Wk.meetHeader b (s.grp.rk o.a.val).toNat = .ok (.hbm p) h st → h.live < 2 →
      let seq := (SMap.get 0 (s.clusterAt cl).walkSeq slot + 1) % 65536
      Does i s fun t => KIs t o.d.val (Wk.handle cl slot seq (BitVec.ofNat 32 h.gen)) ∧ PIs s t o.c.val true
        ∧ (∃ w, Wk.walk? t cl slot = some w ∧ w.ctx = s.ctx ∧ w.seq = seq ∧ w.ready = false ∧ w.hyp = s.grp.hcur
            ∧ w.step = Bits.field (s.grp.rk o.b.val) 31 0)
        ∧ t.readMem (p + 8 + 4 * h.live) 4 = (h.opens + 1) % 2 ^ 32
        ∧ Starts s t .walk fun op => op.acq = some .module)
  ∧ (∀ merge : Bool,
      let i : Instr := if merge then .wknextMerge o else .wknext o
      Ready i s → ∀ cl slot w, Wk.named (At i s) (s.grp.rk o.a.val) false = .ok cl slot w →
      let live := w.nodes.filter fun x => !x.subs.isEmpty
      let pick := live.find? fun x => if merge
        then (Wk.stOf w x.n).done && !(Wk.stOf w x.n).mgiven && (x.n == w.root || (Wk.stOf w x.parent).merged)
        else !(Wk.stOf w x.n).given
      (∀ x, pick = some x → Does i s fun t =>
        KIs t o.d.val (BitVec.ofNat 64 ((if x.leaf then x.seq * 2 ^ 32 + 2 ^ 25 else 0) + x.tokens * 2 ^ 16 + x.n))
        ∧ KIs t (o.d.val + 1) (BitVec.ofNat 64 (x.vt * 2 ^ 20 + x.kt)) ∧ PIs s t o.c.val true
        ∧ ∃ w', Wk.walk? t cl slot = some w'
            ∧ if merge then (Wk.stOf w' x.n).mgiven = true else (Wk.stOf w' x.n).given = true)
      ∧ (pick = none → Does i s fun t =>
          KIs t o.d.val (BitVec.ofNat 64 ((if merge && live.any fun x => !(Wk.stOf w x.n).mgiven then 1 else 2) * 2 ^ 62))
          ∧ KIs t (o.d.val + 1) 0#64 ∧ PIs s t o.c.val false))
  ∧ (∀ i : Instr, i = .wknext o ∨ i = .wknextMerge o ∨ (∃ q, i = .wksubs q o) ∨ i = .wkpart o ∨ i = .smxmerge o ∨ i = .wkdone o →
      Ready i s → Wk.walk? s (Bits.field (s.grp.rk o.a.val) 6 0) (Bits.field (s.grp.rk o.a.val) 8 7) = none →
      Traps i s 0xA0 (s.grp.rk o.a.val).toNat)
  ∧ (let i : Instr := .wkswap o
     Ready i s → ∀ p h st, Wk.meetHeader (At i s) (s.grp.rk o.a.val).toNat = .ok (.hbm p) h st → h.live < 2 → Does i s fun t =>
       KIs t o.d.val (BitVec.ofNat 64 (h.opens * 2 ^ 32 + (h.gen + 1) % 2 ^ 32))
       ∧ t.readMem (p + 2) 2 = 1 - h.live ∧ t.readMem (p + 4) 4 = (h.gen + 1) % 2 ^ 32)

/-- R193, R195 to R198: the operations on nodes of an open walk start in their counter, and trap on a node not handed out. It
rests on the model's choices of log entries 34, 35 and 49. -/
def Obligations.WalkOperations : Prop := ∀ (o : Opds) (s : State) (cl slot : Nat) (w : Walk),
  let h := s.grp.rk o.a.val
  let n := Bits.field (s.grp.rk o.b.val) 15 0
  let y := Wk.stOf w n
  let Acts (t : State) (a : WalkAct → Prop) : Prop := Starts s t .walk fun op =>
    ∃ k, op.kind = .walk k ∧ k.cluster = cl ∧ k.slot = slot ∧ k.seq = w.seq ∧ a k.act
  (∀ q, Ready (.wksubs q o) s → Wk.named (At (.wksubs q o) s) h false = .ok cl slot w →
      let b := At (.wksubs q o) s
      let x := (Wk.node? w n).getD default
      let lo := Bits.field (s.grp.rk o.c.val) 31 0
      let ro := Bits.field (s.grp.rk o.c.val) 63 32
      (y.given = false → Traps (.wksubs q o) s 0xA3 n)
      ∧ (y.given = true → y.fetched = false → Waits (.wksubs q o) s)
      ∧ ∀ r, y.given = true → y.fetched = true → b.roomFor .walk = true → lo % 4 = 0 → lo + 4 * x.subs.length ≤ s.team.localsz →
          (q = true → ro % 128 = 0 ∧ ro + 2 * w.hdim * x.subs.length ≤ s.team.localsz) → Wk.readRanks b w q x = r →
          (∀ n, r.hold = some n → WaitsFor (.wksubs q o) s n) ∧ (r.hold = none → Does (.wksubs q o) s fun t =>
            KIs t o.d.val (BitVec.ofNat 64 (x.subs.length + if y.faulted then 65536 else 0))
            ∧ Acts t fun a => a = .subs n lo (if q then some ro else none) r.ranks))
  ∧ (Ready (.wkpart o) s → Wk.named (At (.wkpart o) s) h false = .ok cl slot w →
      let b := At (.wkpart o) s
      let whole := Bits.field o.imm 16 16 = 1 ∨ 32 * Bits.field o.imm 19 17 < w.hdim
      (y.faulted = true → Traps (.wkpart o) s 0xA1 n)
      ∧ (y.faulted = false → w.subsBy.contains (Coh.groupKey b s.cur.grp n) = false ∨ y.done = true ∨ ¬ whole →
          Traps (.wkpart o) s 0xA3 n)
      ∧ (y.faulted = false → w.subsBy.contains (Coh.groupKey b s.cur.grp n) = true → y.done = false → whole →
          b.roomFor .walk = true → Does (.wkpart o) s fun t =>
            Acts t fun a => a = .part n (Wk.partWrites b w ((Wk.node? w n).getD default) o)))
  ∧ (Ready (.smxmerge o) s → Wk.named (At (.smxmerge o) s) h false = .ok cl slot w →
      (y.mgiven = false ∨ y.mstarted = true → Traps (.smxmerge o) s 0xA3 n)
      ∧ (y.mgiven = true → y.mstarted = false → (At (.smxmerge o) s).roomFor .walk = true → Does (.smxmerge o) s fun t =>
          (Acts t fun a => a = .merge n) ∧ ∃ w', Wk.walk? t cl slot = some w' ∧ (Wk.stOf w' n).mstarted = true))
  ∧ (Ready (.wkdone o) s → Wk.named (At (.wkdone o) s) h false = .ok cl slot w →
      (y.given = false → Traps (.wkdone o) s 0xA3 n)
      ∧ (y.given = true → (At (.wkdone o) s).roomFor .walk = true → Does (.wkdone o) s fun t => Acts t fun a => a = .done n))
  ∧ (Ready (.wkend o) s → Wk.named (At (.wkend o) s) h true = .ok cl slot w →
      ((At (.wkend o) s).roomFor .walk = false → Waits (.wkend o) s)
      ∧ ((At (.wkend o) s).roomFor .walk = true → Does (.wkend o) s fun t =>
          (Acts t fun a => a = .fin) ∧ ∃ w', Wk.walk? t cl slot = some w' ∧ w'.ending = true))

/-- R182, R191, R192: the snapshot of a walk completes well formed or charged with a malformed record or a failed read, and a
block fetch ends, with its node faulted where it met uncorrectable data and only there. It rests on the model's choices of
log entries 34, 35, 49 and 68. -/
def Obligations.WalkReads : Prop := ∀ (s : State) (cl slot : Nat) (w : Walk), Wk.walk? s cl slot = some w → NoneClosing s →
  (∀ u op, w.ready = false → Wk.opener s cl slot w = some (u, op) → Wk.firstWalk s u op.id = true →
    (∀ ns st, Wk.snapshot s w (Wk.reader w u op) = .ok ns st → Wk.acquired (s.noteStamps u st) u op = true →
      Happens (.walkSnapshotComplete cl slot) s fun t =>
        ∃ w', Wk.walk? t cl slot = some w' ∧ w'.ready = true ∧ w'.nodes = ns ∧ w'.fault = w.fault)
    ∧ (∀ a st, Wk.snapshot s w (Wk.reader w u op) = .bad a st → Wk.acquired (s.noteStamps u st) u op = true →
      Happens (.walkSnapshotComplete cl slot) s fun t =>
        ∃ w', Wk.walk? t cl slot = some w' ∧ w'.ready = true ∧ w'.fault = some (0xA2, a))
    ∧ (∀ c a st, Wk.snapshot s w (Wk.reader w u op) = .fail c a st → Wk.acquired (s.noteStamps u st) u op = true →
      Happens (.walkSnapshotComplete cl slot) s fun t =>
        ∃ w', Wk.walk? t cl slot = some w' ∧ w'.ready = true ∧ w'.fault = some (c, a))
    ∧ (∀ q, Wk.snapshot s w (Wk.reader w u op) = .hold q → exec (.walkSnapshotComplete cl slot) s = .next (match q with
        | none => s
        | some va => s.ask u op.id va)))
  ∧ (∀ n x, (Wk.stOf w n).given = true → (Wk.stOf w n).fetched = false → Wk.node? w n = some x →
      let part (kt : Nat) := Wk.fetchTensor s ⟨(Wk.stOf w n).by', (Wk.stOf w n).priv, Wk.view w, (Wk.stOf w n).asked⟩ w.ctx kt
      let ends (faulted : Bool) := Happens (.walkBlockFetchComplete cl slot n) s fun t => ∃ w', Wk.walk? t cl slot = some w'
        ∧ (Wk.stOf w' n).fetched = true ∧ (Wk.stOf w' n).faulted = faulted
      (∀ q, part x.kt [] = .hold q → (q = none → exec (.walkBlockFetchComplete cl slot n) s = .next s)
        ∧ ∀ va, q = some va → Happens (.walkBlockFetchComplete cl slot n) s fun t => ∃ w', Wk.walk? t cl slot = some w'
            ∧ Wk.stOf w' n = { Wk.stOf w n with asked := SMap.put (Wk.stOf w n).asked va s.gtime })
      ∧ (∀ a, part x.kt [] = .bad a → ends true) ∧ (∀ a, part x.kt [] = .stop a → ends false)
      ∧ (∀ a b, part x.kt [] = .all a → part x.vt a = .bad b → ends true)
      ∧ (∀ a b, part x.kt [] = .all a → (part x.vt a = .all b ∨ part x.vt a = .stop b) → ends false))

/-- R184, R186, R193 to R198: what a walk operation has done once it completes: records initialised and lists delivered, parts
written, states folded, a node done, the walk closed with its OPEN count lowered; a merge and a WKSUBS count in the walk once
no peer and no host has still to answer for their writes; a walk whose launch has no team left is closed with the last
operation that names it. It rests on the model's choices of log entries 34, 59 and 75. -/
def Obligations.WalkCompletions : Prop := ∀ (s : State) (u id : Nat) (op : Op) (k : WalkOp) (w : Walk),
  Wk.due s u id = some (op, k, w) →
  let walkIn (t : State) := Wk.walk? t k.cluster k.slot
  let answered (s' : State) : Prop := ∃ o, (s'.grpAt u).op? id = some o ∧ ∀ a ∈ o.lanes, a.st ≠ .waiting
  let unanswered (s' : State) : Prop := ∃ o, (s'.grpAt u).op? id = some o ∧ ∃ a ∈ o.lanes, a.st = .waiting
  let puts (s : State) (ws : List (Nat × List Byte)) (t : State) (at' : Nat) : Prop :=
    Wk.putEach u op k s (Wk.byLine ws) 0 none = some (t, at', none)
  (w.closing = true → k.cluster < 80 → (∃ n, k.act = .done n) → (∀ a ∈ op.lanes, a.st ≠ .waiting) →
    (∀ e ∈ s.groups, ∀ o ∈ e.2.ops, ∀ x, o.kind = .walk x → x.cluster = k.cluster → x.slot = k.slot → x.seq = k.seq →
      e.1 = u ∧ o = op) → Happens (.wkdoneComplete u id) s fun t => walkIn t = none)
  ∧ (NoneClosing s →
  (∀ n lo ro (got : List (Bool × List Byte)) s1 t1 s2 t2, k.act = .subs n lo ro (got.map fun e => (some e.1, some e.2)) →
    (Wk.stOf w n).inited = false →
    let x := (Wk.node? w n).getD default
    let status (r : Nat) : Nat := if (Wk.stOf w n).faulted then 2 else if (got.getD r (false, [])).1 then 1 else 0
    got.length = x.subs.length →
    puts (s.noteStamps u []) ((List.range x.subs.length).flatMap fun r =>
      [(Wk.recordAt w x r, Bits.bytesOf 4 0xFF800000 ++ Bits.bytesOf 4 0),
       (Wk.recordAt w x r + 12, Bits.bytesOf 2 (x.subs.getD r 0) ++ List.replicate (2 + 4 * w.hdim) 0#8),
       (Wk.recordAt w x r + 8, Bits.bytesOf 4 (status r))]) s1 t1 →
    puts s1 ((List.range x.subs.length).flatMap fun r =>
      (State.localVa (lo + 4 * r), Bits.bytesOf 4 (x.subs.getD r 0 + status r % 4 * 65536))
        :: match ro with | some b => [(State.localVa (b + 2 * w.hdim * r), (got.getD r (false, [])).2)] | none => []) s2 t2 →
    Happens (.wksubsComplete u id) s fun t => t.mem = s2.mem
      ∧ ∃ w', walkIn t = some w' ∧ (Wk.stOf w' n).inited = true ∧ t1 ≤ w'.horizon
        ∧ (answered s2 → w'.subsBy.contains (Coh.groupKey s u n) = true)
        ∧ (unanswered s2 → w'.subsBy = w.subsBy))
  ∧ (∀ n ws s1 t1, k.act = .part n ws → puts s (ws.map fun x => (x.1, Bits.bytesOf 4 x.2.toNat)) s1 t1 → walkIn s1 ≠ none →
      Happens (.wkpartComplete u id) s fun t => t.mem = s1.mem ∧ ∃ w', walkIn t = some w' ∧ t1 ≤ w'.horizon)
  ∧ (∀ n, k.act = .merge n → n = w.root → answered s → Happens (.smxmergeComplete u id) s fun t => t.mem = s.mem
      ∧ ∃ w', walkIn t = some w' ∧ (Wk.stOf w' n).merged = true)
  ∧ (∀ n ws s1 t1 w1, k.act = .merge n → n ≠ w.root →
      let x := (Wk.node? w n).getD default
      let p := (Wk.node? w x.parent).getD default
      ws = (List.range x.subs.length).foldl (fun acc r => Wk.folded s u op k w x p r acc) ([], {}) →
      ws.2.hold = none → ws.2.fault = none → puts (s.noteStamps u ws.2.stamps) ws.1 s1 t1 → walkIn s1 = some w1 → w1.seq = k.seq →
      Happens (.smxmergeComplete u id) s fun t => t.mem = s1.mem
        ∧ ∃ w', walkIn t = some w' ∧ (answered s1 → (Wk.stOf w' n).merged = true)
          ∧ (unanswered s1 → (Wk.stOf w' n).merged = (Wk.stOf w1 n).merged))
  ∧ (∀ n, k.act = .done n → Happens (.wkdoneComplete u id) s fun t =>
      ∃ w', walkIn t = some w' ∧ (Wk.stOf w' n).done = true)
  ∧ (k.act = .fin → Wk.othersNaming s k.cluster k.slot k.seq id = false → s.blocked u op = false → Happens (.wkendComplete u id) s fun t =>
      walkIn t = none ∧ w.horizon ≤ (t.grpAt u).horizon
      ∧ ∀ p, w.header = .hbm p → SMap.get? s.owners (lineOf p) = none →
          t.readMem (p + 8 + 4 * w.live) 4 = (s.readMem (p + 8 + 4 * w.live) 4 + 2 ^ 32 - 1) % 2 ^ 32))

/-- R34, R227, R235, R237, R238, R244 to R246, R267, R269: the memory instructions. A full counter holds the instruction, and an
atomic that MLOCK would keep at the TLB needs room in the stores counter too; the lowest failing lane names the trap; a write
under a hypothesis traps while the arena is low; else the operation is under way with
one access for each lane, two of 8 bytes for a 16-byte one (R205), and no register and no other group has changed at
issue, nor memory but for what its own stores reach, what forwarding to a peer counts (R348), and the writes of an
ownership that ends. It rests on the model's choices of log entries 13, 22 and 78. -/
def Obligations.MemoryIssue : Prop := ∀ (i : Instr) (s : State) (f : MemForm),
  let b := At i s
  memForm i b = some f → Ready i s →
  let seen := f.lanes.filter fun l => !s.grp.isHelper l
  let cause (l : Nat) := accessCause b f.want (f.addr l) f.bytes
  let room := b.roomFor f.cls = true
  let low := f.want ≠ .load ∧ s.grp.hcur ≠ 0#16 ∧ MemI.arenaLow b = true
  let place (l : Nat) (loc : Loc) : Prop := ∃ lf, b.find s.cur.grp (MemI.priv b) f.want (f.addr l) = .at' loc lf
  let busy := f.lanes.any fun l => !(f.want == .store && s.grp.isHelper l)
  let fresh := ∀ e ∈ s.grp.ops, e.id < s.nextId
  let keptFull := f.want = .atomic ∧ b.roomFor .stores = false ∧ ∃ l ∈ seen, ∃ loc lf,
    b.find s.cur.grp (MemI.priv b) f.want (f.addr l) = .at' loc (some lf) ∧ lf.mlock = true
  let as := MemI.accesses b f.want f.bytes f.lanes f.addr
  (¬ room → Waits i s)
  ∧ (room → ∀ l c, seen.find? (fun l => (cause l).isSome) = some l → cause l = some c → Traps i s c
      (if f.byMask ∧ c ≠ 0x61 then (Bits.maskOf fun x => seen.contains x && cause x == some c).toNat else f.addr l))
  ∧ (room → (∀ l ∈ seen, cause l = none) → low → ∀ l, seen.head? = some l → Traps i s 0x62 (f.addr l))
  ∧ (room → (∀ l ∈ seen, cause l = none) → (low → seen = []) → keptFull → Waits i s)
  ∧ (room → (∀ l ∈ seen, cause l = none) → (low → seen = []) → ¬ keptFull → fresh → Does i s fun t =>
      (busy = true → ∃ op ∈ t.grp.ops, op.id = s.nextId ∧ op.cls = f.cls ∧ op.kind = f.kind
        ∧ op.hyp = s.grp.orphan.getD s.grp.hcur ∧ op.acq = f.acq ∧ op.rel = f.rel ∧ op.done = false
        ∧ (∀ l ∈ seen, ∃ a ∈ op.lanes, a.lane = l ∧ a.va = f.addr l ∧ a.size = min 8 f.bytes ∧ place l a.loc)
        ∧ (∀ l ∈ seen, f.bytes = 16 → ∃ a ∈ op.lanes, a.lane = l + 32 ∧ a.va = f.addr l + 8 ∧ a.size = 8)
        ∧ (∀ a ∈ op.lanes, a.lane % 32 ∈ f.lanes ∧ (f.want = .store → a.value = f.data a.lane)))
      ∧ t.grp.counter f.cls = s.grp.retire.counter f.cls + (if busy then 1 else 0)
      ∧ SameFiles s t ∧ (s.owners = [] → SameRegisters s t)
      ∧ (∀ p, Settled s p →
          (f.want ≠ .load → ∀ l ∈ seen, ∀ loc q, place l loc → loc.cached = some q → p < q ∨ q + f.bytes ≤ p) →
          ((∃ l ∈ f.lanes, ∃ x y z, place l (.peer x y z)) →
            ∀ e ∈ ((MemI.translate b as).clusterAt (b.clusterOf b.cur.grp)).tlb, e.count + as.length < 64) →
          Memory.byte t.mem p = Memory.byte s.mem p)
      ∧ (∀ team off, t.locByte team off = s.locByte team off
          ∨ f.want ≠ .load ∧ ∃ l ∈ seen, ∃ x, place l (.loc team x) ∧ x ≤ off ∧ off < x + f.bytes))

/-- R34, R144, R215, R219, R240, R247, R248, R256: a WAIT holds until every counter whose limit is not the maximum is at most that,
and then reports the earliest issued failure among the operations that it requires; a fence stands in the order of the group's operations; a
PREF of level 0 installs the line of its lane and changes nothing that a program reads. It rests on the model's choices of
log entries 13, 20 and 21. -/
def Obligations.OrderingInstructions : Prop := ∀ (o : Opds) (s : State),
  (let i : Instr := .wait o
   let b := At i s
   let limit : Cnt → Nat := fun
     | .loads => Bits.field o.imm 5 0 | .stores => Bits.field o.imm 11 6 | .copies => Bits.field o.imm 17 12
     | .matrix => Bits.field o.imm 21 18 | .bank => Bits.field o.imm 25 22 | .walk => Bits.field o.imm 29 26 | .none => 0
   let top : Cnt → Nat := fun | .loads | .stores | .copies => 63 | .none => 1000000 | _ => 15
   let spent := ∃ c, c ≠ .none ∧ limit c ≠ top c ∧ limit c < s.grp.counter c
   let due (f : LateFault) : Prop := f ∈ s.grp.faults ∧ limit f.cls ≠ top f.cls
     ∧ f.ord + limit f.cls < SMap.get 0 b.grp.seqs (State.cntCode f.cls)
   Ready i s →
   (spent → Waits i s)
   ∧ (¬ spent → (∀ f, ¬ due f) → Does i s fun t => SameRegisters s t ∧ SameMemory s t ∧ t.grp.ops = s.grp.ops
       ∧ ∀ e ∈ t.grp.exposed, e ∈ s.grp.exposed
         ∧ ¬ (limit .matrix ≠ 15 ∧ e.ord + limit .matrix < SMap.get 0 s.grp.seqs 3))
   ∧ (∀ f, ¬ spent → due f → (∀ e, due e → e ≠ f → f.id < e.id) → s.grp.hmode = false →
       exec i s = .next (Issue.trap (s.setGrp (MemI.reported f s.grp)) f.cause f.tval s.cur.pc)))
  ∧ (∀ sc : Scope, ∀ x ∈ [((Instr.fenceRel sc o), some sc, (none : Option Scope)), (.fenceAcq sc o, none, some sc),
      (.fenceAr sc o, some sc, some sc)], Ready x.1 s → Does x.1 s fun t =>
        Starts s t .none (fun op => op.kind = .fence ∧ op.rel = x.2.1 ∧ op.acq = x.2.2 ∧ op.released = false ∧ op.acquired = false)
        ∧ SameRegisters s t ∧ SameMemory s t
        ∧ (x.2.1.isSome = true → s.wideScope s.cur.grp sc = true → ∀ e ∈ t.owners,
            e.2.core = s.l1Of s.cur.grp → s.cur.grp ∈ e.2.groups → e.2.hand = true))
  ∧ (let i : Instr := .pref o
     let b := At i s
     Ready i s → Does i s fun t => SameFiles s t ∧ (s.owners = [] → SameRegisters s t ∧ t.grp.ops = b.grp.ops)
       ∧ (Forms.code o.d ≠ 0 → SameRegisters s t ∧ SameMemory s t)
       ∧ (∀ team off, t.locByte team off = s.locByte team off) ∧ (∀ p, Settled s p → Memory.byte t.mem p = Memory.byte s.mem p)
       ∧ ∀ l p lf, Forms.code o.d = 0 → Bits.members (s.exec o.guard) = [l] →
           b.find s.cur.grp (MemI.priv b) .load (MemI.addr o s.grp l) = .at' (.hbm p) lf →
           s.owners = [] → (∀ g ∈ s.groups, ∀ e ∈ g.2.ops, e.lanes = []) → SameMemory s t ∧ ∀ w, w / 32 = lineOf p →
             (∀ x, SMap.get? (s.coreAt (s.l1Of s.cur.grp)).l1 (State.l1Key w s.grp.hcur) = some x → x.owned = false) →
             ∃ x, SMap.get? (t.coreAt (s.l1Of s.cur.grp)).l1 (State.l1Key w s.grp.hcur) = some x
               ∧ x.val = (s.viewWord s.ctx (if takesVersions lf then s.grp.hcur else 0#16) w).1 ∧ x.valid = 15#4
               ∧ x.owned = false ∧ x.expiry = s.gtime + s.rlease s.ctx ∧ x.expiry ≤ t.frontierOf (lineOf p))

/-- R205, R209, R210, R211, R265, R266, R267: a load performed at its home slice takes the bytes that its hypothesis sees, the
committed ones on a page that takes no versions, and installs its line under a read lease where the TLB's leaf leads there; a gather leaves no copy that
the core does not own but of a page that takes versions; an atomic under a hypothesis leaves its result in a version; a
store arriving at its home slice writes exactly its bytes, at the time or at the line's lease frontier where that is
later. It rests on the model's choices of log entries 15, 16 and 17. -/
def Obligations.SliceArrivals : Prop := ∀ (s : State) (u id lane : Nat) (op : Op) (a : Access) (p : Nat),
  s.lane? u id lane = some (op, a) → a.loc = .hbm p → a.locked = false → a.size ≠ 0 → Coh.clear s u op a p = true →
  s.performAtCore u id lane = s → (∀ w ∈ wordsOf p a.size, w / 32 = lineOf p) →
  let ctx := s.ctxOf u
  let h := op.viewOf a
  let core := s.l1Of u
  let correct := ∀ w ∈ wordsOf p a.size, s.wordBad ctx h w = false
  let backed := (s.retake u a).backed u a = true
  let after (t : State) (P : Access → Prop) : Prop := ∃ e x, t.lane? u id lane = some (e, x) ∧ x.st = .performed ∧ P x
  let reads (x : Access) : Prop := x.value = s.viewBytes ctx h p a.size ∧ x.fault = a.fault
  ((∃ d, op.kind = .load d) ∨ (∃ d, op.kind = .gather d ∧ h ≠ 0#16) → correct →
    Happens (.loadAtHomeSlice u id lane) s fun t => after t reads ∧ SameMemory s t
      ∧ s.gtime + s.rlease ctx ≤ t.frontierOf (lineOf p)
      ∧ (backed → ∀ w ∈ wordsOf p a.size, w ∉ s.flyingWords core (lineOf p) →
          ∃ x, SMap.get? (t.coreAt core).l1 (State.l1Key w op.hyp) = some x
            ∧ x.val = (s.viewWord ctx h w).1 ∧ x.expiry = s.gtime + s.rlease ctx)
      ∧ (¬ backed → ∀ w ∈ wordsOf p a.size, ∀ x, SMap.get? (t.coreAt core).l1 (State.l1Key w op.hyp) = some x → x.flying = true))
  ∧ ((∃ d, op.kind = .gather d) → h = 0#16 → correct →
    Happens (.loadAtHomeSlice u id lane) s fun t => after t reads ∧ SameMemory s t
      ∧ ∀ w ∈ wordsOf p a.size, ∀ x, SMap.get? (t.coreAt core).l1 (State.l1Key w op.hyp) = some x → x.owned = true)
  ∧ (∀ k wide nr d n, op.kind = .atomic k wide nr d → op.hyp ≠ 0#16 → a.hypPage = true → op.dropped = false →
    a.readOnly = false → op.sameWord a = [a.lane] → correct → a.size = 4 ∨ a.size = 8 →
    State.atomNew k (8 * a.size) (s.viewBytes ctx op.hyp p a.size) a.value a.value2 = some n →
    Happens (.loadAtHomeSlice u id lane) s fun t => after t reads ∧ SameMemory s t
      ∧ t.viewBytes ctx op.hyp p a.size = n)
  ∧ (op.cls = .loads → ¬ correct → (∃ d, op.kind = .load d ∨ op.kind = .gather d) →
    Happens (.loadAtHomeSlice u id lane) s fun t => after t (fun x => x.fault = some 0x26) ∧ SameMemory s t)
  ∧ (op.kind = .store → a.l1At ≠ 0 →
    let at' := Nat.max s.gtime (s.frontierOf (lineOf p))
    Happens (.storeAtHomeSlice u id lane) s fun t =>
      after t (fun x => x.stamps = [.known at'])
      ∧ at' + s.rlease ctx ≤ t.frontierOf (lineOf p)
      ∧ (op.hyp = 0#16 → (∀ q, Memory.byte t.mem q =
            if p ≤ q ∧ q < p + a.size then Bits.byteAt a.value (q - p) else Memory.byte s.mem q)
          ∧ (∀ w, t.stampOf w = if w ∈ wordsOf p a.size then at' else s.stampOf w) ∧ t.versions = s.versions)
      ∧ (op.hyp ≠ 0#16 → SameMemory s t ∧ t.viewBytes ctx op.hyp p a.size = a.value % 2 ^ (8 * a.size)))

/-- R34, R209, R210, R212, R213, R236, R240, R241: performed lanes of a load fill their destination, zero- or sign-extended by
the width, and their stamps enter HORIZON; a store whose stamps have returned completes; an expired copy leaves its L1. No
byte of memory changes. It rests on the model's choices of log entry 15. -/
def Obligations.Returns : Prop := ∀ (s : State) (u id : Nat) (op : Op),
  (s.grpAt u).op? id = some op →
  (∀ (m : Mask) (d : Dest), State.destOf op.kind = d → Coh.due op m = true → (op.lanes.map Access.lane).Nodup →
    (∀ a ∈ op.lanes, (d.cls = 1 → d.code < 16 → a.lane < 64 ∧ (d.code = 6 ∨ a.lane < 32))
      ∧ (d.cls = 1 → 16 ≤ d.code → a.lane < 32 * (d.code - 16))) → d.cls = 1 ∨ (∀ a ∈ op.lanes, a.lane < 32) →
    Happens (.loadComplete u id m) s fun t => SameMemory s t
      ∧ (∀ a ∈ op.lanes, a.st = .performed → Bits.has m (a.lane % 32) = true →
        (∀ x, .known x ∈ a.stamps → x ≤ (t.grpAt u).horizon)
        ∧ (a.fault = none → a.given = [] →
          (d.cls = 1 → d.code = 0 → (t.grpAt u).rv d.num a.lane = BitVec.ofNat 32 (a.value % 2 ^ 8))
          ∧ (d.cls = 1 → d.code = 1 → (t.grpAt u).rv d.num a.lane = BitVec.ofInt 32 (signedOf 8 (a.value % 2 ^ 8)))
          ∧ (d.cls = 1 → d.code = 2 → (t.grpAt u).rv d.num a.lane = BitVec.ofNat 32 (a.value % 2 ^ 16))
          ∧ (d.cls = 1 → d.code = 3 → (t.grpAt u).rv d.num a.lane = BitVec.ofInt 32 (signedOf 16 (a.value % 2 ^ 16)))
          ∧ (d.cls = 1 → d.code = 4 → (t.grpAt u).rv d.num a.lane = BitVec.ofNat 32 a.value)
          ∧ (d.cls = 1 → d.code = 5 → (t.grpAt u).rv2 d.num a.lane = BitVec.ofNat 64 a.value)
          ∧ (d.cls = 1 → d.code = 6 →
              (t.grpAt u).rv2 (d.num + 2 * (a.lane / 32)) (a.lane % 32) = BitVec.ofNat 64 a.value)
          ∧ (d.cls = 1 → 16 ≤ d.code →
              (t.grpAt u).rv (d.num + a.lane / 32) (a.lane % 32) = BitVec.ofNat 32 a.value)
          ∧ (d.cls = 4 → (t.grpAt u).rm d.num a.lane = BitVec.ofNat 64 a.value)))
      ∧ (∀ n l, l < 32 → d.cls ≠ 1 ∨ (1, n) ∉ State.destRegs d
            ∨ (∀ a ∈ op.lanes, a.lane % 32 = l → a.st ≠ .performed ∨ Bits.has m l = false) →
          (t.grpAt u).rv n l = (s.grpAt u).rv n l)
      ∧ (∀ n, d.cls ≠ 2 ∨ n ≠ d.num → (t.grpAt u).rk n = (s.grpAt u).rk n)
      ∧ (∀ n l, l < 32 → d.cls ≠ 4 ∨ n ≠ d.num → (t.grpAt u).rm n l = (s.grpAt u).rm n l)
      ∧ (∀ n, (t.grpAt u).rp n = (s.grpAt u).rp n) ∧ (∀ w, w ≠ u → t.grpAt w = s.grpAt w))
  ∧ (∀ a m d, op.lanes = [a] → op.kind = .load d → d.cls = 2 → a.fault = none → a.st = .performed →
    Bits.has m (a.lane % 32) = true → op.cls = .loads → a.given = [] → Happens (.loadComplete u id m) s fun t => (t.grpAt u).rk d.num =
      if d.num = 0 then 0#64
      else if d.code = 0 then BitVec.ofNat 64 (a.value % 2 ^ 8)
      else if d.code = 1 then BitVec.ofInt 64 (signedOf 8 (a.value % 2 ^ 8))
      else if d.code = 2 then BitVec.ofNat 64 (a.value % 2 ^ 16)
      else if d.code = 3 then BitVec.ofInt 64 (signedOf 16 (a.value % 2 ^ 16))
      else if d.code = 5 then BitVec.ofNat 64 a.value else BitVec.ofNat 64 (a.value % 2 ^ 32))
  ∧ (Coh.storeReady op = true → Happens (.storeStampReturn u id) s fun t => SameMemory s t
      ∧ (∀ a ∈ op.lanes, ∀ x, .known x ∈ a.stamps → x ≤ (t.grpAt u).horizon)
      ∧ (∀ e ∈ (t.grpAt u).ops, e.id = id → e.done = true)
      ∧ (((s.grpAt u).opsOf .stores).head? = some op → op.acq = none →
        (∀ e ∈ (s.grpAt u).ops, e.id = id → e = op) → ∀ e ∈ (t.grpAt u).ops, e.id ≠ id))
  ∧ ∀ core line, Happens (.l1LeaseExpiry core line) s fun t => SameMemory s t
      ∧ (∀ e ∈ (t.coreAt core).l1, e ∈ (s.coreAt core).l1)
      ∧ ∀ e ∈ (s.coreAt core).l1, e ∈ (t.coreAt core).l1 ↔
          ¬ (e.1 / 65536 / 32 = line ∧ e.2.expiry ≤ s.gtime
            ∧ ¬ (e.2.owned = true ∧ e.2.expiry = 0 ∧ ∃ x, e.2.stamp = .pending x))

/-- R210, R212, R218, R219: a waiting atomic is granted its line once the latest lease has run out, works there on the value
at the point of coherence, and its write becomes visible when the ownership ends, with that time as its stamp: o_expiry at
the latest, or at once where no leaf of the TLB leads to the line. It rests on the model's choices of log entries 16 and 17. -/
def Obligations.LineOwnership : Prop := ∀ (s : State),
  (∀ u id lane op a p k wide nr d, s.lane? u id lane = some (op, a) → a.loc = .hbm p → op.kind = .atomic k wide nr d →
    Coh.readsAtSlice op a = false → a.locked = false → a.l1At = 0 → Coh.clear s u op a p = true →
    s.frontierOf (lineOf p) ≤ s.gtime → s.l1Store? (s.l1Of u) (lineOf p) id = false →
    let backed := (s.retake u a).backed u a = true
    ((∀ b ∈ op.lanes, (∀ q, b.loc = .hbm q → lineOf q = lineOf p → b.va / 128 = a.va / 128 ∧ b.tile = a.tile)
        ∧ ∀ x y z, b.loc = .peer x y z → b.sent.isSome = true) →
      Happens (.ownershipGrant u id lane) s fun t => (¬ backed → t.ownerOf (lineOf p) = none)
        ∧ (backed → ∃ ow, t.ownerOf (lineOf p) = some ow ∧ ow.core = s.l1Of u
          ∧ ow.expiry = s.gtime + s.olease (s.ctxOf u) ∧ ow.hand = false))
    ∧ (op.lanes = [a] → backed → Happens (.ownershipGrant u id lane) s fun t => (∀ q, Memory.byte t.mem q = Memory.byte s.mem q)
      ∧ (s.ownBehind (s.l1Of u) (lineOf p) op.id = false → s.badAt p a.size = false →
        (∃ e x, t.lane? u id lane = some (e, x) ∧ x.st = .performed ∧ x.value = s.readMem p a.size)
        ∧ ∃ ow, t.ownerOf (lineOf p) = some ow ∧ ∀ n,
            State.atomNew k (8 * a.size) (s.readMem p a.size) a.value a.value2 = some n →
            ∀ i < a.size, SMap.get? ow.bytes (p + i) = some (Bits.byteAt n i))))
  ∧ (∀ u id lane op a p, s.lane? u id lane = some (op, a) → a.loc = .hbm p →
      s.gtime < s.frontierOf (lineOf p) ∨ s.ownerOf (lineOf p) ≠ none → exec (.ownershipGrant u id lane) s = .next s)
  ∧ ∀ line ow, s.ownerOf line = some ow →
      let stop := min s.gtime ow.expiry
      let Ends (i : Instr) : Prop := Happens i s fun t => t.ownerOf line = none ∧ t.gtime = s.gtime
        ∧ (∀ p, (∃ b, (p, b) ∈ ow.bytes ∧ Memory.byte t.mem p = b ∧ t.stampOf (p / 4) = stop)
            ∨ (∀ b, (p, b) ∉ ow.bytes) ∧ Memory.byte t.mem p = Memory.byte s.mem p)
        ∧ (∀ n, n ≠ line → t.ownerOf n = s.ownerOf n)
        ∧ (ow.bytes ≠ [] → stop ≤ t.frontierOf line)
        ∧ ∀ id ∈ ow.stores, ∀ u ∈ t.groups, id ∉ u.2.pending
      (ow.expiry ≤ s.gtime → Ends (.ownershipExpiry line))
      ∧ (ow.hand = true → Ends (.ownershipHandbackArrival line))
      ∧ (s.gtime < ow.expiry → exec (.ownershipExpiry line) s = .next s)
      ∧ (ow.hand = false → exec (.ownershipHandbackArrival line) s = .next s)

/-- R205, R213 to R217, R228 to R231, R233: a release is performed once everything that comes before it is, at its scope, and
an acquire ends once its stamps have passed; the acquire leaves no copy that the core does not own in its L1. It rests on
the model's choices of log entries 13, 18 and 78. -/
def Obligations.ReleaseAcquire : Prop := ∀ (s : State) (u id : Nat) (op : Op),
  (s.grpAt u).op? id = some op →
  let g := s.grpAt u
  let before (P : Op → Prop) : Prop := ∀ e ∈ g.ops, e.id < id → P e
  let marked (t : State) (P : Op → Prop) : Prop := ∀ e ∈ (t.grpAt u).ops, e.id = id → P e
  (∀ sc, op.rel = some sc → op.released = false →
    let ready := s.releaseReady u sc id = true
    (ready → Happens (.releasePerform u id) s fun t => marked t (fun e => e.released = true) ∧ SameFiles s t
        ∧ (op.kind = .fence → op.lanes = [] → SameMemory s t ∧ (∀ w, w ≠ u → t.grpAt w = s.grpAt w) ∧ SameGroup g (t.grpAt u))
        ∧ (∀ p, Settled s p → (∀ a ∈ op.lanes, (∀ x y z, a.loc ≠ .peer x y z)
              ∧ ∀ q, a.loc.cached = some q → p < q ∨ q + a.size ≤ p) →
            Memory.byte t.mem p = Memory.byte s.mem p)
        ∧ ∀ team off, t.locByte team off = s.locByte team off
            ∨ ∃ a ∈ op.lanes, ∃ x, a.loc = .loc team x ∧ x ≤ off ∧ off < x + a.size)
    ∧ (¬ ready → exec (.releasePerform u id) s = .next s)
    ∧ (ready → before fun e => e.cls = .loads → ∀ a ∈ e.lanes, a.st ≠ .waiting)
    ∧ (ready → before fun e => ∀ a ∈ e.lanes, (∃ x y, a.loc = .loc x y) → a.st ≠ .waiting)
    ∧ (ready → before fun e => e.cls = .stores → ∀ a ∈ e.lanes, (∃ p, a.loc = .hbm p) → a.st ≠ .waiting ∨ a.l1At ≠ 0)
    ∧ (ready → sc = .module ∨ sc = .system →
        (before fun e => e.cls ≠ .stores) ∧ g.pending = [] ∧ g.horizon + (if sc = .system then 16 else 0) ≤ s.gtime
        ∧ before fun e => e.engine = false →
            ∀ a ∈ e.lanes, ∀ x, .known x ∈ a.stamps → x + (if sc = .system then 16 else 0) ≤ s.gtime))
  ∧ (∀ sc, op.acq = some sc →
    let ready := Coh.acquireReady s u op sc = true
    let wide := s.wideScope u sc = true
    (ready → Happens (.acquireWaitEnd u id) s fun t => marked t (fun e => e.acquired = true) ∧ SameMemory s t
        ∧ (∀ w, w ≠ u → t.grpAt w = s.grpAt w) ∧ SameGroup g (t.grpAt u)
        ∧ (wide → ∀ x ∈ (t.coreAt (s.l1Of u)).l1, x.2.owned = true)
        ∧ (¬ wide → ∀ c, t.coreAt c = s.coreAt c))
    ∧ (¬ ready → exec (.acquireWaitEnd u id) s = .next s)
    ∧ (ready → wide → op.kind = .fence →
        g.pending = [] ∧ g.horizon + (if sc = .system then 16 else 0) ≤ s.gtime
        ∧ before fun e => e.cls = .loads → ∀ a ∈ e.lanes, a.st ≠ .waiting
            ∧ ∀ x, .known x ∈ a.stamps → x + (if sc = .system then 16 else 0) ≤ s.gtime)
    ∧ (ready → wide → op.kind ≠ .fence → ∀ a ∈ op.lanes, a.st ≠ .waiting
        ∧ ∀ x, .known x ∈ a.stamps → x + (if sc = .system then 16 else 0) ≤ s.gtime))

/-- R246: what each atomic leaves in memory, on `w`-bit numbers, from the old value and its operands. -/
def Obligations.AtomicValues : Prop := ∀ (w x y z : Nat), w = 32 ∨ w = 64 → x < 2 ^ w → y < 2 ^ w → z < 2 ^ w →
  let less := decide (signedOf w x < signedOf w y)
  State.atomNew .add w x y z = some ((x + y) % 2 ^ w)
  ∧ State.atomNew .minS w x y z = some (if less then x else y)
  ∧ State.atomNew .maxS w x y z = some (if less then y else x)
  ∧ State.atomNew .minN w x y z = some (min x y)
  ∧ State.atomNew .maxN w x y z = some (max x y)
  ∧ State.atomNew .and w x y z = some (x &&& y)
  ∧ State.atomNew .or w x y z = some (x ||| y)
  ∧ State.atomNew .xor w x y z = some (x ^^^ y)
  ∧ State.atomNew .exch w x y z = some y
  ∧ State.atomNew .cas w x y z = (if x = y then some z else none)
  ∧ State.atomNew .fadd w x y z = some (Sys2Proof.Float.add .f32 .rn x y)

/-- R221, R249 to R251, R254, R267, R269: the three CP instructions once their source is known: what traps, what waits, and
the copy that is under way. The engine reads parts of the source in any order and keeps their bytes, and writes parts of
the destination in any order from the bytes that it has read; a copy whose parts are all written, up to where it stops,
completes in issue order, its writes' stamps entering HORIZON, and takes its action. It rests on the model's choices of
log entries 23, 49 and 79. -/
def Obligations.Copies : Prop := ∀ (s : State),
  (∀ (i : Instr) (o : Opds) (sh : Cpy.Shape) (plan : Cpy.Plan),
    (i = .cpLin o ∧ sh = .lin ∧ plan = Cpy.planLin (At i s) o) ∨ (i = .cpTile o ∧ sh = .tile ∧ plan = Cpy.planTile (At i s) o)
      ∨ (i = .cpGather o ∧ sh = .gather ∧ plan = Cpy.planGather (At i s) o) →
    let b := At i s
    let kind := Forms.cpKind o
    let q := Cpy.queue? b s.grp.team (Forms.cpNum o)
    let kd := (s.grp.rk o.d.val).toNat
    let ButHorizon (t : State) : Prop := SameFile s.grp t.grp ∧ s.grp.horizon ≤ t.grp.horizon
      ∧ (∀ u, u ≠ s.cur.grp → t.grpAt u = s.grpAt u) ∧ t.gtime = s.gtime ∧ SameMemory s t
    Ready i s →
    (∀ q, plan = .hold q → WaitsFor i s q) ∧ (∀ c v, plan = .trap c v → Traps i s c v)
    ∧ ∀ src, plan = .runs src →
      (∀ a, (src.runs.map Prod.fst).find? (fun a => a % 4 != 0) = some a → Traps i s 0x28 a)
      ∧ ((∀ r ∈ src.runs, r.1 % 4 = 0) → kind ≠ 2 → kd % 4 ≠ 0 → Traps i s 0x28 kd)
      ∧ ((∀ r ∈ src.runs, r.1 % 4 = 0) → kind = 2 ∨ kd % 4 = 0 → src.len % 4 ≠ 0 → Traps i s 0x28 src.len)
      ∧ (∀ c v, Cpy.copyTrap b o sh src = some (c, v) → Traps i s c v)
      ∧ (Cpy.copyTrap b o sh src = none → b.roomFor .copies = false → Waits i s)
      ∧ (Cpy.copyTrap b o sh src = none → b.roomFor .copies = true → kind ≠ 2 → src.len ≠ 0 → Does i s fun t =>
          Starts s t .copies (fun op => ∃ j, op.kind = .copy j ∧ op.hyp = s.grp.orphan.getD s.grp.hcur ∧ j.src = src.runs
            ∧ j.dst = kd ∧ j.len = src.len ∧ j.read = [] ∧ j.wrote = [] ∧ j.kind = kind ∧ j.num = Forms.cpNum o
            ∧ (src.badRow = none → j.stop = none)) ∧ ButHorizon t)
      ∧ (Cpy.copyTrap b o sh src = none → b.roomFor .copies = true → kind = 0 → src.len = 0 → Does i s ButHorizon)
      ∧ (∀ x, Cpy.copyTrap b o sh src = none → b.roomFor .copies = true → kind = 2 → q = some x →
          (Cpy.mayPush x s.grp.gid = false → Waits i s)
          ∧ (Cpy.mayPush x s.grp.gid = true → src.len ≠ 0 → Does i s fun t =>
              Starts s t .copies (fun op => ∃ j, op.kind = .copy j ∧ j.src = src.runs ∧ j.len = src.len ∧ j.kind = 2
                ∧ j.read = [] ∧ j.wrote = [] ∧ j.dst = State.localVa (x.base + x.tail * x.slotsz))
              ∧ ButHorizon t
              ∧ ∃ y, Cpy.queue? t s.grp.team (Forms.cpNum o) = some y ∧ y.free = x.free - 1 ∧ y.tail = (x.tail + 1) % x.nslot
                  ∧ ∃ e, y.slots = x.slots ++ [e] ∧ e.slot = x.tail ∧ e.filled = false)))
  ∧ (∀ u id op j, (s.grpAt u).op? id = some op → op.kind = .copy j →
      let m := Cpy.limitOf op j
      let ready := op.done = false ∧ Cpy.below m j.wrote = m ∧ (∀ a ∈ op.lanes, a.st ≠ .waiting)
        ∧ ∀ e ∈ (s.grpAt u).ops, e.cls = .copies → e.id < id → e.done = true
      (¬ ready → exec (.copyComplete u id) s = .next s)
      ∧ (ready → Happens (.copyComplete u id) s fun t => j.stamp ≤ (t.grpAt u).horizon ∧ SameMemory s t
          ∧ (∀ a ∈ op.lanes, ∀ x, .known x ∈ a.stamps → x ≤ (t.grpAt u).horizon)
          ∧ (∀ e ∈ (t.grpAt u).ops, e.id = id → e.done = true)
          ∧ (∀ x, j.kind = 2 → Cpy.queue? s (s.grpAt u).team j.num = some x →
              ∃ y, Cpy.queue? t (s.grpAt u).team j.num = some y ∧ ∀ e ∈ y.slots, e.op = op.id → e.filled = true)
          ∧ (j.kind = 1 → (s.barrierAt u j.num).pend % 2 ^ 24 ≠ j.len % 2 ^ 24 → (t.barrierAt u j.num).pend
              = ((s.barrierAt u j.num).pend + 2 ^ 24 - j.len % 2 ^ 24) % 2 ^ 24)))
  ∧ (∀ u id off n r op j, let b : State := Iss.settle { s with turns := r }
      (b.grpAt u).op? id = some op → op.kind = .copy j → op.done = false →
      (∀ a len at' bs st, s.turns = .copyRead u id off n :: r → Cpy.srcAt j.src 0 off = some (a, len, at') →
        let sa := max a ((a + (off - at')) / 8 * 8)
        let k := min (a + len) (min (sa / 8 * 8 + 8 * max 1 n) (sa / 128 * 128 + 128)) - sa
        let place := at' + (sa - a)
        k ≠ 0 → place < Cpy.limitOf op j → Cpy.meets j.read place k = false → b.see u id j.priv op.hyp sa k = .data bs st →
        ∃ t, step s = .next t ∧ SameMemory b t ∧ ∃ e j', (t.grpAt u).op? id = some e ∧ e.kind = .copy j'
          ∧ j'.read = (place, k) :: j.read ∧ j'.wrote = j.wrote
          ∧ ∀ x, SMap.get? j'.buf x = if place ≤ x ∧ x < place + k then some (bs.getD (x - place) 0#8) else SMap.get? j.buf x)
      ∧ (∀ bs s1 at', s.turns = .copyWrite u id off n :: r →
        let da := (j.dst + off) % 2 ^ 64
        let k := min (min (max 4 (n / 4 * 4)) (Cpy.limitOf op j - off)) (128 - da % 128)
        off % 4 = 0 → k ≠ 0 → Cpy.meets j.wrote off k = false → bs.length = k →
        (∀ i < k, SMap.get? j.buf (off + i) = some (bs.getD i 0#8)) → Cpy.clearBelow b u op j off = true →
        b.put u op j.priv da bs = .ok s1 at' →
        ∃ t, step s = .next t ∧ t.mem = s1.mem ∧ (∀ team x, t.locByte team x = s1.locByte team x)
          ∧ ∀ e i, (s1.grpAt u).op? id = some e → e.kind = .copy i →
              ∃ e' i', (t.grpAt u).op? id = some e' ∧ e'.kind = .copy i' ∧ i'.wrote = (off, k) :: i.wrote
                ∧ i'.stamp = max i.stamp at'))

/-- R252 to R255: the local queues. A push takes the tail slot and writes it, its lanes outside exec_mask as zero; a pop takes
the oldest filled slot, once nothing that its group did before comes first; a slot is filled once its bytes and the
group's earlier local writes have been performed; QALLOW configures and grants. A push that comes after an acquire or a
fence that has not ended, or after a store to its slot that is on its way, keeps its bytes until then. It rests on the
model's choices of log entries 13 and 79. -/
def Obligations.LocalQueues : Prop := ∀ (o : Opds) (s : State),
  let team := s.grp.team
  (let i : Instr := .qpush o
   let q := Forms.code o.d
   let n := Forms.code o.b
   let word (j l : Nat) : Nat :=
     if Bits.has (s.exec o.guard) l && !s.grp.isHelper l then (s.grp.rv (o.a.val + j) l).toNat else 0
   Ready i s →
   (Cpy.queue? s team q = none → Traps i s 0x4A q)
   ∧ ∀ x, Cpy.queue? s team q = some x →
     (x.slotsz < 128 * n → Traps i s 0x4A q)
     ∧ (128 * n ≤ x.slotsz → x.free = 0 ∨ SMap.get 0 x.allow s.grp.gid = 0 → Waits i s)
     ∧ (128 * n ≤ x.slotsz → x.free ≠ 0 → SMap.get 0 x.allow s.grp.gid ≠ 0 → Does i s fun t =>
        let at' := x.base + x.tail * x.slotsz
        let waits := Cpy.pushWaits (At i s) s.cur.grp s.nextId team at' (128 * n) = true
        let byte (d : Nat) : Byte := Bits.byteAt (word (d / 128) (d % 128 / 4)) (d % 4)
        SameRegisters s t ∧ (∀ p, Memory.byte t.mem p = Memory.byte s.mem p)
        ∧ (¬ waits → ∀ tm off, t.locByte tm off =
            if tm = team ∧ at' ≤ off ∧ off - at' < 128 * n then byte (off - at') else s.locByte tm off)
        ∧ (waits → ∀ tm off, t.locByte tm off = s.locByte tm off)
        ∧ ∃ y, Cpy.queue? t team q = some y ∧ y.free = x.free - 1 ∧ y.tail = (x.tail + 1) % x.nslot
          ∧ (∃ e, y.slots = x.slots ++ [e] ∧ e.slot = x.tail ∧ e.filled = false ∧ e.grp = s.cur.grp ∧ e.op = s.nextId
              ∧ (waits → e.data.length = 128 * n ∧ ∀ d < 128 * n, e.data.getD d 0#8 = byte d) ∧ (¬ waits → e.data = []))
          ∧ SMap.get 0 y.allow s.grp.gid = (if SMap.get 0 x.allow s.grp.gid = 255 then 255 else SMap.get 0 x.allow s.grp.gid - 1)))
  ∧ (let i : Instr := .qpop o
     let q := Forms.code o.a
     let n := Forms.code o.b
     Ready i s →
     (Cpy.queue? s team q = none → Traps i s 0x4A q)
     ∧ ∀ x, Cpy.queue? s team q = some x →
       (x.slotsz < 128 * n → Traps i s 0x4A q)
       ∧ (128 * n ≤ x.slotsz → (At i s).roomFor .loads = false ∨ (∀ e rest, x.slots = e :: rest → e.filled = false) → Waits i s)
       ∧ ∀ e rest, 128 * n ≤ x.slotsz → (At i s).roomFor .loads = true → x.slots = e :: rest → e.filled = true →
          let at' := x.base + e.slot * x.slotsz
          let first := (At i s).blockedNow s.cur.grp = true
            ∨ (At i s).onWay s.cur.grp s.nextId (State.engineAccess (State.localVa at') (.loc team at') (128 * n)) = true
          (first → Waits i s) ∧ (¬ first →
          (∀ f ∈ s.grp.ops, f.id < s.nextId) → Does i s fun t =>
          SameRegisters s t ∧ SameMemory s t
          ∧ (∃ y, Cpy.queue? t team q = some y ∧ y.free = x.free + 1 ∧ y.head = (x.head + 1) % x.nslot ∧ y.slots = rest)
          ∧ (s.exec o.guard ≠ 0#32 → ∃ op ∈ t.grp.ops, op.id = s.nextId ∧ op.cls = .loads ∧ op.kind = .load ⟨1, o.d.val, 16 + n⟩
            ∧ ∀ l, Runs s o l → ∀ j < n, let off := at' + 128 * j + 4 * l
                ∃ a ∈ op.lanes, a.lane = l + 32 * j ∧ a.st = .performed ∧ a.va = State.localVa off
                  ∧ a.value = s.readLoc team off 4 ∧ a.fault = if s.locBad team off 4 then some 0x26 else none)))
  ∧ (∀ tm q slot x e, Cpy.queue? s tm q = some x → x.slots.find? (fun e => e.slot == slot && !e.filled && !e.engine) = some e →
      let ready := s.releaseReady e.grp .team e.op = true
        ∧ (e.data = [] ∨ s.blocked e.grp { id := e.op, cls := .stores, kind := .store } = false)
      let at' := x.base + e.slot * x.slotsz
      (¬ ready → exec (.queueSlotFill tm q slot) s = .next s)
      ∧ (ready → Happens (.queueSlotFill tm q slot) s fun t => SameRegisters s t
          ∧ (∀ p, Memory.byte t.mem p = Memory.byte s.mem p)
          ∧ (∀ m off, t.locByte m off = if m = tm ∧ at' ≤ off ∧ off - at' < e.data.length then e.data.getD (off - at') 0#8
              else s.locByte m off)
          ∧ Cpy.queue? t tm q = some { x with slots := x.slots.map fun f =>
              if f.op = e.op then { f with filled := true, data := [] } else f }))
  ∧ (let i : Instr := .qallow o
     let q := Forms.code o.d
     let a := s.grp.rk o.a.val
     let b := if o.b.cls = 2 then s.grp.rk o.b.val else 0#64
     let base := Bits.field a 18 0
     let count := Bits.field a 39 32 + 1
     let size := (Bits.field a 28 24 + 1) * 128
     let fits := Bits.field a 63 40 = 0 ∧ Bits.field a 31 29 = 0 ∧ Bits.field a 23 19 = 0 ∧ base % 128 = 0
       ∧ base + count * size ≤ s.team.localsz
     let clean := Bits.field b 63 41 = 0
     let amount (old : Nat) : Nat :=
       let n := Bits.field b 39 32
       if Bits.field b 40 40 = 1 ∨ n = 255 then n else if old = 255 then 255 else min 254 (old + n)
     let Grants (x : Queue) : Prop := Does i s fun t => SameRegisters s t ∧ SameMemory s t ∧
       ∃ y, Cpy.queue? t team q = some { x with allow := y } ∧
         ∀ g, SMap.get 0 y g = if g < 32 ∧ b.getLsbD g = true then amount (SMap.get 0 x.allow g) else SMap.get 0 x.allow g
     Ready i s →
     (o.a.cls = 2 → fits → clean → Grants { base := base, nslot := count, slotsz := size, free := count, head := 0, tail := 0,
                                             slots := [], allow := [] })
     ∧ (∀ x, o.a.cls ≠ 2 → Cpy.queue? s team q = some x → clean → Grants x)
     ∧ ((o.a.cls = 2 → ¬ fits) → (o.a.cls ≠ 2 → Cpy.queue? s team q = none) → Traps i s 0x4A q)
     ∧ (¬ clean → Traps i s 0x4A q))

/-- R93, R224, R257 to R261, R372: a BMV whose operands pass the checks is under way; the bank units read its operands word by
word, in any order, and each word counts as it was read; each column's word in local memory becomes its dot product, alone or
with the rest at completion, but for a column that met data that cannot be used; the bank fences stand in the group's order; BSTAT reads the
unit's state. It rests on the model's choices of log entries 32, 33, 49 and 80. -/
def Obligations.BankUnits : Prop := ∀ (o : Opds) (s : State),
  let SameButHorizon (t : State) : Prop := SameGroup { s.grp with horizon := t.grp.horizon } t.grp ∧ s.grp.horizon ≤ t.grp.horizon
    ∧ (∀ u, u ≠ s.cur.grp → t.grpAt u = s.grpAt u) ∧ SameMemory s t
  (let i : Instr := .bmv o
   let b := At i s
   let ka := s.grp.rk o.a.val
   let kb := s.grp.rk o.b.val
   let kd := s.grp.rk o.d.val
   let ctl := Forms.code o.c
   Ready i s →
   (s.slot? (ctl % 8) = none → Traps i s 0x0A 0)
   ∧ (∀ sl, s.slot? (ctl % 8) = some sl → sl.fmt ≠ 4 → Traps i s 0x29 ctl)
   ∧ (∀ c v, Bnk.check b o = .trap c v → Traps i s c v)
   ∧ (∀ q, Bnk.check b o = .hold q → WaitsFor i s q)
   ∧ ∀ j ps st, Bnk.check b o = .ok j ps st →
      (b.roomFor .bank = false → Waits i s)
      ∧ (b.roomFor .bank = true → Does i s fun t => SameFiles s t
          ∧ (s.owners = [] → SameButHorizon t)
          ∧ (∀ team off, t.locByte team off = s.locByte team off)
          ∧ (∀ p, Settled s p → Memory.byte t.mem p = Memory.byte s.mem p) ∧ Starts s t .bank fun op => op.kind = .bmv j
          ∧ op.hyp = s.grp.orphan.getD s.grp.hcur ∧ j.seen = [] ∧ j.cols = [] ∧ j.xoff = Bits.field kd 50 32 ∧ j.yoff = Bits.field kd 18 0 ∧ j.col0 = Bits.field ka 55 32
          ∧ j.ncol = Bits.field kb 16 0 ∧ j.xoff % 4 = 0 ∧ j.yoff % 4 = 0 ∧ 0 < j.ncol ∧ j.col0 + j.ncol ≤ 128 * j.ntiles
          ∧ j.xoff + 128 * j.ktiles ≤ s.team.localsz ∧ j.yoff + 4 * j.ncol ≤ s.team.localsz
          ∧ (j.bf = true ↔ ctl / 8 % 2 = 1) ∧ (j.acc = true ↔ ctl / 16 % 2 = 1)))
  ∧ (∀ u id op j, (s.grpAt u).op? id = some op → op.kind = .bmv j →
      let team := (s.grpAt u).team
      let col (n : Nat) := Bnk.columnOf s u j (j.col0 + n)
      let x := Bnk.input s u j
      let old (n : Nat) := s.readLoc team (j.yoff + 4 * n) 4
      let spoiled (n : Nat) : Option (Nat × Nat) :=
        if j.acc && s.locBad team (j.yoff + 4 * n) 4 then some (0x26, State.localVa (j.yoff + 4 * n)) else none
      let fault (n : Nat) := match SMap.get? j.cols n with | some r => r.1 | none => (col n).2.or (x.2.or (spoiled n))
      let recon (n : Nat) := match SMap.get? j.cols n with | some r => r.2 | none => Bnk.columnRecon s u j (j.col0 + n)
      let ready := Bnk.ready s u op j = true
        ∧ ∀ n ∈ Bnk.tensorWords j, (SMap.get? j.seen n).isSome = true ∨ Bnk.bankWaits s u n = false
      (¬ ready → exec (.bmvComplete u id) s = .next s)
      ∧ (ready → (∀ n ∈ Bnk.tensorWords j, 8 * n < State.windowBase) →
        Happens (.bmvComplete u id) s fun t =>
          (∀ p, Memory.byte t.mem p = Memory.byte s.mem p)
          ∧ (∀ tm off, tm ≠ team ∨ off < j.yoff ∨ j.yoff + 4 * j.ncol ≤ off ∨ op.dropped = true →
              t.locByte tm off = s.locByte tm off)
          ∧ (op.dropped = false → ∀ n < j.ncol,
              (fault n ≠ none ∨ SMap.get? j.cols n ≠ none → t.readLoc team (j.yoff + 4 * n) 4 = old n)
              ∧ (fault n = none → SMap.get? j.cols n = none → t.readLoc team (j.yoff + 4 * n) 4
                  = Dot.dot (if j.acc then old n else 0) x.1 (col n).1 % 2 ^ 32))
          ∧ (∀ e ∈ (t.grpAt u).ops, e.id = id → e.done = true ∧ (e.fault.isSome = true ↔ ∃ n < j.ncol, fault n ≠ none)
              ∧ (e.recon = true ↔ ∃ n < j.ncol, recon n = true))
          ∧ ((s.grpAt u).opsOf .bank = [op] → (t.grpAt u).bmvLast = (if (List.range j.ncol).any fun n => (fault n).isSome then 2
              else if (List.range j.ncol).any recon then 1 else 0))
          ∧ (∀ e r, (s.grpAt u).opsOf .bank = e :: r → e.id ≠ id → e.done = false → (t.grpAt u).bmvLast = (s.grpAt u).bmvLast)))
  ∧ (∀ u id va r op j, s.turns = .bankRead u id va :: r →
      let b : State := Iss.settle { s with turns := r }
      (b.grpAt u).op? id = some op → op.kind = .bmv j → Bnk.ready b u op j = true →
      va / 8 ∈ Bnk.inputWords j ++ Bnk.tensorWords j → SMap.get? j.seen (va / 8) = none → Bnk.bankWaits b u (va / 8) = false →
      ∃ t, step s = .next t ∧ SameMemory b t ∧ ∃ e, (t.grpAt u).op? id = some e
        ∧ e.kind = .bmv { j with seen := SMap.put j.seen (va / 8) (Bnk.word b u (8 * (va / 8))) })
  ∧ (∀ u id i r op j, s.turns = .bankWrite u id i :: r →
      let b : State := Iss.settle { s with turns := r }
      let team := (b.grpAt u).team
      let words := Bnk.columnWords j (j.col0 + i)
      let col := Bnk.columnOf b u j (j.col0 + i)
      let x := Bnk.input b u j
      let y := j.yoff + 4 * i
      let spoiled := if j.acc && b.locBad team y 4 then some (0x26, State.localVa y) else none
      let fault := col.2.or (x.2.or spoiled)
      (b.grpAt u).op? id = some op → op.kind = .bmv j → Bnk.ready b u op j = true → i < j.ncol → SMap.get? j.cols i = none →
      (∀ n ∈ words, (SMap.get? j.seen n).isSome = true ∨ Bnk.bankWaits b u n = false) →
      ∃ t, step s = .next t ∧ (∀ p, Memory.byte t.mem p = Memory.byte b.mem p)
        ∧ (∀ tm off, tm ≠ team ∨ off < y ∨ y + 4 ≤ off ∨ op.dropped = true ∨ fault ≠ none → t.locByte tm off = b.locByte tm off)
        ∧ (op.dropped = false → fault = none →
            t.readLoc team y 4 = Dot.dot (if j.acc then b.readLoc team y 4 else 0) x.1 col.1 % 2 ^ 32)
        ∧ ∃ e j', (t.grpAt u).op? id = some e ∧ e.done = false ∧ e.kind = .bmv j'
          ∧ j'.cols = SMap.put j.cols i (fault, Bnk.columnRecon b u j (j.col0 + i)))
  ∧ (Ready (.bfenceW o) s → Does (.bfenceW o) s fun t => SameRegisters s t ∧ SameMemory s t ∧
      Starts s t .none fun op => op.kind = .bfenceW (max s.gtime s.grp.horizon))
  ∧ (Ready (.bfenceR o) s → Does (.bfenceR o) s fun t => SameRegisters s t ∧ SameMemory s t ∧
      (s.grp.counter .bank ≠ 0 → Starts s t .none fun op => op.kind = .bfenceR)
      ∧ (s.grp.counter .bank = 0 → t.grp.ops = s.grp.ops))
  ∧ (Ready (.bfenceWr o) s → Does (.bfenceWr o) s fun t => SameRegisters s t ∧ SameMemory s t ∧
      (∃ op ∈ t.grp.ops, op.id = s.nextId ∧ op.kind = .bfenceW (max s.gtime s.grp.horizon))
      ∧ (s.grp.counter .bank ≠ 0 → ∃ op ∈ t.grp.ops, op.id = s.nextId + 1 ∧ op.kind = .bfenceR))
  ∧ (Ready (.bstat o) s → Does (.bstat o) s fun t => SameMemory s t ∧ KIs t o.d.val (BitVec.ofNat 64
      (if Forms.code o.a = 0 then s.grp.bmvLast * 16 + s.grp.counter .bank
       else (s.channels.filter fun e => e.2.failed && !e.2.retired).length * 65536
         + (384 - (s.channels.filter fun e => e.2.retired).length)))
      ∧ ∀ n, n ≠ o.d.val → t.grp.rk n = s.grp.rk n)

/-- R262 to R264, R267, R270, R277 to R281: opening, entering and leaving a hypothesis, the acceptance of a resolve, and the
word that HSTAT reads. It rests on the model's choices of log entry 36. -/
def Obligations.HypothesisInstructions : Prop := ∀ (o : Opds) (s : State),
  let h : BitVec 16 := BitVec.ofNat 16 (s.grp.rk o.a.val).toNat
  let live := s.live s.ctx h = true
  let busy := s.grp.counter .stores ≠ 0
  let tree := s.treeAt s.ctx
  let depth := if h = 0#16 then 0 else (s.hslot s.ctx (State.hypSlot h)).depth
  let used := 1 + (tree.slots.filter fun e => e.2.used).length
  let parent := (s.hslot s.ctx (State.hypSlot h)).parent
  let Calmly (t : State) : Prop := SameMemory s t ∧ t.gtime = s.gtime ∧ ∀ u, u ≠ s.cur.grp → t.grpAt u = s.grpAt u
  (let i : Instr := .hopen o
   let Fails (why : Nat) : Prop := Does i s fun t => Calmly t ∧ KIs t o.d.val (BitVec.ofNat 64 (why * 2 ^ 21))
     ∧ PIs s t o.c.val false ∧ t.trees = s.trees
   Ready i s →
   (¬ live → Traps i s 0x60 h.toNat)
   ∧ (live → 16 ≤ depth → Fails 2)
   ∧ (live → depth < 16 → tree.free = [] ∨ 1024 ≤ used → Fails 1)
   ∧ ∀ n rest, live → depth < 16 → tree.free = n :: rest → used < 1024 →
      let id : BitVec 16 := BitVec.ofNat 16 ((s.hslot s.ctx n).gen * 1024 + n)
      Does i s fun t => Calmly t ∧ KIs t o.d.val (BitVec.ofNat 64 ((depth + 1) * 2 ^ 16 + id.toNat)) ∧ PIs s t o.c.val true
        ∧ (t.treeAt s.ctx).free = rest
        ∧ t.hslot s.ctx n = { used := true, gen := (s.hslot s.ctx n).gen, parent := h, depth := depth + 1 }
        ∧ (0 < n → n < 1024 → (s.hslot s.ctx n).gen < 64 → t.live s.ctx id = true))
  ∧ (let i : Instr := .henter o
     Ready i s → (busy → Waits i s) ∧ (¬ busy → ¬ live → Traps i s 0x60 h.toNat)
       ∧ (¬ busy → live → Does i s fun t => Calmly t ∧ t.grp.hcur = h ∧ SameGroup { s.grp with hcur := h } t.grp))
  ∧ (let i : Instr := .hleave o
     let met := Hyp.pendingFor s s.ctx s.team.core = [] ∧ s.grp.orphan = none
     let up := if s.grp.hcur = 0#16 then 0#16 else (s.hslot s.ctx (State.hypSlot s.grp.hcur)).parent
     Ready i s → (busy → Waits i s)
       ∧ (¬ busy → Does i s fun t => Calmly t)
       ∧ (¬ busy → met → Does i s fun t => Calmly t ∧ SameGroup { s.grp with hcur := up } t.grp))
  ∧ (∀ i v, (i, v) ∈ [((Instr.hresolveCfm o), Hyp.Variant.cfm), (.hresolveCfx o, .cfx), (.hresolveRef o, .ref)] → Ready i s →
     let confirm := v ≠ .ref
     let gone := Hyp.refutedBy s s.ctx v h parent
     (¬ live → Traps i s 0x60 h.toNat)
     ∧ (live → h = 0#16 → Traps i s 0x64 0)
     ∧ (live → h ≠ 0#16 → (At i s).roomFor .stores = false → Waits i s)
     ∧ (live → h ≠ 0#16 → (At i s).roomFor .stores = true → Does i s fun t => Calmly t ∧ SameRegisters s t
        ∧ Starts s t .stores (fun op => op.kind = .resolve s.nextId)
        ∧ (∃ r, SMap.get? t.resolves s.nextId = some r ∧ r.ctx = s.ctx ∧ r.h = h ∧ r.parent = parent ∧ r.refuted = gone
            ∧ (r.confirm = true ↔ confirm) ∧ r.reached = [] ∧ r.slices = [])
        ∧ (v = .ref → s.grp.orphan = none → (t.grp.orphan ≠ none ↔ s.grp.hcur ∈ gone))
        ∧ t.live s.ctx h = false
        ∧ (∀ n, (s.hslot s.ctx n).used = true → Hyp.idOf s s.ctx n ∈ gone → (t.hslot s.ctx n).stale = true)
        ∧ (∀ n, confirm → (s.hslot s.ctx n).used = true → (s.hslot s.ctx n).parent = h → Hyp.idOf s s.ctx n ≠ h →
            (t.hslot s.ctx n).parent = parent)))
  ∧ (let i : Instr := .hstat o
     let st := if s.live s.ctx h then 0
       else if s.resolves.any (fun r => r.2.ctx == s.ctx && ((r.2.confirm && r.2.h == h) || r.2.refuted.contains h)) then 1 else 2
     let low := tree.arenasz = 0 ∨ 7 * tree.arenasz < 8 * tree.arena
     let up := if st = 2 then 0 else if h = 0#16 then 0xFFFF else parent.toNat
     Ready i s → Does i s fun t => Calmly t ∧ (∀ n, n ≠ o.d.val → t.grp.rk n = s.grp.rk n)
       ∧ KIs t o.d.val (BitVec.ofNat 64 (used * 2 ^ 48 + (if low then 2 ^ 45 else 0)
          + (tree.arena + 2 ^ 20 - 1) / 2 ^ 20 * 2 ^ 32 + st * 2 ^ 21 + (if st = 0 then depth * 2 ^ 16 else 0) + up)))

/-- R263, R268, R269, R271, R273, R274: the steps of a resolve and what comes of an orphaned group. Resolves of a context keep
their order at each core and slice and at completion. It rests on the model's choices of log entries 36, 37 and 38. -/
def Obligations.Resolves : Prop := ∀ (s : State) (rid : Nat) (r : Resolve), SMap.get? s.resolves rid = some r →
  (∀ core, core < 320 → core ∉ r.reached → (∀ e ∈ s.resolves, e.1 < rid → e.2.ctx = r.ctx → core ∈ e.2.reached) →
    Happens (.resolveBroadcastArrival rid core) s fun t => SameMemory s t
      ∧ SMap.get? t.resolves rid = some { r with reached := core :: r.reached }
      ∧ (∀ u g, SMap.get? s.groups u = some g → s.coreOf u = core → s.ctxOf u = r.ctx → g.orphan = none →
          (r.confirm = true → g.hcur = r.h → (t.grpAt u).hcur = r.parent ∧ (t.grpAt u).orphan = none)
          ∧ (¬ (r.confirm = true ∧ g.hcur = r.h) → g.hcur ∈ r.refuted → (t.grpAt u).hcur = g.hcur
              ∧ ∃ a, (t.grpAt u).orphan = some a ∧ (a = 0#16 ∨ s.live r.ctx a = true))
          ∧ (g.hcur ≠ r.h → g.hcur ∉ r.refuted → (t.grpAt u).orphan = none)
          ∧ ∀ o ∈ g.ops, o.hyp ∈ r.refuted → ∃ e ∈ (t.grpAt u).ops, e.id = o.id
              ∧ (∀ j, o.kind = .copy j → e.dropped = true) ∧ (∀ k, o.kind = .walk k → e.dropped = true)
              ∧ (o.kind = .store → ∀ a ∈ e.lanes, a.st = .waiting → a.l1At ≠ 0)
              ∧ (∀ d, o.kind = .load d → e.hyp = 0#16 ∨ s.live r.ctx e.hyp = true))
      ∧ (∀ u g, SMap.get? s.groups u = some g → SameGroup { g with hcur := (t.grpAt u).hcur } (t.grpAt u)
          ∧ (g.hcur ≠ r.h ∨ r.confirm = false → (t.grpAt u).hcur = g.hcur))
      ∧ (∀ u, s.coreOf u ≠ core ∨ s.ctxOf u ≠ r.ctx → t.grpAt u = s.grpAt u)
      ∧ ∀ e ∈ (t.coreAt core).l1, e.2.ctx = r.ctx → e.1 % 65536 ≠ 0 →
          BitVec.ofNat 16 (e.1 % 65536) ∉ r.refuted ∧ (r.confirm = true → BitVec.ofNat 16 (e.1 % 65536) ≠ r.h))
  ∧ (∀ core, core ∈ r.reached → core ∉ r.reported → Hyp.drained s r core = true →
    Happens (.resolveCoreDrainReport rid core) s fun t => SameMemory s t ∧ SameRegisters s t
      ∧ SMap.get? t.resolves rid = some { r with reported := core :: r.reported })
  ∧ (∀ core, core ∉ r.reached ∨ Hyp.drained s r core = false → exec (.resolveCoreDrainReport rid core) s = .next s)
  ∧ (∀ slice, slice < 384 → slice ∉ r.slices → (∀ c ∈ Hyp.coresUp s, c ∈ r.reported) →
    (∀ e ∈ s.resolves, e.1 < rid → e.2.ctx = r.ctx → slice ∈ e.2.slices) →
    Happens (.resolveSlicePerform rid slice) s fun t =>
      (∃ x, SMap.get? t.resolves rid = some x ∧ x.slices = slice :: r.slices)
      ∧ ∀ k v, SMap.get? s.versions k = some v → (∀ e ∈ s.versions, e.1 = k → e.2 = v) →
          s.homeOf (Hyp.keyWord k / 32) = slice →
          (r.confirm = true → Hyp.keySlot k = r.ctx * 1024 + State.hypSlot r.h →
            (r.parent = 0#16 → (∀ e ∈ s.owners, ∀ b ∈ e.2.bytes, b.1 / 4 = Hyp.keyWord k → e.1 = Hyp.keyWord k / 32) →
              t.readMem (4 * Hyp.keyWord k) 4 = v.val.toNat ∧ SMap.get? t.versions k = none)
            ∧ (r.parent ≠ 0#16 → State.hypSlot r.parent ≠ State.hypSlot r.h →
              (∃ y, SMap.get? t.versions (State.verKey r.ctx r.parent (Hyp.keyWord k)) = some y ∧ y.val = v.val
                ∧ s.gtime ≤ y.stamp) ∧ SMap.get? t.versions k = none))
          ∧ (∀ x ∈ r.refuted, r.confirm = false → Hyp.keySlot k = r.ctx * 1024 + State.hypSlot x →
            SMap.get? t.versions k = none))
  ∧ (∀ slice c, c ∈ Hyp.coresUp s → c ∉ r.reported → exec (.resolveSlicePerform rid slice) s = .next s)
  ∧ (∀ slice, ∀ e ∈ s.resolves, e.1 < rid → e.2.ctx = r.ctx → slice ∉ e.2.slices → exec (.resolveSlicePerform rid slice) s = .next s)
  ∧ ((∃ e ∈ s.resolves, e.1 < rid ∧ e.2.ctx = r.ctx) → exec (.resolveComplete rid) s = .next s)
  ∧ ((∀ x < 384, x ∈ r.slices) → r.time ≤ s.gtime → (∀ e ∈ s.resolves, ¬ (e.1 < rid ∧ e.2.ctx = r.ctx)) → Happens (.resolveComplete rid) s fun t => SameMemory s t
      ∧ SMap.get? t.resolves rid = none
      ∧ (∀ g, SMap.get? s.groups r.grp = some g → r.time ≤ (t.grpAt r.grp).horizon
          ∧ ∀ e ∈ (t.grpAt r.grp).ops, e.id = r.op → e.done = true)
      ∧ ∀ n, n < 1024 → (∃ x, State.hypSlot x = n ∧ (x ∈ r.refuted ∨ r.confirm = true ∧ x = r.h)) →
          (s.hslot r.ctx n).pins = 0 →
          t.hslot r.ctx n = { gen := ((s.hslot r.ctx n).gen + 1) % 64 } ∧ n ∈ (t.treeAt r.ctx).free)
  ∧ (∀ x < 384, x ∉ r.slices → exec (.resolveComplete rid) s = .next s)
  ∧ (s.gtime < r.time → exec (.resolveComplete rid) s = .next s)
  ∧ (∀ ctx, Happens (.arenaReclaim ctx) s fun t => SameMemory s t ∧ SameRegisters s t
      ∧ (t.treeAt ctx).arena = min (s.treeAt ctx).arena (Hyp.spilledBytes s ctx)
      ∧ (t.treeAt ctx).slots = (s.treeAt ctx).slots)
  ∧ ∀ u a, (s.grpAt u).orphan = some a → s.cur.on = false →
      let g := s.grpAt u
      let dest := (s.launchOf u).record.orphanpc
      Happens (.orphanRedirect u) s fun t => (∀ p, Memory.byte t.mem p = Memory.byte s.mem p)
        ∧ (t.grpAt u).hcur = a ∧ (t.grpAt u).orphan = none ∧ (t.grpAt u).cause = 0x63#32
        ∧ (t.grpAt u).tval = BitVec.ofNat 64 g.hcur.toNat ∧ (t.grpAt u).tpc = Hyp.restPc g ∧ (t.grpAt u).hmode = false
        ∧ (∀ n l, (t.grpAt u).rv n l = g.rv n l) ∧ (∀ n, (t.grpAt u).rj n = {})
        ∧ ∀ q < 8, Hyp.livingLanes g q ≠ 0#4 →
            (dest ≠ 0#64 → (t.grpAt u).quad q = { pc := dest, frag := 0, lanes := Hyp.livingLanes g q, st := .ready, waitno := 0 })
            ∧ (dest = 0#64 → ((t.grpAt u).quad q).st = .exited)

/-- R51, R54, R286, R287, R314 to R317: branches. With no lane taken the fragment goes on; with every lane taken it goes to
the target once the target has passed its check; whole quads that part form two fragments under the named join register; a
quad that parts leaves its taken lanes in an entry of it. A BRA, a CALL or a BRX with the hint .uniform whose lanes disagree adds
one to UHMISS, and no other branch changes it; RET has no hint. It rests on the model's choices of log entry 14. -/
def Obligations.Branches : Prop := ∀ (h : Hint) (o : Opds) (s : State),
  let f := s.cur.frag
  let next := Line.next s.cur.pc
  let keeps (t : State) : Prop := SameMemory s t ∧ t.gtime = s.gtime ∧ ∀ u, u ≠ s.cur.grp → t.grpAt u = s.grpAt u
  let Parts (i : Instr) (hint : Hint) (n : Nat) (x : Mask) (dest other : W64) : Prop :=
    let taken (q : Nat) := Bits.quadLanes (x &&& s.active) q
    let whole (q : Nat) : Prop := taken q = Bits.quadLanes s.active q
    let none' (q : Nat) : Prop := taken q = 0#4
    let j := s.grp.rj n
    let qs := s.grp.fragQuads f
    ((∃ q ∈ qs, ¬ whole q ∧ ¬ none' q) → 3 ≤ j.entries.length → Traps i s 0x45 (0x100 + n))
    ∧ ((∀ q ∈ qs, whole q ∨ none' q) ∨ j.entries.length < 3 → Moves i s fun t => keeps t
        ∧ t.grp.uhmiss = s.grp.uhmiss + (if hint = .uniform then 1#32 else 0#32)
        ∧ (t.grp.rj n).active = true ∧ s.active &&& ~~~(t.grp.rj n).expect = 0#32
        ∧ (∀ q, q ∉ qs → t.grp.quad q = s.grp.quad q)
        ∧ (∀ q ∈ qs, whole q → (t.grp.quad q).pc = dest ∧ (t.grp.quad q).lanes = (s.grp.quad q).lanes ∧ (t.grp.quad q).st = .ready)
        ∧ (∀ q ∈ qs, ¬ whole q → (t.grp.quad q).pc = other ∧ (t.grp.quad q).st = .ready
            ∧ (t.grp.quad q).lanes = (s.grp.quad q).lanes &&& ~~~taken q)
        ∧ (∀ p ∈ qs, ∀ q ∈ qs, (t.grp.quad p).frag = (t.grp.quad q).frag ↔ (whole p ↔ whole q))
        ∧ ((∀ q ∈ qs, whole q ∨ none' q) → (t.grp.rj n).entries = j.entries)
        ∧ ((∃ q ∈ qs, ¬ whole q ∧ ¬ none' q) → ∃ e, (t.grp.rj n).entries = j.entries ++ [e] ∧ e.pc = dest
            ∧ ∀ q ∈ qs, ¬ whole q → Bits.quadLanes e.lanes q = taken q))
  (∀ i : Instr, i = .bra h o ∨ i = .call h o →
    let b := At i s
    let x := s.exec o.guard
    let dest := s.cur.pc + Bits.sext64 o.imm
    Ready i s →
    (x = 0#32 → Does i s fun t => SameRegisters s t ∧ SameMemory s t)
    ∧ (∀ c, x ≠ 0#32 → b.land dest = .fail c → TrapsAt i s c dest)
    ∧ (x ≠ 0#32 → b.land dest = .wait → Waits i s)
    ∧ ∀ s1, x ≠ 0#32 → b.land dest = .ok s1 →
      (x = s.active → Moves i s fun t => AllAt s t dest ∧ keeps t ∧ t.grp.uhmiss = s.grp.uhmiss
        ∧ (i = .bra h o → SameGroup s.grp t.grp)
        ∧ (i = .call h o → (∀ n, o.d = .k n → KIs t n.toNat next) ∧
            ∀ n, o.d = .v n → ∀ l < 32, Bits.has x l = true → t.grp.rv2 n.toNat l = next))
      ∧ (o.b = .none → x ≠ s.active → Traps i s 0x45 0x200)
      ∧ ∀ n, o.b = .j n → x ≠ s.active → Parts i h n.toNat x dest next)
  ∧ (∀ (i : Instr) (hint : Hint), (i = .brx h o ∧ hint = h) ∨ (i = .ret o ∧ hint = .none) →
    let b := At i s
    let at' (l : Nat) := get64 false o s.grp o.a l
    let lanes := (List.range 32).filter fun l => Bits.has s.active l
    let dest := at' s.refLane
    Ready i s →
    (∀ c v, Ctl.landAll b at' lanes = .error (some (c, v)) → TrapsAt i s c v)
    ∧ (Ctl.landAll b at' lanes = .error none → Waits i s)
    ∧ ∀ s1 s2, Ctl.landAll b at' lanes = .ok s1 → s1.land dest = .ok s2 →
        ((∀ l ∈ lanes, at' l = dest) → Moves i s fun t => AllAt s t dest ∧ keeps t ∧ SameGroup s.grp t.grp)
        ∧ ((∃ l ∈ lanes, at' l ≠ dest) → o.b = .none → Traps i s 0x45 0x200)
        ∧ ((∃ l ∈ lanes, at' l ≠ dest) → ∀ n, o.b = .j n →
            Parts i hint n.toNat (Bits.maskOf fun l => Bits.has s.active l && at' l == dest) dest s.cur.pc))

/-- R288 to R291, R318 to R320: stitch markers and the end of lanes. A closed region lets the fragment pass; at an open one
the quads park until every expected lane has arrived; a stuck group is released at its lowest marker; exited lanes are
gone, and a group whose work is over retires. It rests on the model's choices of log entries 41 and 83. -/
def Obligations.RegionsAndExit : Prop := ∀ (o : Opds) (s : State),
  let qs := s.grp.fragQuads s.cur.frag
  let next := Line.next s.cur.pc
  (let i : Instr := .regang o
   let n := o.a.val
   let j := s.grp.rj n
   let missing := j.expect &&& s.grp.present &&& ~~~(j.arrive ||| s.active)
   let frame (t : State) : Prop := SameMemory s t ∧ t.gtime = s.gtime ∧ (∀ u, u ≠ s.cur.grp → t.grpAt u = s.grpAt u)
     ∧ (∀ n l, t.grp.rv n l = s.grp.rv n l) ∧ ∀ n, t.grp.rk n = s.grp.rk n
   Ready i s →
   (j.active = false → Moves i s fun t => Advances s t ∧ SameRegisters s t ∧ SameMemory s t)
   ∧ (j.active = true → j.entries = [] → missing &&& ~~~s.active = 0#32 → Moves i s fun t => frame t
       ∧ (∀ q ∈ qs, (t.grp.quad q).pc = next ∧ (t.grp.quad q).st = .ready) ∧ t.grp.rj n = {})
   ∧ (j.active = true → j.entries = [] → missing &&& ~~~s.active ≠ 0#32 → Moves i s fun t => frame t
       ∧ (∀ q ∈ qs, (t.grp.quad q).pc = s.cur.pc ∧ (t.grp.quad q).st = .parkedGang ∧ (t.grp.quad q).waitno = n)
       ∧ (t.grp.rj n).arrive = j.arrive ||| s.active ∧ (t.grp.rj n).active = true)
   ∧ (∀ e, j.active = true → j.entries = [e] → (∀ q ∈ qs, Bits.quadLanes e.lanes q ≠ 0#4) → qs ≠ [] → Moves i s fun t => frame t
       ∧ (∀ q ∈ qs, (t.grp.quad q).pc = e.pc ∧ (t.grp.quad q).lanes = Bits.quadLanes e.lanes q ∧ (t.grp.quad q).st = .ready)))
  ∧ (let i : Instr := .exit o
     let x := s.exec o.guard
     let left (q : Nat) := (s.grp.quad q).lanes &&& ~~~Bits.quadLanes x q
     Ready i s → Moves i s fun t => SameMemory s t
       ∧ (∀ q ∈ qs, left q ≠ 0#4 → t.grp.quad q = { s.grp.quad q with lanes := left q, pc := next })
       ∧ (∀ q ∈ qs, left q = 0#4 → (∀ n < 8, ∀ e ∈ (s.grp.rj n).entries, Bits.quadLanes e.lanes q = 0#4) →
           (t.grp.quad q).st = .exited ∧ (t.grp.quad q).lanes = 0#4)
       ∧ (∀ q ∈ qs, left q = 0#4 → ∀ e, (∀ q' ∈ qs, q' ≠ q → left q' ≠ 0#4) → (s.grp.rj 0).entries = [e] →
           Bits.quadLanes e.lanes q ≠ 0#4 → (t.grp.quad q).st = .ready ∧ (t.grp.quad q).pc = e.pc
             ∧ (t.grp.quad q).lanes = Bits.quadLanes e.lanes q))
  ∧ ∀ u, let g := s.grpAt u
    (g.stuck = false → exec (.groupStuckRelease u) s = .next s)
    ∧ (∀ n, g.stuck = true → n < 8 → (∀ m < n, g.parkedAt m = []) → g.parkedAt n ≠ [] → Happens (.groupStuckRelease u) s fun t =>
        SameMemory s t
        ∧ (∀ q ∈ g.parkedAt n, (t.grpAt u).quad q = { g.quad q with
            pc := Line.next (g.quad q).pc, st := .ready, waitno := 0, lanes := Bits.quadLanes (g.rj n).arrive q,
            frag := ((t.grpAt u).quad q).frag })
        ∧ ((g.rj n).entries = [] → (t.grpAt u).rj n = {})
        ∧ ((g.rj n).entries ≠ [] → ((t.grpAt u).rj n).arrive = 0#32 ∧ ((t.grpAt u).rj n).entries = (g.rj n).entries))
    ∧ (∀ g', SMap.get? s.groups u = some g' → g.exited = true → g.ops = [] → g.pending = [] → g.faults = [] →
        Dsp.fetching s u = false → Dsp.collecting s u = false →
        Happens (.groupRetire u) s fun t => SMap.get? t.groups u = none
          ∧ ((∃ e ∈ s.groups, e.1 ≠ u ∧ e.2.team = g.team) →
            (∀ p, Memory.byte t.mem p = Memory.byte s.mem p) ∧ ∀ w, w ≠ u → t.grpAt w = s.grpAt w)
          ∧ g.horizon ≤ (t.launchAt (s.teamAt g.team).launch).horizon)
    ∧ (g.exited = false → exec (.groupRetire u) s = .next s)

/-- R232, R288, R321 to R324: the barriers. A fragment parks, its pending bytes count at once, and the phase completes when
every participant has arrived or exited and no bytes are pending; misuse traps. It rests on the model's choices of log
entry 42. -/
def Obligations.Barriers : Prop := ∀ (o : Opds) (s : State),
  (∀ (i : Instr) (b : Nat) (bytes : W64),
    (i = .bar o ∧ b = Forms.code o.a ∧ bytes = 0#64) ∨ (i = .barx o ∧ b = Forms.code o.a ∧ bytes = s.grp.rk o.b.val)
      ∨ (i = .cbar o ∧ b = 16 ∧ bytes = 0#64) ∨ (i = .gbar o ∧ b = 17 ∧ bytes = 0#64) →
    let u := s.cur.grp
    let qs := s.grp.fragQuads s.cur.frag
    let parkedElsewhere (n : Nat) : Prop := ∃ q < 8, (s.grp.quad q).st = .parkedBar ∧ (s.grp.quad q).waitno = n ∧ n ≠ b
    let may := (b = 17 → s.launch.record.gridbar = true) ∧ (b = 16 → s.launch.record.cluster = true)
    let clear := may ∧ (∀ n, ¬ parkedElsewhere n) ∧ bytes.toNat < 2 ^ 24
    let x := s.barrierAt u b
    let scope : Scope := if b < 16 then .team else if b = 16 then .cluster else .module
    b ≤ 17 → Ready i s →
    (b = 17 → ¬ may → Traps i s 0x44 0)
    ∧ (b = 16 → ¬ may → Traps i s 0x4B 0x200)
    ∧ (∀ n, may → parkedElsewhere n → (∀ m, parkedElsewhere m → m = n) → Traps i s 0x4B (0x100 + n))
    ∧ (may → (∀ n, ¬ parkedElsewhere n) → 2 ^ 24 ≤ bytes.toNat → Traps i s 0x4B (0x300 + b))
    ∧ (clear → (∃ e ∈ s.groups, e ∈ s.partners u b ∧ e.1 ≠ u ∧ e.2.exited = false
          ∧ arrivalKey (s.teamAt e.2.team) e.2 b ∉ x.arrived ∧ arrivalKey (s.teamAt e.2.team) e.2 b ≠ arrivalKey s.team s.grp b) →
        Moves i s fun t => SameMemory s t ∧ SameRegisters s t
          ∧ (∀ q, t.grp.quad q = if q ∈ qs then { s.grp.quad q with pc := s.cur.pc, st := .parkedBar, waitno := b }
              else s.grp.quad q)
          ∧ (t.barrierAt u b).pend = (x.pend + bytes.toNat) % 2 ^ 24 ∧ (t.barrierAt u b).phase = x.phase)
    ∧ (clear → (s.partners u b).map Prod.fst = [u] → s.cur.frag < 8 → qs ≠ [] → (∀ q < 8, q ∉ qs →
          (s.grp.quad q).st = .absent ∨ (s.grp.quad q).st = .exited) → x.arrived = [] → (x.pend + bytes.toNat) % 2 ^ 24 = 0 →
        s.team.preempt = false → s.grp.orphan = none → s.wholeSet u b = true → (At i s).releaseReady u scope s.nextId = true →
        Moves i s fun t => SameMemory s t ∧ SameRegisters s t
          ∧ (∀ q, t.grp.quad q = if q ∈ qs then { s.grp.quad q with pc := Line.next s.cur.pc, waitno := 0 } else s.grp.quad q)
          ∧ t.barrierAt u b = { arrived := [], pend := 0, phase := !x.phase }))
  ∧ ∀ u b, (s.grpAt u).barrierOf = some b →
      (Ctl.mayArrive s u b = false → exec (.barrierArrive u) s = .next s)
      ∧ (Ctl.mayArrive s u b = true → Happens (.barrierArrive u) s fun t => SameMemory s t ∧
          (arrivalKey (s.teamOf u) (s.grpAt u) b ∈ (t.barrierAt u b).arrived
            ∨ t.barrierAt u b = { arrived := [], pend := 0, phase := !(s.barrierAt u b).phase }))

/-- R295 to R299, R303, R325 to R327: SPAWN, LAUNCH and LQSIGNAL; the status word goes to the memory that STATUS leads to, or to
the local memory of a resident team. It rests on the model's choices of log entries 24, 25, 40 and 83. -/
def Obligations.SpawnAndLaunch : Prop := ∀ (o : Opds) (s : State),
  let quiet (t : State) : Prop := t.gtime = s.gtime ∧ (∀ u, u ≠ s.cur.grp → u ≠ s.nextId → t.grpAt u = s.grpAt u)
    ∧ (∀ n l, t.grp.rv n l = s.grp.rv n l) ∧ (∀ n l, t.grp.rm n l = s.grp.rm n l)
  (let i : Instr := .spawn o
   let room := if s.exec o.guard = 0#32 then none else Ctl.spawnRoom (At i s)
   s.nextId ≠ s.cur.grp → Ready i s →
   (room = none → Does i s fun t => quiet t ∧ SameMemory s t ∧ PIs s t o.d.val false
       ∧ ∀ u, u ≠ s.cur.grp → SMap.get? t.groups u = SMap.get? s.groups u)
   ∧ ∀ p, room = some p → Does i s fun t => quiet t ∧ SameMemory s t ∧ PIs s t o.d.val true
      ∧ ∃ n, SMap.get? t.groups s.nextId = some n ∧ n.team = s.grp.team ∧ n.role = s.grp.role ∧ n.present = s.grp.present
        ∧ n.hcur = s.grp.hcur ∧ n.horizon = s.grp.horizon ∧ n.partition = p ∧ n.nv = s.grp.nv
        ∧ (∀ e ∈ s.groupsOf s.grp.team, n.gid ≠ e.2.gid ∨ 32 ≤ (s.groupsOf s.grp.team).length)
        ∧ (∀ q < 8, (n.quad q).pc = s.cur.pc + Bits.sext64 o.imm ∧ (n.quad q).lanes = Bits.quadLanes s.grp.present q)
        ∧ (∀ j < 8, ∀ l < 32, Bits.has s.grp.present l = true → n.rv (o.b.val + j) l = s.grp.rv (o.b.val + j) l)
        ∧ (∀ m, (m < o.b.val ∨ o.b.val + 8 ≤ m) → ∀ l < 32, n.rv m l = 0#32))
  ∧ (let i : Instr := .launch o
     let b := At i s
     let k := s.grp.rk o.b.val
     let k' := s.grp.rk (o.b.val + 1)
     let gx := Bits.field k 31 0
     let gy := Bits.field k 63 32
     let gz := Bits.field k' 31 0
     let q := Bits.field k' 51 48
     let count := Bits.field k' 47 32
     let rec' := (s.grp.rk o.a.val).toNat
     let st := (s.grp.rk (o.a.val + 1)).toNat
     let granted := q ≠ 0 ∧ (s.descAt s.ctx).qgrant.getLsbD q = true
     let sized := gx ≠ 0 ∧ gy ≠ 0 ∧ gz ≠ 0 ∧ gx * gy * gz < 2 ^ 32
     let ok := Ctl.launchTrap b (Ctl.gridOf s.grp o) rec' st = none
     let ready := b.releaseReady s.cur.grp .module s.nextId = true
     Ready i s →
     (¬ granted → Traps i s 0x4C 0x100)
     ∧ (granted → ¬ sized → Traps i s 0x4C 0x200)
     ∧ (granted → sized → Bits.field k' 63 52 ≠ 0 → Traps i s 0x4C 0x300)
     ∧ (granted → sized → Bits.field k' 63 52 = 0 → rec' % 256 ≠ 0 → Traps i s 0x28 rec')
     ∧ (granted → sized → Bits.field k' 63 52 = 0 → rec' % 256 = 0 → st % 4 ≠ 0 → Traps i s 0x28 st)
     ∧ (∀ c v, Ctl.launchTrap b (Ctl.gridOf s.grp o) rec' st = some (c, v) → Traps i s c v)
     ∧ (ok → ¬ ready → WaitsHandingBack i s)
     ∧ (ok → ready → Ctl.freePos b q = none → Does i s fun t => quiet t ∧ SameMemory s t
          ∧ KIs t o.d.val 0#64 ∧ PIs s t o.c.val false ∧ t.queues = s.queues)
     ∧ ∀ pos, ok → ready → Ctl.freePos b q = some pos → Does i s fun t =>
          KIs t o.d.val (BitVec.ofNat 64 ((SMap.get 0 s.queueSeq pos + 1) % 65536 * 65536 + pos % 64 * 16 + pos / 64))
          ∧ PIs s t o.c.val true
          ∧ (∃ e, SMap.get? t.queues pos = some e ∧ e.ctx = s.ctx ∧ e.record = rec' ∧ e.status = st ∧ e.gx = gx ∧ e.gy = gy
              ∧ e.gz = gz ∧ e.count = count ∧ e.under = false
              ∧ e.priv = s.privAt s.cur.grp s.cur.frag ∧ e.st = (if count = 0 then .ready else .waiting))
          ∧ (∀ p lf, s.findAs s.ctx (s.privAt s.cur.grp s.cur.frag) .store st = .at' (.hbm p) lf →
              t.readMem p 4 = if count = 0 then 1 else 0)
          ∧ ∀ tm off lf, b.find s.cur.grp (s.privAt s.cur.grp s.cur.frag) .store st = .at' (.loc tm off) lf →
              SMap.get? s.teams tm ≠ none →
              (∀ x ∈ s.teams, x.2.launch = (s.teamAt tm).launch → x.2.id = (s.teamAt tm).id → x.1 = tm) →
              t.readLoc tm off 4 = if count = 0 then 1 else 0)
  ∧ (let i : Instr := .lqsignal o
     let b := At i s
     let named := Ctl.posOf s (Bits.lo (s.grp.rk o.a.val))
     let ready := b.releaseReady s.cur.grp .module s.nextId = true
     Ready i s →
     (¬ ready → WaitsHandingBack i s)
     ∧ (ready → named = none → Does i s fun t => quiet t ∧ SameMemory s t ∧ PIs s t o.d.val false ∧ t.queues = s.queues)
     ∧ ∀ pos e, ready → named = some pos → SMap.get? s.queues pos = some e →
        (e.ctx ≠ s.ctx → Does i s fun t => quiet t ∧ SameMemory s t ∧ PIs s t o.d.val false ∧ t.queues = s.queues)
        ∧ (e.ctx = s.ctx → e.st = .waiting → Does i s fun t => PIs s t o.d.val true
            ∧ SMap.get? t.queues pos = some
              { e with count := e.count - 1, st := if e.count - 1 = 0 then .ready else .waiting, since := s.gtime }
            ∧ (e.count - 1 ≠ 0 → SameMemory s t))
        ∧ (e.ctx = s.ctx → e.st ≠ .waiting → Does i s fun t => PIs s t o.d.val false
            ∧ SMap.get? t.queues pos = some { e with under := true }
            ∧ (∀ p lf, e.statusAt = none → s.findAs s.ctx e.priv .store e.status = .at' (.hbm p) lf →
                t.readMem p 4 = 256 + if e.st = .running then 2 else 1)
            ∧ ∀ k tm, e.statusAt = some k → s.nookTeam k = some tm →
                t.readLoc tm k.off 4 = 256 + if e.st = .running then 2 else 1))

/-- R293, R304 to R308, R328 to R334: ranges, whose takes are served in ascending lane order, a helper lane taking nothing; and the instructions that name a fragment's future: YIELD, LIFE, RWS, NOP and
TRAP. It rests on the model's choices of log entries 24, 42 and 77. -/
def Obligations.RangesAndHints : Prop := ∀ (o : Opds) (s : State),
  let rest (t : State) : Prop := SameMemory s t ∧ t.gtime = s.gtime ∧ (∀ u, u ≠ s.cur.grp → t.grpAt u = s.grpAt u)
    ∧ ∀ n l, t.grp.rv n l = s.grp.rv n l
  (let i : Instr := .rangeInit o
   let a := s.grp.rk o.a.val
   let b := s.grp.rk o.b.val
   let cl := s.team.core / 4
   let least := Bits.field a 63 32
   let d := Bits.field b 15 0
   let slot := (List.range 16).find? fun n => (SMap.get? (s.clusterAt cl).ranges n).isNone
   Ready i s →
   (least = 0 → Traps i s 0x4D a.toNat)
   ∧ (least ≠ 0 → d = 0 ∨ Bits.field b 63 16 ≠ 0 → Traps i s 0x4D b.toNat)
   ∧ (least ≠ 0 → d ≠ 0 → Bits.field b 63 16 = 0 → slot = none → Does i s fun t => rest t ∧ KIs t o.d.val 0#64
        ∧ PIs s t o.c.val false)
   ∧ ∀ n, least ≠ 0 → d ≠ 0 → Bits.field b 63 16 = 0 → slot = some n →
      let seq := (SMap.get 0 (s.clusterAt cl).rangeSeq n + 1) % 65536
      cl < 80 → Does i s fun t => rest t ∧ KIs t o.d.val (BitVec.ofNat 64 (seq * 65536 + n * 128 + cl)) ∧ PIs s t o.c.val true
        ∧ SMap.get? (t.clusterAt cl).ranges n = some { total := Bits.field a 31 0, next := 0, min := least, d := d, ctx := s.ctx,
                                                       launch := s.team.launch })
  ∧ (let i : Instr := .rangeTake o
     let h := Bits.lo (s.grp.rk o.a.val)
     let b := At i s
     Ready i s →
     (Ctl.rangeOf b s.ctx h = none → Traps i s 0x4D h.toNat)
     ∧ (Ctl.rangeOf b s.ctx h ≠ none → b.roomFor .loads = false → Waits i s)
     ∧ (Ctl.rangeOf b s.ctx h ≠ none → b.roomFor .loads = true → (∀ e ∈ s.grp.ops, e.id < s.nextId) →
        Does i s fun t => SameRegisters s t ∧ SameMemory s t
          ∧ (s.exec o.guard ≠ 0#32 → ∃ op ∈ t.grp.ops, op.id = s.nextId ∧ op.cls = .loads ∧ op.kind = .take o.d.val h
              ∧ op.lanes.map Access.lane = (List.range 32).filter fun l => Bits.has (s.exec o.guard) l)))
  ∧ (∀ u id op a d h cl n r, (s.grpAt u).op? id = some op → op.kind = .take d h → op.done = false → op.lanes = [a] →
      Ctl.rangeOf s (s.ctxOf u) h = some (cl, n, r) → (s.grpAt u).isHelper a.lane = false →
      let left := r.total - r.next
      let len := if left = 0 then 0 else min left (max r.min ((left + r.d - 1) / r.d))
      Happens (.rangeTakeServe u id) s fun t => SameMemory s t
        ∧ (t.grpAt u).rv d a.lane = BitVec.ofNat 32 r.next ∧ (t.grpAt u).rv (d + 1) a.lane = BitVec.ofNat 32 len
        ∧ SMap.get? (t.clusterAt cl).ranges n = some { r with next := r.next + len }
        ∧ ∀ e ∈ (t.grpAt u).ops, e.id = id → e.done = true)
  ∧ (∀ u id op a d h cl n r, (s.grpAt u).op? id = some op → op.kind = .take d h → op.done = false → op.lanes = [a] →
      Ctl.rangeOf s (s.ctxOf u) h = some (cl, n, r) → (s.grpAt u).isHelper a.lane = true →
      Happens (.rangeTakeServe u id) s fun t => SameMemory s t
        ∧ (t.grpAt u).rv d a.lane = BitVec.ofNat 32 r.total ∧ (t.grpAt u).rv (d + 1) a.lane = 0#32
        ∧ SMap.get? (t.clusterAt cl).ranges n = some r
        ∧ ∀ e ∈ (t.grpAt u).ops, e.id = id → e.done = true)
  ∧ (∀ u id op d h, (s.grpAt u).op? id = some op → op.kind = .take d h → op.done = false → (op.lanes.map Access.lane).Nodup →
      (∀ a ∈ op.lanes, a.lane < 32) → ∀ cl n r, Ctl.rangeOf s (s.ctxOf u) h = some (cl, n, r) →
      Happens (.rangeTakeServe u id) s fun t => ∀ (m : Nat) (a : Access), op.lanes[m]? = some a →
        let helper (x : Access) := (s.grpAt u).isHelper x.lane
        let before := ((op.lanes.take m).filter fun x => !helper x).foldl (fun x _ => (Ctl.take x).2) r
        let got := if helper a then (r.total, 0) else (Ctl.take before).1
        (t.grpAt u).rv d a.lane = BitVec.ofNat 32 got.1 ∧ (t.grpAt u).rv (d + 1) a.lane = BitVec.ofNat 32 got.2)
  ∧ (let r := s.grp.frag s.cur.frag
     let n := Forms.code o.a
     let counted := min 65535 (r.count + 1)
     Ready (.yield o) s → Does (.yield o) s fun t => SameRegisters s t ∧ SameMemory s t
       ∧ (n = 0 → (t.grp.frag s.cur.frag).skip = true)
       ∧ (n ≠ 0 → (t.grp.frag s.cur.frag).notBefore = s.gtime + n + 1)
       ∧ (t.grp.frag s.cur.frag).count = counted)
  ∧ (Ready (.life o) s → Does (.life o) s fun t => (∀ p, Memory.byte t.mem p = Memory.byte s.mem p) ∧ SameGroup s.grp t.grp
       ∧ (t.grp.frag s.cur.frag).count = 0
       ∧ (t.grp.frag s.cur.frag).life.v = o.imm
       ∧ (t.grp.frag s.cur.frag).life.k = BitVec.ofNat 8 (Forms.code o.b)
       ∧ (t.grp.frag s.cur.frag).life.m = BitVec.ofNat 8 (Forms.code o.c)
       ∧ (t.grp.frag s.cur.frag).life.z = BitVec.ofNat 16 (Forms.code o.d + 256 * Forms.code o.a)
       ∧ (s.team.preempt = true → (t.grp.frag s.cur.frag).stopped = true))
  ∧ (∀ i : Instr, i = .rws o ∨ i = .nop o → Ready i s → Does i s fun t => SameRegisters s t ∧ SameMemory s t
       ∧ t.grp.ops = s.grp.ops ∧ t.teams = s.teams ∧ t.cores = s.cores ∧ t.clusters = s.clusters ∧ t.mem = s.mem
       ∧ (i = .rws o → (t.grp.frag s.cur.frag).count = (s.grp.frag s.cur.frag).count)
       ∧ (i = .nop o → (t.grp.frag s.cur.frag).count = min 65535 ((s.grp.frag s.cur.frag).count + 1)))
  ∧ (let x := s.exec o.guard
     Ready (.trap o) s →
     (x = 0#32 → Does (.trap o) s fun t => SameRegisters s t ∧ SameMemory s t)
     ∧ (x ≠ 0#32 → exec (.trap o) s = .next (Issue.trap s (0xE0 + Forms.code o.a) x.toNat (Line.next s.cur.pc))))

/-- R29 to R31, R33, R337, R359 to R362: what RDSYS reads, what WRSYS writes, and the return from a trap. It rests on the
model's choices of log entries 12 and 64. -/
def Obligations.SystemRegisters : Prop := ∀ (o : Opds) (s : State),
  let g := s.grp
  (let i : Instr := .rdsys o
   let x := o.a.val
   let ty : IType := if Forms.sysWide.contains x then .n64 else .n32
   let up := (List.range 80).filter fun c => !s.lostClusters.contains c
   let map := (up.map fun c => 2 ^ c).sum
   let channels := 384 - (s.channels.filter fun e => e.2.retired).length
   let value (l : Nat) : Nat := match x with
     | 0x00 => s.launch.ctx
     | 0x01 => (if s.launch.ctx = 0 then s.trapvec0 else (s.descAt s.launch.ctx).trapvec).toNat
     | 0x02 => g.cause.toNat | 0x03 => g.tpc.toNat | 0x04 => g.tval.toNat | 0x05 => g.mcr.toNat | 0x06 => g.hcur.toNat
     | 0x07 => s.gtime | 0x08 => g.horizon
     | 0x10 => l | 0x11 => l / 4 | 0x12 => g.gid | 0x13 => s.team.id | 0x14 => s.team.core / 4 | 0x15 => s.team.core % 4
     | 0x16 => (if Bits.has g.helpers l then 1 else 0) | 0x17 => g.role | 0x18 => g.uhmiss.toNat
     | 0x40 => 2 ^ 24 + Config.stepping.toNat * 2 ^ 16 + 0x4860
     | 0x41 => Config.slices * 2 ^ 48 + 256 * 2 ^ 32 + up.length * 2 ^ 16 + up.length * 4
     | 0x42 => channels * 2 ^ 32 + Config.capMib
     | 0x43 => Config.mxWake
     | 0x44 => Config.hDepth * 2 ^ 32 + Config.hLive * 2 ^ 16 + Config.lifeBound
     | 0x45 => map % 2 ^ 64
     | 0x46 => map / 2 ^ 64
     | _ => 0
   Ready i s → Does i s fun t => Quiet s t ∧ Fills ty o s t fun l => value l % 2 ^ ty.bits)
  ∧ (let i : Instr := .wrsys o
     let x := get64 false o g o.a 0
     let n := o.d.val
     Ready i s → Does i s fun t => SameMemory s t ∧ (∀ u, u ≠ s.cur.grp → t.grpAt u = s.grpAt u)
       ∧ t.trapvec0 = (if n = 1 then x else s.trapvec0)
       ∧ SameGroup { g with
           cause := if n = 2 then Bits.lo x &&& 0xFF#32 else g.cause, tpc := if n = 3 then x else g.tpc
           tval := if n = 4 then x else g.tval, mcr := if n = 5 then Bits.lo x &&& 0x3#32 else g.mcr } t.grp)
  ∧ (let i : Instr := .tret o
     let left := g.hmask &&& ~~~s.active
     Ready i s → Moves i s fun t => AllAt s t g.tpc ∧ SameMemory s t ∧ (∀ u, u ≠ s.cur.grp → t.grpAt u = s.grpAt u)
       ∧ SameGroup { g with hmask := left, hmode := g.hmode && left != 0#32 } t.grp)

/-- R339, R344, R345, R363, R364: TLBINV waits as a release at .module scope and counts on the stores counter until no TLB
holds what it names; CACHEOP empties the copies of its context. It rests on the model's choices of log entry 45. -/
def Obligations.Invalidation : Prop := ∀ (o : Opds) (s : State),
  (∀ (i : Instr) (page ctx : Option Nat),
    (i = .tlbinvPage o ∧ page = some (s.grp.rk o.a.val).toNat ∧ ctx = some (Bits.field (s.grp.rk o.b.val) 7 0))
      ∨ (i = .tlbinvCtx o ∧ page = none ∧ ctx = some (Bits.field (s.grp.rk o.a.val) 7 0))
      ∨ (i = .tlbinvAll o ∧ page = none ∧ ctx = none) →
    let b := At i s
    let ready := b.releaseReady s.cur.grp .module s.nextId = true
    Ready i s →
    (b.roomFor .stores = false → Waits i s)
    ∧ (b.roomFor .stores = true → ¬ ready → WaitsHandingBack i s)
    ∧ (b.roomFor .stores = true → ready → Does i s fun t => SameRegisters s t ∧ SameMemory s t
        ∧ Starts s t .stores fun op => op.kind = .tlbinv page ctx))
  ∧ (∀ u id op page ctx, (s.grpAt u).op? id = some op → op.kind = .tlbinv page ctx →
      let named (c : Nat) : Prop := ∀ x, ctx = some x → c = x
      let covers (base size : Nat) : Prop := ∀ va, page = some va → base ≤ va ∧ va < base + size
      (op.done = true → exec (.tlbinvComplete u id) s = .next s)
      ∧ (op.done = false → Happens (.tlbinvComplete u id) s fun t =>
          (∀ g, SMap.get? s.groups u = some g → s.gtime ≤ (t.grpAt u).horizon ∧ ∀ e ∈ (t.grpAt u).ops, e.id = id → e.done = true)
          ∧ (∀ cl < 80, ∀ e ∈ (t.clusterAt cl).tlb, named e.ctx → ¬ covers e.base e.size)
          ∧ (∀ cl < 80, page = none → ∀ e ∈ (t.clusterAt cl).nodes, ¬ named e.ctx)
          ∧ (∀ n, page = none → ctx = some n → n ≠ 0 → s.owners = [] → s.flows = [] →
              (∀ cl < 80, ∀ e ∈ (s.clusterAt cl).tlb, e.count = 0) →
              (∀ g ∈ s.groups, ∀ o ∈ g.2.ops, ∀ a ∈ o.lanes, (∀ x y z, a.loc ≠ .peer x y z) ∨ a.sent.isSome = true) →
              let raw := s.readBytes (Config.ctxtBase + 128 * n) 128
              let ok := (Ctx.parse raw).valid = true ∧ Ctx.malformed raw = false ∧ s.badAt (Config.ctxtBase + 128 * n) 128 = false
              (t.descAt n).valid = decide ok ∧ (ok → (t.descAt n).ptroot = Dsp.bytesAt raw 8 8
                ∧ (t.descAt n).trapvec = BitVec.ofNat 64 (Dsp.bytesAt raw 0x38 8)))))
  ∧ (Ready (.cacheopL1inv o) s → Does (.cacheopL1inv o) s fun t => SameRegisters s t ∧ SameMemory s t
      ∧ (∀ w ∈ (t.coreAt (s.l1Of s.cur.grp)).l1, w.2.owned = true ∨ w.2.ctx ≠ s.ctx)
      ∧ ∀ x ∈ t.core.tiles, s.ctx ∉ x.ctxs)
  ∧ (Ready (.cacheopIcinv o) s → Does (.cacheopIcinv o) s fun t => SameRegisters s t ∧ SameMemory s t
      ∧ ∀ l ∈ t.core.fetch, l.ctx ≠ s.ctx)

/-- R44 to R48, R226, R275, R307, R310, R311, R357, R365 to R367, R418: saving and restoring contexts. A saved team's area holds its
header, windows, local memory and group records; a CTXLOAD that succeeds makes every team of the manifest resident as its area
describes it. It rests on the model's choices of log entries 36, 43, 44, 49 and 81. -/
def Obligations.ContextSwitch : Prop := ∀ (o : Opds) (s : State),
  (let i : Instr := .ctxsave o
   let b := At i s
   let ctx := Bits.field (s.grp.rk o.a.val) 7 0
   let man := (s.grp.rk o.b.val).toNat
   let code := Ctx.saveCode b ctx man
   Ready i s →
   (ctx = 0 ∨ (s.descAt ctx).valid = false → code = 0x94)
   ∧ (b.roomFor .loads = false → Waits i s)
   ∧ (b.roomFor .loads = true → Does i s fun t => SameMemory s t ∧ SameGroup s.grp t.grp
      ∧ Starts s t .loads (fun op => op.kind = .ctxsave o.d.val ctx man code 0)
      ∧ (code = 0 → ctx ∈ t.heldCtx ∧ ∀ e ∈ t.teams, (t.launchAt e.2.launch).ctx = ctx → e.2.preempt = true)
      ∧ (code ≠ 0 → t.teams = b.teams ∧ t.heldCtx = s.heldCtx)))
  ∧ (∀ n te, SMap.get? s.teams n = some te →
      let gs := s.groupsOf n
      (te.preempt = false → exec (.teamSave n) s = .next s)
      ∧ (te.preempt = true → gs ≠ [] → (∀ e ∈ gs, e.2.ops = [] ∧ Ctx.drained s e.1 = true) →
          (∀ q ∈ te.queues, ∀ x ∈ q.2.slots, x.filled = true) → Happens (.teamSave n) s fun t =>
          SMap.get? t.teams n = none ∧ (∀ e ∈ t.groups, e.2.team ≠ n)
          ∧ (t.launchAt te.launch).live = (s.launchAt te.launch).live - 1
          ∧ (SMap.get? (t.launchAt te.launch).saved te.id).isSome = true
          ∧ let b := gs.foldl (fun s g => (Bnk.settle s g.1).giveBack g.1) s
            let l := b.launchAt te.launch
            let order := (Ctx.byGid (b.groupsOf n)).map fun g => Ctx.settled b te.core l.ctx g.2
            let alive (w : Nat) := order.any fun g => (Area.live g).z.getLsbD w
            let heap := if (b.coreAt te.core).heap.owner = some n then some (b.coreAt te.core).heap else none
            t.mem = (Ctx.put b l.ctx (l.record.savebase + te.id * l.record.stride)
              (Area.packHeader te order.length heap
                ++ te.windows.flatMap (fun w => Area.packWindow b.choice (alive w.1) w.1 w.2)
                ++ b.locBytes n 0 te.localsz
                ++ order.flatMap fun g => Area.packGroup b.choice g (Area.live g))).1.mem))
  ∧ (∀ ctx va bs p lf, s.findAs ctx true .store va = .at' (.hbm p) lf → va % 128 + bs.length ≤ 128 → s.owners = [] →
      ∀ q, Memory.byte (Ctx.put s ctx va bs).1.mem q = if p ≤ q ∧ q < p + bs.length then bs.getD (q - p) 0#8 else Memory.byte s.mem q)
  ∧ (∀ ctx va bs cs, (va + bs.length) % 128 = 0 → va + bs.length + cs.length < 2 ^ 64 →
      (Ctx.put s ctx va (bs ++ cs)).1 = (Ctx.put (Ctx.put s ctx va bs).1 ctx (va + bs.length) cs).1)
  ∧ (∀ u id op d ctx man code n, (s.grpAt u).op? id = some op → op.kind = .ctxsave d ctx man code n → op.done = false →
      let spent := Ctx.teamsOf s ctx = [] ∧ op.time ≤ s.gtime ∧ s.releaseReady u .module id = true
      (code ≠ 0 → Happens (.ctxsaveComplete u id) s fun t => SameMemory s t
          ∧ (t.grpAt u).rk d = if d = 0 then 0#64 else BitVec.ofNat 64 code)
      ∧ (code = 0 → ¬ spent → exec (.ctxsaveComplete u id) s = .next s)
      ∧ (code = 0 → spent → Happens (.ctxsaveComplete u id) s fun t =>
          (t.grpAt u).rk d = (if d = 0 then 0#64 else BitVec.ofNat 64 (n * 2 ^ 32))
          ∧ t.mem = (Ctx.put s 0 man (Ctx.packManifest s ctx)).1.mem))
  ∧ (let i : Instr := .ctxload o
     let b := At i s
     let man := (s.grp.rk o.a.val).toNat
     let Ends (t : State) (code : Nat) : Prop := ∃ op ∈ t.grp.ops, op.kind = .load ⟨2, o.d.val, 5⟩
       ∧ ∃ a, op.lanes = [a] ∧ a.value = code ∧ a.st = .performed
     Ready i s →
     (b.roomFor .loads = false → Waits i s)
     ∧ (∀ q, b.roomFor .loads = true → Ctx.loadManifest b man = .hold q → WaitsFor i s q)
     ∧ (b.roomFor .loads = true → Ctx.loadManifest b man = .bad → Does i s fun t => SameRegisters s t ∧ SameMemory s t ∧ Ends t 0x90)
     ∧ ∀ ctx images, b.roomFor .loads = true → Ctx.loadManifest b man = .ok ctx images →
        let r := Ctx.recalled b ctx man images
        (Ctx.loadTeams r ctx images = none → Does i s fun t => Ends t 0x90 ∧ t.teams = b.teams)
        ∧ (∀ l, Ctx.loadTeams r ctx images = some l → (ctx ≠ 0 ∧ (s.descAt ctx).valid = false) ∨ Ctx.teamsOf b ctx ≠ [] →
            Does i s fun t => Ends t 0x92 ∧ t.teams = b.teams)
        ∧ (∀ l, Ctx.loadTeams r ctx images = some l → ctx = 0 ∨ (s.descAt ctx).valid = true → Ctx.teamsOf b ctx = [] →
            (Ctx.placeAll r ctx l = none → Does i s fun t => Ends t 0x91 ∧ t.teams = b.teams)
            ∧ ∀ x, Ctx.placeAll r ctx l = some x → Moves i s fun t => Ends t 0 ∧ ctx ∉ t.heldCtx
              ∧ (Unused s → ∀ e ∈ l, ∀ im ∈ e.2, ∃ n te, TeamRestored s t ctx im n te
                ∧ ((l.map fun e => e.1.handle).Nodup → (t.launchAt te.launch).record = Dsp.recordOf e.1.raw
                    ∧ (t.launchAt te.launch).nextTeam = e.1.next ∧ (t.launchAt te.launch).live = e.1.teams.length)
                ∧ ∀ r ∈ im.groups, ∃ g choice z, GroupRestored t n (Area.unpackGroup choice n g.partition s.gtime z r) g
                  ∧ let h (r : List Byte) := BitVec.ofNat 16 (Dsp.bytesAt r 0xC 2)
                    let slot := State.hypSlot (h r)
                    let named := ((l.flatMap Prod.snd).flatMap Area.Image.groups).filter fun r =>
                      h r != 0#16 && State.hypSlot (h r) == slot
                    HypRestored (s.hslot ctx slot) named.length r (h r) g)))
  ∧ ∀ u g, SMap.get? s.groups u = some g →
      let may := g.restoring = true ∧ g.horizon ≤ s.gtime ∧ (g.orphan ≠ none ∨ s.live (s.ctxOf u) g.hcur = true)
      (may → Happens (.groupRestoreResume u) s fun t => t.grpAt u = { g with restoring := false } ∧ SameMemory s t)
      ∧ (¬ may → exec (.groupRestoreResume u) s = .next s)

/-- R354 to R356: what taking a trap does. Outside handler mode the group enters it at TRAPVEC with the trap's values saved, or
its lanes end where TRAPVEC is 0; a lane of HMASK meets a double fault; another fragment waits until handler mode ends. -/
def Obligations.TrapEntry : Prop := ∀ (s : State) (cause tval : Nat) (pc : W64),
  let g := s.grp
  let f := s.cur.frag
  let vec := if s.ctx = 0 then s.trapvec0 else (s.descAt s.ctx).trapvec
  let t := s.takeTrap cause tval pc
  let inside := g.hmode = true ∧ s.active &&& g.hmask ≠ 0#32
  let keeps (u : State) : Prop := (∀ n l, u.grp.rv n l = g.rv n l) ∧ (∀ n, u.grp.rk n = g.rk n) ∧ (∀ n, u.grp.rp n = g.rp n)
    ∧ (∀ n l, u.grp.rm n l = g.rm n l) ∧ (∀ n, u.grp.rt n = g.rt n) ∧ u.grp.hcur = g.hcur ∧ u.grp.mcr = g.mcr
  let ended (u : State) : Prop := ∀ q ∈ g.fragQuads f, (∀ n < 8, ∀ e ∈ (g.rj n).entries, Bits.quadLanes e.lanes q = 0#4) →
    (u.grp.quad q).st = .exited
  let saved (u : State) : Prop := u.grp.cause = BitVec.ofNat 32 cause ∧ u.grp.tpc = pc ∧ u.grp.tval = BitVec.ofNat 64 tval
  let event (k : Nat) : Event := { kind := k, cause := cause, team := s.team.id, value := tval, pc := pc.toNat }
  (g.hmode = false → vec ≠ 0#64 → t.cur.status = .trapped ∧ saved t ∧ keeps t ∧ t.grp.hmode = true ∧ t.grp.hmask = s.active
    ∧ AllAt s t vec ∧ (t.grp.frag f).checkedFetch = true ∧ (∀ n, t.grp.rj n = g.rj n) ∧ SameMemory s t
    ∧ ∀ u, u ≠ s.cur.grp → t.grpAt u = s.grpAt u)
  ∧ (g.hmode = false → vec = 0#64 → t.cur.status = .trapped ∧ ∃ u, t = u.postEvent s.ctx (event 1) ∧ saved u ∧ keeps u
      ∧ ended u ∧ u.mem = s.mem)
  ∧ (inside → t.cur.status = .trapped ∧ ∃ u, t = u.postEvent s.ctx (event 2) ∧ u.grp.cause = 0x46#32 ∧ u.grp.tpc = g.tpc
      ∧ u.grp.tval = g.tval ∧ keeps u ∧ ended u ∧ u.mem = s.mem
      ∧ (g.hmask &&& ~~~s.active = 0#32 → u.grp.hmode = false) ∧ u.grp.hmask = g.hmask &&& ~~~s.active)
  ∧ (g.hmode = true → ¬ inside → t.cur.status = .held ∧ SameRegisters s t ∧ SameMemory s t
      ∧ (∀ q, t.grp.quad q = g.quad q) ∧ (t.grp.frag f).trapWaits = true)

/-- R334, R362: TRAP and TRET in every mode. -/
def Obligations.TrapInstructions : Prop := ∀ (o : Opds) (s : State),
  (let x := s.exec o.guard
   decode (0x00000000#32 ++ 0x00800000#32 ++ 0x050000C2#32) = some (.trap
     { guard := { neg := false, pred := 0#3 }, d := .none, a := .i8 5#8, b := .none, c := .none, imm := 0#32 })
   ∧ (Ready (.trap o) s →
     (x = 0#32 → Does (.trap o) s fun t => SameRegisters s t ∧ SameMemory s t)
     ∧ (x ≠ 0#32 →
        let g := s.grp
        let inside := g.hmode = true ∧ s.active &&& g.hmask ≠ 0#32
        let t := Issue.trap s (0xE0 + Forms.code o.a) x.toNat (Line.next s.cur.pc)
        exec (.trap o) s = .next t
        ∧ (g.hmode = false → t.grp.cause = BitVec.ofNat 32 (0xE0 + Forms.code o.a) ∧ t.grp.tpc = Line.next s.cur.pc
            ∧ t.grp.tval = Bits.zext64 x)
        ∧ (inside → t.cur.status = .trapped ∧ t.grp.cause = 0x46#32 ∧ t.grp.tpc = g.tpc ∧ t.grp.tval = g.tval)
        ∧ (g.hmode = true → ¬ inside → t.cur.status = .held ∧ SameRegisters s t ∧ SameMemory s t))))
  ∧ (let i : Instr := .tret o
     let g := s.grp
     let inside := g.hmode = true ∧ s.active &&& g.hmask ≠ 0#32
     let left := g.hmask &&& ~~~s.active
     (s.cur.on = true → i.wellFormed = true → s.ctx ≠ 0 → ¬ inside → Traps i s 0xC0 0)
     ∧ (Ready i s → Moves i s fun t => AllAt s t g.tpc ∧ SameMemory s t
        ∧ t.grp.cause = g.cause ∧ t.grp.tpc = g.tpc ∧ t.grp.tval = g.tval
        ∧ (∀ q ∈ g.fragQuads s.cur.frag, (t.grp.quad q).frag = s.cur.frag ∧ (t.grp.quad q).lanes = (g.quad q).lanes)
        ∧ (∀ q ∈ g.fragQuads s.cur.frag, (t.grp.frag s.cur.frag).checkedFetch = (g.frag s.cur.frag).checkedFetch)
        ∧ t.grp.hmask = left ∧ (inside → (t.grp.hmode = true ↔ left ≠ 0#32))))

/-- R23, R63, R65, R66, R69, R294, R306, R372: an issue whose checks fail traps on the first of them in the order of R65, before
anything of its own; which instructions a mode bars. An instruction that traps has issued: it counts towards the lifeline bound and is
its group's last issue, but where its trap has to wait for handler mode to end. It rests on the model's choices of log entries 12 and 63. -/
def Obligations.IssueChecks : Prop := ∀ (i : Instr) (s : State), i.isWord = true → s.cur.on = true →
  let kernel := s.ctx = 0
  let handler := s.grp.hmode = true ∧ s.active &&& s.grp.hmask ≠ 0#32
  let barred := (∃ o, i = .tret o ∧ ¬ kernel ∧ ¬ handler)
    ∨ (∃ o, (i = .tlbinvPage o ∨ i = .tlbinvCtx o ∨ i = .tlbinvAll o ∨ i = .ctxsave o ∨ i = .ctxload o) ∧ ¬ kernel)
    ∨ (∃ o, i = .wrsys o ∧ o.d.val = 1 ∧ ¬ kernel)
    ∨ (∃ o, i = .wrsys o ∧ (o.d.val = 2 ∨ o.d.val = 3 ∨ o.d.val = 4) ∧ ¬ kernel ∧ ¬ handler)
  let windowsOnly := (∃ o, i = .zalloc o) ∨ ∃ o, i = .zfree o
  let missing := ∃ r ∈ Issue.touched i, (r.1 = 1 ∧ s.grp.nv ≤ r.2) ∨ (r.1 = 2 ∧ s.grp.nk ≤ r.2) ∨ (r.1 = 4 ∧ s.grp.nm ≤ r.2)
    ∨ (r.1 = 5 ∧ ¬ windowsOnly ∧ SMap.get? s.team.windows r.2 = none)
  (i.wellFormed = false → Traps i s 0x40 0)
  ∧ (i.wellFormed = true → barred → Traps i s 0xC0 0)
  ∧ (i.wellFormed = true → ¬ barred → missing → Traps i s 0x47 0)
  ∧ (∀ v, i.wellFormed = true → ¬ barred → ¬ missing → Issue.spoiledReg i s = some v → Traps i s 0x26 v)
  ∧ (i.wellFormed = true → ¬ barred → ¬ missing → Issue.spoiledReg i s = none → Ready i s)
  ∧ ∀ (cause tval : Nat) (pc : W64), ∃ b : State, Issue.trap s cause tval pc = b.takeTrap cause tval pc
      ∧ (s.grp.hmode = true → s.active &&& s.grp.hmask = 0#32 → b = s)
      ∧ (s.grp.hmode = false ∨ s.active &&& s.grp.hmask ≠ 0#32 →
          let r := s.grp.frag s.cur.frag
          b = { s with groups := b.groups } ∧ (∀ u, u ≠ s.cur.grp → b.grpAt u = s.grpAt u)
          ∧ b.grp = { s.grp with frags := b.grp.frags, lastIssue := s.gtime, lastFrag := s.cur.frag }
          ∧ (∀ n, n ≠ s.cur.frag → b.grp.frag n = s.grp.frag n)
          ∧ b.grp.frag s.cur.frag = { r with count := min 65535 (r.count + 1), skip := false, trapWaits := false, asked := [] })

/-- R403 to R411: the checks of the three collectives in their order, the ticket that one takes and keeps while it is held for
R214, what CWAIT reads, R408's tree, and how a collective commits or fails. It rests on the model's choices of log entries 18, 24,
49 and 50. -/
def Obligations.Collectives : Prop := ∀ (o : Opds) (s : State),
  (∀ (i : Instr) (kind : CollKind),
    (∃ op, i = .cred op o ∧ kind = .cred op) ∨ (i = .cbcast o ∧ kind = .bcast) ∨ (i = .cgather o ∧ kind = .gather) →
    let b := At i s
    let u := s.cur.grp
    let priv := b.privAt u s.cur.frag
    let a := (s.grp.rk o.a.val).toNat
    let src := (s.grp.rk o.b.val).toNat
    let dst := (s.grp.rk (o.b.val + 1)).toNat
    let k := s.grp.rk o.c.val
    let count := Bits.field k 23 0
    let word (n : Nat) : W64 := BitVec.ofNat 64 ((SMap.get 0 s.ticketSeq (s.ctx * 64 + n) + 1) % 65536 * 65536 + n)
    let key (n : Nat) := s.ctx * 64 + n
    let held := (s.grp.frag s.cur.frag).ticket.bind fun n => (SMap.get? s.tickets (key n)).map fun t => (n, t)
    let keeps (t : State) : Prop := ∀ m, m ≠ o.d.val → t.grp.rk m = s.grp.rk m
    let apart (t : State) : Prop := SameMemory s t ∧ ∀ v, v ≠ u → t.grpAt v = s.grpAt v
    let comes (t : State) (x y : Ticket) (bs : List Byte) : Prop :=
      y = { x with turn := SMap.get 0 s.collCount x.commid, code := if s.inSync then none else some 1,
                   mine := Coll.words x.count bs, entered := true }
        ∧ SMap.get 0 t.collCount x.commid = SMap.get 0 s.collCount x.commid + 1
    Ready i s →
    (held = none → s.grp.hcur ≠ 0#16 → Traps i s 0x64 s.grp.hcur.toNat)
    ∧ (held = none → s.grp.hcur = 0#16 → a % 64 ≠ 0 → Traps i s 0x28 a)
    ∧ (held = none → s.grp.hcur = 0#16 → a % 64 = 0 → ∀ c, b.see u s.nextId priv 0#16 a 64 = .fault c → Traps i s c a)
    ∧ (held = none → s.grp.hcur = 0#16 → a % 64 = 0 → b.see u s.nextId priv 0#16 a 64 = .bad → Traps i s 0x26 a)
    ∧ (∀ q, held = none → s.grp.hcur = 0#16 → a % 64 = 0 → b.see u s.nextId priv 0#16 a 64 = .hold q → WaitsFor i s q)
    ∧ (∀ bs st, held = none → s.grp.hcur = 0#16 → a % 64 = 0 → b.see u s.nextId priv 0#16 a 64 = .data bs st →
      (Coll.parse bs = none → Traps i s 0x29 a)
      ∧ ∀ c, Coll.parse bs = some c →
        let len := 4 * count
        let dlen := if kind = .gather then len * c.ranks else len
        let denied (w : Want) (at' n : Nat) := (Bnk.pages at' n).findSome? fun va => match b.find u priv w va with
          | .fault c => some (c, va)
          | _ => none
        let unfit (w : Want) (at' n : Nat) := (Bnk.pages at' n).find? fun va => match b.find u priv w va with
          | .at' (.hbm _) (some l) => l.layout != 0
          | _ => true
        let clash := src < dst + dlen ∧ dst < src + len ∧ ¬ (if kind = .gather then src = dst + len * c.mine else src = dst)
        (c.mine < c.ranks ∧ c.ranks ≤ 2048)
        ∧ (Coll.shapeOk kind c k = false → Traps i s 0x29 k.toNat)
        ∧ (Coll.shapeOk kind c k = true →
          (src % 4 ≠ 0 → Traps i s 0x28 src)
          ∧ (src % 4 = 0 → dst % 4 ≠ 0 → Traps i s 0x28 dst)
          ∧ (src % 4 = 0 → dst % 4 = 0 →
            (∀ f, denied .load src len = some f → Traps i s f.1 f.2)
            ∧ (∀ f, denied .load src len = none → denied .store dst dlen = some f → Traps i s f.1 f.2)
            ∧ (denied .load src len = none → denied .store dst dlen = none →
              (∀ va, unfit .load src len = some va → Traps i s 0x25 va)
              ∧ (∀ va, unfit .load src len = none → unfit .store dst dlen = some va → Traps i s 0x25 va)
              ∧ (unfit .load src len = none → unfit .store dst dlen = none →
                (clash → TrapsFree i s 0x29)
                ∧ (¬ clash → Coll.freeTicket s s.ctx = none → Waits i s)
                ∧ ∀ n, ¬ clash → Coll.freeTicket s s.ctx = some n →
                  let now := Coll.takeTicket (Coll.newTicket b kind o c) n st b
                  let ready := now.releaseReady u .system s.nextId = true
                  let mine (x : Ticket) : Prop := x.kind = kind ∧ x.commid = c.commid ∧ x.ranks = c.ranks ∧ x.rank = c.mine
                    ∧ x.dst = dst ∧ x.count = count ∧ x.root = Bits.field k 47 32 ∧ x.grp = u ∧ x.src = src ∧ x.timeout = c.timeout
                    ∧ x.first ≤ s.gtime ∧ x.result = none ∧ x.kd = o.d.val ∧ x.was = s.grp.rk o.d.val ∧ x.priv = priv
                  (¬ ready ∨ now.seeAll u s.nextId priv 0#16 src len = .error (.hold none) →
                    ∃ t, exec i s = .next t ∧ t.cur.status = .held ∧ KIs t o.d.val (word n) ∧ keeps t ∧ apart t
                    ∧ (t.grp.frag s.cur.frag).ticket = some n ∧ (∀ q, t.grp.quad q = s.grp.quad q) ∧ t.collCount = s.collCount
                    ∧ ∃ x, SMap.get? t.tickets (key n) = some x ∧ mine x ∧ x.entered = false ∧ x.code = none)
                  ∧ ∀ r, ready → now.seeAll u s.nextId priv 0#16 src len = .ok r → Does i s fun t =>
                    KIs t o.d.val (word n) ∧ keeps t ∧ apart t
                    ∧ SameGroup { s.grp with k := t.grp.k, horizon := t.grp.horizon } t.grp ∧ s.grp.horizon ≤ t.grp.horizon
                    ∧ (∀ j, j ≠ key n → SMap.get? t.tickets j = SMap.get? s.tickets j)
                    ∧ ∃ x y, SMap.get? t.tickets (key n) = some y ∧ mine x ∧ comes t x y r.1)))))
    ∧ ∀ n x, held = some (n, x) →
      let ready := b.releaseReady u .system s.nextId = true
      let seen := b.seeAll u s.nextId x.priv 0#16 x.src (4 * x.count)
      (¬ ready ∨ seen = .error (.hold none) → WaitsHandingBack i s)
      ∧ (∀ va, ready → seen = .error (.hold (some va)) →
          let t := s.ask u s.nextId va
          exec i s = .next { t.handBack u with cur := { s.cur with ask := t.cur.ask, status := .held } })
      ∧ (∀ r, ready → seen = .ok r → Does i s fun t => t.grp.rk o.d.val = s.grp.rk o.d.val ∧ keeps t ∧ apart t
          ∧ (t.grp.frag s.cur.frag).ticket = none ∧ ∃ y, SMap.get? t.tickets (key n) = some y ∧ comes t x y r.1)
      ∧ (∀ c v, ready → seen = .error (.fault c v) →
          exec i s = .next (Issue.trap ((Coll.holdTicket none s).freeTicket (key n, x)) c v s.cur.pc)))
  ∧ (let i : Instr := .cwait o
     let x := Bits.lo (s.grp.rk o.a.val)
     let key := s.ctx * 64 + Bits.field x 5 0
     let held (t : Ticket) : Prop := SMap.get? s.tickets key = some t
       ∧ (SMap.get 0 s.ticketSeq key % 65536 * 65536 + Bits.field x 5 0) = x.toNat
     let rest (t : State) : Prop := SameMemory s t ∧ (∀ m, m ≠ o.d.val → t.grp.rk m = s.grp.rk m)
       ∧ ∀ v, v ≠ s.cur.grp → t.grpAt v = s.grpAt v
     Ready i s →
     ((∀ t, ¬ held t) → Does i s fun t => rest t ∧ KIs t o.d.val 3#64 ∧ t.tickets = s.tickets)
     ∧ ∀ y, held y →
       (y.code = none → Waits i s)
       ∧ (∀ c, y.code = some c → c ≠ 0 → Does i s fun t => rest t ∧ KIs t o.d.val (BitVec.ofNat 64 c)
           ∧ SMap.get? t.tickets key = none)
       ∧ (y.code = some 0 → s.gtime < y.doneAt + 16 → Waits i s)
       ∧ (y.code = some 0 → y.doneAt + 16 ≤ s.gtime → Does i s fun t => rest t ∧ KIs t o.d.val 0#64
           ∧ SMap.get? t.tickets key = none ∧ y.doneAt ≤ t.grp.horizon ∧ s.grp.horizon ≤ t.grp.horizon
           ∧ ∀ w ∈ (t.coreAt (s.l1Of s.cur.grp)).l1, w.2.owned = true))
  ∧ (∀ (op : CredOp) (x : Nat → W32) (lo : Nat), Coll.tree op x 12 lo 1 = x lo
      ∧ ∀ n j, 2 ^ j < n → n ≤ 2 ^ (j + 1) → n ≤ 2048 → Coll.tree op x 12 lo n
          = Coll.combine op (Coll.tree op x 12 lo (2 ^ j)) (Coll.tree op x 12 (lo + 2 ^ j) (n - 2 ^ j)))
  ∧ (∀ x y : W32, Coll.combine .addS x y = x + y
      ∧ Coll.combine .addF x y = BitVec.ofNat 32 (Sys2Proof.Float.add .f32 .rn x.toNat y.toNat)
      ∧ Coll.combine .maxF x y = BitVec.ofNat 32 (Sys2Proof.Float.minmax .f32 true x.toNat y.toNat)
      ∧ Coll.combine .minF x y = BitVec.ofNat 32 (Sys2Proof.Float.minmax .f32 false x.toNat y.toNat))
  ∧ ∀ (ctx n : Nat) (others : List (Nat × List W32)),
    let key := ctx * 64 + n
    let all (y : Ticket) : Prop := y.result.isSome = true
      ∨ s.inSync = true ∧ ∀ r ∈ Coll.needed y, (Coll.share y others r).isSome = true
    let undecided (y : Ticket) : Prop := 1 < y.ranks ∧ y.result = none
    let ended (y : Ticket) (c : Nat) (t : State) : Prop := ∃ z, SMap.get? t.tickets key = some z
      ∧ z = { y with code := some c, doneAt := z.doneAt }
    let fails (i : Instr) (c : Nat) (ok : Ticket → Prop) : Prop :=
      (Coll.pendingAt s ctx n = none → exec i s = .next s)
      ∧ ∀ y, Coll.pendingAt s ctx n = some y →
        (¬ ok y → exec i s = .next s) ∧ (ok y → Happens i s fun t => ended y c t ∧ SameMemory s t ∧ t.groups = s.groups)
    fails (.collectiveTimeout ctx n) 1 (fun y => undecided y ∧ y.first + y.timeout ≤ s.gtime)
    ∧ fails (.collectiveMismatch ctx n) 2 undecided
    ∧ (∀ r, fails (.collectiveMemberFailure ctx n r) 1 (fun y => undecided y ∧ r < y.ranks ∧ r ≠ y.rank))
    ∧ (Coll.pendingAt s ctx n = none → exec (.collectiveCommit ctx n others) s = .next s)
    ∧ ∀ y, Coll.pendingAt s ctx n = some y →
      let got (r : Nat) : List W32 := (Coll.share y others r).getD []
      let words : List W32 := y.result.getD <| match y.kind with
        | .cred op => (List.range y.count).map fun i => Coll.tree op (fun r => (got r).getD i 0#32) 12 0 y.ranks
        | .bcast => got y.root
        | .gather => (List.range y.ranks).flatMap got
      (¬ all y → exec (.collectiveCommit ctx n others) s = .next s)
      ∧ (Coll.deliver s ctx y words = none → exec (.collectiveCommit ctx n others) s = .next s)
      ∧ (∀ x, all y → Coll.deliver s ctx y words = some x → Happens (.collectiveCommit ctx n others) s fun t => ended y 0 t
          ∧ t.mem = x.1.mem
          ∧ ∀ i q lf, words = [i] → y.dst % 4 = 0 → s.findAs ctx (y.priv || ctx == 0) .store y.dst = .at' (.hbm q) lf →
              t.readMem q 4 = i.toNat)

/-- R35 to R43, R297 to R302, R339, R365: the dispatcher reads the record of the first entry in R300's order, refuses it with
a code or starts it; it places a team on a core with room for it, ages a launch that has waited, and completes one whose
teams have exited. It rests on the model's choices of log entries 24, 39, 40, 41 and 83. -/
def Obligations.Dispatcher : Prop := ∀ s : State,
  let word (r t : State) (ctx : Nat) (priv : Bool) (va : Nat) (nook : Option Nook) (under : Bool) (code : Nat) : Prop :=
    match nook with
    | none => ∀ x lf, r.findAs ctx priv .store va = .at' (.hbm x) lf → t.readMem x 4 = (if under then 256 else 0) + code
    | some k => ∀ tm, r.nookTeam k = some tm → t.readLoc tm k.off 4 = (if under then 256 else 0) + code
  let may (x : QEntry) : Prop := x.st = .ready ∧ (x.ctx = 0 ∨ (s.descAt x.ctx).valid = true) ∧ x.ctx ∉ s.heldCtx
  let teams (l : Launch) := l.gx * l.gy * l.gz
  (∀ q p, q < 16 → p < 64 →
    let pos := q * 64 + p
    let i : Instr := .dispatcherRecordRead q p
    (SMap.get? s.queues pos = none → exec i s = .next s)
    ∧ ∀ e, SMap.get? s.queues pos = some e →
      let first := may e ∧ ∀ y ∈ s.queues, may y.2 →
        q / 4 < y.1 / 256 ∨ q / 4 = y.1 / 256 ∧ (e.since < y.2.since ∨ e.since = y.2.since ∧ pos ≤ y.1)
      let r := Dsp.recallAs s e.ctx e.priv e.record 256
      let refused (code : Nat) : Prop := Happens i s fun t => SMap.get? t.queues pos = none
        ∧ word r t e.ctx e.priv e.status e.statusAt e.under code ∧ t.launches = s.launches ∧ t.teams = s.teams
        ∧ ∀ j, j ≠ pos → SMap.get? t.queues j = SMap.get? s.queues j
      (¬ first → exec i s = .next s)
      ∧ (first → Dsp.rawRecord r e = none → refused 0x8C)
      ∧ ∀ raw, first → Dsp.rawRecord r e = some raw →
        (Dsp.bytesAt raw 0 2 ≠ 1 → refused 0x80)
        ∧ (∀ c, Dsp.refusal s raw (e.gx * e.gy * e.gz) = some c → refused c)
        ∧ (Dsp.refusal s raw (e.gx * e.gy * e.gz) = none → Happens i s fun t =>
            SMap.get? t.queues pos = some { e with st := .running } ∧ word r t e.ctx e.priv e.status e.statusAt e.under 2 ∧ t.teams = s.teams
            ∧ ∃ l, SMap.get? t.launches s.nextId = some l ∧ l.ctx = e.ctx ∧ l.pos = pos ∧ l.recaddr = BitVec.ofNat 64 e.record
              ∧ l.status = e.status ∧ l.statusAt = e.statusAt ∧ l.priv = e.priv ∧ l.gx = e.gx ∧ l.gy = e.gy ∧ l.gz = e.gz ∧ l.nextTeam = 0 ∧ l.live = 0
              ∧ l.waitSince = s.gtime ∧ l.record = Dsp.recordOf raw ∧ ∀ x ∈ s.launches, x.2.order < l.order))
  ∧ (∀ u l, SMap.get? s.launches u = some l →
      let turn := Dsp.turnOf s u l = true
      let open' := l.nextTeam < teams l ∧ l.ctx ∉ s.heldCtx
      (∀ cores, ¬ open' ∨ ¬ turn → exec (.teamPlace u cores) s = .next s)
      ∧ (∀ cores, Dsp.place s u cores = none → exec (.teamPlace u cores) s = .next s)
      ∧ (l.record.cluster = false → l.record.gridbar = false → open' → turn → ∀ c,
          let room := Dsp.fits s u c = true
          (¬ room → exec (.teamPlace u [c]) s = .next s)
          ∧ (room → Happens (.teamPlace u [c]) s fun t => t.queues = s.queues
            ∧ (∀ p, Memory.byte t.mem p = Memory.byte s.mem p)
            ∧ (∀ tm off, tm ≠ s.nextId → t.locByte tm off = s.locByte tm off)
            ∧ SMap.get? t.launches u = some
                { l with nextTeam := l.nextTeam + 1, live := l.live + 1, waitSince := s.gtime, aged := false }
            ∧ (∃ te, SMap.get? t.teams s.nextId = some te ∧ te.launch = u ∧ te.id = l.nextTeam ∧ te.core = c ∧ te.lmem = []
                ∧ te.barriers = [] ∧ te.queues = [] ∧ te.preempt = false ∧ te.windows.map Prod.fst = l.record.windows
                ∧ (∀ w ∈ te.windows, w.2.mean = [] ∧ w.2.var = [] ∧ w.2.mom = l.record.zmom.getLsbD w.1)
                ∧ l.record.localsz ≤ te.localsz ∧ te.localsz < l.record.localsz + 1024 ∧ te.localsz % 1024 = 0)
            ∧ (∀ v, (∀ j, v ≠ s.nextId + 1 + j) → t.grpAt v = s.grpAt v)
            ∧ ∀ n x m, n < 3 → l.record.roles[n]? = some x → 32 * m < x.lanes → ∃ j g,
                SMap.get? t.groups (s.nextId + 1 + j) = some g ∧ g.team = s.nextId ∧ g.gid = j ∧ g.role = n
                ∧ x.vregs ≤ g.nv ∧ g.nv < x.vregs + 8 ∧ g.nv % 8 = 0 ∧ g.hcur = 0#16 ∧ g.horizon = 0
                ∧ (∀ y z, g.rv y z = 0#32) ∧ (∀ y, y ≠ 1 → y ≠ 2 → g.rk y = 0#64)
                ∧ (x.kregs ≠ 0 → g.rk 1 = l.recaddr ∧ g.rk 2 = l.record.args)
                ∧ (∀ q < 8, (g.quad q).pc = x.entry ∧ (g.quad q).frag = 0)
                ∧ ∀ z < 32, (Bits.has g.helpers z = true ↔ x.lanes ≤ 32 * m + z ∧ Bits.has g.present z = true)
                  ∧ (32 * m + z < x.lanes → Bits.has g.present z = true)))
      ∧ (∀ cores t, Dsp.place s u cores = some t → exec (.teamPlace u cores) s = .next t
          ∧ (l.record.gridbar = true → (t.launchAt u).nextTeam = teams l)
          ∧ (l.record.gridbar = false → l.record.cluster = true → cores.length = l.record.clteams ∧ cores.Nodup
              ∧ (∀ c ∈ cores, c / 4 = cores.headD 0 / 4) ∧ (t.launchAt u).nextTeam = l.nextTeam + l.record.clteams
              ∧ ∀ c ∈ cores, ∀ e ∈ s.teams, e.2.core / 4 = c / 4 → e.2.launch ≠ u))
      ∧ (let due := l.nextTeam < teams l ∧ l.waitSince + 65536 ≤ s.gtime
         (¬ due → exec (.placementAgeLimit u) s = .next s)
         ∧ (due → exec (.placementAgeLimit u) s = .next { s with launches := SMap.put s.launches u { l with aged := true } }))
      ∧ (let spent := l.live = 0 ∧ l.saved = [] ∧ l.missing = [] ∧ teams l ≤ l.nextTeam ∧ l.horizon ≤ s.gtime
         let under := ((SMap.get? s.queues l.pos).map QEntry.under).getD false
         (¬ spent → exec (.launchComplete u) s = .next s)
         ∧ (spent → Happens (.launchComplete u) s fun t => SMap.get? t.launches u = none ∧ SMap.get? t.queues l.pos = none
             ∧ word s t l.ctx l.priv l.status l.statusAt under 3 ∧ t.teams = s.teams)))
  ∧ ∀ u, SMap.get? s.launches u = none → (∀ cores, exec (.teamPlace u cores) s = .next s)
      ∧ exec (.placementAgeLimit u) s = .next s ∧ exec (.launchComplete u) s = .next s

/-- R394 to R399: the launch rings of the host's functions, the entry that the module consumes, and the accesses of BAR2. It
rests on the model's choices of log entries 24, 47 and 83. -/
def Obligations.HostInterface : Prop := ∀ (s : State) (fn : Nat),
  let r := SMap.get ({} : Ring) s.rings fn
  let ctx := if fn = 0 then 0 else Config.contextOf fn % 256
  let isFn := fn < 65
  let rests (i : Instr) : Prop := exec i s = .next s
  let ringIs (t : State) (x : Ring) : Prop := t = { s with rings := SMap.put s.rings fn x }
  let early := s.gtime < SMap.get 0 s.hostAt fn
  (∀ prod : W32, (¬ isFn ∨ early → rests (.hostRingDoorbell fn prod))
    ∧ (isFn → ¬ early → Happens (.hostRingDoorbell fn prod) s fun t => ringIs t { r with
        prod := prod, stopped := r.stopped || decide (2 ^ (r.size + 4) < (prod - r.cons).toNat) }))
  ∧ (∀ base : W64, (¬ isFn ∨ early → rests (.hostRingBaseWrite fn base))
    ∧ (isFn → ¬ early → Happens (.hostRingBaseWrite fn base) s fun t => ringIs t
        { base := base.toNat, log := r.log, size := r.log, prod := 0#32, cons := 0#32, stopped := false }))
  ∧ (∀ log : BitVec 4, (¬ isFn ∨ early ∨ 12 ≤ log.toNat → rests (.hostRingLogWrite fn log))
    ∧ (isFn → ¬ early → log.toNat < 12 → Happens (.hostRingLogWrite fn log) s fun t => ringIs t { r with log := log.toNat }))
  ∧ (let i : Instr := .ringEntryConsume fn
     let waiting (f : Nat) : Prop := f < 65 ∧ (SMap.get ({} : Ring) s.rings f).base ≠ 0
       ∧ (SMap.get ({} : Ring) s.rings f).stopped = false
       ∧ (SMap.get ({} : Ring) s.rings f).cons ≠ (SMap.get ({} : Ring) s.rings f).prod
     let ahead (f g : Nat) : Prop := (s.ringLast < f ∧ g ≤ s.ringLast) ∨ ((s.ringLast < f ↔ s.ringLast < g) ∧ f ≤ g)
     let mine := waiting fn ∧ ∀ g, waiting g → ahead fn g
     let va := r.base + 64 * (r.cons.toNat % 2 ^ (r.size + 4))
     let h := Dsp.recallFor s ctx va 64
     let took (t : State) : Prop := SMap.get? t.rings fn = some { r with cons := r.cons + 1 } ∧ t.ringLast = fn
     let seen := ¬ early ∧ Hst.stampAt h ctx va 64 + 16 ≤ s.gtime
     (s.running = false ∨ ¬ mine ∨ Ctl.freePos s 0 = none → rests i)
     ∧ (∀ pos, s.running = true → mine → Ctl.freePos s 0 = some pos → Dsp.readFor h ctx va 64 = none →
         exec i s = .next { h with ringLast := fn })
     ∧ (∀ pos e, s.running = true → mine → Ctl.freePos s 0 = some pos → Dsp.readFor h ctx va 64 = some e → ¬ seen → rests i)
     ∧ ∀ pos e, s.running = true → mine → Ctl.freePos s 0 = some pos → Dsp.readFor h ctx va 64 = some e → seen →
        let st := Dsp.bytesAt e 8 8
        let gx := Dsp.bytesAt e 0x10 4
        let gy := Dsp.bytesAt e 0x14 4
        let gz := Dsp.bytesAt e 0x18 4
        let count := Dsp.bytesAt e 0x1C 2
        let bad := st % 8 ≠ 0 ∨ ∃ c, h.findFor ctx .store st = .fault c
        let clean := Dsp.zeroAt e 0x1E 34 = true
        let sized := gx ≠ 0 ∧ gy ≠ 0 ∧ gz ≠ 0 ∧ gx * gy * gz < 2 ^ 32
        let refused (code : Nat) : Prop := Happens i s fun t => took t ∧ t.queues = s.queues ∧ ∀ x lf,
          h.findFor ctx .store st = .at' (.hbm x) lf → t.readMem x 4 = code
        (bad → Happens i s fun t => took t ∧ t.queues = s.queues
            ∧ t.mem = (h.postEvent ctx { kind := 8, value := st }).mem
            ∧ t.heldEvents = (h.postEvent ctx { kind := 8, value := st }).heldEvents)
        ∧ (¬ bad → ¬ clean → refused 0x81)
        ∧ (¬ bad → clean → ¬ sized → refused 0x8D)
        ∧ (¬ bad → clean → sized → Happens i s fun t => took t
            ∧ (∃ x, SMap.get? t.queues pos = some x ∧ x.ctx = ctx ∧ x.record = Dsp.bytesAt e 0 8 ∧ x.status = st ∧ x.gx = gx
                ∧ x.gy = gy ∧ x.gz = gz ∧ x.count = count ∧ x.under = false ∧ (x.priv = true ↔ ctx = 0)
                ∧ x.st = (if count = 0 then .ready else .waiting))
            ∧ ∀ x lf lf', h.findFor ctx .store st = .at' (.hbm x) lf →
                (h.writeStatus ctx (ctx == 0) st false (if count = 0 then 1 else 0)).findFor ctx .store (st + 4) = .at' (.hbm (x + 4)) lf' →
                t.readMem x 4 = (if count = 0 then 1 else 0)
                ∧ t.readMem (x + 4) 4 = (SMap.get 0 s.queueSeq pos + 1) % 65536 * 65536 + pos % 64 * 16 + pos / 64))
  ∧ (∀ off (bytes : List Byte),
      let i : Instr := .hostBar2Write fn off bytes
      (¬ isFn ∨ early → rests i)
      ∧ (isFn → ¬ early → Hst.reach s ctx .store off bytes.length = none → exec i s = .next { s with bar2Answer := none })
      ∧ ∀ ps, isFn → ¬ early → Hst.reach s ctx .store off bytes.length = some ps →
        ((∃ p ∈ ps, p.2.2.2 = true) → rests i)
        ∧ ((∀ p ∈ ps, p.2.2.2 = false) → Happens i s fun t => t.bar2Answer = some [] ∧ t.gtime = s.gtime
            ∧ (∀ q, ps = [(off, bytes.length, q, false)] → t.readBytes q bytes.length = bytes
              ∧ SMap.get 0 t.hostAt fn = max s.gtime (s.frontierOf (lineOf q))
              ∧ (SMap.get? s.owners (lineOf q) = none → ∀ p, p < q ∨ q + bytes.length ≤ p →
                  Memory.byte t.mem p = Memory.byte s.mem p))))
  ∧ (∀ off len,
      let i : Instr := .hostBar2Read fn off len
      (¬ isFn → rests i)
      ∧ (isFn → Hst.reach s ctx .load off len = none → exec i s = .next { s with bar2Answer := none })
      ∧ (isFn → ∀ q lk, Hst.reach s ctx .load off len = some [(off, len, q, lk)] →
          let e := s.endOwnership (lineOf q)
          Happens i s fun t => t.mem = e.mem ∧ ∃ bs, t.bar2Answer = some bs ∧ bs.length = len
            ∧ (e.badAt q len = false → bs = e.readBytes q len)))
  ∧ ∀ width,
      let may := width < s.hostLink ∧ (width = 1 ∨ width = 2 ∨ width = 4 ∨ width = 8)
      (¬ may → rests (.hostLinkTrainDown width))
      ∧ (may → exec (.hostLinkTrainDown width) s = .next { s with hostLink := width })

/-- R209, R210, R220, R227, R347 to R349, R352, R400 to R402: an access that arrives from a peer is answered with value, stamp
and lease, refused with its cause, waits for a migration lock, or pauses its flow; what stays unanswered fails; the counts
of forwarded accesses and the held events go to memory; the ports and the synchronisation of gtime change as the fabric
reports. It rests on the model's choices of log entries 45, 46, 49 and 67. -/
def Obligations.PeersAndFabric : Prop := ∀ s : State,
  (∀ port vc ctx (va : W64) (kind : AccKind) (bytes : List Byte),
    let i : Instr := .peerAccessArrival port vc ctx va kind bytes
    let key := port * 8 + vc
    let n := bytes.length
    let legal := port < 18 ∧ vc = 0 ∧ ctx < 256 ∧ bytes ≠ [] ∧ va.toNat % 128 + n ≤ 128
      ∧ (SMap.get ({} : Port) s.ports port).up = true
    let alone := SMap.get? s.flows key = none
    let told (t : State) (x : Reply) : Prop := t.peerAnswers = s.peerAnswers ++ [(port, 1, x)]
      ∧ SMap.get? t.flows key = none
    let pauses : Prop := Happens i s fun t => t.peerAnswers = s.peerAnswers ∧ ∃ f, SMap.get? t.flows key = some f
      ∧ f.since = s.gtime ∧ f.held = [(ctx, va, kind, bytes)] ∧ f.locked = false ∧ ((SMap.get [] s.heldEvents 0).length < 16 → f.posted = true)
    let writes := kind = .write ∨ ∃ op, kind = .atomic op
    (¬ legal → exec i s = .next s)
    ∧ (∀ f, legal → SMap.get? s.flows key = some f → exec i s = .next
        { s with flows := SMap.put s.flows key { f with held := f.held ++ [(ctx, va, kind, bytes)] } })
    ∧ (∀ c, legal → alone → Paging.walkBare s ctx va.toNat = .fault c → c ≠ 0x26 → pauses)
    ∧ (legal → alone → Paging.walkBare s ctx va.toNat = .fault 0x26 → Happens i s fun t => told t { cause := some 0x26 } ∧ SameMemory s t)
    ∧ ∀ l w, legal → alone → Paging.walkBare s ctx va.toNat = .leaf l w →
      let denied := l.deny (ctx == 0) (Peer.wantOf kind)
      let p := l.frame + (va.toNat - l.base)
      let e := s.endOwnership (lineOf p)
      let at' := max s.gtime (s.frontierOf (lineOf p))
      let expiry := s.gtime + s.rlease ctx
      (l.type ≠ 1 → pauses)
      ∧ (∀ c, l.type = 1 → denied = some c → Happens i s fun t => told t { cause := some c } ∧ SameMemory s t)
      ∧ (let f : Flow := { since := s.gtime, held := [(ctx, va, kind, bytes)], posted := false, locked := true }
         l.type = 1 → denied = none → l.mlock = true → writes → exec i s = .next { s with flows := SMap.put s.flows key f })
      ∧ (l.type = 1 → denied = none → kind = .read ∨ kind = .fetch → Happens i s fun t => t.mem = e.mem
          ∧ (e.badAt p n = true → told t { cause := some 0x26 })
          ∧ (e.badAt p n = false → told t { value := e.readMem p n, stamp := e.stampOver p n, expiry := expiry }
              ∧ expiry ≤ t.frontierOf (lineOf p)))
      ∧ (l.type = 1 → denied = none → l.mlock = false → kind = .write → Happens i s fun t => t.readBytes p n = bytes
          ∧ told t { stamp := at', expiry := at' + s.rlease ctx } ∧ at' + s.rlease ctx ≤ t.frontierOf (lineOf p))
      ∧ ∀ op, l.type = 1 → denied = none → l.mlock = false → kind = .atomic op →
        let m := if op = .cas then n / 2 else n
        let new := State.atomNew op (8 * m) (e.readMem p m) (Bits.ofBytes (bytes.take m)) (Bits.ofBytes (bytes.drop m))
        (e.badAt p m = true → Happens i s fun t => told t { cause := some 0x26 } ∧ t.mem = e.mem)
        ∧ (e.badAt p m = false → Happens i s fun t =>
            told t { value := e.readMem p m, stamp := if new.isSome then at' else e.stampOver p m }
            ∧ (new = none → t.mem = e.mem) ∧ ∀ v, new = some v → t.readMem p m = v % 2 ^ (8 * m)))
  ∧ (∀ port vc,
      let i : Instr := .peerFlowTimeout port vc
      let key := port * 8 + vc
      (SMap.get? s.flows key = none → exec i s = .next s)
      ∧ ∀ f, SMap.get? s.flows key = some f →
        let due := vc < 8 ∧ f.locked = false ∧ f.since + 16777216 ≤ s.gtime
        (¬ due → exec i s = .next s)
        ∧ (due → Happens i s fun t => SMap.get? t.flows key = none
            ∧ t.peerAnswers = s.peerAnswers ++ List.replicate f.held.length (port, 1, { cause := some 0x27 })
            ∧ (f.held = [] → SameMemory s t)
            ∧ ∀ k r, f.held = k :: r → t.mem = (s.postTo 0 k.1 { kind := 6, value := k.2.1.toNat }).mem))
  ∧ (∀ u id lane op,
      let i : Instr := .peerAccessTimeout u id lane
      (∀ a, s.lane? u id lane = some (op, a) →
        let due := (∃ x y z, a.loc = .peer x y z) ∧ a.st = .waiting
          ∧ ((∃ t, a.sent = some t ∧ t + 16777216 ≤ s.gtime) ∨ s.inSync = false)
        (¬ due → exec i s = .next s)
        ∧ (due → Happens i s fun t => SameMemory s t ∧ (op.ended = false → ∃ e x, t.lane? u id lane = some (e, x)
            ∧ x.st = .performed ∧ x.fault = some 0x27 ∧ x.va = a.va)))
      ∧ ∀ j, s.lane? u id lane = none → (s.grpAt u).op? id = some op → op.kind = .copy j →
        let off := Peer.unread j
        (op.done = true ∨ Cpy.limitOf op j ≤ off → exec i s = .next s)
        ∧ ∀ a len at', op.done = false → off < Cpy.limitOf op j → Cpy.srcAt j.src 0 off = some (a, len, at') →
          let sa := max a ((a + (off - at')) / 8 * 8)
          let found := s.find u j.priv .load sa
          ((∀ x y z lf, found ≠ .at' (.peer x y z) lf) → exec i s = .next s)
          ∧ ∀ x y z lf, found = .at' (.peer x y z) lf →
            let late := (∃ t, SMap.get? op.asked sa = some t ∧ t + 16777216 ≤ s.gtime)
              ∨ s.inSync = false ∧ s.engineWaits u op.id sa (.peer x y z) 8 = false
            (¬ late → exec i s = .next s)
            ∧ (late → Happens i s fun t => SameMemory s t ∧ ∃ e j', (t.grpAt u).op? id = some e
                ∧ e.kind = .copy j' ∧ j'.stop = some (off, 0x27, sa)))
  ∧ (∀ cl n,
      let i : Instr := .acountFlush cl n
      ((s.clusterAt cl).tlb[n]? = none → exec i s = .next s)
      ∧ ∀ e, (s.clusterAt cl).tlb[n]? = some e →
        let b := s.endOwnership (lineOf e.at')
        let w : W64 := BitVec.ofNat 64 (b.readMem (e.at' + 8) 8)
        let old := Bits.field w 47 32
        let new := min 0xFFFF (old + e.count)
        let thr := (s.descAt e.ctx).migthr
        let hit := thr ≠ 0 ∧ old < thr ∧ thr ≤ new
        let v := if hit then Bits.setField (Bits.setField w 47 32 new) 5 5 1 else Bits.setField w 47 32 new
        let r := b.moduleUpdate (e.at' + 8) (Bits.bytesOf 8 v.toNat)
        (e.count = 0 → exec i s = .next s)
        ∧ (e.count ≠ 0 → Happens i s fun t => r.readMem (e.at' + 8) 8 = v.toNat
            ∧ t.mem = (if hit then r.postTo 0 e.ctx { kind := 4, value := e.base } else r).mem
            ∧ (t.clusterAt cl).tlb[n]? = some { e with count := 0 }))
  ∧ (∀ ctx,
      let i : Instr := .eventPostRetry ctx
      let held := SMap.get [] s.heldEvents ctx
      ((s.descAt ctx).valid = false → exec i s = .next s)
      ∧ ((s.descAt ctx).valid = true → ctx ≠ 0 ∨ s.flows = [] → Happens i s fun t => ∃ n,
          let left := held.drop n
          (SMap.get [] t.heldEvents ctx = left ∨ 16 < left.length ∧ SMap.get [] t.heldEvents ctx = left.take 16)
          ∧ ∀ e r, left = e :: r → t.writeEvent ctx e = none))
  ∧ (∀ port,
      let p := SMap.get ({} : Port) s.ports port
      let up := port < 18 ∧ p.up = true
      let turns (i : Instr) (may : Prop) (q : Port) : Prop := (¬ may → exec i s = .next s)
        ∧ (may → exec i s = .next { s with ports := SMap.put s.ports port q })
      turns (.uluberFlitRetry port) up { p with retries := p.retries + 1 }
      ∧ (∀ lane, turns (.uluberLaneSpare port lane) (lane < 8 ∧ up ∧ p.spared = false) { p with spared := true })
      ∧ turns (.uluberPortHalve port) (up ∧ p.spared = true ∧ p.lanes = 8) { p with lanes := 4 }
      ∧ turns (.uluberPortDown port) up { p with up := false })
  ∧ (Happens .gtimeOutOfSync s fun t => t.inSync = false ∧ t.gtime = s.gtime ∧ SameMemory s t ∧ ∀ k,
      SMap.get? t.tickets k = (SMap.get? s.tickets k).map fun x =>
        if x.code = none ∧ x.result = none then { x with code := some 1 } else x)
  ∧ exec .gtimeBackInSync s = .next { s with inSync := true }

/-- R371, R374 to R392, R417: the scrubber, the replacement of rows, the failure and the retirement of channels,
reconstruction from a stripe, refreshes, and the loss of clusters and slices, each with its record in the error history.
It rests on the model's choices of log entries 51, 52, 53 and 70. -/
def Obligations.UpkeepAndFailures : Prop := ∀ s : State,
  let ch (c : Nat) : Channel := SMap.get {} s.channels c
  let serving (c : Nat) := c < 384 ∧ (ch c).retired = false
  let put (c : Nat) (x : Channel) := SMap.put s.channels c x
  let plus (kind unit at' value : Nat) : List ErrRec := (if s.errors.length < 65536 then s.errors else s.errors.drop 1)
    ++ [{ kind := kind, unit := unit, at' := at', resets := s.resets, time := s.gtime, value := value }]
  let site (c : Nat) := c / 96 * 2 ^ 14 + c % 512
  let rests (i : Instr) : Prop := exec i s = .next s
  let ails := s.badSectors ≠ [] ∨ ∃ e ∈ s.channels, e.2.failed = true
  let late (c b : Nat) := Config.refreshLimit ≤ SMap.get 0 s.postponed (c * 1024 + b)
  let stripeLate (c b : Nat) : Prop := ∃ d, d / 16 = c / 16 ∧ late d b
  let inRow (c row y : Nat) : Prop := y / 4 / 2 ^ 25 = c ∧ y / 4 % 2 ^ 25 / Config.rowLines = row
  let movedIn (c row : Nat) : Prop := ∃ e ∈ s.places, e.2.chan = c ∧ Config.channelLines ≤ e.2.off ∧ e.2.off / Config.rowLines = row
  (∀ c row seen,
    let i : Instr := .scrubRead c row seen
    let x := ch c
    let there := inRow c row
    let known := ∃ y ∈ s.badSectors, there y
    let bank := row % Config.banks
    let waits := late c bank ∨ (known ∧ stripeLate c bank)
    let may := serving c ∧ s.scrubctl.getLsbD 0 = true ∧ row ∉ x.scrubbed ∧ (row < Config.dataRows ∨ movedIn c row) ∧ ¬ waits
    (¬ may → rests i)
    ∧ (may → ¬ known → seen = .clean → exec i s = .next { s with channels := put c { x with scrubbed := row :: x.scrubbed } })
    ∧ (may → ¬ known → seen = .correctable → Happens i s fun t => ∃ n, 0 < n ∧
        let all := SMap.get 0 s.corrected (6 * 65536 + site c) + n
        t = { s with channels := t.channels, corrected := SMap.put s.corrected (6 * 65536 + site c) all
                     errors := plus 1 6 (site c) all, choice := s.choice + 1 }
        ∧ ∀ d, SMap.get {} t.channels d = if d = c then
            { x with scrubbed := row :: x.scrubbed, errors := SMap.put x.errors row (SMap.get 0 x.errors row + n) } else ch d)
    ∧ (may → known ∨ seen = .uncorrectable → Happens i s fun t => SameMemory s t ∧ t.badUnits = s.badUnits
        ∧ (SMap.get {} t.channels c).scrubbed = row :: x.scrubbed
        ∧ (∃ l v, t.errors = l ++ [{ kind := 2, unit := 6, at' := site c, resets := s.resets, time := s.gtime, value := v }])
        ∧ ∃ z, (known → z = s.badSectors)
          ∧ (¬ known → ∃ y, (row < Config.dataRows → there y) ∧ z = y :: s.badSectors)
          ∧ (∀ y ∈ t.badSectors, y ∈ z) ∧ (∀ y ∈ z, ¬ there y → y ∈ t.badSectors)
          ∧ (stripeLate c bank → t.badSectors = z)
          ∧ (¬ stripeLate c bank → (∀ e ∈ s.places, Up.place s e.1 = e.2) → ∀ y ∈ z, there y →
              (y ∈ t.badSectors ↔ Up.lostSpot { s with badSectors := z } c (y / 4 % 2 ^ 25) = true))))
  ∧ (let spent := ∀ c, serving c → Config.dataRows ≤ ((ch c).scrubbed.filter fun r => decide (r < Config.dataRows)).length
       ∧ ∀ row, movedIn c row → row ∈ (ch c).scrubbed
     (¬ spent → rests .scrubPassEnd)
     ∧ (spent → Happens .scrubPassEnd s fun t => t.passStart = s.gtime ∧ t.errors = plus 8 6 0 0 ∧ SameMemory s t
         ∧ ∀ c, SMap.get {} t.channels c = { ch c with scrubbed := [], errors := [], banks := [] }))
  ∧ (∀ c row,
      let x := ch c
      let there := inRow c row
      let bank := row % Config.banks
      let waits := late c bank ∨ ((∃ y ∈ s.badSectors, there y) ∧ stripeLate c bank)
      let may := serving c ∧ 2 ≤ SMap.get 0 x.errors row ∧ x.rows.length < Config.reserveRows ∧ ¬ waits
      (¬ may ∨ Up.freeRow s c row = none → rests (.rowReplace c row))
      ∧ ∀ r, may → Up.freeRow s c row = some r →
        let rows := SMap.put (match SMap.get? x.rows row with | some old => SMap.put x.rows old old | none => x.rows) row r
        let y := { x with rows := rows, errors := SMap.erase x.errors row }
        let worn := Config.reserveRows ≤ 4 * rows.length
        (Config.dataRows ≤ r ∧ r < Config.dataRows + Config.reserveRows ∧ r % Config.banks = row % Config.banks
          ∧ (∀ e ∈ x.rows, e.2 ≠ r) ∧ ¬ movedIn c r)
        ∧ ((∀ z ∈ s.badSectors, ¬ there z) → ¬ worn ∨ x.failed = true → exec (.rowReplace c row) s = .next { s with
            channels := put c y, errors := plus 3 6 (site c) row })
        ∧ Happens (.rowReplace c row) s fun t => SameMemory s t ∧ (SMap.get {} t.channels c).rows = rows
            ∧ SMap.get 0 (SMap.get {} t.channels c).errors row = 0
            ∧ (∀ z ∈ t.badSectors, z ∈ s.badSectors) ∧ (∀ z ∈ s.badSectors, ¬ there z → z ∈ t.badSectors)
            ∧ ((∀ e ∈ s.places, Up.place s e.1 = e.2) → ∀ z ∈ s.badSectors, there z →
                (z ∈ t.badSectors ↔ Up.lostSpot s c (z / 4 % 2 ^ 25) = true))
            ∧ (worn → (SMap.get {} t.channels c).failed = true))
  ∧ (∀ c,
      let x := ch c
      let may := serving c ∧ x.failed = false
      (¬ may → rests (.channelFail c))
      ∧ (may → exec (.channelFail c) s = .next { s with
          channels := put c { x with failed := true }, errors := plus 4 6 (site c) 0 }))
  ∧ (∀ line, Up.rebuilt s line = Up.dramLine s line)
  ∧ (∀ line r, s.turns = .dramRead line :: r →
      let b : State := Iss.settle { s with turns := r }
      ∃ t, step s = .next t ∧ t.mem = b.mem
        ∧ (∀ u, u / 16 ≠ line → (u ∈ t.badUnits ↔ u ∈ b.badUnits))
        ∧ (SMap.get? b.dramAt line ≠ none ∨ Up.refreshWaits b line = true → t.badUnits = b.badUnits ∧ t.channels = b.channels)
        ∧ (SMap.get? b.dramAt line = none → Up.refreshWaits b line = false → Up.holds t line = true
            ∧ (∀ u, u / 16 = line → (u ∈ t.badUnits ↔ Up.lostLine b line = true ∨ u ∈ b.dramBad))
            ∧ (let p := Up.place b line
               let x : Channel := SMap.get {} b.channels p.chan
               let y : Channel := SMap.get {} t.channels p.chan
               let k := p.off / Config.rowLines % Config.banks
               let fails := k ∉ x.banks ∧ 4 ≤ x.banks.length + 1 ∧ p.chan < 384 ∧ x.retired = false
               (Up.sick b line = false → t.channels = b.channels)
               ∧ (Up.sick b line = true → x.failed = false → (y.banks = if k ∈ x.banks then x.banks else k :: x.banks)
                   ∧ (y.failed = true ↔ fails)
                   ∧ (fails → { kind := 4, unit := 6, at' := site p.chan, resets := b.resets, time := b.gtime, value := 0 }
                       ∈ t.errors)))))
  ∧ (∀ c,
      let x := ch c
      let i : Instr := .channelRetireStart c
      let may := serving c ∧ x.failed = true ∧ x.retiring = false
      let room := 1984 * 65536 ≤ Up.reserve s c
      let able (d : Nat) := d ≠ c ∧ d / 16 = c / 16 ∧ (ch d).failed = false ∧ (ch d).retired = false
      (¬ may → rests i)
      ∧ (may → room → ∃ heir, exec i s = .next { s with channels := put c { x with retiring := true, heir := heir } }
          ∧ (Up.holdsParity s c = false → heir = none) ∧ (∀ d, heir = some d → able d)
          ∧ (Up.holdsParity s c = true → (∃ d, able d) → heir ≠ none))
      ∧ (may → ¬ room → x.refused = true → rests i)
      ∧ (may → ¬ room → x.refused = false → exec i s = .next { s with
          channels := put c { x with refused := true }, errors := plus 6 6 (site c) 0 }))
  ∧ (∀ c,
      let x := ch c
      let i : Instr := .channelLineMove c
      let src := x.heir.getD c
      let may := serving c ∧ x.retiring = true
      let more := x.rebuilt < Config.channelLines
      let on : Channel := { x with rebuilt := x.rebuilt + 1 }
      let waits (r : State) (l : Nat) (p : Place) : Prop :=
        let bank := p.off / Config.rowLines % Config.banks
        Up.refreshWaits r l = true ∨ late p.chan bank ∨ late (Up.parityAt r p.chan p.off) bank
      let fit (p : Place) : Prop := p.chan < 384 ∧ p.chan / 96 = c / 96 ∧ p.chan / 16 ≠ c / 16 ∧ (ch p.chan).failed = false
        ∧ (ch p.chan).retired = false ∧ Config.channelLines ≤ p.off
      let goes (l : Nat) (p : Place) (y : Channel) : Prop := (waits s l p → rests i)
        ∧ (¬ waits s l p → Happens i s fun t => SameMemory s t ∧ t.errors = s.errors ∧ SMap.get {} t.channels c = y
            ∧ Up.place t l = p ∧ (∀ m, m ≠ l → Up.place t m = Up.place s m)
            ∧ (Up.lostLine s l = true → ∀ u, u / 16 = l → u ∈ t.dramBad))
      let moves (l : Nat) (y : Channel) : Prop :=
        (Up.kinPlace s c l = none →
          (Up.anyPlace s c l = none → rests i) ∧ ∀ p, Up.anyPlace s c l = some p → fit p ∧ goes l p y)
        ∧ ∀ k, Up.kinPlace s c l = some k →
          let room := Up.freePlace s k.chan (some (Up.bankOf k.off))
          let spare := Bnk.spareSpot s k (s.leads.map Prod.fst) (Config.freeNat s.choice l)
          (∀ p, room = some p → p.chan = k.chan ∧ Up.bankOf p.off = Up.bankOf k.off ∧ fit p ∧ goes l p y)
          ∧ (room = none → spare = none → rests i)
          ∧ ∀ p, room = none → spare = some p → p.chan = k.chan ∧ Up.bankOf p.off = Up.bankOf k.off
            ∧ ∀ m, Up.occupant s p.chan p.off = some m → (Up.anyPlace s c m = none → rests i)
              ∧ ∀ q, Up.anyPlace s c m = some q → fit q ∧ (waits s m q → rests i)
                ∧ (m ≠ l → ¬ waits s m q → ¬ waits (Up.switch s m q) l p → Happens i s fun t => SameMemory s t ∧ t.errors = s.errors
                    ∧ SMap.get {} t.channels c = y ∧ Up.place t l = p ∧ Up.place t m = q ∧ ∀ n, n ≠ l → n ≠ m → Up.place t n = Up.place s n)
      (¬ may → rests i)
      ∧ (may → more → Up.occupant s src x.rebuilt = none → exec i s = .next { s with channels := put c on })
      ∧ (may → more → ∀ l, Up.occupant s src x.rebuilt = some l → moves l on)
      ∧ (may → ¬ more → ∀ l r, Up.strays s src = l :: r → moves l x)
      ∧ (may → ¬ more → Up.strays s src = [] → exec i s = .next { s with
          channels := put c { x with retiring := false, retired := true }, errors := plus 5 6 (site c) 0 }))
  ∧ (∀ c b,
      let bank := c < 384 ∧ b < 1024
      let key := c * 1024 + b
      let due := Config.refreshLimit ≤ SMap.get 0 s.postponed key
      let at' := SMap.put s.refreshAt key s.gtime
      (¬ bank ∨ ¬ due → rests (.refreshForced c b)) ∧ (¬ bank → rests (.activationAlert c b))
      ∧ (bank → due → exec (.refreshForced c b) s = .next { s with refreshAt := at', postponed := SMap.erase s.postponed key })
      ∧ (bank → exec (.activationAlert c b) s = .next { s with
          channels := put c { ch c with pause := s.gtime + Config.backoff }
          refreshAt := if due then at' else s.refreshAt
          postponed := if due then SMap.erase s.postponed key else s.postponed
          rfmAt := SMap.put s.rfmAt key s.gtime }))
  ∧ (∀ cl,
      let i : Instr := .clusterFailure cl
      let may := cl < 80 ∧ cl ∉ s.lostClusters
      let spare := cl / 20 ∉ s.sparesUsed
      let c := s.clusterAt cl
      let gone (u : Nat) : List (Nat × Team) := s.teams.filter fun x => decide (x.2.core / 4 = cl) && decide (x.2.launch = u)
      let alone := ∀ e ∈ s.clusters, e.1 ≠ cl → e.2.walks = []
      (¬ may → rests i)
      ∧ (may → Happens i s fun t =>
          (∀ e ∈ t.teams, e.2.core / 4 ≠ cl)
          ∧ (∀ e ∈ t.groups, ∀ x ∈ s.teams, x.1 = e.2.team → x.2.core / 4 ≠ cl)
          ∧ (∀ e ∈ t.cores, e.1 / 4 ≠ cl) ∧ (∀ e ∈ t.owners, e.2.core / 4 ≠ cl)
          ∧ (∀ u, SMap.get? t.launches u = (SMap.get? s.launches u).map fun l => { l with
              live := l.live - (gone u).length, missing := l.missing ++ (gone u).map fun x => x.2.id })
          ∧ (∀ slot w, c.walks = [(slot, w)] → c.ranges = [] → alone →
              let x := (Wk.close s cl slot w).postEvent w.ctx { kind := 7, value := (Wk.handle cl slot w.seq w.gen).toNat }
              t.mem = x.mem ∧ t.heldEvents = x.heldEvents
              ∧ ∀ p, w.header = .hbm p →
                let e := s.endOwnership (lineOf p)
                let open' := p + (8 + 4 * w.live)
                (Wk.close s cl slot w).readMem open' 4 = (e.readMem open' 4 + 2 ^ 32 - 1) % 2 ^ 32)
          ∧ (∀ n r, c.walks = [] → c.ranges = [(n, r)] → alone →
              let x := s.postEvent r.ctx { kind := 7, value := (Ctl.rangeHandle (SMap.get 0 c.rangeSeq n) n cl).toNat }
              t.mem = x.mem ∧ t.heldEvents = x.heldEvents)
          ∧ (t.clusterAt cl).walks = [] ∧ (t.clusterAt cl).ranges = [] ∧ (t.clusterAt cl).tlb = []
          ∧ (∀ n < 4, SMap.get 0 (t.clusterAt cl).walkSeq n = (SMap.get 0 (s.clusterAt cl).walkSeq n + 1) % 65536)
          ∧ (∀ n < 16, SMap.get 0 (t.clusterAt cl).rangeSeq n = (SMap.get 0 (s.clusterAt cl).rangeSeq n + 1) % 65536)
          ∧ (spare → t.lostClusters = s.lostClusters ∧ t.sparesUsed = cl / 20 :: s.sparesUsed
              ∧ (∃ l, t.errors = l ++ [{ kind := 7, unit := 1, at' := cl / 20 * 2 ^ 14 + cl, resets := s.resets, time := s.gtime, value := 0 }])
              ∧ (¬ ails → t.errors = plus 7 1 (cl / 20 * 2 ^ 14 + cl) 0))
          ∧ (¬ spare → t.lostClusters = cl :: s.lostClusters ∧ (¬ ails → t.errors = s.errors))))
  ∧ (∀ x,
      let i : Instr := .sliceRetire x
      let used := SMap.get 0 s.sliceSpares (x / 96)
      let may := x < 384 ∧ used < 4
      let home (line : Nat) := s.homeOf line = x
      (¬ may → rests i)
      ∧ (may → Happens i s fun t => SMap.get 0 t.sliceSpares (x / 96) = used + 1
          ∧ (∃ l, t.errors = l ++ [{ kind := 7, unit := 4, at' := site x, resets := s.resets, time := s.gtime, value := 0 }])
          ∧ (¬ ails → t.errors = plus 7 4 (site x) 0)
          ∧ (∀ l, home l → SMap.get? t.owners l = none ∧ SMap.get? t.dramAt l = none)
          ∧ (∀ l m, home l → home m → s.frontierOf l ≤ t.frontierOf m)
          ∧ (∀ l, ¬ home l → s.frontierOf l = t.frontierOf l)
          ∧ ((∀ l, home l → SMap.get? s.owners l = none) → (∀ e ∈ s.versions, ¬ home (Hyp.keyWord e.1 / 32)) → SameMemory s t)))
  ∧ ∀ x,
      let may := x < 384 ∧ x ∉ s.slicesLost
      (¬ may → rests (.sliceAbruptFailure x))
      ∧ (may → exec (.sliceAbruptFailure x) s = .next { s with
          slicesLost := x :: s.slicesLost, running := false, errors := plus 2 4 (site x) 0 })

/-- R384, R412 to R417: what bring-up leaves, power throttling, and the commands of the management window. It rests on the
model's choices of log entries 8, 48, 54, 55 and 82. -/
def Obligations.BringUpAndManagement : Prop := ∀ s : State,
  let rests (i : Instr) : Prop := exec i s = .next s
  (∀ i : Instr, i = .powerOnReset ∨ i = .hostModuleReset →
    let n := s.resets + 1
    let d := s.readBytes Config.ctxtBase 128
    let empty (t : State) : Prop := t.groups = [] ∧ t.teams = [] ∧ t.launches = [] ∧ t.queues = [] ∧ t.owners = []
      ∧ t.stamps = [] ∧ t.frontier = [] ∧ t.versions = [] ∧ t.cores = [] ∧ t.clusters = [] ∧ t.tickets = [] ∧ t.rings = []
      ∧ t.resets = n ∧ t.gtime = 0 ∧ t.cur = {}
    let step (k : Nat) : Prop := Config.bootFails k n = false
    let trains (c : Nat) : Prop := c < 384 ∧ c ∈ Config.bootChannels n
    let pair := ∃ c d, trains c ∧ trains d ∧ c ≠ d ∧ c / 16 = d / 16
    let poor := ∃ d < 4, 1 < Config.bootClusters n d ∨ 4 < Config.bootSlices n d
    let sound := s.badSectors = [] ∧ ∀ e ∈ s.channels, e.2.failed = false
    let marked (t : State) : Prop := ∀ c, trains c → (SMap.get {} t.channels c).failed = true ∨ (SMap.get {} t.channels c).retired = true
    let spares (t : State) : Prop := (t.sparesUsed = (List.range 4).filter fun d => Config.bootClusters n d != 0)
      ∧ ∀ d < 4, SMap.get 0 t.sliceSpares d = min 4 (Config.bootSlices n d)
    let stops (t : State) (code : Nat) : Prop := empty t ∧ t.mem = s.mem ∧ t.running = false ∧ t.mgmt.boot = code
    (¬ step 1 → Happens i s fun t => stops t 0 ∧ t.hostLink = 0 ∧ t.errors = s.errors)
    ∧ (step 1 → ¬ step 2 → Happens i s fun t => stops t 0x81 ∧ t.errors = s.errors)
    ∧ (step 1 → step 2 → ¬ step 3 → Happens i s fun t => stops t 0x82 ∧ t.errors = s.errors)
    ∧ (step 1 → step 2 → step 3 → pair → Happens i s fun t => stops t 0x83 ∧ marked t)
    ∧ (step 1 → step 2 → step 3 → ¬ pair → poor → Happens i s fun t => stops t 0x84 ∧ marked t ∧ spares t)
    ∧ (step 1 → step 2 → step 3 → ¬ pair → ¬ poor → ¬ step 6 → Happens i s fun t => stops t 0x85 ∧ marked t ∧ spares t)
    ∧ (step 1 → step 2 → step 3 → ¬ pair → ¬ poor → step 6 →
        Happens i s (fun t => marked t ∧ spares t ∧ t.gtime = 0 ∧ t.scrubctl = Config.imageScrubctl ∧ t.mxIdle = Config.imageMxIdle)
        ∧ let untroubled := (∀ c, ¬ trains c) ∧ ∀ d < 4, Config.bootClusters n d = 0 ∧ Config.bootSlices n d = 0
        let bad := Ctx.malformed d = true ∨ Dsp.bytesAt d 0 4 ≠ 1 ∨ (Up.afterReset s n).badAt Config.ctxtBase 128 = true
        ((∀ c, ¬ trains c) → bad → Happens i s fun t => stops t 0x86 ∧ (untroubled → t.errors = s.errors))
        ∧ ((∀ c, ¬ trains c) → ¬ bad → Happens i s fun t => t.running = true ∧ t.mgmt.boot = 1 ∧ t.resets = n ∧ t.groups = []
            ∧ t.teams = [] ∧ t.launches = [] ∧ t.owners = [] ∧ (t.descAt 0).valid = true ∧ (t.descAt 0).ptroot = Dsp.bytesAt d 8 8
            ∧ t.trapvec0 = BitVec.ofNat 64 (Dsp.bytesAt d 0x38 8) ∧ (untroubled → sound → t.errors = s.errors))))
  ∧ (∀ n, let used := ∃ k ∈ s.cores, ∃ e ∈ k.2.issuedAt, e.2 = s.gtime + 1
      (used → exec (.powerLimitThrottle n) s = .next { s with gtime := s.gtime + 1 + n, withheld := s.withheld + n })
      ∧ (¬ used → exec (.powerLimitThrottle n) s = .next { s with gtime := s.gtime + n, withheld := s.withheld + n }))
  ∧ (∀ fn (w : W64) r, s.turns = .hostMgmt fn w :: r →
      let b : State := Iss.settle { s with turns := r }
      let m := b.mgmt
      let op := w.toNat % 256
      (b.hostLink = 0 ∨ fn ≠ 0 → step s = .next b)
      ∧ (b.hostLink ≠ 0 → fn = 0 → m.busy = false → w.toNat / 256 % 2 ^ 24 = 0 → op ≠ 0 → op ≤ 6 → step s = .next { b with mgmt := {
          m with cmd := op, arg := w.toNat / 2 ^ 32, busy := true, ovr := false, input := m.data } }))
  ∧ (∀ fn off r, s.turns = .hostMgmtRead fn off :: r →
      let b : State := Iss.settle { s with turns := r }
      let m := b.mgmt
      (b.hostLink = 0 → step s = .next b)
      ∧ (b.hostLink ≠ 0 → ∃ a, step s = .next { b with choice := b.choice + 1, mgmt := { m with answer := a } }
          ∧ (fn ≠ 0 → a = 0#64)
          ∧ (fn = 0 → off = 8 → a.toNat % 64 = m.result % 64 ∧ (a.getLsbD 6 = m.busy) ∧ (a.getLsbD 7 = m.ovr)
              ∧ a.toNat / 256 = m.boot % 256)
          ∧ (fn = 0 → off % 8 = 0 → 0x100 ≤ off → off < 0x200 → m.busy = false →
              a.toNat = Bits.ofBytes ((List.range 8).map fun j => SMap.get 0#8 m.data (off - 0x100 + j)))
          ∧ (fn = 0 → off % 8 = 0 → off ≠ 0 → off ≠ 8 → off < 0x100 ∨ 0x200 ≤ off → a = 0#64)))
  ∧ (let m := s.mgmt
     let runs (op : Nat) := m.busy = true ∧ m.cmd = op
     let ends (t : State) (code : Nat) (out : List Byte) : Prop := t.mgmt.busy = false ∧ t.mgmt.result = code
       ∧ t.mgmt.boot = m.boot ∧ t.mgmt.ovr = m.ovr ∧ t.mem = s.mem ∧ t.gtime = s.gtime
       ∧ (∀ j, SMap.get 0#8 t.mgmt.data j = if j < out.length then out.getD j 0#8 else SMap.get 0#8 m.data j)
     let byte (j : Nat) : Byte := SMap.get 0#8 m.input j
     let serial := (List.range 16).map fun j => Config.serial.getD j 0#8
     let digest := (List.range 48).map fun j => Config.imageDigest.getD j 0#8
     let w := Bits.ofBytes ((List.range 8).map byte)
     let days := w / 2 ^ 32
     let share := w / 256 % 128
     let fine := 3600 ≤ days ∧ days ≤ 2592000 ∧ 1 ≤ share ∧ share ≤ 100
     let idle := m.arg % 65536
     (¬ runs 1 → rests .mgmtIdentity) ∧ (¬ runs 2 → rests .mgmtAttest) ∧ (¬ runs 3 → rests .mgmtErrorRecord)
     ∧ (¬ runs 4 → rests .mgmtSetScrubber) ∧ (¬ runs 5 → rests .mgmtSetMatrixIdle) ∧ (¬ runs 6 → rests .mgmtPowerReading)
     ∧ (runs 1 → Happens .mgmtIdentity s fun t => ends t 0
         (serial ++ (List.range 97).map fun j => Config.publicKey.getD j 0#8))
     ∧ (runs 2 → Happens .mgmtAttest s fun t => ends t 0 (digest ++ (List.range 96).map fun j =>
         (Config.signature ((List.range 48).map byte ++ digest ++ serial)).getD j 0#8))
     ∧ (runs 3 → s.errors[m.arg]? = none → Happens .mgmtErrorRecord s fun t => ends t 3 [])
     ∧ (∀ e, runs 3 → s.errors[m.arg]? = some e → Happens .mgmtErrorRecord s fun t => ends t 0
         (Bits.bytesOf 8 e.time ++ Bits.bytesOf 1 e.kind ++ Bits.bytesOf 1 e.unit ++ Bits.bytesOf 2 e.at'
           ++ Bits.bytesOf 4 e.resets ++ Bits.bytesOf 8 e.value ++ Bits.bytesOf 8 0))
     ∧ (runs 4 → ¬ fine → Happens .mgmtSetScrubber s fun t => ends t 2 [] ∧ t.scrubctl = s.scrubctl)
     ∧ (runs 4 → fine → Happens .mgmtSetScrubber s fun t => ends t 0 []
         ∧ t.scrubctl = BitVec.ofNat 64 (days * 2 ^ 32 + share * 256 + w % 2))
     ∧ (runs 5 → idle < 64 → Happens .mgmtSetMatrixIdle s fun t => ends t 2 [] ∧ t.mxIdle = s.mxIdle)
     ∧ (runs 5 → 64 ≤ idle → Happens .mgmtSetMatrixIdle s fun t => ends t 0 [] ∧ t.mxIdle = idle)
     ∧ (runs 6 → Happens .mgmtPowerReading s fun t => ∃ p : Nat, p ≤ 6000000
         ∧ ends t 0 (Bits.bytesOf 8 p ++ Bits.bytesOf 8 s.withheld))
     ∧ ∀ x : W64,
         let i : Instr := .mgmtCommandRefused x
         let op := x.toNat % 256
         let unknown := x.toNat / 256 % 2 ^ 24 ≠ 0 ∨ op = 0 ∨ 6 < op
         (m.busy = true → exec i s = .next { s with mgmt := { m with ovr := true } })
         ∧ (m.busy = false → unknown → exec i s = .next { s with mgmt := { m with
             cmd := op, arg := x.toNat / 2 ^ 32, result := 1 } })
         ∧ (m.busy = false → ¬ unknown → rests i))

/-- The state after reset, before bring-up: nothing resident, the reset values of R384, R414 and R416, and the form of memory
and the numbering of operations that every step keeps. Which fields are empty at reset is the model's choice (log entry
4), and so is that every byte of memory reads 0 (log entry 6). It rests on the model's choices of log entries 4, 6 and 8. -/
def Obligations.ResetState : Prop :=
  let s := State.reset
  s.Formed ∧ Numbered s ∧ s.groups = [] ∧ s.teams = [] ∧ s.launches = [] ∧ s.queues = [] ∧ s.owners = [] ∧ s.versions = []
  ∧ s.gtime = 0 ∧ s.running = false ∧ s.mxIdle = 1024 ∧ Bits.field s.scrubctl 63 32 = 86400
  ∧ Bits.field s.scrubctl 14 8 = 25 ∧ Bits.field s.scrubctl 0 0 = 1 ∧ Bits.fieldZero s.scrubctl 31 15 = true
  ∧ s.mgmt.boot = 0 ∧ s.mgmt.busy = false ∧ s.mgmt.ovr = false ∧ s.mgmt.result = 0
  ∧ (∀ p, Memory.byte s.mem p = 0#8) ∧ (∀ n, (s.descAt n).valid = false)
  ∧ ∀ n, (SMap.get {} s.ports n : Port).up = true ∧ (SMap.get {} s.ports n : Port).lanes = 8

/-- Every step keeps the canonical form of memory. It rests on the model's choices of log entry 6. -/
def Obligations.MemoryStaysFormed : Prop := ∀ s t : State, s.Formed → step s = .next t → t.Formed

/-- Every step keeps the numbers of the operations under way below the next number; MemoryIssue has this as a premise. It
rests on the model's choices of log entry 3. -/
def Obligations.NumbersStayFresh : Prop := ∀ s t : State, Numbered s → step s = .next t → Numbered t

/-- R56, R57, R62, R63, R68: decoding and encoding agree. The word of a well-formed instruction decodes to it, with every
operand as it was, and a word that decodes is the word of what it decodes to. The two rows of CVT share their words. -/
def Obligations.DecodeEncodeAgree : Prop :=
  (∀ i : Instr, i.wellFormed = true → ∃ w, encode i = some w ∧ decode w = some i.canonical)
  ∧ (∀ (w : BitVec 96) (i : Instr), decode w = some i → encode i = some w ∧ i.wellFormed = true ∧ i.canonical = i)
  ∧ ∀ i : Instr, i.canonical = i ∨ ∃ f r o, i = .cvtBlock f r o ∧ i.canonical = .cvt f r o

/-- Words that the spec prints, IMM first, decode to the instructions they are printed for; a word with a stray field or a reserved
opcode decodes to none. -/
def Obligations.DecodeWords : Prop :=
  decode (0x00000000#32 ++ 0x08110010#32 ++ 0x040C0002#32) = some (.iadd .s32 (ops (.v 12) (.v 4) (.i8 0x10) .none 0))
  ∧ decode (0x3FC00000#32 ++ 0x09110000#32 ++ 0x06050020#32) = some (.fadd .f32 .rn (ops (.v 5) (.v 6) .imm .none 0x3FC00000))
  ∧ decode (0x00000040#32 ++ 0x02110002#32 ++ 0x08090980#32)
      = some (.ld .module true (ops (.v 9) (.v 8) (.k 2) .none 0x40))
  ∧ decode (0x00000000#32 ++ 0x86150101#32 ++ 0x20030060#32) = some (.mmaH (ops (.z 3) (.v 32) (.t 1) (.i8 1) 0))
  ∧ decode (0x00000000#32 ++ 0x04440003#32 ++ 0x02040051#32) = some (.madd (ops (.m 4) (.m 2) (.m 3) .none 0))
  ∧ decode (0x00000000#32 ++ 0x22220E08#32 ++ 0x140C0172#32)
      = some (.wksubs true (ops (.k 12) (.k 20) (.k 8) (.k 14) 0))
  ∧ decode (0x00000000#32 ++ 0x00200000#32 ++ 0x0C0002AB#32) = some (.hresolveRef (ops .none (.k 12) .none .none 0))
  ∧ decode (0x00000000#32 ++ 0x00A20000#32 ++ 0x070500D0#32) = some (.rdsys (ops (.k 5) (.sys 7) .none .none 0))
  ∧ decode (0x00000000#32 ++ 0x00000000#32 ++ 0x000000C1#32) = some (.nop (ops .none .none .none .none 0))
  ∧ decode (0x00000000#32 ++ 0x00000000#32 ++ 0x000100C1#32) = none
  ∧ decode 0#96 = none
  ∧ ∀ sub : BitVec 4, ∀ op : BitVec 8, op = 0x1A#8 ∨ op = 0xFF#8 →
      decode (0#84 ++ sub ++ op) = none

/-- R49 to R55, R63, R66, R67, R294: a turn of a partition issues what the first fragment in R294's order fetches, which is
`exec` of the instruction that the word at its PC decodes to, or of both of a pair; an illegal word, pair or fetch traps.
A happening is `exec` of its row. It rests on the model's choices of log entries 1, 11 and 63. -/
def Obligations.StepRunsDecoded : Prop := ∀ (s : State) (rest : List Turn),
  let b : State := Iss.settle { s with turns := rest }
  (∀ core part k lent u f more, s.turns = .partition core part :: rest → b.running = true →
    SMap.get 0 (b.coreAt core).issuedAt part ≠ b.gtime + 1 → Iss.tries b core part = (k, lent, u, f) :: more →
    let g := b.grpAt u
    let r := g.frag f
    let pc := g.fragPc f
    let p := Iss.pick b u f
    let fetched := p.fetchLine u (p.privAt u f) (State.lineBase pc)
    let after (t : State) : Prop := t.cur.status ≠ .held → step s = .next (Iss.drop (Iss.noteIssue t core part k lent))
    r.skip = false → g.orphan = none →
    (Line.slotOf pc = none → after (p.takeTrap (if r.checkedFetch then 0x41 else 0x48) pc.toNat pc))
    ∧ ∀ slot, Line.slotOf pc = some slot →
      (∀ c, fetched = .fault c →
        let refetched := c = 0x43 ∧ p.keptBad u (State.lineBase pc) = true
        let q := if refetched then Up.note p 2 5 (Up.whereOf (p.clusterOf u / 20) (p.clusterOf u)) (State.lineBase pc) else p
        after (q.takeTrap c pc.toNat pc))
      ∧ ∀ n, fetched = .line n →
        (r.checkedFetch = true → Line.target n slot = false → after (p.takeTrap 0x41 pc.toNat pc))
        ∧ ((r.checkedFetch = true → Line.target n slot = true) →
          let at' := Iss.landed (p.keepLine u (State.lineBase pc) n)
          let w := Line.slot n slot
          (at'.cur.on = true ∧ at'.cur.grp = u ∧ at'.cur.frag = f ∧ at'.cur.pc = pc)
          ∧ (∀ i t, Line.paired n slot = false → decode w = some i → exec i at' = .next t → after t)
          ∧ (Line.paired n slot = false → decode w = none → after (Issue.trap at' 0x40 0 pc))
          ∧ (Line.paired n slot = true → Iss.pairLegal n slot = false → after (Issue.trap at' 0x42 0 pc))
          ∧ ∀ i j t v, Line.paired n slot = true → Iss.pairLegal n slot = true → decode w = some i →
              decode (Line.slot n (slot + 1)) = some j → exec i at' = .next t →
              let both := Iss.pair at' w (Line.slot n (slot + 1))
              (t.cur.status = .issued → exec j (Iss.second t pc) = .next v → after v
                ∧ (v.cur.status = .held → Iss.trapHeld v.grp f = false → both = .next (Iss.heldBy at' v)))
              ∧ (t.cur.status = .trapped → exec j (Iss.second at' pc) = .next v →
                (v.cur.status ≠ .held → after (Iss.countSecond t f))
                ∧ (v.cur.status = .held → Iss.trapHeld v.grp f = false → both = .next (Iss.heldBy at' v)))))
  ∧ (∀ i, s.turns = .happen i :: rest → i.isWord = false → b.running = true ∨ Turns.always i = true →
      b.hostLink ≠ 0 ∨ Turns.byLink i = false → (∀ u, i ≠ .orphanRedirect u) → step s = exec i b)
  ∧ ∀ n, s.turns = .tick n :: rest → step s = .next { b with gtime := b.gtime + n }

/-- R85, R87, R88: what rounding delivers in each mode. With .rn the nearest value, the even one of two that are equally near; with
.rz the greatest in magnitude that is not greater; with .rp the least not below, with .rm the greatest not above; beyond the
largest finite value what the table of overflow gives; and always the sign of the exact value. -/
def Obligations.RoundingModes : Prop := ∀ (f : FFmt) (m : Rnd) (x : Sys2Proof.Float.Ex), 0 < x.den →
  let v := ratOf x
  let b := Sys2Proof.Float.round f m x
  let top : Rat := 2 ^ Sys2Proof.Float.bias f * (2 - 2 / 2 ^ Sys2Proof.Float.prec f)
  let tie : Rat := 2 ^ Sys2Proof.Float.bias f * (2 - 1 / 2 ^ Sys2Proof.Float.prec f)
  Holds f (Sys2Proof.Float.maxBits f false) top
  ∧ b < 2 ^ Sys2Proof.Float.width f ∧ b.testBit (Sys2Proof.Float.width f - 1) = x.neg
  ∧ (x.num = 0 → b = Sys2Proof.Float.zeroBits f x.neg)
  ∧ (m = .rn → tie ≤ away v 0 → b = Sys2Proof.Float.infBits f x.neg)
  ∧ (m = .rn → away v 0 < tie → ∃ y, Holds f b y ∧ ∀ c z, Holds f c z → away y v ≤ away z v
      ∧ (away z v = away y v → z ≠ y → b % 2 = 0))
  ∧ (m = .rz → ∃ y, Holds f b y ∧ away y 0 ≤ away v 0 ∧ ∀ c z, Holds f c z → away z 0 ≤ away v 0 → away z 0 ≤ away y 0)
  ∧ (m = .rp → top < v → b = Sys2Proof.Float.infBits f false)
  ∧ (m = .rp → v ≤ top → ∃ y, Holds f b y ∧ v ≤ y ∧ ∀ c z, Holds f c z → v ≤ z → y ≤ z)
  ∧ (m = .rm → v < -top → b = Sys2Proof.Float.infBits f true)
  ∧ (m = .rm → -top ≤ v → ∃ y, Holds f b y ∧ y ≤ v ∧ ∀ c z, Holds f c z → z ≤ v → z ≤ y)
end

