-- ==== Sys2Proof/Laws/State.lean ====
section
/-! SUPPORT. One lemma for each field of the state under each update, and the same for a group: no later proof
unfolds a record update. -/

namespace Sys2Proof.Machine

namespace State

/-! ### setGrpAt -/

@[simp] theorem setGrpAt_gtime (s : State) (u : Nat) (g : Group) : (s.setGrpAt u g).gtime = s.gtime := rfl
@[simp] theorem setGrpAt_groups (s : State) (u : Nat) (g : Group) : (s.setGrpAt u g).groups = SMap.put s.groups u g := rfl
@[simp] theorem setGrpAt_teams (s : State) (u : Nat) (g : Group) : (s.setGrpAt u g).teams = s.teams := rfl
@[simp] theorem setGrpAt_launches (s : State) (u : Nat) (g : Group) : (s.setGrpAt u g).launches = s.launches := rfl
@[simp] theorem setGrpAt_cores (s : State) (u : Nat) (g : Group) : (s.setGrpAt u g).cores = s.cores := rfl
@[simp] theorem setGrpAt_clusters (s : State) (u : Nat) (g : Group) : (s.setGrpAt u g).clusters = s.clusters := rfl
@[simp] theorem setGrpAt_mem (s : State) (u : Nat) (g : Group) : (s.setGrpAt u g).mem = s.mem := rfl
@[simp] theorem setGrpAt_stamps (s : State) (u : Nat) (g : Group) : (s.setGrpAt u g).stamps = s.stamps := rfl
@[simp] theorem setGrpAt_frontier (s : State) (u : Nat) (g : Group) : (s.setGrpAt u g).frontier = s.frontier := rfl
@[simp] theorem setGrpAt_owners (s : State) (u : Nat) (g : Group) : (s.setGrpAt u g).owners = s.owners := rfl
@[simp] theorem setGrpAt_versions (s : State) (u : Nat) (g : Group) : (s.setGrpAt u g).versions = s.versions := rfl
@[simp] theorem setGrpAt_dramOld (s : State) (u : Nat) (g : Group) : (s.setGrpAt u g).dramOld = s.dramOld := rfl
@[simp] theorem setGrpAt_dramAt (s : State) (u : Nat) (g : Group) : (s.setGrpAt u g).dramAt = s.dramAt := rfl
@[simp] theorem setGrpAt_badUnits (s : State) (u : Nat) (g : Group) : (s.setGrpAt u g).badUnits = s.badUnits := rfl
@[simp] theorem setGrpAt_dramBad (s : State) (u : Nat) (g : Group) : (s.setGrpAt u g).dramBad = s.dramBad := rfl
@[simp] theorem setGrpAt_badSectors (s : State) (u : Nat) (g : Group) : (s.setGrpAt u g).badSectors = s.badSectors := rfl
@[simp] theorem setGrpAt_places (s : State) (u : Nat) (g : Group) : (s.setGrpAt u g).places = s.places := rfl
@[simp] theorem setGrpAt_leads (s : State) (u : Nat) (g : Group) : (s.setGrpAt u g).leads = s.leads := rfl
@[simp] theorem setGrpAt_l2 (s : State) (u : Nat) (g : Group) : (s.setGrpAt u g).l2 = s.l2 := rfl
@[simp] theorem setGrpAt_corrected (s : State) (u : Nat) (g : Group) : (s.setGrpAt u g).corrected = s.corrected := rfl
@[simp] theorem setGrpAt_postponed (s : State) (u : Nat) (g : Group) : (s.setGrpAt u g).postponed = s.postponed := rfl
@[simp] theorem setGrpAt_descs (s : State) (u : Nat) (g : Group) : (s.setGrpAt u g).descs = s.descs := rfl
@[simp] theorem setGrpAt_trapvec0 (s : State) (u : Nat) (g : Group) : (s.setGrpAt u g).trapvec0 = s.trapvec0 := rfl
@[simp] theorem setGrpAt_heldCtx (s : State) (u : Nat) (g : Group) : (s.setGrpAt u g).heldCtx = s.heldCtx := rfl
@[simp] theorem setGrpAt_trees (s : State) (u : Nat) (g : Group) : (s.setGrpAt u g).trees = s.trees := rfl
@[simp] theorem setGrpAt_resolves (s : State) (u : Nat) (g : Group) : (s.setGrpAt u g).resolves = s.resolves := rfl
@[simp] theorem setGrpAt_queues (s : State) (u : Nat) (g : Group) : (s.setGrpAt u g).queues = s.queues := rfl
@[simp] theorem setGrpAt_queueSeq (s : State) (u : Nat) (g : Group) : (s.setGrpAt u g).queueSeq = s.queueSeq := rfl
@[simp] theorem setGrpAt_heldEvents (s : State) (u : Nat) (g : Group) : (s.setGrpAt u g).heldEvents = s.heldEvents := rfl
@[simp] theorem setGrpAt_lostClusters (s : State) (u : Nat) (g : Group) : (s.setGrpAt u g).lostClusters = s.lostClusters := rfl
@[simp] theorem setGrpAt_sparesUsed (s : State) (u : Nat) (g : Group) : (s.setGrpAt u g).sparesUsed = s.sparesUsed := rfl
@[simp] theorem setGrpAt_rings (s : State) (u : Nat) (g : Group) : (s.setGrpAt u g).rings = s.rings := rfl
@[simp] theorem setGrpAt_ringLast (s : State) (u : Nat) (g : Group) : (s.setGrpAt u g).ringLast = s.ringLast := rfl
@[simp] theorem setGrpAt_hostAt (s : State) (u : Nat) (g : Group) : (s.setGrpAt u g).hostAt = s.hostAt := rfl
@[simp] theorem setGrpAt_hostLink (s : State) (u : Nat) (g : Group) : (s.setGrpAt u g).hostLink = s.hostLink := rfl
@[simp] theorem setGrpAt_bar2Answer (s : State) (u : Nat) (g : Group) : (s.setGrpAt u g).bar2Answer = s.bar2Answer := rfl
@[simp] theorem setGrpAt_mgmt (s : State) (u : Nat) (g : Group) : (s.setGrpAt u g).mgmt = s.mgmt := rfl
@[simp] theorem setGrpAt_scrubctl (s : State) (u : Nat) (g : Group) : (s.setGrpAt u g).scrubctl = s.scrubctl := rfl
@[simp] theorem setGrpAt_mxIdle (s : State) (u : Nat) (g : Group) : (s.setGrpAt u g).mxIdle = s.mxIdle := rfl
@[simp] theorem setGrpAt_mxIdleWas (s : State) (u : Nat) (g : Group) : (s.setGrpAt u g).mxIdleWas = s.mxIdleWas := rfl
@[simp] theorem setGrpAt_errors (s : State) (u : Nat) (g : Group) : (s.setGrpAt u g).errors = s.errors := rfl
@[simp] theorem setGrpAt_resets (s : State) (u : Nat) (g : Group) : (s.setGrpAt u g).resets = s.resets := rfl
@[simp] theorem setGrpAt_withheld (s : State) (u : Nat) (g : Group) : (s.setGrpAt u g).withheld = s.withheld := rfl
@[simp] theorem setGrpAt_channels (s : State) (u : Nat) (g : Group) : (s.setGrpAt u g).channels = s.channels := rfl
@[simp] theorem setGrpAt_passStart (s : State) (u : Nat) (g : Group) : (s.setGrpAt u g).passStart = s.passStart := rfl
@[simp] theorem setGrpAt_sliceSpares (s : State) (u : Nat) (g : Group) : (s.setGrpAt u g).sliceSpares = s.sliceSpares := rfl
@[simp] theorem setGrpAt_sliceFloor (s : State) (u : Nat) (g : Group) : (s.setGrpAt u g).sliceFloor = s.sliceFloor := rfl
@[simp] theorem setGrpAt_slicesLost (s : State) (u : Nat) (g : Group) : (s.setGrpAt u g).slicesLost = s.slicesLost := rfl
@[simp] theorem setGrpAt_refreshAt (s : State) (u : Nat) (g : Group) : (s.setGrpAt u g).refreshAt = s.refreshAt := rfl
@[simp] theorem setGrpAt_rfmAt (s : State) (u : Nat) (g : Group) : (s.setGrpAt u g).rfmAt = s.rfmAt := rfl
@[simp] theorem setGrpAt_ports (s : State) (u : Nat) (g : Group) : (s.setGrpAt u g).ports = s.ports := rfl
@[simp] theorem setGrpAt_flows (s : State) (u : Nat) (g : Group) : (s.setGrpAt u g).flows = s.flows := rfl
@[simp] theorem setGrpAt_peerAnswers (s : State) (u : Nat) (g : Group) : (s.setGrpAt u g).peerAnswers = s.peerAnswers := rfl
@[simp] theorem setGrpAt_inSync (s : State) (u : Nat) (g : Group) : (s.setGrpAt u g).inSync = s.inSync := rfl
@[simp] theorem setGrpAt_tickets (s : State) (u : Nat) (g : Group) : (s.setGrpAt u g).tickets = s.tickets := rfl
@[simp] theorem setGrpAt_ticketSeq (s : State) (u : Nat) (g : Group) : (s.setGrpAt u g).ticketSeq = s.ticketSeq := rfl
@[simp] theorem setGrpAt_collCount (s : State) (u : Nat) (g : Group) : (s.setGrpAt u g).collCount = s.collCount := rfl
@[simp] theorem setGrpAt_running (s : State) (u : Nat) (g : Group) : (s.setGrpAt u g).running = s.running := rfl
@[simp] theorem setGrpAt_choice (s : State) (u : Nat) (g : Group) : (s.setGrpAt u g).choice = s.choice := rfl
@[simp] theorem setGrpAt_nextId (s : State) (u : Nat) (g : Group) : (s.setGrpAt u g).nextId = s.nextId := rfl
@[simp] theorem setGrpAt_turns (s : State) (u : Nat) (g : Group) : (s.setGrpAt u g).turns = s.turns := rfl
@[simp] theorem setGrpAt_cur (s : State) (u : Nat) (g : Group) : (s.setGrpAt u g).cur = s.cur := rfl

/-! ### setTeamAt -/

@[simp] theorem setTeamAt_gtime (s : State) (u : Nat) (t : Team) : (s.setTeamAt u t).gtime = s.gtime := rfl
@[simp] theorem setTeamAt_groups (s : State) (u : Nat) (t : Team) : (s.setTeamAt u t).groups = s.groups := rfl
@[simp] theorem setTeamAt_teams (s : State) (u : Nat) (t : Team) : (s.setTeamAt u t).teams = SMap.put s.teams u t := rfl
@[simp] theorem setTeamAt_launches (s : State) (u : Nat) (t : Team) : (s.setTeamAt u t).launches = s.launches := rfl
@[simp] theorem setTeamAt_cores (s : State) (u : Nat) (t : Team) : (s.setTeamAt u t).cores = s.cores := rfl
@[simp] theorem setTeamAt_clusters (s : State) (u : Nat) (t : Team) : (s.setTeamAt u t).clusters = s.clusters := rfl
@[simp] theorem setTeamAt_mem (s : State) (u : Nat) (t : Team) : (s.setTeamAt u t).mem = s.mem := rfl
@[simp] theorem setTeamAt_stamps (s : State) (u : Nat) (t : Team) : (s.setTeamAt u t).stamps = s.stamps := rfl
@[simp] theorem setTeamAt_frontier (s : State) (u : Nat) (t : Team) : (s.setTeamAt u t).frontier = s.frontier := rfl
@[simp] theorem setTeamAt_owners (s : State) (u : Nat) (t : Team) : (s.setTeamAt u t).owners = s.owners := rfl
@[simp] theorem setTeamAt_versions (s : State) (u : Nat) (t : Team) : (s.setTeamAt u t).versions = s.versions := rfl
@[simp] theorem setTeamAt_dramOld (s : State) (u : Nat) (t : Team) : (s.setTeamAt u t).dramOld = s.dramOld := rfl
@[simp] theorem setTeamAt_dramAt (s : State) (u : Nat) (t : Team) : (s.setTeamAt u t).dramAt = s.dramAt := rfl
@[simp] theorem setTeamAt_badUnits (s : State) (u : Nat) (t : Team) : (s.setTeamAt u t).badUnits = s.badUnits := rfl
@[simp] theorem setTeamAt_dramBad (s : State) (u : Nat) (t : Team) : (s.setTeamAt u t).dramBad = s.dramBad := rfl
@[simp] theorem setTeamAt_badSectors (s : State) (u : Nat) (t : Team) : (s.setTeamAt u t).badSectors = s.badSectors := rfl
@[simp] theorem setTeamAt_places (s : State) (u : Nat) (t : Team) : (s.setTeamAt u t).places = s.places := rfl
@[simp] theorem setTeamAt_leads (s : State) (u : Nat) (t : Team) : (s.setTeamAt u t).leads = s.leads := rfl
@[simp] theorem setTeamAt_l2 (s : State) (u : Nat) (t : Team) : (s.setTeamAt u t).l2 = s.l2 := rfl
@[simp] theorem setTeamAt_corrected (s : State) (u : Nat) (t : Team) : (s.setTeamAt u t).corrected = s.corrected := rfl
@[simp] theorem setTeamAt_postponed (s : State) (u : Nat) (t : Team) : (s.setTeamAt u t).postponed = s.postponed := rfl
@[simp] theorem setTeamAt_descs (s : State) (u : Nat) (t : Team) : (s.setTeamAt u t).descs = s.descs := rfl
@[simp] theorem setTeamAt_trapvec0 (s : State) (u : Nat) (t : Team) : (s.setTeamAt u t).trapvec0 = s.trapvec0 := rfl
@[simp] theorem setTeamAt_heldCtx (s : State) (u : Nat) (t : Team) : (s.setTeamAt u t).heldCtx = s.heldCtx := rfl
@[simp] theorem setTeamAt_trees (s : State) (u : Nat) (t : Team) : (s.setTeamAt u t).trees = s.trees := rfl
@[simp] theorem setTeamAt_resolves (s : State) (u : Nat) (t : Team) : (s.setTeamAt u t).resolves = s.resolves := rfl
@[simp] theorem setTeamAt_queues (s : State) (u : Nat) (t : Team) : (s.setTeamAt u t).queues = s.queues := rfl
@[simp] theorem setTeamAt_queueSeq (s : State) (u : Nat) (t : Team) : (s.setTeamAt u t).queueSeq = s.queueSeq := rfl
@[simp] theorem setTeamAt_heldEvents (s : State) (u : Nat) (t : Team) : (s.setTeamAt u t).heldEvents = s.heldEvents := rfl
@[simp] theorem setTeamAt_lostClusters (s : State) (u : Nat) (t : Team) : (s.setTeamAt u t).lostClusters = s.lostClusters := rfl
@[simp] theorem setTeamAt_sparesUsed (s : State) (u : Nat) (t : Team) : (s.setTeamAt u t).sparesUsed = s.sparesUsed := rfl
@[simp] theorem setTeamAt_rings (s : State) (u : Nat) (t : Team) : (s.setTeamAt u t).rings = s.rings := rfl
@[simp] theorem setTeamAt_ringLast (s : State) (u : Nat) (t : Team) : (s.setTeamAt u t).ringLast = s.ringLast := rfl
@[simp] theorem setTeamAt_hostAt (s : State) (u : Nat) (t : Team) : (s.setTeamAt u t).hostAt = s.hostAt := rfl
@[simp] theorem setTeamAt_hostLink (s : State) (u : Nat) (t : Team) : (s.setTeamAt u t).hostLink = s.hostLink := rfl
@[simp] theorem setTeamAt_bar2Answer (s : State) (u : Nat) (t : Team) : (s.setTeamAt u t).bar2Answer = s.bar2Answer := rfl
@[simp] theorem setTeamAt_mgmt (s : State) (u : Nat) (t : Team) : (s.setTeamAt u t).mgmt = s.mgmt := rfl
@[simp] theorem setTeamAt_scrubctl (s : State) (u : Nat) (t : Team) : (s.setTeamAt u t).scrubctl = s.scrubctl := rfl
@[simp] theorem setTeamAt_mxIdle (s : State) (u : Nat) (t : Team) : (s.setTeamAt u t).mxIdle = s.mxIdle := rfl
@[simp] theorem setTeamAt_mxIdleWas (s : State) (u : Nat) (t : Team) : (s.setTeamAt u t).mxIdleWas = s.mxIdleWas := rfl
@[simp] theorem setTeamAt_errors (s : State) (u : Nat) (t : Team) : (s.setTeamAt u t).errors = s.errors := rfl
@[simp] theorem setTeamAt_resets (s : State) (u : Nat) (t : Team) : (s.setTeamAt u t).resets = s.resets := rfl
@[simp] theorem setTeamAt_withheld (s : State) (u : Nat) (t : Team) : (s.setTeamAt u t).withheld = s.withheld := rfl
@[simp] theorem setTeamAt_channels (s : State) (u : Nat) (t : Team) : (s.setTeamAt u t).channels = s.channels := rfl
@[simp] theorem setTeamAt_passStart (s : State) (u : Nat) (t : Team) : (s.setTeamAt u t).passStart = s.passStart := rfl
@[simp] theorem setTeamAt_sliceSpares (s : State) (u : Nat) (t : Team) : (s.setTeamAt u t).sliceSpares = s.sliceSpares := rfl
@[simp] theorem setTeamAt_sliceFloor (s : State) (u : Nat) (t : Team) : (s.setTeamAt u t).sliceFloor = s.sliceFloor := rfl
@[simp] theorem setTeamAt_slicesLost (s : State) (u : Nat) (t : Team) : (s.setTeamAt u t).slicesLost = s.slicesLost := rfl
@[simp] theorem setTeamAt_refreshAt (s : State) (u : Nat) (t : Team) : (s.setTeamAt u t).refreshAt = s.refreshAt := rfl
@[simp] theorem setTeamAt_rfmAt (s : State) (u : Nat) (t : Team) : (s.setTeamAt u t).rfmAt = s.rfmAt := rfl
@[simp] theorem setTeamAt_ports (s : State) (u : Nat) (t : Team) : (s.setTeamAt u t).ports = s.ports := rfl
@[simp] theorem setTeamAt_flows (s : State) (u : Nat) (t : Team) : (s.setTeamAt u t).flows = s.flows := rfl
@[simp] theorem setTeamAt_peerAnswers (s : State) (u : Nat) (t : Team) : (s.setTeamAt u t).peerAnswers = s.peerAnswers := rfl
@[simp] theorem setTeamAt_inSync (s : State) (u : Nat) (t : Team) : (s.setTeamAt u t).inSync = s.inSync := rfl
@[simp] theorem setTeamAt_tickets (s : State) (u : Nat) (t : Team) : (s.setTeamAt u t).tickets = s.tickets := rfl
@[simp] theorem setTeamAt_ticketSeq (s : State) (u : Nat) (t : Team) : (s.setTeamAt u t).ticketSeq = s.ticketSeq := rfl
@[simp] theorem setTeamAt_collCount (s : State) (u : Nat) (t : Team) : (s.setTeamAt u t).collCount = s.collCount := rfl
@[simp] theorem setTeamAt_running (s : State) (u : Nat) (t : Team) : (s.setTeamAt u t).running = s.running := rfl
@[simp] theorem setTeamAt_choice (s : State) (u : Nat) (t : Team) : (s.setTeamAt u t).choice = s.choice := rfl
@[simp] theorem setTeamAt_nextId (s : State) (u : Nat) (t : Team) : (s.setTeamAt u t).nextId = s.nextId := rfl
@[simp] theorem setTeamAt_turns (s : State) (u : Nat) (t : Team) : (s.setTeamAt u t).turns = s.turns := rfl
@[simp] theorem setTeamAt_cur (s : State) (u : Nat) (t : Team) : (s.setTeamAt u t).cur = s.cur := rfl

/-! ### setLaunchAt -/

@[simp] theorem setLaunchAt_gtime (s : State) (u : Nat) (l : Launch) : (s.setLaunchAt u l).gtime = s.gtime := rfl
@[simp] theorem setLaunchAt_groups (s : State) (u : Nat) (l : Launch) : (s.setLaunchAt u l).groups = s.groups := rfl
@[simp] theorem setLaunchAt_teams (s : State) (u : Nat) (l : Launch) : (s.setLaunchAt u l).teams = s.teams := rfl
@[simp] theorem setLaunchAt_launches (s : State) (u : Nat) (l : Launch) : (s.setLaunchAt u l).launches = SMap.put s.launches u l := rfl
@[simp] theorem setLaunchAt_cores (s : State) (u : Nat) (l : Launch) : (s.setLaunchAt u l).cores = s.cores := rfl
@[simp] theorem setLaunchAt_clusters (s : State) (u : Nat) (l : Launch) : (s.setLaunchAt u l).clusters = s.clusters := rfl
@[simp] theorem setLaunchAt_mem (s : State) (u : Nat) (l : Launch) : (s.setLaunchAt u l).mem = s.mem := rfl
@[simp] theorem setLaunchAt_stamps (s : State) (u : Nat) (l : Launch) : (s.setLaunchAt u l).stamps = s.stamps := rfl
@[simp] theorem setLaunchAt_frontier (s : State) (u : Nat) (l : Launch) : (s.setLaunchAt u l).frontier = s.frontier := rfl
@[simp] theorem setLaunchAt_owners (s : State) (u : Nat) (l : Launch) : (s.setLaunchAt u l).owners = s.owners := rfl
@[simp] theorem setLaunchAt_versions (s : State) (u : Nat) (l : Launch) : (s.setLaunchAt u l).versions = s.versions := rfl
@[simp] theorem setLaunchAt_dramOld (s : State) (u : Nat) (l : Launch) : (s.setLaunchAt u l).dramOld = s.dramOld := rfl
@[simp] theorem setLaunchAt_dramAt (s : State) (u : Nat) (l : Launch) : (s.setLaunchAt u l).dramAt = s.dramAt := rfl
@[simp] theorem setLaunchAt_badUnits (s : State) (u : Nat) (l : Launch) : (s.setLaunchAt u l).badUnits = s.badUnits := rfl
@[simp] theorem setLaunchAt_dramBad (s : State) (u : Nat) (l : Launch) : (s.setLaunchAt u l).dramBad = s.dramBad := rfl
@[simp] theorem setLaunchAt_badSectors (s : State) (u : Nat) (l : Launch) : (s.setLaunchAt u l).badSectors = s.badSectors := rfl
@[simp] theorem setLaunchAt_places (s : State) (u : Nat) (l : Launch) : (s.setLaunchAt u l).places = s.places := rfl
@[simp] theorem setLaunchAt_leads (s : State) (u : Nat) (l : Launch) : (s.setLaunchAt u l).leads = s.leads := rfl
@[simp] theorem setLaunchAt_l2 (s : State) (u : Nat) (l : Launch) : (s.setLaunchAt u l).l2 = s.l2 := rfl
@[simp] theorem setLaunchAt_corrected (s : State) (u : Nat) (l : Launch) : (s.setLaunchAt u l).corrected = s.corrected := rfl
@[simp] theorem setLaunchAt_postponed (s : State) (u : Nat) (l : Launch) : (s.setLaunchAt u l).postponed = s.postponed := rfl
@[simp] theorem setLaunchAt_descs (s : State) (u : Nat) (l : Launch) : (s.setLaunchAt u l).descs = s.descs := rfl
@[simp] theorem setLaunchAt_trapvec0 (s : State) (u : Nat) (l : Launch) : (s.setLaunchAt u l).trapvec0 = s.trapvec0 := rfl
@[simp] theorem setLaunchAt_heldCtx (s : State) (u : Nat) (l : Launch) : (s.setLaunchAt u l).heldCtx = s.heldCtx := rfl
@[simp] theorem setLaunchAt_trees (s : State) (u : Nat) (l : Launch) : (s.setLaunchAt u l).trees = s.trees := rfl
@[simp] theorem setLaunchAt_resolves (s : State) (u : Nat) (l : Launch) : (s.setLaunchAt u l).resolves = s.resolves := rfl
@[simp] theorem setLaunchAt_queues (s : State) (u : Nat) (l : Launch) : (s.setLaunchAt u l).queues = s.queues := rfl
@[simp] theorem setLaunchAt_queueSeq (s : State) (u : Nat) (l : Launch) : (s.setLaunchAt u l).queueSeq = s.queueSeq := rfl
@[simp] theorem setLaunchAt_heldEvents (s : State) (u : Nat) (l : Launch) : (s.setLaunchAt u l).heldEvents = s.heldEvents := rfl
@[simp] theorem setLaunchAt_lostClusters (s : State) (u : Nat) (l : Launch) : (s.setLaunchAt u l).lostClusters = s.lostClusters := rfl
@[simp] theorem setLaunchAt_sparesUsed (s : State) (u : Nat) (l : Launch) : (s.setLaunchAt u l).sparesUsed = s.sparesUsed := rfl
@[simp] theorem setLaunchAt_rings (s : State) (u : Nat) (l : Launch) : (s.setLaunchAt u l).rings = s.rings := rfl
@[simp] theorem setLaunchAt_ringLast (s : State) (u : Nat) (l : Launch) : (s.setLaunchAt u l).ringLast = s.ringLast := rfl
@[simp] theorem setLaunchAt_hostAt (s : State) (u : Nat) (l : Launch) : (s.setLaunchAt u l).hostAt = s.hostAt := rfl
@[simp] theorem setLaunchAt_hostLink (s : State) (u : Nat) (l : Launch) : (s.setLaunchAt u l).hostLink = s.hostLink := rfl
@[simp] theorem setLaunchAt_bar2Answer (s : State) (u : Nat) (l : Launch) : (s.setLaunchAt u l).bar2Answer = s.bar2Answer := rfl
@[simp] theorem setLaunchAt_mgmt (s : State) (u : Nat) (l : Launch) : (s.setLaunchAt u l).mgmt = s.mgmt := rfl
@[simp] theorem setLaunchAt_scrubctl (s : State) (u : Nat) (l : Launch) : (s.setLaunchAt u l).scrubctl = s.scrubctl := rfl
@[simp] theorem setLaunchAt_mxIdle (s : State) (u : Nat) (l : Launch) : (s.setLaunchAt u l).mxIdle = s.mxIdle := rfl
@[simp] theorem setLaunchAt_mxIdleWas (s : State) (u : Nat) (l : Launch) : (s.setLaunchAt u l).mxIdleWas = s.mxIdleWas := rfl
@[simp] theorem setLaunchAt_errors (s : State) (u : Nat) (l : Launch) : (s.setLaunchAt u l).errors = s.errors := rfl
@[simp] theorem setLaunchAt_resets (s : State) (u : Nat) (l : Launch) : (s.setLaunchAt u l).resets = s.resets := rfl
@[simp] theorem setLaunchAt_withheld (s : State) (u : Nat) (l : Launch) : (s.setLaunchAt u l).withheld = s.withheld := rfl
@[simp] theorem setLaunchAt_channels (s : State) (u : Nat) (l : Launch) : (s.setLaunchAt u l).channels = s.channels := rfl
@[simp] theorem setLaunchAt_passStart (s : State) (u : Nat) (l : Launch) : (s.setLaunchAt u l).passStart = s.passStart := rfl
@[simp] theorem setLaunchAt_sliceSpares (s : State) (u : Nat) (l : Launch) : (s.setLaunchAt u l).sliceSpares = s.sliceSpares := rfl
@[simp] theorem setLaunchAt_sliceFloor (s : State) (u : Nat) (l : Launch) : (s.setLaunchAt u l).sliceFloor = s.sliceFloor := rfl
@[simp] theorem setLaunchAt_slicesLost (s : State) (u : Nat) (l : Launch) : (s.setLaunchAt u l).slicesLost = s.slicesLost := rfl
@[simp] theorem setLaunchAt_refreshAt (s : State) (u : Nat) (l : Launch) : (s.setLaunchAt u l).refreshAt = s.refreshAt := rfl
@[simp] theorem setLaunchAt_rfmAt (s : State) (u : Nat) (l : Launch) : (s.setLaunchAt u l).rfmAt = s.rfmAt := rfl
@[simp] theorem setLaunchAt_ports (s : State) (u : Nat) (l : Launch) : (s.setLaunchAt u l).ports = s.ports := rfl
@[simp] theorem setLaunchAt_flows (s : State) (u : Nat) (l : Launch) : (s.setLaunchAt u l).flows = s.flows := rfl
@[simp] theorem setLaunchAt_peerAnswers (s : State) (u : Nat) (l : Launch) : (s.setLaunchAt u l).peerAnswers = s.peerAnswers := rfl
@[simp] theorem setLaunchAt_inSync (s : State) (u : Nat) (l : Launch) : (s.setLaunchAt u l).inSync = s.inSync := rfl
@[simp] theorem setLaunchAt_tickets (s : State) (u : Nat) (l : Launch) : (s.setLaunchAt u l).tickets = s.tickets := rfl
@[simp] theorem setLaunchAt_ticketSeq (s : State) (u : Nat) (l : Launch) : (s.setLaunchAt u l).ticketSeq = s.ticketSeq := rfl
@[simp] theorem setLaunchAt_collCount (s : State) (u : Nat) (l : Launch) : (s.setLaunchAt u l).collCount = s.collCount := rfl
@[simp] theorem setLaunchAt_running (s : State) (u : Nat) (l : Launch) : (s.setLaunchAt u l).running = s.running := rfl
@[simp] theorem setLaunchAt_choice (s : State) (u : Nat) (l : Launch) : (s.setLaunchAt u l).choice = s.choice := rfl
@[simp] theorem setLaunchAt_nextId (s : State) (u : Nat) (l : Launch) : (s.setLaunchAt u l).nextId = s.nextId := rfl
@[simp] theorem setLaunchAt_turns (s : State) (u : Nat) (l : Launch) : (s.setLaunchAt u l).turns = s.turns := rfl
@[simp] theorem setLaunchAt_cur (s : State) (u : Nat) (l : Launch) : (s.setLaunchAt u l).cur = s.cur := rfl

/-! ### setCoreAt -/

@[simp] theorem setCoreAt_gtime (s : State) (u : Nat) (c : Core) : (s.setCoreAt u c).gtime = s.gtime := rfl
@[simp] theorem setCoreAt_groups (s : State) (u : Nat) (c : Core) : (s.setCoreAt u c).groups = s.groups := rfl
@[simp] theorem setCoreAt_teams (s : State) (u : Nat) (c : Core) : (s.setCoreAt u c).teams = s.teams := rfl
@[simp] theorem setCoreAt_launches (s : State) (u : Nat) (c : Core) : (s.setCoreAt u c).launches = s.launches := rfl
@[simp] theorem setCoreAt_cores (s : State) (u : Nat) (c : Core) : (s.setCoreAt u c).cores = SMap.put s.cores u c := rfl
@[simp] theorem setCoreAt_clusters (s : State) (u : Nat) (c : Core) : (s.setCoreAt u c).clusters = s.clusters := rfl
@[simp] theorem setCoreAt_mem (s : State) (u : Nat) (c : Core) : (s.setCoreAt u c).mem = s.mem := rfl
@[simp] theorem setCoreAt_stamps (s : State) (u : Nat) (c : Core) : (s.setCoreAt u c).stamps = s.stamps := rfl
@[simp] theorem setCoreAt_frontier (s : State) (u : Nat) (c : Core) : (s.setCoreAt u c).frontier = s.frontier := rfl
@[simp] theorem setCoreAt_owners (s : State) (u : Nat) (c : Core) : (s.setCoreAt u c).owners = s.owners := rfl
@[simp] theorem setCoreAt_versions (s : State) (u : Nat) (c : Core) : (s.setCoreAt u c).versions = s.versions := rfl
@[simp] theorem setCoreAt_dramOld (s : State) (u : Nat) (c : Core) : (s.setCoreAt u c).dramOld = s.dramOld := rfl
@[simp] theorem setCoreAt_dramAt (s : State) (u : Nat) (c : Core) : (s.setCoreAt u c).dramAt = s.dramAt := rfl
@[simp] theorem setCoreAt_badUnits (s : State) (u : Nat) (c : Core) : (s.setCoreAt u c).badUnits = s.badUnits := rfl
@[simp] theorem setCoreAt_dramBad (s : State) (u : Nat) (c : Core) : (s.setCoreAt u c).dramBad = s.dramBad := rfl
@[simp] theorem setCoreAt_badSectors (s : State) (u : Nat) (c : Core) : (s.setCoreAt u c).badSectors = s.badSectors := rfl
@[simp] theorem setCoreAt_places (s : State) (u : Nat) (c : Core) : (s.setCoreAt u c).places = s.places := rfl
@[simp] theorem setCoreAt_leads (s : State) (u : Nat) (c : Core) : (s.setCoreAt u c).leads = s.leads := rfl
@[simp] theorem setCoreAt_l2 (s : State) (u : Nat) (c : Core) : (s.setCoreAt u c).l2 = s.l2 := rfl
@[simp] theorem setCoreAt_corrected (s : State) (u : Nat) (c : Core) : (s.setCoreAt u c).corrected = s.corrected := rfl
@[simp] theorem setCoreAt_postponed (s : State) (u : Nat) (c : Core) : (s.setCoreAt u c).postponed = s.postponed := rfl
@[simp] theorem setCoreAt_descs (s : State) (u : Nat) (c : Core) : (s.setCoreAt u c).descs = s.descs := rfl
@[simp] theorem setCoreAt_trapvec0 (s : State) (u : Nat) (c : Core) : (s.setCoreAt u c).trapvec0 = s.trapvec0 := rfl
@[simp] theorem setCoreAt_heldCtx (s : State) (u : Nat) (c : Core) : (s.setCoreAt u c).heldCtx = s.heldCtx := rfl
@[simp] theorem setCoreAt_trees (s : State) (u : Nat) (c : Core) : (s.setCoreAt u c).trees = s.trees := rfl
@[simp] theorem setCoreAt_resolves (s : State) (u : Nat) (c : Core) : (s.setCoreAt u c).resolves = s.resolves := rfl
@[simp] theorem setCoreAt_queues (s : State) (u : Nat) (c : Core) : (s.setCoreAt u c).queues = s.queues := rfl
@[simp] theorem setCoreAt_queueSeq (s : State) (u : Nat) (c : Core) : (s.setCoreAt u c).queueSeq = s.queueSeq := rfl
@[simp] theorem setCoreAt_heldEvents (s : State) (u : Nat) (c : Core) : (s.setCoreAt u c).heldEvents = s.heldEvents := rfl
@[simp] theorem setCoreAt_lostClusters (s : State) (u : Nat) (c : Core) : (s.setCoreAt u c).lostClusters = s.lostClusters := rfl
@[simp] theorem setCoreAt_sparesUsed (s : State) (u : Nat) (c : Core) : (s.setCoreAt u c).sparesUsed = s.sparesUsed := rfl
@[simp] theorem setCoreAt_rings (s : State) (u : Nat) (c : Core) : (s.setCoreAt u c).rings = s.rings := rfl
@[simp] theorem setCoreAt_ringLast (s : State) (u : Nat) (c : Core) : (s.setCoreAt u c).ringLast = s.ringLast := rfl
@[simp] theorem setCoreAt_hostAt (s : State) (u : Nat) (c : Core) : (s.setCoreAt u c).hostAt = s.hostAt := rfl
@[simp] theorem setCoreAt_hostLink (s : State) (u : Nat) (c : Core) : (s.setCoreAt u c).hostLink = s.hostLink := rfl
@[simp] theorem setCoreAt_bar2Answer (s : State) (u : Nat) (c : Core) : (s.setCoreAt u c).bar2Answer = s.bar2Answer := rfl
@[simp] theorem setCoreAt_mgmt (s : State) (u : Nat) (c : Core) : (s.setCoreAt u c).mgmt = s.mgmt := rfl
@[simp] theorem setCoreAt_scrubctl (s : State) (u : Nat) (c : Core) : (s.setCoreAt u c).scrubctl = s.scrubctl := rfl
@[simp] theorem setCoreAt_mxIdle (s : State) (u : Nat) (c : Core) : (s.setCoreAt u c).mxIdle = s.mxIdle := rfl
@[simp] theorem setCoreAt_mxIdleWas (s : State) (u : Nat) (c : Core) : (s.setCoreAt u c).mxIdleWas = s.mxIdleWas := rfl
@[simp] theorem setCoreAt_errors (s : State) (u : Nat) (c : Core) : (s.setCoreAt u c).errors = s.errors := rfl
@[simp] theorem setCoreAt_resets (s : State) (u : Nat) (c : Core) : (s.setCoreAt u c).resets = s.resets := rfl
@[simp] theorem setCoreAt_withheld (s : State) (u : Nat) (c : Core) : (s.setCoreAt u c).withheld = s.withheld := rfl
@[simp] theorem setCoreAt_channels (s : State) (u : Nat) (c : Core) : (s.setCoreAt u c).channels = s.channels := rfl
@[simp] theorem setCoreAt_passStart (s : State) (u : Nat) (c : Core) : (s.setCoreAt u c).passStart = s.passStart := rfl
@[simp] theorem setCoreAt_sliceSpares (s : State) (u : Nat) (c : Core) : (s.setCoreAt u c).sliceSpares = s.sliceSpares := rfl
@[simp] theorem setCoreAt_sliceFloor (s : State) (u : Nat) (c : Core) : (s.setCoreAt u c).sliceFloor = s.sliceFloor := rfl
@[simp] theorem setCoreAt_slicesLost (s : State) (u : Nat) (c : Core) : (s.setCoreAt u c).slicesLost = s.slicesLost := rfl
@[simp] theorem setCoreAt_refreshAt (s : State) (u : Nat) (c : Core) : (s.setCoreAt u c).refreshAt = s.refreshAt := rfl
@[simp] theorem setCoreAt_rfmAt (s : State) (u : Nat) (c : Core) : (s.setCoreAt u c).rfmAt = s.rfmAt := rfl
@[simp] theorem setCoreAt_ports (s : State) (u : Nat) (c : Core) : (s.setCoreAt u c).ports = s.ports := rfl
@[simp] theorem setCoreAt_flows (s : State) (u : Nat) (c : Core) : (s.setCoreAt u c).flows = s.flows := rfl
@[simp] theorem setCoreAt_peerAnswers (s : State) (u : Nat) (c : Core) : (s.setCoreAt u c).peerAnswers = s.peerAnswers := rfl
@[simp] theorem setCoreAt_inSync (s : State) (u : Nat) (c : Core) : (s.setCoreAt u c).inSync = s.inSync := rfl
@[simp] theorem setCoreAt_tickets (s : State) (u : Nat) (c : Core) : (s.setCoreAt u c).tickets = s.tickets := rfl
@[simp] theorem setCoreAt_ticketSeq (s : State) (u : Nat) (c : Core) : (s.setCoreAt u c).ticketSeq = s.ticketSeq := rfl
@[simp] theorem setCoreAt_collCount (s : State) (u : Nat) (c : Core) : (s.setCoreAt u c).collCount = s.collCount := rfl
@[simp] theorem setCoreAt_running (s : State) (u : Nat) (c : Core) : (s.setCoreAt u c).running = s.running := rfl
@[simp] theorem setCoreAt_choice (s : State) (u : Nat) (c : Core) : (s.setCoreAt u c).choice = s.choice := rfl
@[simp] theorem setCoreAt_nextId (s : State) (u : Nat) (c : Core) : (s.setCoreAt u c).nextId = s.nextId := rfl
@[simp] theorem setCoreAt_turns (s : State) (u : Nat) (c : Core) : (s.setCoreAt u c).turns = s.turns := rfl
@[simp] theorem setCoreAt_cur (s : State) (u : Nat) (c : Core) : (s.setCoreAt u c).cur = s.cur := rfl

/-! ### setClusterAt -/

@[simp] theorem setClusterAt_gtime (s : State) (u : Nat) (c : Cluster) : (s.setClusterAt u c).gtime = s.gtime := rfl
@[simp] theorem setClusterAt_groups (s : State) (u : Nat) (c : Cluster) : (s.setClusterAt u c).groups = s.groups := rfl
@[simp] theorem setClusterAt_teams (s : State) (u : Nat) (c : Cluster) : (s.setClusterAt u c).teams = s.teams := rfl
@[simp] theorem setClusterAt_launches (s : State) (u : Nat) (c : Cluster) : (s.setClusterAt u c).launches = s.launches := rfl
@[simp] theorem setClusterAt_cores (s : State) (u : Nat) (c : Cluster) : (s.setClusterAt u c).cores = s.cores := rfl
@[simp] theorem setClusterAt_clusters (s : State) (u : Nat) (c : Cluster) : (s.setClusterAt u c).clusters = SMap.put s.clusters u c := rfl
@[simp] theorem setClusterAt_mem (s : State) (u : Nat) (c : Cluster) : (s.setClusterAt u c).mem = s.mem := rfl
@[simp] theorem setClusterAt_stamps (s : State) (u : Nat) (c : Cluster) : (s.setClusterAt u c).stamps = s.stamps := rfl
@[simp] theorem setClusterAt_frontier (s : State) (u : Nat) (c : Cluster) : (s.setClusterAt u c).frontier = s.frontier := rfl
@[simp] theorem setClusterAt_owners (s : State) (u : Nat) (c : Cluster) : (s.setClusterAt u c).owners = s.owners := rfl
@[simp] theorem setClusterAt_versions (s : State) (u : Nat) (c : Cluster) : (s.setClusterAt u c).versions = s.versions := rfl
@[simp] theorem setClusterAt_dramOld (s : State) (u : Nat) (c : Cluster) : (s.setClusterAt u c).dramOld = s.dramOld := rfl
@[simp] theorem setClusterAt_dramAt (s : State) (u : Nat) (c : Cluster) : (s.setClusterAt u c).dramAt = s.dramAt := rfl
@[simp] theorem setClusterAt_badUnits (s : State) (u : Nat) (c : Cluster) : (s.setClusterAt u c).badUnits = s.badUnits := rfl
@[simp] theorem setClusterAt_dramBad (s : State) (u : Nat) (c : Cluster) : (s.setClusterAt u c).dramBad = s.dramBad := rfl
@[simp] theorem setClusterAt_badSectors (s : State) (u : Nat) (c : Cluster) : (s.setClusterAt u c).badSectors = s.badSectors := rfl
@[simp] theorem setClusterAt_places (s : State) (u : Nat) (c : Cluster) : (s.setClusterAt u c).places = s.places := rfl
@[simp] theorem setClusterAt_leads (s : State) (u : Nat) (c : Cluster) : (s.setClusterAt u c).leads = s.leads := rfl
@[simp] theorem setClusterAt_l2 (s : State) (u : Nat) (c : Cluster) : (s.setClusterAt u c).l2 = s.l2 := rfl
@[simp] theorem setClusterAt_corrected (s : State) (u : Nat) (c : Cluster) : (s.setClusterAt u c).corrected = s.corrected := rfl
@[simp] theorem setClusterAt_postponed (s : State) (u : Nat) (c : Cluster) : (s.setClusterAt u c).postponed = s.postponed := rfl
@[simp] theorem setClusterAt_descs (s : State) (u : Nat) (c : Cluster) : (s.setClusterAt u c).descs = s.descs := rfl
@[simp] theorem setClusterAt_trapvec0 (s : State) (u : Nat) (c : Cluster) : (s.setClusterAt u c).trapvec0 = s.trapvec0 := rfl
@[simp] theorem setClusterAt_heldCtx (s : State) (u : Nat) (c : Cluster) : (s.setClusterAt u c).heldCtx = s.heldCtx := rfl
@[simp] theorem setClusterAt_trees (s : State) (u : Nat) (c : Cluster) : (s.setClusterAt u c).trees = s.trees := rfl
@[simp] theorem setClusterAt_resolves (s : State) (u : Nat) (c : Cluster) : (s.setClusterAt u c).resolves = s.resolves := rfl
@[simp] theorem setClusterAt_queues (s : State) (u : Nat) (c : Cluster) : (s.setClusterAt u c).queues = s.queues := rfl
@[simp] theorem setClusterAt_queueSeq (s : State) (u : Nat) (c : Cluster) : (s.setClusterAt u c).queueSeq = s.queueSeq := rfl
@[simp] theorem setClusterAt_heldEvents (s : State) (u : Nat) (c : Cluster) : (s.setClusterAt u c).heldEvents = s.heldEvents := rfl
@[simp] theorem setClusterAt_lostClusters (s : State) (u : Nat) (c : Cluster) : (s.setClusterAt u c).lostClusters = s.lostClusters := rfl
@[simp] theorem setClusterAt_sparesUsed (s : State) (u : Nat) (c : Cluster) : (s.setClusterAt u c).sparesUsed = s.sparesUsed := rfl
@[simp] theorem setClusterAt_rings (s : State) (u : Nat) (c : Cluster) : (s.setClusterAt u c).rings = s.rings := rfl
@[simp] theorem setClusterAt_ringLast (s : State) (u : Nat) (c : Cluster) : (s.setClusterAt u c).ringLast = s.ringLast := rfl
@[simp] theorem setClusterAt_hostAt (s : State) (u : Nat) (c : Cluster) : (s.setClusterAt u c).hostAt = s.hostAt := rfl
@[simp] theorem setClusterAt_hostLink (s : State) (u : Nat) (c : Cluster) : (s.setClusterAt u c).hostLink = s.hostLink := rfl
@[simp] theorem setClusterAt_bar2Answer (s : State) (u : Nat) (c : Cluster) : (s.setClusterAt u c).bar2Answer = s.bar2Answer := rfl
@[simp] theorem setClusterAt_mgmt (s : State) (u : Nat) (c : Cluster) : (s.setClusterAt u c).mgmt = s.mgmt := rfl
@[simp] theorem setClusterAt_scrubctl (s : State) (u : Nat) (c : Cluster) : (s.setClusterAt u c).scrubctl = s.scrubctl := rfl
@[simp] theorem setClusterAt_mxIdle (s : State) (u : Nat) (c : Cluster) : (s.setClusterAt u c).mxIdle = s.mxIdle := rfl
@[simp] theorem setClusterAt_mxIdleWas (s : State) (u : Nat) (c : Cluster) : (s.setClusterAt u c).mxIdleWas = s.mxIdleWas := rfl
@[simp] theorem setClusterAt_errors (s : State) (u : Nat) (c : Cluster) : (s.setClusterAt u c).errors = s.errors := rfl
@[simp] theorem setClusterAt_resets (s : State) (u : Nat) (c : Cluster) : (s.setClusterAt u c).resets = s.resets := rfl
@[simp] theorem setClusterAt_withheld (s : State) (u : Nat) (c : Cluster) : (s.setClusterAt u c).withheld = s.withheld := rfl
@[simp] theorem setClusterAt_channels (s : State) (u : Nat) (c : Cluster) : (s.setClusterAt u c).channels = s.channels := rfl
@[simp] theorem setClusterAt_passStart (s : State) (u : Nat) (c : Cluster) : (s.setClusterAt u c).passStart = s.passStart := rfl
@[simp] theorem setClusterAt_sliceSpares (s : State) (u : Nat) (c : Cluster) : (s.setClusterAt u c).sliceSpares = s.sliceSpares := rfl
@[simp] theorem setClusterAt_sliceFloor (s : State) (u : Nat) (c : Cluster) : (s.setClusterAt u c).sliceFloor = s.sliceFloor := rfl
@[simp] theorem setClusterAt_slicesLost (s : State) (u : Nat) (c : Cluster) : (s.setClusterAt u c).slicesLost = s.slicesLost := rfl
@[simp] theorem setClusterAt_refreshAt (s : State) (u : Nat) (c : Cluster) : (s.setClusterAt u c).refreshAt = s.refreshAt := rfl
@[simp] theorem setClusterAt_rfmAt (s : State) (u : Nat) (c : Cluster) : (s.setClusterAt u c).rfmAt = s.rfmAt := rfl
@[simp] theorem setClusterAt_ports (s : State) (u : Nat) (c : Cluster) : (s.setClusterAt u c).ports = s.ports := rfl
@[simp] theorem setClusterAt_flows (s : State) (u : Nat) (c : Cluster) : (s.setClusterAt u c).flows = s.flows := rfl
@[simp] theorem setClusterAt_peerAnswers (s : State) (u : Nat) (c : Cluster) : (s.setClusterAt u c).peerAnswers = s.peerAnswers := rfl
@[simp] theorem setClusterAt_inSync (s : State) (u : Nat) (c : Cluster) : (s.setClusterAt u c).inSync = s.inSync := rfl
@[simp] theorem setClusterAt_tickets (s : State) (u : Nat) (c : Cluster) : (s.setClusterAt u c).tickets = s.tickets := rfl
@[simp] theorem setClusterAt_ticketSeq (s : State) (u : Nat) (c : Cluster) : (s.setClusterAt u c).ticketSeq = s.ticketSeq := rfl
@[simp] theorem setClusterAt_collCount (s : State) (u : Nat) (c : Cluster) : (s.setClusterAt u c).collCount = s.collCount := rfl
@[simp] theorem setClusterAt_running (s : State) (u : Nat) (c : Cluster) : (s.setClusterAt u c).running = s.running := rfl
@[simp] theorem setClusterAt_choice (s : State) (u : Nat) (c : Cluster) : (s.setClusterAt u c).choice = s.choice := rfl
@[simp] theorem setClusterAt_nextId (s : State) (u : Nat) (c : Cluster) : (s.setClusterAt u c).nextId = s.nextId := rfl
@[simp] theorem setClusterAt_turns (s : State) (u : Nat) (c : Cluster) : (s.setClusterAt u c).turns = s.turns := rfl
@[simp] theorem setClusterAt_cur (s : State) (u : Nat) (c : Cluster) : (s.setClusterAt u c).cur = s.cur := rfl

/-! ### setTreeAt -/

@[simp] theorem setTreeAt_gtime (s : State) (c : Nat) (t : HypTree) : (s.setTreeAt c t).gtime = s.gtime := rfl
@[simp] theorem setTreeAt_groups (s : State) (c : Nat) (t : HypTree) : (s.setTreeAt c t).groups = s.groups := rfl
@[simp] theorem setTreeAt_teams (s : State) (c : Nat) (t : HypTree) : (s.setTreeAt c t).teams = s.teams := rfl
@[simp] theorem setTreeAt_launches (s : State) (c : Nat) (t : HypTree) : (s.setTreeAt c t).launches = s.launches := rfl
@[simp] theorem setTreeAt_cores (s : State) (c : Nat) (t : HypTree) : (s.setTreeAt c t).cores = s.cores := rfl
@[simp] theorem setTreeAt_clusters (s : State) (c : Nat) (t : HypTree) : (s.setTreeAt c t).clusters = s.clusters := rfl
@[simp] theorem setTreeAt_mem (s : State) (c : Nat) (t : HypTree) : (s.setTreeAt c t).mem = s.mem := rfl
@[simp] theorem setTreeAt_stamps (s : State) (c : Nat) (t : HypTree) : (s.setTreeAt c t).stamps = s.stamps := rfl
@[simp] theorem setTreeAt_frontier (s : State) (c : Nat) (t : HypTree) : (s.setTreeAt c t).frontier = s.frontier := rfl
@[simp] theorem setTreeAt_owners (s : State) (c : Nat) (t : HypTree) : (s.setTreeAt c t).owners = s.owners := rfl
@[simp] theorem setTreeAt_versions (s : State) (c : Nat) (t : HypTree) : (s.setTreeAt c t).versions = s.versions := rfl
@[simp] theorem setTreeAt_dramOld (s : State) (c : Nat) (t : HypTree) : (s.setTreeAt c t).dramOld = s.dramOld := rfl
@[simp] theorem setTreeAt_dramAt (s : State) (c : Nat) (t : HypTree) : (s.setTreeAt c t).dramAt = s.dramAt := rfl
@[simp] theorem setTreeAt_badUnits (s : State) (c : Nat) (t : HypTree) : (s.setTreeAt c t).badUnits = s.badUnits := rfl
@[simp] theorem setTreeAt_dramBad (s : State) (c : Nat) (t : HypTree) : (s.setTreeAt c t).dramBad = s.dramBad := rfl
@[simp] theorem setTreeAt_badSectors (s : State) (c : Nat) (t : HypTree) : (s.setTreeAt c t).badSectors = s.badSectors := rfl
@[simp] theorem setTreeAt_places (s : State) (c : Nat) (t : HypTree) : (s.setTreeAt c t).places = s.places := rfl
@[simp] theorem setTreeAt_leads (s : State) (c : Nat) (t : HypTree) : (s.setTreeAt c t).leads = s.leads := rfl
@[simp] theorem setTreeAt_l2 (s : State) (c : Nat) (t : HypTree) : (s.setTreeAt c t).l2 = s.l2 := rfl
@[simp] theorem setTreeAt_corrected (s : State) (c : Nat) (t : HypTree) : (s.setTreeAt c t).corrected = s.corrected := rfl
@[simp] theorem setTreeAt_postponed (s : State) (c : Nat) (t : HypTree) : (s.setTreeAt c t).postponed = s.postponed := rfl
@[simp] theorem setTreeAt_descs (s : State) (c : Nat) (t : HypTree) : (s.setTreeAt c t).descs = s.descs := rfl
@[simp] theorem setTreeAt_trapvec0 (s : State) (c : Nat) (t : HypTree) : (s.setTreeAt c t).trapvec0 = s.trapvec0 := rfl
@[simp] theorem setTreeAt_heldCtx (s : State) (c : Nat) (t : HypTree) : (s.setTreeAt c t).heldCtx = s.heldCtx := rfl
@[simp] theorem setTreeAt_trees (s : State) (c : Nat) (t : HypTree) : (s.setTreeAt c t).trees = SMap.put s.trees c t := rfl
@[simp] theorem setTreeAt_resolves (s : State) (c : Nat) (t : HypTree) : (s.setTreeAt c t).resolves = s.resolves := rfl
@[simp] theorem setTreeAt_queues (s : State) (c : Nat) (t : HypTree) : (s.setTreeAt c t).queues = s.queues := rfl
@[simp] theorem setTreeAt_queueSeq (s : State) (c : Nat) (t : HypTree) : (s.setTreeAt c t).queueSeq = s.queueSeq := rfl
@[simp] theorem setTreeAt_heldEvents (s : State) (c : Nat) (t : HypTree) : (s.setTreeAt c t).heldEvents = s.heldEvents := rfl
@[simp] theorem setTreeAt_lostClusters (s : State) (c : Nat) (t : HypTree) : (s.setTreeAt c t).lostClusters = s.lostClusters := rfl
@[simp] theorem setTreeAt_sparesUsed (s : State) (c : Nat) (t : HypTree) : (s.setTreeAt c t).sparesUsed = s.sparesUsed := rfl
@[simp] theorem setTreeAt_rings (s : State) (c : Nat) (t : HypTree) : (s.setTreeAt c t).rings = s.rings := rfl
@[simp] theorem setTreeAt_ringLast (s : State) (c : Nat) (t : HypTree) : (s.setTreeAt c t).ringLast = s.ringLast := rfl
@[simp] theorem setTreeAt_hostAt (s : State) (c : Nat) (t : HypTree) : (s.setTreeAt c t).hostAt = s.hostAt := rfl
@[simp] theorem setTreeAt_hostLink (s : State) (c : Nat) (t : HypTree) : (s.setTreeAt c t).hostLink = s.hostLink := rfl
@[simp] theorem setTreeAt_bar2Answer (s : State) (c : Nat) (t : HypTree) : (s.setTreeAt c t).bar2Answer = s.bar2Answer := rfl
@[simp] theorem setTreeAt_mgmt (s : State) (c : Nat) (t : HypTree) : (s.setTreeAt c t).mgmt = s.mgmt := rfl
@[simp] theorem setTreeAt_scrubctl (s : State) (c : Nat) (t : HypTree) : (s.setTreeAt c t).scrubctl = s.scrubctl := rfl
@[simp] theorem setTreeAt_mxIdle (s : State) (c : Nat) (t : HypTree) : (s.setTreeAt c t).mxIdle = s.mxIdle := rfl
@[simp] theorem setTreeAt_mxIdleWas (s : State) (c : Nat) (t : HypTree) : (s.setTreeAt c t).mxIdleWas = s.mxIdleWas := rfl
@[simp] theorem setTreeAt_errors (s : State) (c : Nat) (t : HypTree) : (s.setTreeAt c t).errors = s.errors := rfl
@[simp] theorem setTreeAt_resets (s : State) (c : Nat) (t : HypTree) : (s.setTreeAt c t).resets = s.resets := rfl
@[simp] theorem setTreeAt_withheld (s : State) (c : Nat) (t : HypTree) : (s.setTreeAt c t).withheld = s.withheld := rfl
@[simp] theorem setTreeAt_channels (s : State) (c : Nat) (t : HypTree) : (s.setTreeAt c t).channels = s.channels := rfl
@[simp] theorem setTreeAt_passStart (s : State) (c : Nat) (t : HypTree) : (s.setTreeAt c t).passStart = s.passStart := rfl
@[simp] theorem setTreeAt_sliceSpares (s : State) (c : Nat) (t : HypTree) : (s.setTreeAt c t).sliceSpares = s.sliceSpares := rfl
@[simp] theorem setTreeAt_sliceFloor (s : State) (c : Nat) (t : HypTree) : (s.setTreeAt c t).sliceFloor = s.sliceFloor := rfl
@[simp] theorem setTreeAt_slicesLost (s : State) (c : Nat) (t : HypTree) : (s.setTreeAt c t).slicesLost = s.slicesLost := rfl
@[simp] theorem setTreeAt_refreshAt (s : State) (c : Nat) (t : HypTree) : (s.setTreeAt c t).refreshAt = s.refreshAt := rfl
@[simp] theorem setTreeAt_rfmAt (s : State) (c : Nat) (t : HypTree) : (s.setTreeAt c t).rfmAt = s.rfmAt := rfl
@[simp] theorem setTreeAt_ports (s : State) (c : Nat) (t : HypTree) : (s.setTreeAt c t).ports = s.ports := rfl
@[simp] theorem setTreeAt_flows (s : State) (c : Nat) (t : HypTree) : (s.setTreeAt c t).flows = s.flows := rfl
@[simp] theorem setTreeAt_peerAnswers (s : State) (c : Nat) (t : HypTree) : (s.setTreeAt c t).peerAnswers = s.peerAnswers := rfl
@[simp] theorem setTreeAt_inSync (s : State) (c : Nat) (t : HypTree) : (s.setTreeAt c t).inSync = s.inSync := rfl
@[simp] theorem setTreeAt_tickets (s : State) (c : Nat) (t : HypTree) : (s.setTreeAt c t).tickets = s.tickets := rfl
@[simp] theorem setTreeAt_ticketSeq (s : State) (c : Nat) (t : HypTree) : (s.setTreeAt c t).ticketSeq = s.ticketSeq := rfl
@[simp] theorem setTreeAt_collCount (s : State) (c : Nat) (t : HypTree) : (s.setTreeAt c t).collCount = s.collCount := rfl
@[simp] theorem setTreeAt_running (s : State) (c : Nat) (t : HypTree) : (s.setTreeAt c t).running = s.running := rfl
@[simp] theorem setTreeAt_choice (s : State) (c : Nat) (t : HypTree) : (s.setTreeAt c t).choice = s.choice := rfl
@[simp] theorem setTreeAt_nextId (s : State) (c : Nat) (t : HypTree) : (s.setTreeAt c t).nextId = s.nextId := rfl
@[simp] theorem setTreeAt_turns (s : State) (c : Nat) (t : HypTree) : (s.setTreeAt c t).turns = s.turns := rfl
@[simp] theorem setTreeAt_cur (s : State) (c : Nat) (t : HypTree) : (s.setTreeAt c t).cur = s.cur := rfl

/-! ### fresh -/

@[simp] theorem fresh_gtime (s : State) : (s.fresh).gtime = s.gtime := rfl
@[simp] theorem fresh_groups (s : State) : (s.fresh).groups = s.groups := rfl
@[simp] theorem fresh_teams (s : State) : (s.fresh).teams = s.teams := rfl
@[simp] theorem fresh_launches (s : State) : (s.fresh).launches = s.launches := rfl
@[simp] theorem fresh_cores (s : State) : (s.fresh).cores = s.cores := rfl
@[simp] theorem fresh_clusters (s : State) : (s.fresh).clusters = s.clusters := rfl
@[simp] theorem fresh_mem (s : State) : (s.fresh).mem = s.mem := rfl
@[simp] theorem fresh_stamps (s : State) : (s.fresh).stamps = s.stamps := rfl
@[simp] theorem fresh_frontier (s : State) : (s.fresh).frontier = s.frontier := rfl
@[simp] theorem fresh_owners (s : State) : (s.fresh).owners = s.owners := rfl
@[simp] theorem fresh_versions (s : State) : (s.fresh).versions = s.versions := rfl
@[simp] theorem fresh_dramOld (s : State) : (s.fresh).dramOld = s.dramOld := rfl
@[simp] theorem fresh_dramAt (s : State) : (s.fresh).dramAt = s.dramAt := rfl
@[simp] theorem fresh_badUnits (s : State) : (s.fresh).badUnits = s.badUnits := rfl
@[simp] theorem fresh_dramBad (s : State) : (s.fresh).dramBad = s.dramBad := rfl
@[simp] theorem fresh_badSectors (s : State) : (s.fresh).badSectors = s.badSectors := rfl
@[simp] theorem fresh_places (s : State) : (s.fresh).places = s.places := rfl
@[simp] theorem fresh_leads (s : State) : (s.fresh).leads = s.leads := rfl
@[simp] theorem fresh_l2 (s : State) : (s.fresh).l2 = s.l2 := rfl
@[simp] theorem fresh_corrected (s : State) : (s.fresh).corrected = s.corrected := rfl
@[simp] theorem fresh_postponed (s : State) : (s.fresh).postponed = s.postponed := rfl
@[simp] theorem fresh_descs (s : State) : (s.fresh).descs = s.descs := rfl
@[simp] theorem fresh_trapvec0 (s : State) : (s.fresh).trapvec0 = s.trapvec0 := rfl
@[simp] theorem fresh_heldCtx (s : State) : (s.fresh).heldCtx = s.heldCtx := rfl
@[simp] theorem fresh_trees (s : State) : (s.fresh).trees = s.trees := rfl
@[simp] theorem fresh_resolves (s : State) : (s.fresh).resolves = s.resolves := rfl
@[simp] theorem fresh_queues (s : State) : (s.fresh).queues = s.queues := rfl
@[simp] theorem fresh_queueSeq (s : State) : (s.fresh).queueSeq = s.queueSeq := rfl
@[simp] theorem fresh_heldEvents (s : State) : (s.fresh).heldEvents = s.heldEvents := rfl
@[simp] theorem fresh_lostClusters (s : State) : (s.fresh).lostClusters = s.lostClusters := rfl
@[simp] theorem fresh_sparesUsed (s : State) : (s.fresh).sparesUsed = s.sparesUsed := rfl
@[simp] theorem fresh_rings (s : State) : (s.fresh).rings = s.rings := rfl
@[simp] theorem fresh_ringLast (s : State) : (s.fresh).ringLast = s.ringLast := rfl
@[simp] theorem fresh_hostAt (s : State) : (s.fresh).hostAt = s.hostAt := rfl
@[simp] theorem fresh_hostLink (s : State) : (s.fresh).hostLink = s.hostLink := rfl
@[simp] theorem fresh_bar2Answer (s : State) : (s.fresh).bar2Answer = s.bar2Answer := rfl
@[simp] theorem fresh_mgmt (s : State) : (s.fresh).mgmt = s.mgmt := rfl
@[simp] theorem fresh_scrubctl (s : State) : (s.fresh).scrubctl = s.scrubctl := rfl
@[simp] theorem fresh_mxIdle (s : State) : (s.fresh).mxIdle = s.mxIdle := rfl
@[simp] theorem fresh_mxIdleWas (s : State) : (s.fresh).mxIdleWas = s.mxIdleWas := rfl
@[simp] theorem fresh_errors (s : State) : (s.fresh).errors = s.errors := rfl
@[simp] theorem fresh_resets (s : State) : (s.fresh).resets = s.resets := rfl
@[simp] theorem fresh_withheld (s : State) : (s.fresh).withheld = s.withheld := rfl
@[simp] theorem fresh_channels (s : State) : (s.fresh).channels = s.channels := rfl
@[simp] theorem fresh_passStart (s : State) : (s.fresh).passStart = s.passStart := rfl
@[simp] theorem fresh_sliceSpares (s : State) : (s.fresh).sliceSpares = s.sliceSpares := rfl
@[simp] theorem fresh_sliceFloor (s : State) : (s.fresh).sliceFloor = s.sliceFloor := rfl
@[simp] theorem fresh_slicesLost (s : State) : (s.fresh).slicesLost = s.slicesLost := rfl
@[simp] theorem fresh_refreshAt (s : State) : (s.fresh).refreshAt = s.refreshAt := rfl
@[simp] theorem fresh_rfmAt (s : State) : (s.fresh).rfmAt = s.rfmAt := rfl
@[simp] theorem fresh_ports (s : State) : (s.fresh).ports = s.ports := rfl
@[simp] theorem fresh_flows (s : State) : (s.fresh).flows = s.flows := rfl
@[simp] theorem fresh_peerAnswers (s : State) : (s.fresh).peerAnswers = s.peerAnswers := rfl
@[simp] theorem fresh_inSync (s : State) : (s.fresh).inSync = s.inSync := rfl
@[simp] theorem fresh_tickets (s : State) : (s.fresh).tickets = s.tickets := rfl
@[simp] theorem fresh_ticketSeq (s : State) : (s.fresh).ticketSeq = s.ticketSeq := rfl
@[simp] theorem fresh_collCount (s : State) : (s.fresh).collCount = s.collCount := rfl
@[simp] theorem fresh_running (s : State) : (s.fresh).running = s.running := rfl
@[simp] theorem fresh_choice (s : State) : (s.fresh).choice = s.choice := rfl
@[simp] theorem fresh_nextId (s : State) : s.fresh.nextId = s.nextId + 1 := rfl
@[simp] theorem fresh_turns (s : State) : (s.fresh).turns = s.turns := rfl
@[simp] theorem fresh_cur (s : State) : (s.fresh).cur = s.cur := rfl

end State

namespace Group

/-! ### wv -/

@[simp] theorem wv_team (g : Group) (n i : Nat) (x : W32) : (g.wv n i x).team = g.team := rfl
@[simp] theorem wv_gid (g : Group) (n i : Nat) (x : W32) : (g.wv n i x).gid = g.gid := rfl
@[simp] theorem wv_role (g : Group) (n i : Nat) (x : W32) : (g.wv n i x).role = g.role := rfl
@[simp] theorem wv_nv (g : Group) (n i : Nat) (x : W32) : (g.wv n i x).nv = g.nv := rfl
@[simp] theorem wv_nk (g : Group) (n i : Nat) (x : W32) : (g.wv n i x).nk = g.nk := rfl
@[simp] theorem wv_nm (g : Group) (n i : Nat) (x : W32) : (g.wv n i x).nm = g.nm := rfl
@[simp] theorem wv_present (g : Group) (n i : Nat) (x : W32) : (g.wv n i x).present = g.present := rfl
@[simp] theorem wv_helpers (g : Group) (n i : Nat) (x : W32) : (g.wv n i x).helpers = g.helpers := rfl
@[simp] theorem wv_k (g : Group) (n i : Nat) (x : W32) : (g.wv n i x).k = g.k := rfl
@[simp] theorem wv_p (g : Group) (n i : Nat) (x : W32) : (g.wv n i x).p = g.p := rfl
@[simp] theorem wv_m (g : Group) (n i : Nat) (x : W32) : (g.wv n i x).m = g.m := rfl
@[simp] theorem wv_t (g : Group) (n i : Nat) (x : W32) : (g.wv n i x).t = g.t := rfl
@[simp] theorem wv_j (g : Group) (n i : Nat) (x : W32) : (g.wv n i x).j = g.j := rfl
@[simp] theorem wv_quads (g : Group) (n i : Nat) (x : W32) : (g.wv n i x).quads = g.quads := rfl
@[simp] theorem wv_frags (g : Group) (n i : Nat) (x : W32) : (g.wv n i x).frags = g.frags := rfl
@[simp] theorem wv_horizon (g : Group) (n i : Nat) (x : W32) : (g.wv n i x).horizon = g.horizon := rfl
@[simp] theorem wv_mcr (g : Group) (n i : Nat) (x : W32) : (g.wv n i x).mcr = g.mcr := rfl
@[simp] theorem wv_hcur (g : Group) (n i : Nat) (x : W32) : (g.wv n i x).hcur = g.hcur := rfl
@[simp] theorem wv_fenced (g : Group) (n i : Nat) (x : W32) : (g.wv n i x).fenced = g.fenced := rfl
@[simp] theorem wv_cause (g : Group) (n i : Nat) (x : W32) : (g.wv n i x).cause = g.cause := rfl
@[simp] theorem wv_tpc (g : Group) (n i : Nat) (x : W32) : (g.wv n i x).tpc = g.tpc := rfl
@[simp] theorem wv_tval (g : Group) (n i : Nat) (x : W32) : (g.wv n i x).tval = g.tval := rfl
@[simp] theorem wv_hmode (g : Group) (n i : Nat) (x : W32) : (g.wv n i x).hmode = g.hmode := rfl
@[simp] theorem wv_hmask (g : Group) (n i : Nat) (x : W32) : (g.wv n i x).hmask = g.hmask := rfl
@[simp] theorem wv_uhmiss (g : Group) (n i : Nat) (x : W32) : (g.wv n i x).uhmiss = g.uhmiss := rfl
@[simp] theorem wv_ops (g : Group) (n i : Nat) (x : W32) : (g.wv n i x).ops = g.ops := rfl
@[simp] theorem wv_seqs (g : Group) (n i : Nat) (x : W32) : (g.wv n i x).seqs = g.seqs := rfl
@[simp] theorem wv_faults (g : Group) (n i : Nat) (x : W32) : (g.wv n i x).faults = g.faults := rfl
@[simp] theorem wv_exposed (g : Group) (n i : Nat) (x : W32) : (g.wv n i x).exposed = g.exposed := rfl
@[simp] theorem wv_pending (g : Group) (n i : Nat) (x : W32) : (g.wv n i x).pending = g.pending := rfl
@[simp] theorem wv_bmvLast (g : Group) (n i : Nat) (x : W32) : (g.wv n i x).bmvLast = g.bmvLast := rfl
@[simp] theorem wv_bmvRecon (g : Group) (n i : Nat) (x : W32) : (g.wv n i x).bmvRecon = g.bmvRecon := rfl
@[simp] theorem wv_orphan (g : Group) (n i : Nat) (x : W32) : (g.wv n i x).orphan = g.orphan := rfl
@[simp] theorem wv_partition (g : Group) (n i : Nat) (x : W32) : (g.wv n i x).partition = g.partition := rfl
@[simp] theorem wv_lastIssue (g : Group) (n i : Nat) (x : W32) : (g.wv n i x).lastIssue = g.lastIssue := rfl
@[simp] theorem wv_lastFrag (g : Group) (n i : Nat) (x : W32) : (g.wv n i x).lastFrag = g.lastFrag := rfl
@[simp] theorem wv_restoring (g : Group) (n i : Nat) (x : W32) : (g.wv n i x).restoring = g.restoring := rfl
@[simp] theorem wv_drawn (g : Group) (n i : Nat) (x : W32) : (g.wv n i x).drawn = g.drawn := rfl
@[simp] theorem wv_exited (g : Group) (n i : Nat) (x : W32) : (g.wv n i x).exited = g.exited := rfl

/-! ### wm -/

@[simp] theorem wm_team (g : Group) (n i : Nat) (x : W64) : (g.wm n i x).team = g.team := rfl
@[simp] theorem wm_gid (g : Group) (n i : Nat) (x : W64) : (g.wm n i x).gid = g.gid := rfl
@[simp] theorem wm_role (g : Group) (n i : Nat) (x : W64) : (g.wm n i x).role = g.role := rfl
@[simp] theorem wm_nv (g : Group) (n i : Nat) (x : W64) : (g.wm n i x).nv = g.nv := rfl
@[simp] theorem wm_nk (g : Group) (n i : Nat) (x : W64) : (g.wm n i x).nk = g.nk := rfl
@[simp] theorem wm_nm (g : Group) (n i : Nat) (x : W64) : (g.wm n i x).nm = g.nm := rfl
@[simp] theorem wm_present (g : Group) (n i : Nat) (x : W64) : (g.wm n i x).present = g.present := rfl
@[simp] theorem wm_helpers (g : Group) (n i : Nat) (x : W64) : (g.wm n i x).helpers = g.helpers := rfl
@[simp] theorem wm_v (g : Group) (n i : Nat) (x : W64) : (g.wm n i x).v = g.v := rfl
@[simp] theorem wm_k (g : Group) (n i : Nat) (x : W64) : (g.wm n i x).k = g.k := rfl
@[simp] theorem wm_p (g : Group) (n i : Nat) (x : W64) : (g.wm n i x).p = g.p := rfl
@[simp] theorem wm_t (g : Group) (n i : Nat) (x : W64) : (g.wm n i x).t = g.t := rfl
@[simp] theorem wm_j (g : Group) (n i : Nat) (x : W64) : (g.wm n i x).j = g.j := rfl
@[simp] theorem wm_quads (g : Group) (n i : Nat) (x : W64) : (g.wm n i x).quads = g.quads := rfl
@[simp] theorem wm_frags (g : Group) (n i : Nat) (x : W64) : (g.wm n i x).frags = g.frags := rfl
@[simp] theorem wm_horizon (g : Group) (n i : Nat) (x : W64) : (g.wm n i x).horizon = g.horizon := rfl
@[simp] theorem wm_mcr (g : Group) (n i : Nat) (x : W64) : (g.wm n i x).mcr = g.mcr := rfl
@[simp] theorem wm_hcur (g : Group) (n i : Nat) (x : W64) : (g.wm n i x).hcur = g.hcur := rfl
@[simp] theorem wm_fenced (g : Group) (n i : Nat) (x : W64) : (g.wm n i x).fenced = g.fenced := rfl
@[simp] theorem wm_cause (g : Group) (n i : Nat) (x : W64) : (g.wm n i x).cause = g.cause := rfl
@[simp] theorem wm_tpc (g : Group) (n i : Nat) (x : W64) : (g.wm n i x).tpc = g.tpc := rfl
@[simp] theorem wm_tval (g : Group) (n i : Nat) (x : W64) : (g.wm n i x).tval = g.tval := rfl
@[simp] theorem wm_hmode (g : Group) (n i : Nat) (x : W64) : (g.wm n i x).hmode = g.hmode := rfl
@[simp] theorem wm_hmask (g : Group) (n i : Nat) (x : W64) : (g.wm n i x).hmask = g.hmask := rfl
@[simp] theorem wm_uhmiss (g : Group) (n i : Nat) (x : W64) : (g.wm n i x).uhmiss = g.uhmiss := rfl
@[simp] theorem wm_ops (g : Group) (n i : Nat) (x : W64) : (g.wm n i x).ops = g.ops := rfl
@[simp] theorem wm_seqs (g : Group) (n i : Nat) (x : W64) : (g.wm n i x).seqs = g.seqs := rfl
@[simp] theorem wm_faults (g : Group) (n i : Nat) (x : W64) : (g.wm n i x).faults = g.faults := rfl
@[simp] theorem wm_exposed (g : Group) (n i : Nat) (x : W64) : (g.wm n i x).exposed = g.exposed := rfl
@[simp] theorem wm_pending (g : Group) (n i : Nat) (x : W64) : (g.wm n i x).pending = g.pending := rfl
@[simp] theorem wm_bmvLast (g : Group) (n i : Nat) (x : W64) : (g.wm n i x).bmvLast = g.bmvLast := rfl
@[simp] theorem wm_bmvRecon (g : Group) (n i : Nat) (x : W64) : (g.wm n i x).bmvRecon = g.bmvRecon := rfl
@[simp] theorem wm_orphan (g : Group) (n i : Nat) (x : W64) : (g.wm n i x).orphan = g.orphan := rfl
@[simp] theorem wm_partition (g : Group) (n i : Nat) (x : W64) : (g.wm n i x).partition = g.partition := rfl
@[simp] theorem wm_lastIssue (g : Group) (n i : Nat) (x : W64) : (g.wm n i x).lastIssue = g.lastIssue := rfl
@[simp] theorem wm_lastFrag (g : Group) (n i : Nat) (x : W64) : (g.wm n i x).lastFrag = g.lastFrag := rfl
@[simp] theorem wm_restoring (g : Group) (n i : Nat) (x : W64) : (g.wm n i x).restoring = g.restoring := rfl
@[simp] theorem wm_drawn (g : Group) (n i : Nat) (x : W64) : (g.wm n i x).drawn = g.drawn := rfl
@[simp] theorem wm_exited (g : Group) (n i : Nat) (x : W64) : (g.wm n i x).exited = g.exited := rfl

/-! ### wt -/

@[simp] theorem wt_team (g : Group) (n : Nat) (x : W64) : (g.wt n x).team = g.team := rfl
@[simp] theorem wt_gid (g : Group) (n : Nat) (x : W64) : (g.wt n x).gid = g.gid := rfl
@[simp] theorem wt_role (g : Group) (n : Nat) (x : W64) : (g.wt n x).role = g.role := rfl
@[simp] theorem wt_nv (g : Group) (n : Nat) (x : W64) : (g.wt n x).nv = g.nv := rfl
@[simp] theorem wt_nk (g : Group) (n : Nat) (x : W64) : (g.wt n x).nk = g.nk := rfl
@[simp] theorem wt_nm (g : Group) (n : Nat) (x : W64) : (g.wt n x).nm = g.nm := rfl
@[simp] theorem wt_present (g : Group) (n : Nat) (x : W64) : (g.wt n x).present = g.present := rfl
@[simp] theorem wt_helpers (g : Group) (n : Nat) (x : W64) : (g.wt n x).helpers = g.helpers := rfl
@[simp] theorem wt_v (g : Group) (n : Nat) (x : W64) : (g.wt n x).v = g.v := rfl
@[simp] theorem wt_k (g : Group) (n : Nat) (x : W64) : (g.wt n x).k = g.k := rfl
@[simp] theorem wt_p (g : Group) (n : Nat) (x : W64) : (g.wt n x).p = g.p := rfl
@[simp] theorem wt_m (g : Group) (n : Nat) (x : W64) : (g.wt n x).m = g.m := rfl
@[simp] theorem wt_j (g : Group) (n : Nat) (x : W64) : (g.wt n x).j = g.j := rfl
@[simp] theorem wt_quads (g : Group) (n : Nat) (x : W64) : (g.wt n x).quads = g.quads := rfl
@[simp] theorem wt_frags (g : Group) (n : Nat) (x : W64) : (g.wt n x).frags = g.frags := rfl
@[simp] theorem wt_horizon (g : Group) (n : Nat) (x : W64) : (g.wt n x).horizon = g.horizon := rfl
@[simp] theorem wt_mcr (g : Group) (n : Nat) (x : W64) : (g.wt n x).mcr = g.mcr := rfl
@[simp] theorem wt_hcur (g : Group) (n : Nat) (x : W64) : (g.wt n x).hcur = g.hcur := rfl
@[simp] theorem wt_fenced (g : Group) (n : Nat) (x : W64) : (g.wt n x).fenced = g.fenced := rfl
@[simp] theorem wt_cause (g : Group) (n : Nat) (x : W64) : (g.wt n x).cause = g.cause := rfl
@[simp] theorem wt_tpc (g : Group) (n : Nat) (x : W64) : (g.wt n x).tpc = g.tpc := rfl
@[simp] theorem wt_tval (g : Group) (n : Nat) (x : W64) : (g.wt n x).tval = g.tval := rfl
@[simp] theorem wt_hmode (g : Group) (n : Nat) (x : W64) : (g.wt n x).hmode = g.hmode := rfl
@[simp] theorem wt_hmask (g : Group) (n : Nat) (x : W64) : (g.wt n x).hmask = g.hmask := rfl
@[simp] theorem wt_uhmiss (g : Group) (n : Nat) (x : W64) : (g.wt n x).uhmiss = g.uhmiss := rfl
@[simp] theorem wt_ops (g : Group) (n : Nat) (x : W64) : (g.wt n x).ops = g.ops := rfl
@[simp] theorem wt_seqs (g : Group) (n : Nat) (x : W64) : (g.wt n x).seqs = g.seqs := rfl
@[simp] theorem wt_faults (g : Group) (n : Nat) (x : W64) : (g.wt n x).faults = g.faults := rfl
@[simp] theorem wt_exposed (g : Group) (n : Nat) (x : W64) : (g.wt n x).exposed = g.exposed := rfl
@[simp] theorem wt_pending (g : Group) (n : Nat) (x : W64) : (g.wt n x).pending = g.pending := rfl
@[simp] theorem wt_bmvLast (g : Group) (n : Nat) (x : W64) : (g.wt n x).bmvLast = g.bmvLast := rfl
@[simp] theorem wt_bmvRecon (g : Group) (n : Nat) (x : W64) : (g.wt n x).bmvRecon = g.bmvRecon := rfl
@[simp] theorem wt_orphan (g : Group) (n : Nat) (x : W64) : (g.wt n x).orphan = g.orphan := rfl
@[simp] theorem wt_partition (g : Group) (n : Nat) (x : W64) : (g.wt n x).partition = g.partition := rfl
@[simp] theorem wt_lastIssue (g : Group) (n : Nat) (x : W64) : (g.wt n x).lastIssue = g.lastIssue := rfl
@[simp] theorem wt_lastFrag (g : Group) (n : Nat) (x : W64) : (g.wt n x).lastFrag = g.lastFrag := rfl
@[simp] theorem wt_restoring (g : Group) (n : Nat) (x : W64) : (g.wt n x).restoring = g.restoring := rfl
@[simp] theorem wt_drawn (g : Group) (n : Nat) (x : W64) : (g.wt n x).drawn = g.drawn := rfl
@[simp] theorem wt_exited (g : Group) (n : Nat) (x : W64) : (g.wt n x).exited = g.exited := rfl

/-! ### wk -/

@[simp] theorem wk_team (g : Group) (n : Nat) (x : W64) : (g.wk n x).team = g.team := by unfold wk; split <;> rfl
@[simp] theorem wk_gid (g : Group) (n : Nat) (x : W64) : (g.wk n x).gid = g.gid := by unfold wk; split <;> rfl
@[simp] theorem wk_role (g : Group) (n : Nat) (x : W64) : (g.wk n x).role = g.role := by unfold wk; split <;> rfl
@[simp] theorem wk_nv (g : Group) (n : Nat) (x : W64) : (g.wk n x).nv = g.nv := by unfold wk; split <;> rfl
@[simp] theorem wk_nk (g : Group) (n : Nat) (x : W64) : (g.wk n x).nk = g.nk := by unfold wk; split <;> rfl
@[simp] theorem wk_nm (g : Group) (n : Nat) (x : W64) : (g.wk n x).nm = g.nm := by unfold wk; split <;> rfl
@[simp] theorem wk_present (g : Group) (n : Nat) (x : W64) : (g.wk n x).present = g.present := by unfold wk; split <;> rfl
@[simp] theorem wk_helpers (g : Group) (n : Nat) (x : W64) : (g.wk n x).helpers = g.helpers := by unfold wk; split <;> rfl
@[simp] theorem wk_v (g : Group) (n : Nat) (x : W64) : (g.wk n x).v = g.v := by unfold wk; split <;> rfl
@[simp] theorem wk_p (g : Group) (n : Nat) (x : W64) : (g.wk n x).p = g.p := by unfold wk; split <;> rfl
@[simp] theorem wk_m (g : Group) (n : Nat) (x : W64) : (g.wk n x).m = g.m := by unfold wk; split <;> rfl
@[simp] theorem wk_t (g : Group) (n : Nat) (x : W64) : (g.wk n x).t = g.t := by unfold wk; split <;> rfl
@[simp] theorem wk_j (g : Group) (n : Nat) (x : W64) : (g.wk n x).j = g.j := by unfold wk; split <;> rfl
@[simp] theorem wk_quads (g : Group) (n : Nat) (x : W64) : (g.wk n x).quads = g.quads := by unfold wk; split <;> rfl
@[simp] theorem wk_frags (g : Group) (n : Nat) (x : W64) : (g.wk n x).frags = g.frags := by unfold wk; split <;> rfl
@[simp] theorem wk_horizon (g : Group) (n : Nat) (x : W64) : (g.wk n x).horizon = g.horizon := by unfold wk; split <;> rfl
@[simp] theorem wk_mcr (g : Group) (n : Nat) (x : W64) : (g.wk n x).mcr = g.mcr := by unfold wk; split <;> rfl
@[simp] theorem wk_hcur (g : Group) (n : Nat) (x : W64) : (g.wk n x).hcur = g.hcur := by unfold wk; split <;> rfl
@[simp] theorem wk_fenced (g : Group) (n : Nat) (x : W64) : (g.wk n x).fenced = g.fenced := by unfold wk; split <;> rfl
@[simp] theorem wk_cause (g : Group) (n : Nat) (x : W64) : (g.wk n x).cause = g.cause := by unfold wk; split <;> rfl
@[simp] theorem wk_tpc (g : Group) (n : Nat) (x : W64) : (g.wk n x).tpc = g.tpc := by unfold wk; split <;> rfl
@[simp] theorem wk_tval (g : Group) (n : Nat) (x : W64) : (g.wk n x).tval = g.tval := by unfold wk; split <;> rfl
@[simp] theorem wk_hmode (g : Group) (n : Nat) (x : W64) : (g.wk n x).hmode = g.hmode := by unfold wk; split <;> rfl
@[simp] theorem wk_hmask (g : Group) (n : Nat) (x : W64) : (g.wk n x).hmask = g.hmask := by unfold wk; split <;> rfl
@[simp] theorem wk_uhmiss (g : Group) (n : Nat) (x : W64) : (g.wk n x).uhmiss = g.uhmiss := by unfold wk; split <;> rfl
@[simp] theorem wk_ops (g : Group) (n : Nat) (x : W64) : (g.wk n x).ops = g.ops := by unfold wk; split <;> rfl
@[simp] theorem wk_seqs (g : Group) (n : Nat) (x : W64) : (g.wk n x).seqs = g.seqs := by unfold wk; split <;> rfl
@[simp] theorem wk_faults (g : Group) (n : Nat) (x : W64) : (g.wk n x).faults = g.faults := by unfold wk; split <;> rfl
@[simp] theorem wk_exposed (g : Group) (n : Nat) (x : W64) : (g.wk n x).exposed = g.exposed := by unfold wk; split <;> rfl
@[simp] theorem wk_pending (g : Group) (n : Nat) (x : W64) : (g.wk n x).pending = g.pending := by unfold wk; split <;> rfl
@[simp] theorem wk_bmvLast (g : Group) (n : Nat) (x : W64) : (g.wk n x).bmvLast = g.bmvLast := by unfold wk; split <;> rfl
@[simp] theorem wk_bmvRecon (g : Group) (n : Nat) (x : W64) : (g.wk n x).bmvRecon = g.bmvRecon := by unfold wk; split <;> rfl
@[simp] theorem wk_orphan (g : Group) (n : Nat) (x : W64) : (g.wk n x).orphan = g.orphan := by unfold wk; split <;> rfl
@[simp] theorem wk_partition (g : Group) (n : Nat) (x : W64) : (g.wk n x).partition = g.partition := by unfold wk; split <;> rfl
@[simp] theorem wk_lastIssue (g : Group) (n : Nat) (x : W64) : (g.wk n x).lastIssue = g.lastIssue := by unfold wk; split <;> rfl
@[simp] theorem wk_lastFrag (g : Group) (n : Nat) (x : W64) : (g.wk n x).lastFrag = g.lastFrag := by unfold wk; split <;> rfl
@[simp] theorem wk_restoring (g : Group) (n : Nat) (x : W64) : (g.wk n x).restoring = g.restoring := by unfold wk; split <;> rfl
@[simp] theorem wk_drawn (g : Group) (n : Nat) (x : W64) : (g.wk n x).drawn = g.drawn := by unfold wk; split <;> rfl
@[simp] theorem wk_exited (g : Group) (n : Nat) (x : W64) : (g.wk n x).exited = g.exited := by unfold wk; split <;> rfl

/-! ### wp -/

@[simp] theorem wp_team (g : Group) (n : Nat) (on val : Mask) : (g.wp n on val).team = g.team := by unfold wp; split <;> rfl
@[simp] theorem wp_gid (g : Group) (n : Nat) (on val : Mask) : (g.wp n on val).gid = g.gid := by unfold wp; split <;> rfl
@[simp] theorem wp_role (g : Group) (n : Nat) (on val : Mask) : (g.wp n on val).role = g.role := by unfold wp; split <;> rfl
@[simp] theorem wp_nv (g : Group) (n : Nat) (on val : Mask) : (g.wp n on val).nv = g.nv := by unfold wp; split <;> rfl
@[simp] theorem wp_nk (g : Group) (n : Nat) (on val : Mask) : (g.wp n on val).nk = g.nk := by unfold wp; split <;> rfl
@[simp] theorem wp_nm (g : Group) (n : Nat) (on val : Mask) : (g.wp n on val).nm = g.nm := by unfold wp; split <;> rfl
@[simp] theorem wp_present (g : Group) (n : Nat) (on val : Mask) : (g.wp n on val).present = g.present := by unfold wp; split <;> rfl
@[simp] theorem wp_helpers (g : Group) (n : Nat) (on val : Mask) : (g.wp n on val).helpers = g.helpers := by unfold wp; split <;> rfl
@[simp] theorem wp_v (g : Group) (n : Nat) (on val : Mask) : (g.wp n on val).v = g.v := by unfold wp; split <;> rfl
@[simp] theorem wp_k (g : Group) (n : Nat) (on val : Mask) : (g.wp n on val).k = g.k := by unfold wp; split <;> rfl
@[simp] theorem wp_m (g : Group) (n : Nat) (on val : Mask) : (g.wp n on val).m = g.m := by unfold wp; split <;> rfl
@[simp] theorem wp_t (g : Group) (n : Nat) (on val : Mask) : (g.wp n on val).t = g.t := by unfold wp; split <;> rfl
@[simp] theorem wp_j (g : Group) (n : Nat) (on val : Mask) : (g.wp n on val).j = g.j := by unfold wp; split <;> rfl
@[simp] theorem wp_quads (g : Group) (n : Nat) (on val : Mask) : (g.wp n on val).quads = g.quads := by unfold wp; split <;> rfl
@[simp] theorem wp_frags (g : Group) (n : Nat) (on val : Mask) : (g.wp n on val).frags = g.frags := by unfold wp; split <;> rfl
@[simp] theorem wp_horizon (g : Group) (n : Nat) (on val : Mask) : (g.wp n on val).horizon = g.horizon := by unfold wp; split <;> rfl
@[simp] theorem wp_mcr (g : Group) (n : Nat) (on val : Mask) : (g.wp n on val).mcr = g.mcr := by unfold wp; split <;> rfl
@[simp] theorem wp_hcur (g : Group) (n : Nat) (on val : Mask) : (g.wp n on val).hcur = g.hcur := by unfold wp; split <;> rfl
@[simp] theorem wp_fenced (g : Group) (n : Nat) (on val : Mask) : (g.wp n on val).fenced = g.fenced := by unfold wp; split <;> rfl
@[simp] theorem wp_cause (g : Group) (n : Nat) (on val : Mask) : (g.wp n on val).cause = g.cause := by unfold wp; split <;> rfl
@[simp] theorem wp_tpc (g : Group) (n : Nat) (on val : Mask) : (g.wp n on val).tpc = g.tpc := by unfold wp; split <;> rfl
@[simp] theorem wp_tval (g : Group) (n : Nat) (on val : Mask) : (g.wp n on val).tval = g.tval := by unfold wp; split <;> rfl
@[simp] theorem wp_hmode (g : Group) (n : Nat) (on val : Mask) : (g.wp n on val).hmode = g.hmode := by unfold wp; split <;> rfl
@[simp] theorem wp_hmask (g : Group) (n : Nat) (on val : Mask) : (g.wp n on val).hmask = g.hmask := by unfold wp; split <;> rfl
@[simp] theorem wp_uhmiss (g : Group) (n : Nat) (on val : Mask) : (g.wp n on val).uhmiss = g.uhmiss := by unfold wp; split <;> rfl
@[simp] theorem wp_ops (g : Group) (n : Nat) (on val : Mask) : (g.wp n on val).ops = g.ops := by unfold wp; split <;> rfl
@[simp] theorem wp_seqs (g : Group) (n : Nat) (on val : Mask) : (g.wp n on val).seqs = g.seqs := by unfold wp; split <;> rfl
@[simp] theorem wp_faults (g : Group) (n : Nat) (on val : Mask) : (g.wp n on val).faults = g.faults := by unfold wp; split <;> rfl
@[simp] theorem wp_exposed (g : Group) (n : Nat) (on val : Mask) : (g.wp n on val).exposed = g.exposed := by unfold wp; split <;> rfl
@[simp] theorem wp_pending (g : Group) (n : Nat) (on val : Mask) : (g.wp n on val).pending = g.pending := by unfold wp; split <;> rfl
@[simp] theorem wp_bmvLast (g : Group) (n : Nat) (on val : Mask) : (g.wp n on val).bmvLast = g.bmvLast := by unfold wp; split <;> rfl
@[simp] theorem wp_bmvRecon (g : Group) (n : Nat) (on val : Mask) : (g.wp n on val).bmvRecon = g.bmvRecon := by unfold wp; split <;> rfl
@[simp] theorem wp_orphan (g : Group) (n : Nat) (on val : Mask) : (g.wp n on val).orphan = g.orphan := by unfold wp; split <;> rfl
@[simp] theorem wp_partition (g : Group) (n : Nat) (on val : Mask) : (g.wp n on val).partition = g.partition := by unfold wp; split <;> rfl
@[simp] theorem wp_lastIssue (g : Group) (n : Nat) (on val : Mask) : (g.wp n on val).lastIssue = g.lastIssue := by unfold wp; split <;> rfl
@[simp] theorem wp_lastFrag (g : Group) (n : Nat) (on val : Mask) : (g.wp n on val).lastFrag = g.lastFrag := by unfold wp; split <;> rfl
@[simp] theorem wp_restoring (g : Group) (n : Nat) (on val : Mask) : (g.wp n on val).restoring = g.restoring := by unfold wp; split <;> rfl
@[simp] theorem wp_drawn (g : Group) (n : Nat) (on val : Mask) : (g.wp n on val).drawn = g.drawn := by unfold wp; split <;> rfl
@[simp] theorem wp_exited (g : Group) (n : Nat) (on val : Mask) : (g.wp n on val).exited = g.exited := by unfold wp; split <;> rfl

/-! ### wj -/

@[simp] theorem wj_team (g : Group) (n : Nat) (x : JReg) : (g.wj n x).team = g.team := rfl
@[simp] theorem wj_gid (g : Group) (n : Nat) (x : JReg) : (g.wj n x).gid = g.gid := rfl
@[simp] theorem wj_role (g : Group) (n : Nat) (x : JReg) : (g.wj n x).role = g.role := rfl
@[simp] theorem wj_nv (g : Group) (n : Nat) (x : JReg) : (g.wj n x).nv = g.nv := rfl
@[simp] theorem wj_nk (g : Group) (n : Nat) (x : JReg) : (g.wj n x).nk = g.nk := rfl
@[simp] theorem wj_nm (g : Group) (n : Nat) (x : JReg) : (g.wj n x).nm = g.nm := rfl
@[simp] theorem wj_present (g : Group) (n : Nat) (x : JReg) : (g.wj n x).present = g.present := rfl
@[simp] theorem wj_helpers (g : Group) (n : Nat) (x : JReg) : (g.wj n x).helpers = g.helpers := rfl
@[simp] theorem wj_v (g : Group) (n : Nat) (x : JReg) : (g.wj n x).v = g.v := rfl
@[simp] theorem wj_k (g : Group) (n : Nat) (x : JReg) : (g.wj n x).k = g.k := rfl
@[simp] theorem wj_p (g : Group) (n : Nat) (x : JReg) : (g.wj n x).p = g.p := rfl
@[simp] theorem wj_m (g : Group) (n : Nat) (x : JReg) : (g.wj n x).m = g.m := rfl
@[simp] theorem wj_t (g : Group) (n : Nat) (x : JReg) : (g.wj n x).t = g.t := rfl
@[simp] theorem wj_quads (g : Group) (n : Nat) (x : JReg) : (g.wj n x).quads = g.quads := rfl
@[simp] theorem wj_frags (g : Group) (n : Nat) (x : JReg) : (g.wj n x).frags = g.frags := rfl
@[simp] theorem wj_horizon (g : Group) (n : Nat) (x : JReg) : (g.wj n x).horizon = g.horizon := rfl
@[simp] theorem wj_mcr (g : Group) (n : Nat) (x : JReg) : (g.wj n x).mcr = g.mcr := rfl
@[simp] theorem wj_hcur (g : Group) (n : Nat) (x : JReg) : (g.wj n x).hcur = g.hcur := rfl
@[simp] theorem wj_fenced (g : Group) (n : Nat) (x : JReg) : (g.wj n x).fenced = g.fenced := rfl
@[simp] theorem wj_cause (g : Group) (n : Nat) (x : JReg) : (g.wj n x).cause = g.cause := rfl
@[simp] theorem wj_tpc (g : Group) (n : Nat) (x : JReg) : (g.wj n x).tpc = g.tpc := rfl
@[simp] theorem wj_tval (g : Group) (n : Nat) (x : JReg) : (g.wj n x).tval = g.tval := rfl
@[simp] theorem wj_hmode (g : Group) (n : Nat) (x : JReg) : (g.wj n x).hmode = g.hmode := rfl
@[simp] theorem wj_hmask (g : Group) (n : Nat) (x : JReg) : (g.wj n x).hmask = g.hmask := rfl
@[simp] theorem wj_uhmiss (g : Group) (n : Nat) (x : JReg) : (g.wj n x).uhmiss = g.uhmiss := rfl
@[simp] theorem wj_ops (g : Group) (n : Nat) (x : JReg) : (g.wj n x).ops = g.ops := rfl
@[simp] theorem wj_seqs (g : Group) (n : Nat) (x : JReg) : (g.wj n x).seqs = g.seqs := rfl
@[simp] theorem wj_faults (g : Group) (n : Nat) (x : JReg) : (g.wj n x).faults = g.faults := rfl
@[simp] theorem wj_exposed (g : Group) (n : Nat) (x : JReg) : (g.wj n x).exposed = g.exposed := rfl
@[simp] theorem wj_pending (g : Group) (n : Nat) (x : JReg) : (g.wj n x).pending = g.pending := rfl
@[simp] theorem wj_bmvLast (g : Group) (n : Nat) (x : JReg) : (g.wj n x).bmvLast = g.bmvLast := rfl
@[simp] theorem wj_bmvRecon (g : Group) (n : Nat) (x : JReg) : (g.wj n x).bmvRecon = g.bmvRecon := rfl
@[simp] theorem wj_orphan (g : Group) (n : Nat) (x : JReg) : (g.wj n x).orphan = g.orphan := rfl
@[simp] theorem wj_partition (g : Group) (n : Nat) (x : JReg) : (g.wj n x).partition = g.partition := rfl
@[simp] theorem wj_lastIssue (g : Group) (n : Nat) (x : JReg) : (g.wj n x).lastIssue = g.lastIssue := rfl
@[simp] theorem wj_lastFrag (g : Group) (n : Nat) (x : JReg) : (g.wj n x).lastFrag = g.lastFrag := rfl
@[simp] theorem wj_restoring (g : Group) (n : Nat) (x : JReg) : (g.wj n x).restoring = g.restoring := rfl
@[simp] theorem wj_drawn (g : Group) (n : Nat) (x : JReg) : (g.wj n x).drawn = g.drawn := rfl
@[simp] theorem wj_exited (g : Group) (n : Nat) (x : JReg) : (g.wj n x).exited = g.exited := rfl

/-! ### setQuad -/

@[simp] theorem setQuad_team (g : Group) (q : Nat) (x : Quad) : (g.setQuad q x).team = g.team := rfl
@[simp] theorem setQuad_gid (g : Group) (q : Nat) (x : Quad) : (g.setQuad q x).gid = g.gid := rfl
@[simp] theorem setQuad_role (g : Group) (q : Nat) (x : Quad) : (g.setQuad q x).role = g.role := rfl
@[simp] theorem setQuad_nv (g : Group) (q : Nat) (x : Quad) : (g.setQuad q x).nv = g.nv := rfl
@[simp] theorem setQuad_nk (g : Group) (q : Nat) (x : Quad) : (g.setQuad q x).nk = g.nk := rfl
@[simp] theorem setQuad_nm (g : Group) (q : Nat) (x : Quad) : (g.setQuad q x).nm = g.nm := rfl
@[simp] theorem setQuad_present (g : Group) (q : Nat) (x : Quad) : (g.setQuad q x).present = g.present := rfl
@[simp] theorem setQuad_helpers (g : Group) (q : Nat) (x : Quad) : (g.setQuad q x).helpers = g.helpers := rfl
@[simp] theorem setQuad_v (g : Group) (q : Nat) (x : Quad) : (g.setQuad q x).v = g.v := rfl
@[simp] theorem setQuad_k (g : Group) (q : Nat) (x : Quad) : (g.setQuad q x).k = g.k := rfl
@[simp] theorem setQuad_p (g : Group) (q : Nat) (x : Quad) : (g.setQuad q x).p = g.p := rfl
@[simp] theorem setQuad_m (g : Group) (q : Nat) (x : Quad) : (g.setQuad q x).m = g.m := rfl
@[simp] theorem setQuad_t (g : Group) (q : Nat) (x : Quad) : (g.setQuad q x).t = g.t := rfl
@[simp] theorem setQuad_j (g : Group) (q : Nat) (x : Quad) : (g.setQuad q x).j = g.j := rfl
@[simp] theorem setQuad_frags (g : Group) (q : Nat) (x : Quad) : (g.setQuad q x).frags = g.frags := rfl
@[simp] theorem setQuad_horizon (g : Group) (q : Nat) (x : Quad) : (g.setQuad q x).horizon = g.horizon := rfl
@[simp] theorem setQuad_mcr (g : Group) (q : Nat) (x : Quad) : (g.setQuad q x).mcr = g.mcr := rfl
@[simp] theorem setQuad_hcur (g : Group) (q : Nat) (x : Quad) : (g.setQuad q x).hcur = g.hcur := rfl
@[simp] theorem setQuad_fenced (g : Group) (q : Nat) (x : Quad) : (g.setQuad q x).fenced = g.fenced := rfl
@[simp] theorem setQuad_cause (g : Group) (q : Nat) (x : Quad) : (g.setQuad q x).cause = g.cause := rfl
@[simp] theorem setQuad_tpc (g : Group) (q : Nat) (x : Quad) : (g.setQuad q x).tpc = g.tpc := rfl
@[simp] theorem setQuad_tval (g : Group) (q : Nat) (x : Quad) : (g.setQuad q x).tval = g.tval := rfl
@[simp] theorem setQuad_hmode (g : Group) (q : Nat) (x : Quad) : (g.setQuad q x).hmode = g.hmode := rfl
@[simp] theorem setQuad_hmask (g : Group) (q : Nat) (x : Quad) : (g.setQuad q x).hmask = g.hmask := rfl
@[simp] theorem setQuad_uhmiss (g : Group) (q : Nat) (x : Quad) : (g.setQuad q x).uhmiss = g.uhmiss := rfl
@[simp] theorem setQuad_ops (g : Group) (q : Nat) (x : Quad) : (g.setQuad q x).ops = g.ops := rfl
@[simp] theorem setQuad_seqs (g : Group) (q : Nat) (x : Quad) : (g.setQuad q x).seqs = g.seqs := rfl
@[simp] theorem setQuad_faults (g : Group) (q : Nat) (x : Quad) : (g.setQuad q x).faults = g.faults := rfl
@[simp] theorem setQuad_exposed (g : Group) (q : Nat) (x : Quad) : (g.setQuad q x).exposed = g.exposed := rfl
@[simp] theorem setQuad_pending (g : Group) (q : Nat) (x : Quad) : (g.setQuad q x).pending = g.pending := rfl
@[simp] theorem setQuad_bmvLast (g : Group) (q : Nat) (x : Quad) : (g.setQuad q x).bmvLast = g.bmvLast := rfl
@[simp] theorem setQuad_bmvRecon (g : Group) (q : Nat) (x : Quad) : (g.setQuad q x).bmvRecon = g.bmvRecon := rfl
@[simp] theorem setQuad_orphan (g : Group) (q : Nat) (x : Quad) : (g.setQuad q x).orphan = g.orphan := rfl
@[simp] theorem setQuad_partition (g : Group) (q : Nat) (x : Quad) : (g.setQuad q x).partition = g.partition := rfl
@[simp] theorem setQuad_lastIssue (g : Group) (q : Nat) (x : Quad) : (g.setQuad q x).lastIssue = g.lastIssue := rfl
@[simp] theorem setQuad_lastFrag (g : Group) (q : Nat) (x : Quad) : (g.setQuad q x).lastFrag = g.lastFrag := rfl
@[simp] theorem setQuad_bad (g : Group) (q : Nat) (x : Quad) : (g.setQuad q x).bad = g.bad := rfl
@[simp] theorem setQuad_restoring (g : Group) (q : Nat) (x : Quad) : (g.setQuad q x).restoring = g.restoring := rfl
@[simp] theorem setQuad_drawn (g : Group) (q : Nat) (x : Quad) : (g.setQuad q x).drawn = g.drawn := rfl
@[simp] theorem setQuad_exited (g : Group) (q : Nat) (x : Quad) : (g.setQuad q x).exited = g.exited := rfl

/-! ### setFrag -/

@[simp] theorem setFrag_team (g : Group) (f : Nat) (x : FragRec) : (g.setFrag f x).team = g.team := rfl
@[simp] theorem setFrag_gid (g : Group) (f : Nat) (x : FragRec) : (g.setFrag f x).gid = g.gid := rfl
@[simp] theorem setFrag_role (g : Group) (f : Nat) (x : FragRec) : (g.setFrag f x).role = g.role := rfl
@[simp] theorem setFrag_nv (g : Group) (f : Nat) (x : FragRec) : (g.setFrag f x).nv = g.nv := rfl
@[simp] theorem setFrag_nk (g : Group) (f : Nat) (x : FragRec) : (g.setFrag f x).nk = g.nk := rfl
@[simp] theorem setFrag_nm (g : Group) (f : Nat) (x : FragRec) : (g.setFrag f x).nm = g.nm := rfl
@[simp] theorem setFrag_present (g : Group) (f : Nat) (x : FragRec) : (g.setFrag f x).present = g.present := rfl
@[simp] theorem setFrag_helpers (g : Group) (f : Nat) (x : FragRec) : (g.setFrag f x).helpers = g.helpers := rfl
@[simp] theorem setFrag_v (g : Group) (f : Nat) (x : FragRec) : (g.setFrag f x).v = g.v := rfl
@[simp] theorem setFrag_k (g : Group) (f : Nat) (x : FragRec) : (g.setFrag f x).k = g.k := rfl
@[simp] theorem setFrag_p (g : Group) (f : Nat) (x : FragRec) : (g.setFrag f x).p = g.p := rfl
@[simp] theorem setFrag_m (g : Group) (f : Nat) (x : FragRec) : (g.setFrag f x).m = g.m := rfl
@[simp] theorem setFrag_t (g : Group) (f : Nat) (x : FragRec) : (g.setFrag f x).t = g.t := rfl
@[simp] theorem setFrag_j (g : Group) (f : Nat) (x : FragRec) : (g.setFrag f x).j = g.j := rfl
@[simp] theorem setFrag_quads (g : Group) (f : Nat) (x : FragRec) : (g.setFrag f x).quads = g.quads := rfl
@[simp] theorem setFrag_horizon (g : Group) (f : Nat) (x : FragRec) : (g.setFrag f x).horizon = g.horizon := rfl
@[simp] theorem setFrag_mcr (g : Group) (f : Nat) (x : FragRec) : (g.setFrag f x).mcr = g.mcr := rfl
@[simp] theorem setFrag_hcur (g : Group) (f : Nat) (x : FragRec) : (g.setFrag f x).hcur = g.hcur := rfl
@[simp] theorem setFrag_fenced (g : Group) (f : Nat) (x : FragRec) : (g.setFrag f x).fenced = g.fenced := rfl
@[simp] theorem setFrag_cause (g : Group) (f : Nat) (x : FragRec) : (g.setFrag f x).cause = g.cause := rfl
@[simp] theorem setFrag_tpc (g : Group) (f : Nat) (x : FragRec) : (g.setFrag f x).tpc = g.tpc := rfl
@[simp] theorem setFrag_tval (g : Group) (f : Nat) (x : FragRec) : (g.setFrag f x).tval = g.tval := rfl
@[simp] theorem setFrag_hmode (g : Group) (f : Nat) (x : FragRec) : (g.setFrag f x).hmode = g.hmode := rfl
@[simp] theorem setFrag_hmask (g : Group) (f : Nat) (x : FragRec) : (g.setFrag f x).hmask = g.hmask := rfl
@[simp] theorem setFrag_uhmiss (g : Group) (f : Nat) (x : FragRec) : (g.setFrag f x).uhmiss = g.uhmiss := rfl
@[simp] theorem setFrag_ops (g : Group) (f : Nat) (x : FragRec) : (g.setFrag f x).ops = g.ops := rfl
@[simp] theorem setFrag_seqs (g : Group) (f : Nat) (x : FragRec) : (g.setFrag f x).seqs = g.seqs := rfl
@[simp] theorem setFrag_faults (g : Group) (f : Nat) (x : FragRec) : (g.setFrag f x).faults = g.faults := rfl
@[simp] theorem setFrag_exposed (g : Group) (f : Nat) (x : FragRec) : (g.setFrag f x).exposed = g.exposed := rfl
@[simp] theorem setFrag_pending (g : Group) (f : Nat) (x : FragRec) : (g.setFrag f x).pending = g.pending := rfl
@[simp] theorem setFrag_bmvLast (g : Group) (f : Nat) (x : FragRec) : (g.setFrag f x).bmvLast = g.bmvLast := rfl
@[simp] theorem setFrag_bmvRecon (g : Group) (f : Nat) (x : FragRec) : (g.setFrag f x).bmvRecon = g.bmvRecon := rfl
@[simp] theorem setFrag_orphan (g : Group) (f : Nat) (x : FragRec) : (g.setFrag f x).orphan = g.orphan := rfl
@[simp] theorem setFrag_partition (g : Group) (f : Nat) (x : FragRec) : (g.setFrag f x).partition = g.partition := rfl
@[simp] theorem setFrag_lastIssue (g : Group) (f : Nat) (x : FragRec) : (g.setFrag f x).lastIssue = g.lastIssue := rfl
@[simp] theorem setFrag_lastFrag (g : Group) (f : Nat) (x : FragRec) : (g.setFrag f x).lastFrag = g.lastFrag := rfl
@[simp] theorem setFrag_bad (g : Group) (f : Nat) (x : FragRec) : (g.setFrag f x).bad = g.bad := rfl
@[simp] theorem setFrag_restoring (g : Group) (f : Nat) (x : FragRec) : (g.setFrag f x).restoring = g.restoring := rfl
@[simp] theorem setFrag_drawn (g : Group) (f : Nat) (x : FragRec) : (g.setFrag f x).drawn = g.drawn := rfl
@[simp] theorem setFrag_exited (g : Group) (f : Nat) (x : FragRec) : (g.setFrag f x).exited = g.exited := rfl

/-! ### setOp -/

@[simp] theorem setOp_team (g : Group) (id : Nat) (f : Op → Op) : (g.setOp id f).team = g.team := rfl
@[simp] theorem setOp_gid (g : Group) (id : Nat) (f : Op → Op) : (g.setOp id f).gid = g.gid := rfl
@[simp] theorem setOp_role (g : Group) (id : Nat) (f : Op → Op) : (g.setOp id f).role = g.role := rfl
@[simp] theorem setOp_nv (g : Group) (id : Nat) (f : Op → Op) : (g.setOp id f).nv = g.nv := rfl
@[simp] theorem setOp_nk (g : Group) (id : Nat) (f : Op → Op) : (g.setOp id f).nk = g.nk := rfl
@[simp] theorem setOp_nm (g : Group) (id : Nat) (f : Op → Op) : (g.setOp id f).nm = g.nm := rfl
@[simp] theorem setOp_present (g : Group) (id : Nat) (f : Op → Op) : (g.setOp id f).present = g.present := rfl
@[simp] theorem setOp_helpers (g : Group) (id : Nat) (f : Op → Op) : (g.setOp id f).helpers = g.helpers := rfl
@[simp] theorem setOp_v (g : Group) (id : Nat) (f : Op → Op) : (g.setOp id f).v = g.v := rfl
@[simp] theorem setOp_k (g : Group) (id : Nat) (f : Op → Op) : (g.setOp id f).k = g.k := rfl
@[simp] theorem setOp_p (g : Group) (id : Nat) (f : Op → Op) : (g.setOp id f).p = g.p := rfl
@[simp] theorem setOp_m (g : Group) (id : Nat) (f : Op → Op) : (g.setOp id f).m = g.m := rfl
@[simp] theorem setOp_t (g : Group) (id : Nat) (f : Op → Op) : (g.setOp id f).t = g.t := rfl
@[simp] theorem setOp_j (g : Group) (id : Nat) (f : Op → Op) : (g.setOp id f).j = g.j := rfl
@[simp] theorem setOp_quads (g : Group) (id : Nat) (f : Op → Op) : (g.setOp id f).quads = g.quads := rfl
@[simp] theorem setOp_frags (g : Group) (id : Nat) (f : Op → Op) : (g.setOp id f).frags = g.frags := rfl
@[simp] theorem setOp_horizon (g : Group) (id : Nat) (f : Op → Op) : (g.setOp id f).horizon = g.horizon := rfl
@[simp] theorem setOp_mcr (g : Group) (id : Nat) (f : Op → Op) : (g.setOp id f).mcr = g.mcr := rfl
@[simp] theorem setOp_hcur (g : Group) (id : Nat) (f : Op → Op) : (g.setOp id f).hcur = g.hcur := rfl
@[simp] theorem setOp_fenced (g : Group) (id : Nat) (f : Op → Op) : (g.setOp id f).fenced = g.fenced := rfl
@[simp] theorem setOp_cause (g : Group) (id : Nat) (f : Op → Op) : (g.setOp id f).cause = g.cause := rfl
@[simp] theorem setOp_tpc (g : Group) (id : Nat) (f : Op → Op) : (g.setOp id f).tpc = g.tpc := rfl
@[simp] theorem setOp_tval (g : Group) (id : Nat) (f : Op → Op) : (g.setOp id f).tval = g.tval := rfl
@[simp] theorem setOp_hmode (g : Group) (id : Nat) (f : Op → Op) : (g.setOp id f).hmode = g.hmode := rfl
@[simp] theorem setOp_hmask (g : Group) (id : Nat) (f : Op → Op) : (g.setOp id f).hmask = g.hmask := rfl
@[simp] theorem setOp_uhmiss (g : Group) (id : Nat) (f : Op → Op) : (g.setOp id f).uhmiss = g.uhmiss := rfl
@[simp] theorem setOp_seqs (g : Group) (id : Nat) (f : Op → Op) : (g.setOp id f).seqs = g.seqs := rfl
@[simp] theorem setOp_faults (g : Group) (id : Nat) (f : Op → Op) : (g.setOp id f).faults = g.faults := rfl
@[simp] theorem setOp_exposed (g : Group) (id : Nat) (f : Op → Op) : (g.setOp id f).exposed = g.exposed := rfl
@[simp] theorem setOp_pending (g : Group) (id : Nat) (f : Op → Op) : (g.setOp id f).pending = g.pending := rfl
@[simp] theorem setOp_bmvLast (g : Group) (id : Nat) (f : Op → Op) : (g.setOp id f).bmvLast = g.bmvLast := rfl
@[simp] theorem setOp_bmvRecon (g : Group) (id : Nat) (f : Op → Op) : (g.setOp id f).bmvRecon = g.bmvRecon := rfl
@[simp] theorem setOp_orphan (g : Group) (id : Nat) (f : Op → Op) : (g.setOp id f).orphan = g.orphan := rfl
@[simp] theorem setOp_partition (g : Group) (id : Nat) (f : Op → Op) : (g.setOp id f).partition = g.partition := rfl
@[simp] theorem setOp_lastIssue (g : Group) (id : Nat) (f : Op → Op) : (g.setOp id f).lastIssue = g.lastIssue := rfl
@[simp] theorem setOp_lastFrag (g : Group) (id : Nat) (f : Op → Op) : (g.setOp id f).lastFrag = g.lastFrag := rfl
@[simp] theorem setOp_bad (g : Group) (id : Nat) (f : Op → Op) : (g.setOp id f).bad = g.bad := rfl
@[simp] theorem setOp_restoring (g : Group) (id : Nat) (f : Op → Op) : (g.setOp id f).restoring = g.restoring := rfl
@[simp] theorem setOp_drawn (g : Group) (id : Nat) (f : Op → Op) : (g.setOp id f).drawn = g.drawn := rfl
@[simp] theorem setOp_exited (g : Group) (id : Nat) (f : Op → Op) : (g.setOp id f).exited = g.exited := rfl

end Group

end Sys2Proof.Machine
end

