-- ==== Sys2Proof/Laws/Store.lean ====
section
/-! SUPPORT. Laws of the sparse tables: reading after writing, and the canonical form. -/

namespace Sys2Proof.SMap

variable {α : Type}

@[simp] theorem get?_nil (i : Nat) : get? ([] : SMap α) i = none := rfl

@[simp] theorem get_nil (d : α) (i : Nat) : get d ([] : SMap α) i = d := rfl

/-- A table read where it was just listed. -/
@[simp] theorem get?_put_same (m : SMap α) (i : Nat) (x : α) : get? (put m i x) i = some x := by
  induction m with
  | nil => simp [put, get?]
  | cons e r ih =>
    obtain ⟨k, y⟩ := e
    simp only [put]
    split
    · simp [get?]
    · split
      · simp [get?]
      · rename_i h1 h2
        simp [get?, h1, ih]

/-- A listing leaves every other key alone. -/
theorem get?_put_other (m : SMap α) {i j : Nat} (x : α) (h : i ≠ j) : get? (put m i x) j = get? m j := by
  have hj : ¬ j = i := fun e => h e.symm
  induction m with
  | nil => simp [put, get?, hj]
  | cons e r ih =>
    obtain ⟨k, y⟩ := e
    simp only [put]
    split
    · rename_i h1
      subst h1
      simp [get?, hj]
    · split
      · simp [get?, hj]
      · simp [get?, ih]

@[simp] theorem get_put_same (d : α) (m : SMap α) (i : Nat) (x : α) : get d (put m i x) i = x := by simp [get]

theorem get_put_other (d : α) (m : SMap α) {i j : Nat} (x : α) (h : i ≠ j) : get d (put m i x) j = get d m j := by
  simp [get, get?_put_other m x h]

@[simp] theorem get?_erase_same (m : SMap α) (i : Nat) : get? (erase m i) i = none := by
  induction m with
  | nil => rfl
  | cons e r ih =>
    obtain ⟨k, y⟩ := e
    by_cases h : k = i
    · simpa [erase, h] using ih
    · have hf : erase ((k, y) :: r) i = (k, y) :: erase r i := by simp [erase, h]
      rw [hf, get?, if_neg (fun e => h e.symm), ih]

theorem get?_erase_other (m : SMap α) {i j : Nat} (h : i ≠ j) : get? (erase m i) j = get? m j := by
  induction m with
  | nil => rfl
  | cons e r ih =>
    obtain ⟨k, y⟩ := e
    by_cases hk : k = i
    · have hf : erase ((k, y) :: r) i = erase r i := by simp [erase, hk]
      rw [hf, ih, get?, if_neg (by omega)]
    · have hf : erase ((k, y) :: r) i = (k, y) :: erase r i := by simp [erase, hk]
      rw [hf, get?, get?, ih]

/-- A table read where it was just written. -/
@[simp] theorem get_set_same [DecidableEq α] (d : α) (m : SMap α) (i : Nat) (x : α) : get d (set d m i x) i = x := by
  unfold set
  split
  · rename_i h
    simp [get, h]
  · simp

/-- A write leaves every other key alone. -/
theorem get_set_other [DecidableEq α] (d : α) (m : SMap α) {i j : Nat} (x : α) (h : i ≠ j) :
    get d (set d m i x) j = get d m j := by
  unfold set
  split
  · simp [get, get?_erase_other m h]
  · exact get_put_other d m x h

theorem get_set [DecidableEq α] (d : α) (m : SMap α) (i j : Nat) (x : α) :
    get d (set d m i x) j = if i = j then x else get d m j := by
  split
  · rename_i h; subst h; simp
  · rename_i h; exact get_set_other d m x h

theorem get_put (d : α) (m : SMap α) (i j : Nat) (x : α) :
    get d (put m i x) j = if i = j then x else get d m j := by
  split
  · rename_i h; subst h; simp
  · rename_i h; exact get_put_other d m x h

/-! ### The canonical form -/

theorem sortedFrom_mono {lo lo' : Nat} (h : lo' ≤ lo) {m : SMap α} (hm : sortedFrom lo m = true) : sortedFrom lo' m = true := by
  cases m with
  | nil => rfl
  | cons e r =>
    obtain ⟨k, y⟩ := e
    simp only [sortedFrom, Bool.and_eq_true, decide_eq_true_eq] at hm ⊢
    exact ⟨by omega, hm.2⟩

theorem sortedFrom_put {lo i : Nat} (x : α) {m : SMap α} (hi : lo ≤ i) (hm : sortedFrom lo m = true) :
    sortedFrom lo (put m i x) = true := by
  induction m generalizing lo with
  | nil => simp [put, sortedFrom, hi]
  | cons e r ih =>
    obtain ⟨k, y⟩ := e
    simp only [sortedFrom, Bool.and_eq_true, decide_eq_true_eq] at hm
    simp only [put]
    split
    · rename_i h; subst h
      simp only [sortedFrom, Bool.and_eq_true, decide_eq_true_eq]
      exact hm
    · split
      · simp only [sortedFrom, Bool.and_eq_true, decide_eq_true_eq]
        exact ⟨hi, by omega, hm.2⟩
      · simp only [sortedFrom, Bool.and_eq_true, decide_eq_true_eq]
        exact ⟨hm.1, ih (by omega) hm.2⟩

theorem sortedFrom_filter {lo : Nat} (p : Nat × α → Bool) {m : SMap α} (hm : sortedFrom lo m = true) :
    sortedFrom lo (m.filter p) = true := by
  induction m generalizing lo with
  | nil => rfl
  | cons e r ih =>
    obtain ⟨k, y⟩ := e
    simp only [sortedFrom, Bool.and_eq_true, decide_eq_true_eq] at hm
    by_cases h : p (k, y) = true
    · rw [List.filter_cons_of_pos h]
      simp only [sortedFrom, Bool.and_eq_true, decide_eq_true_eq]
      exact ⟨hm.1, ih hm.2⟩
    · rw [List.filter_cons_of_neg h]
      exact sortedFrom_mono (by omega) (ih hm.2)

theorem mem_put {e : Nat × α} {m : SMap α} {i : Nat} {x : α} (h : e ∈ put m i x) : e = (i, x) ∨ e ∈ m := by
  induction m with
  | nil => simpa [put] using h
  | cons a r ih =>
    obtain ⟨k, y⟩ := a
    simp only [put] at h
    split at h
    · rcases List.mem_cons.1 h with h | h
      · exact .inl h
      · exact .inr (List.mem_cons_of_mem _ h)
    · split at h
      · rcases List.mem_cons.1 h with h | h
        · exact .inl h
        · exact .inr h
      · rcases List.mem_cons.1 h with h | h
        · exact .inr (h ▸ List.mem_cons_self)
        · exact (ih h).imp_right (List.mem_cons_of_mem _)

/-- Writing keeps the canonical form. -/
theorem canonical_set [DecidableEq α] {d : α} {m : SMap α} (i : Nat) (x : α) (h : canonical d m = true) :
    canonical d (set d m i x) = true := by
  simp only [canonical, Bool.and_eq_true, List.all_eq_true, decide_eq_true_eq] at h ⊢
  unfold set
  split
  · exact ⟨sortedFrom_filter _ h.1, fun e he => h.2 e (List.mem_of_mem_filter he)⟩
  · rename_i hx
    refine ⟨sortedFrom_put x (Nat.zero_le i) h.1, fun e he => ?_⟩
    rcases mem_put he with rfl | he
    · exact hx
    · exact h.2 e he

end Sys2Proof.SMap
end

