-- ==== Sys2Proof/Laws/Regs.lean ====
section
/-! SUPPORT. Laws of registers and units: reading after writing, in every register file, and the hard-wired registers
(R22). -/

namespace Sys2Proof.Machine

open Sys2Proof (SMap)

/-- Lanes of registers have keys of their own. -/
theorem laneKey_inj {n i m j : Nat} (hi : i < 32) (hj : j < 32) (h : laneKey n i = laneKey m j) : n = m ∧ i = j := by
  unfold laneKey at h
  omega

namespace Group

@[simp] theorem rv_wv_same (g : Group) (n i : Nat) (x : W32) : (g.wv n i x).rv n i = x := by simp [rv, wv]

theorem rv_wv_other (g : Group) {n i m j : Nat} (x : W32) (h : laneKey n i ≠ laneKey m j) : (g.wv n i x).rv m j = g.rv m j := by
  simp [rv, wv, SMap.get_set_other _ _ _ h]

@[simp] theorem rk_zero (g : Group) : g.rk 0 = 0#64 := rfl

@[simp] theorem wk_zero (g : Group) (x : W64) : g.wk 0 x = g := rfl

theorem rk_wk (g : Group) (n m : Nat) (x : W64) : (g.wk n x).rk m = if n = m ∧ n ≠ 0 then x else g.rk m := by
  by_cases hn : n = 0
  · subst hn; simp
  · by_cases hm : m = 0
    · subst hm; simp [hn]
    · simp [rk, wk, hn, hm, SMap.get_set]

@[simp] theorem rp_zero (g : Group) : g.rp 0 = ~~~0#32 := rfl

@[simp] theorem wp_zero (g : Group) (on x : Mask) : g.wp 0 on x = g := rfl

theorem rp_wp (g : Group) (n m : Nat) (on x : Mask) :
    (g.wp n on x).rp m = if n = m ∧ n ≠ 0 then (g.rp n &&& ~~~on) ||| (x &&& on) else g.rp m := by
  by_cases hn : n = 0
  · subst hn; simp
  · by_cases hm : m = 0
    · subst hm; simp [hn]
    · by_cases h : n = m <;> simp [rp, wp, hn, hm, SMap.get_set, h]

@[simp] theorem rm_wm_same (g : Group) (n i : Nat) (x : W64) : (g.wm n i x).rm n i = x := by simp [rm, wm]

theorem rm_wm_other (g : Group) {n i m j : Nat} (x : W64) (h : laneKey n i ≠ laneKey m j) : (g.wm n i x).rm m j = g.rm m j := by
  simp [rm, wm, SMap.get_set_other _ _ _ h]

theorem rt_wt (g : Group) (n m : Nat) (x : W64) : (g.wt n x).rt m = if n = m then x else g.rt m := by
  simp [rt, wt, SMap.get_set]

theorem rj_wj (g : Group) (n m : Nat) (x : JReg) : (g.wj n x).rj m = if n = m then x else g.rj m := by
  simp [rj, wj, SMap.get_set]

theorem quad_setQuad (g : Group) (q r : Nat) (x : Quad) : (g.setQuad q x).quad r = if q = r then x else g.quad r := by
  simp [quad, setQuad, SMap.get_put]

theorem frag_setFrag (g : Group) (f h : Nat) (x : FragRec) : (g.setFrag f x).frag h = if f = h then x else g.frag h := by
  simp [frag, setFrag, SMap.get_put]

/-! ### Registers depend on their own field alone -/

theorem rv_congr {g h : Group} (e : g.v = h.v) (n i : Nat) : g.rv n i = h.rv n i := by simp [rv, e]
theorem rk_congr {g h : Group} (e : g.k = h.k) (n : Nat) : g.rk n = h.rk n := by simp [rk, e]
theorem rp_congr {g h : Group} (e : g.p = h.p) (n : Nat) : g.rp n = h.rp n := by simp [rp, e]
theorem rm_congr {g h : Group} (e : g.m = h.m) (n i : Nat) : g.rm n i = h.rm n i := by simp [rm, e]
theorem rt_congr {g h : Group} (e : g.t = h.t) (n : Nat) : g.rt n = h.rt n := by simp [rt, e]
theorem rj_congr {g h : Group} (e : g.j = h.j) (n : Nat) : g.rj n = h.rj n := by simp [rj, e]

end Group

namespace State

@[simp] theorem grpAt_setGrpAt_same (s : State) (u : Nat) (g : Group) : (s.setGrpAt u g).grpAt u = g := by
  simp [grpAt, setGrpAt]

theorem grpAt_setGrpAt_other (s : State) {u w : Nat} (g : Group) (h : u ≠ w) : (s.setGrpAt u g).grpAt w = s.grpAt w := by
  simp [grpAt, setGrpAt, SMap.get_put_other _ _ _ h]

@[simp] theorem setGrp_cur (s : State) (g : Group) : (s.setGrp g).cur = s.cur := rfl

@[simp] theorem grp_setGrp (s : State) (g : Group) : (s.setGrp g).grp = g := by simp [grp, setGrp]

@[simp] theorem teamAt_setTeamAt_same (s : State) (u : Nat) (t : Team) : (s.setTeamAt u t).teamAt u = t := by
  simp [teamAt, setTeamAt]

theorem teamAt_setTeamAt_other (s : State) {u w : Nat} (t : Team) (h : u ≠ w) : (s.setTeamAt u t).teamAt w = s.teamAt w := by
  simp [teamAt, setTeamAt, SMap.get_put_other _ _ _ h]

@[simp] theorem grpAt_setTeamAt (s : State) (u w : Nat) (t : Team) : (s.setTeamAt u t).grpAt w = s.grpAt w := rfl

@[simp] theorem teamAt_setGrpAt (s : State) (u w : Nat) (g : Group) : (s.setGrpAt u g).teamAt w = s.teamAt w := rfl

@[simp] theorem teamAt_setGrp (s : State) (w : Nat) (g : Group) : (s.setGrp g).teamAt w = s.teamAt w := rfl

@[simp] theorem launchAt_setGrp (s : State) (w : Nat) (g : Group) : (s.setGrp g).launchAt w = s.launchAt w := rfl

@[simp] theorem coreAt_setCoreAt_same (s : State) (u : Nat) (c : Core) : (s.setCoreAt u c).coreAt u = c := by
  simp [coreAt, setCoreAt]

@[simp] theorem clusterAt_setClusterAt_same (s : State) (u : Nat) (c : Cluster) : (s.setClusterAt u c).clusterAt u = c := by
  simp [clusterAt, setClusterAt]

@[simp] theorem launchAt_setLaunchAt_same (s : State) (u : Nat) (l : Launch) : (s.setLaunchAt u l).launchAt u = l := by
  simp [launchAt, setLaunchAt]

/-- What changing a group does to the group it changes. -/
theorem grpAt_modGrp (s : State) (u w : Nat) (f : Group → Group) :
    (s.modGrp u f).grpAt w = if u = w ∧ (SMap.get? s.groups u).isSome then f (s.grpAt w) else s.grpAt w := by
  unfold modGrp
  cases h : SMap.get? s.groups u with
  | none => simp
  | some g =>
    by_cases e : u = w
    · subst e
      simp [grpAt, SMap.get, h]
    · simp [e, grpAt_setGrpAt_other s (f g) e]

end State

/-! ### A result in the lanes of a mask (R107) -/

namespace Operands

theorem members_lt {m : Mask} {i : Nat} (h : i ∈ Bits.members m) : i < 32 := by
  simp [Bits.members, Bits.lanes] at h
  exact h.1

theorem mem_members {m : Mask} {i : Nat} : i ∈ Bits.members m ↔ i < 32 ∧ Bits.has m i = true := by
  simp [Bits.members, Bits.lanes]

/-- Reading a register lane after a result has filled the lanes of a list. -/
theorem fold_wv_rv (l : List Nat) (hl : ∀ i ∈ l, i < 32) (n : Nat) (val : Nat → W32) (g : Group) (r j : Nat) (hj : j < 32) :
    (l.foldl (fun g' i => g'.wv n i (val i)) g).rv r j = if r = n ∧ j ∈ l then val j else g.rv r j := by
  induction l generalizing g with
  | nil => simp
  | cons a l ih =>
    have ha : a < 32 := hl a (by simp)
    rw [List.foldl_cons, ih (fun i hi => hl i (by simp [hi]))]
    by_cases h1 : r = n ∧ j ∈ l
    · simp [h1]
    · by_cases h2 : laneKey n a = laneKey r j
      · obtain ⟨rfl, rfl⟩ := laneKey_inj ha hj h2
        simp
      · rw [if_neg h1, Group.rv_wv_other _ _ h2]
        have : ¬ (r = n ∧ j ∈ a :: l) := by
          rintro ⟨rfl, hm⟩
          rcases List.mem_cons.1 hm with rfl | hm
          · exact h2 rfl
          · exact h1 ⟨rfl, hm⟩
        rw [if_neg this]

/-- Reading a register lane after `lanesTo` has filled v`n`. -/
theorem lanesTo_rv (m : Mask) (n : Nat) (f : W64 → W32) (val : Nat → W64) (g : Group) (r j : Nat) (hj : j < 32) :
    (lanesTo m (fun i x g => g.wv n i (f x)) val g).rv r j
      = if r = n ∧ Bits.has m j = true then f (val j) else g.rv r j := by
  unfold lanesTo
  rw [fold_wv_rv (Bits.members m) (fun i hi => members_lt hi) n (fun i => f (val i)) g r j hj]
  simp [mem_members, hj]

end Operands

end Sys2Proof.Machine
end

