-- ==== Sys2Proof/Laws/Issue.lean ====
section
/-! SUPPORT. The laws of an issue: what the accounting of an issue leaves alone, and what `issue` and `happen` answer. -/

namespace Sys2Proof.Machine

open Sys2Proof (SMap)

/-- `t` is `s` but for what the accounting of an issue by group `u` may change: the group's fragment records, spoiled
operations and last issue, windows that R144 spoils, and the count of free values used. -/
structure Booked (u : Nat) (s t : State) : Prop where
  state : t = { s with groups := t.groups, teams := t.teams, choice := t.choice }
  grp : t.grpAt u = { s.grpAt u with frags := (t.grpAt u).frags, ops := (t.grpAt u).ops, lastIssue := (t.grpAt u).lastIssue, lastFrag := (t.grpAt u).lastFrag }
  others : ∀ w, w ≠ u → t.grpAt w = s.grpAt w
  team : ∀ w, t.teamAt w = { s.teamAt w with windows := (t.teamAt w).windows }

namespace Booked

theorem refl (u : Nat) (s : State) : Booked u s s := ⟨rfl, rfl, fun _ _ => rfl, fun _ => rfl⟩

theorem trans {u : Nat} {a b c : State} (h : Booked u a b) (k : Booked u b c) : Booked u a c := by
  refine ⟨?_, ?_, fun w hw => (k.others w hw).trans (h.others w hw), fun w => ?_⟩
  · rw [k.state, h.state]
  · rw [k.grp, h.grp]
  · rw [k.team w, h.team w]

theorem foldl {α : Type} {u : Nat} (f : State → α → State) (hf : ∀ s x, Booked u s (f s x)) (l : List α) (s : State) :
    Booked u s (l.foldl f s) := by
  induction l generalizing s with
  | nil => exact refl u s
  | cons a l ih => exact (hf s a).trans (ih (f s a))

theorem of_setGrpAt {u : Nat} {s : State} {g : Group}
    (h : g = { s.grpAt u with frags := g.frags, ops := g.ops, lastIssue := g.lastIssue, lastFrag := g.lastFrag }) :
    Booked u s (s.setGrpAt u g) := by
  refine ⟨rfl, ?_, fun w hw => State.grpAt_setGrpAt_other s g (Ne.symm hw), fun _ => rfl⟩
  rw [State.grpAt_setGrpAt_same]
  exact h

theorem modGrp_setOp (u : Nat) (s : State) (id : Nat) (f : Op → Op) : Booked u s (s.modGrp u fun g => g.setOp id f) := by
  unfold State.modGrp
  cases h : SMap.get? s.groups u with
  | none => exact refl u s
  | some g =>
    apply of_setGrpAt
    have : s.grpAt u = g := by simp [State.grpAt, SMap.get, h]
    rw [this]; rfl

theorem scramble (u : Nat) (s : State) (team n : Nat) (rows : Mask) : Booked u s (s.scramble team n rows) := by
  unfold State.scramble
  cases h : SMap.get? (s.teamAt team).windows n with
  | none => simpa [h] using refl u s
  | some x =>
    simp only [h]
    refine ⟨rfl, rfl, fun _ _ => rfl, fun w => ?_⟩
    by_cases e : team = w
    · subst e
      simp [State.teamAt, State.setTeamAt]
    · simp [State.teamAt, State.setTeamAt, SMap.get_put_other _ _ _ e]

theorem spoilRows (u : Nat) (s : State) (e : Exposed) (rows : Mask) : Booked u s (s.spoilRows u e rows) := by
  unfold State.spoilRows
  split
  · split
    · exact scramble u s _ _ _
    · exact modGrp_setOp u s _ _
  · exact scramble u s _ _ _

theorem wroteRegs (u : Nat) (s : State) (w : List Forms.Reg) : Booked u s (s.wroteRegs u w) :=
  foldl (fun s e => s.spoilRows u e e.lanes) (fun s e => spoilRows u s e e.lanes) _ s

/-- The fragment records of a group change, and nothing else of it. -/
theorem of_setFrags {u : Nat} (s : State) (g : Group) (h : g = { s.grpAt u with frags := g.frags }) : Booked u s (s.setGrpAt u g) :=
  of_setGrpAt (by rw [h])

/-- An issue counts. -/
theorem tally (n : Nat) (s : State) : Booked s.cur.grp s (Issue.tally n s) := of_setGrpAt rfl

theorem relive (i : Instr) (s : State) : Booked s.cur.grp s (Issue.relive i s) := by
  unfold Issue.relive
  split
  · exact of_setFrags _ _ rfl
  · exact refl _ s

/-- The accounting of an issue. -/
theorem account (i : Instr) (s : State) : Booked s.cur.grp s (Issue.account i s) := by
  have hl : Booked s.cur.grp s (Issue.relive i (Issue.tally (Issue.counts i) s)) := (tally (Issue.counts i) s).trans (relive i (Issue.tally (Issue.counts i) s))
  unfold Issue.account
  generalize Issue.relive i (Issue.tally (Issue.counts i) s) = a at hl
  have hc : a.cur = s.cur := by rw [hl.state]
  simp only []
  split
  · exact hl
  · rw [hc]
    refine hl.trans (trans ?_ (wroteRegs _ _ _))
    rw [State.setGrp, State.grp, hc]
    exact of_setFrags _ _ rfl

variable {u : Nat} {s t : State}

theorem cur (h : Booked u s t) : t.cur = s.cur := by rw [h.state]
theorem mem (h : Booked u s t) : t.mem = s.mem := by rw [h.state]
theorem gtime (h : Booked u s t) : t.gtime = s.gtime := by rw [h.state]
theorem v (h : Booked u s t) : (t.grpAt u).v = (s.grpAt u).v := by rw [h.grp]
theorem k (h : Booked u s t) : (t.grpAt u).k = (s.grpAt u).k := by rw [h.grp]
theorem p (h : Booked u s t) : (t.grpAt u).p = (s.grpAt u).p := by rw [h.grp]
theorem m (h : Booked u s t) : (t.grpAt u).m = (s.grpAt u).m := by rw [h.grp]
theorem t' (h : Booked u s t) : (t.grpAt u).t = (s.grpAt u).t := by rw [h.grp]
theorem j (h : Booked u s t) : (t.grpAt u).j = (s.grpAt u).j := by rw [h.grp]
theorem quads (h : Booked u s t) : (t.grpAt u).quads = (s.grpAt u).quads := by rw [h.grp]

theorem active (h : Booked u s t) (f : Nat) : (t.grpAt u).active f = (s.grpAt u).active f := by
  have hq := h.quads
  simp [Group.active, Group.fragQuads, Group.quad, hq]

end Booked

namespace Issue

/-- The state in which an instruction's body runs: the group and the frame of `Booked`. -/
theorem account_booked (i : Instr) (s : State) : Booked s.cur.grp s (account i s) := Booked.account i s

@[simp] theorem account_cur (i : Instr) (s : State) : (account i s).cur = s.cur := (account_booked i s).cur
@[simp] theorem account_mem (i : Instr) (s : State) : (account i s).mem = s.mem := (account_booked i s).mem
@[simp] theorem account_gtime (i : Instr) (s : State) : (account i s).gtime = s.gtime := (account_booked i s).gtime

theorem account_grp (i : Instr) (s : State) : (account i s).grp = (account i s).grpAt s.cur.grp := by
  simp [State.grp]

@[simp] theorem account_rv (i : Instr) (s : State) (n l : Nat) : (account i s).grp.rv n l = s.grp.rv n l := by
  rw [account_grp]; exact Group.rv_congr (account_booked i s).v n l
@[simp] theorem account_rk (i : Instr) (s : State) (n : Nat) : (account i s).grp.rk n = s.grp.rk n := by
  rw [account_grp]; exact Group.rk_congr (account_booked i s).k n
@[simp] theorem account_rp (i : Instr) (s : State) (n : Nat) : (account i s).grp.rp n = s.grp.rp n := by
  rw [account_grp]; exact Group.rp_congr (account_booked i s).p n
@[simp] theorem account_rm (i : Instr) (s : State) (n l : Nat) : (account i s).grp.rm n l = s.grp.rm n l := by
  rw [account_grp]; exact Group.rm_congr (account_booked i s).m n l
@[simp] theorem account_rt (i : Instr) (s : State) (n : Nat) : (account i s).grp.rt n = s.grp.rt n := by
  rw [account_grp]; exact Group.rt_congr (account_booked i s).t' n
@[simp] theorem account_rj (i : Instr) (s : State) (n : Nat) : (account i s).grp.rj n = s.grp.rj n := by
  rw [account_grp]; exact Group.rj_congr (account_booked i s).j n

@[simp] theorem account_active (i : Instr) (s : State) : (account i s).active = s.active := by
  rw [State.active, account_grp, account_cur]; exact (account_booked i s).active s.cur.frag

@[simp] theorem account_exec (i : Instr) (s : State) (gd : Guard) : (account i s).exec gd = s.exec gd := by
  simp [State.exec]

@[simp] theorem account_refLane (i : Instr) (s : State) : (account i s).refLane = s.refLane := by simp [State.refLane]

@[simp] theorem tally_cur (n : Nat) (s : State) : (tally n s).cur = s.cur := rfl
@[simp] theorem tally_mem (n : Nat) (s : State) : (tally n s).mem = s.mem := rfl
@[simp] theorem tally_gtime (n : Nat) (s : State) : (tally n s).gtime = s.gtime := rfl

theorem tally_others (n : Nat) (s : State) {w : Nat} (h : w ≠ s.cur.grp) : (tally n s).grpAt w = s.grpAt w :=
  (Booked.tally n s).others w h

/-- A trap that has to wait for handler mode to end has not issued (R355). -/
theorem trap_waits {s : State} (h : s.mustWait = true) (c v : Nat) (pc : W64) : trap s c v pc = s.takeTrap c v pc := by
  simp [trap, h]

/-- Any other trap is taken by an instruction that has issued (R63, R306). -/
theorem trap_issues {s : State} (h : s.mustWait = false) (c v : Nat) (pc : W64) : trap s c v pc = (tally 1 s).takeTrap c v pc := by
  simp [trap, h]

/-- After an issue ending in `done`, the outcome of the issue is `issued`, and everything but quads is as the body left it. -/
theorem conclude_done (s t : State) : conclude s (.done t)
    = { t.setGrp (t.grp.advance s.cur.frag (Line.next s.cur.pc)) with cur := { s.cur with status := .issued } } := rfl

end Issue

/-- All that an issue can do. -/
theorem issue_cases (i : Instr) (s : State) (body : State → Res) :
    (s.cur.on = false ∧ issue i s body = .fault .noIssuer)
    ∨ (s.cur.on = true ∧ ∃ c v, Issue.precheck i s = some (c, v) ∧ issue i s body = .next (Issue.trap s c v s.cur.pc))
    ∨ (s.cur.on = true ∧ Issue.precheck i s = none ∧ issue i s body = .next (Issue.conclude s (body (Issue.account i s)))) := by
  unfold issue
  cases h : s.cur.on with
  | false => simp
  | true =>
    cases hp : Issue.precheck i s with
    | none => simp
    | some c => obtain ⟨c, v⟩ := c; simp [Issue.conclude]

/-- An instruction that passes the checks of R65 issues its body. -/
theorem issue_ready {i : Instr} {s : State} (on : s.cur.on = true) (ok : Issue.precheck i s = none) (body : State → Res) :
    issue i s body = .next (Issue.conclude s (body (Issue.account i s))) := by
  simp [issue, on, ok]

/-- A happening of the hardware always leaves a state. -/
theorem happen_next (s : State) (t : Option State) : happen s t = .next (t.getD s) := rfl

/-- An instruction that fails a check of R65 takes the trap of that check, which counts as an issue. -/
theorem issue_trap {i : Instr} {s : State} {c v : Nat} (on : s.cur.on = true) (h : Issue.precheck i s = some (c, v))
    (body : State → Res) : issue i s body = .next (Issue.trap s c v s.cur.pc) := by
  simp [issue, on, h, Issue.conclude]

end Sys2Proof.Machine
end

