-- ==== Sys2Proof/Laws/Frag.lean ====
section
/-! SUPPORT. Laws of a fragment's advance, of an instruction's result, and of a finished issue. -/

namespace Sys2Proof.Machine

open Sys2Proof (SMap Opd Opds IType)

namespace Group

/-- Where quads stand after a move. -/
theorem quad_movePc (g : Group) (qs : List Nat) (pc : W64) (q : Nat) :
    (g.movePc qs pc).quad q = if q ∈ qs then { g.quad q with pc := pc } else g.quad q := by
  unfold movePc
  induction qs generalizing g with
  | nil => simp
  | cons a l ih =>
    rw [List.foldl_cons, ih]
    simp only [quad_setQuad]
    by_cases h : a = q
    · subst h; simp
    · have : q ≠ a := fun e => h e.symm
      simp [h, this]

/-- A move changes nothing but quads. -/
theorem movePc_only (g : Group) (qs : List Nat) (pc : W64) : g.movePc qs pc = { g with quads := (g.movePc qs pc).quads } := by
  unfold movePc
  induction qs generalizing g with
  | nil => rfl
  | cons a l ih => rw [List.foldl_cons, ih]; rfl

theorem advance_only (g : Group) (f : Nat) (pc : W64) : g.advance f pc = { g with quads := (g.advance f pc).quads } :=
  movePc_only g _ pc

theorem quad_advance (g : Group) (f : Nat) (pc : W64) (q : Nat) :
    (g.advance f pc).quad q = if q ∈ g.fragQuads f then { g.quad q with pc := pc } else g.quad q := quad_movePc g _ pc q

/-- The quads that issue together depend on the quad table alone. -/
theorem fragQuads_congr {g h : Group} (e : g.quads = h.quads) (f : Nat) : g.fragQuads f = h.fragQuads f := by
  simp [fragQuads, quad, e]

/-- A pair reads as it was written (R106). -/
@[simp] theorem rv2_wv2_same (g : Group) (n i : Nat) (x : W64) : (g.wv2 n i x).rv2 n i = x := by
  have h : laneKey (n + 1) i ≠ laneKey n i := by unfold laneKey; omega
  simp only [rv2, wv2, rv_wv_same, rv_wv_other _ _ h, Bits.join, Bits.lo, Bits.hi]
  apply BitVec.eq_of_toNat_eq
  have hx := x.isLt
  rw [BitVec.toNat_append, ← Nat.shiftLeft_add_eq_or_of_lt (by simpa using Nat.mod_lt _ (by decide))]
  simp only [BitVec.truncate_eq_setWidth, BitVec.toNat_setWidth, BitVec.toNat_ushiftRight, Nat.shiftRight_eq_div_pow,
    Nat.shiftLeft_eq]
  omega

theorem rv2_wv2_other (g : Group) {n i m j : Nat} (x : W64) (h : ∀ a b, (a = n ∨ a = n + 1) → (b = m ∨ b = m + 1) → laneKey a i ≠ laneKey b j) :
    (g.wv2 n i x).rv2 m j = g.rv2 m j := by
  simp only [rv2, wv2]
  rw [rv_wv_other _ _ (h (n + 1) (m + 1) (by simp) (by simp)), rv_wv_other _ _ (h n (m + 1) (by simp) (by simp)),
    rv_wv_other _ _ (h (n + 1) m (by simp) (by simp)), rv_wv_other _ _ (h n m (by simp) (by simp))]

end Group

namespace Operands

/-- Reading a register pair after a result has filled the lanes of a list. -/
theorem fold_wv2_rv2 (l : List Nat) (hl : ∀ i ∈ l, i < 32) (n : Nat) (val : Nat → W64) (g : Group) (j : Nat) (hj : j < 32) :
    (l.foldl (fun g' i => g'.wv2 n i (val i)) g).rv2 n j = if j ∈ l then val j else g.rv2 n j := by
  induction l generalizing g with
  | nil => simp
  | cons a l ih =>
    have ha : a < 32 := hl a (by simp)
    rw [List.foldl_cons, ih (fun i hi => hl i (by simp [hi]))]
    by_cases h1 : j ∈ l
    · simp [h1]
    · rw [if_neg h1]
      by_cases h2 : j = a
      · subst h2; simp
      · have : j ∉ a :: l := by simp [h1, h2]
        rw [if_neg this, Group.rv2_wv2_other]
        rintro x y (rfl | rfl) (rfl | rfl) <;> unfold laneKey <;> omega

/-- Reading v`n` and its pair after `lanesTo` has filled it with 64-bit results. -/
theorem lanesTo_rv2 (m : Mask) (n : Nat) (val : Nat → W64) (g : Group) (j : Nat) (hj : j < 32) :
    (lanesTo m (fun i x g => g.wv2 n i x) val g).rv2 n j = if Bits.has m j = true then val j else g.rv2 n j := by
  unfold lanesTo
  rw [fold_wv2_rv2 (Bits.members m) (fun i hi => members_lt hi) n val g j hj]
  simp [mem_members, hj]

/-- A fold that changes one field of a group at a time leaves every other field: the general form. -/
theorem foldl_inv {α β : Type} (R : β → β → Prop) (refl : ∀ b, R b b) (trans : ∀ a b c, R a b → R b c → R a c)
    (f : β → α → β) (hf : ∀ b x, R b (f b x)) (l : List α) (b : β) : R b (l.foldl f b) := by
  induction l generalizing b with
  | nil => exact refl b
  | cons a l ih => exact trans _ _ _ (hf b a) (ih (f b a))

/-- `h` is `g` but for v and k registers, and the marks of uncorrectable registers. -/
def OnlyVK (g h : Group) : Prop := h = { g with v := h.v, k := h.k, bad := h.bad }

theorem OnlyVK.refl (g : Group) : OnlyVK g g := rfl

theorem OnlyVK.trans (a b c : Group) (h : OnlyVK a b) (k : OnlyVK b c) : OnlyVK a c := by
  unfold OnlyVK at *
  rw [k, h]

theorem onlyVK_putInt (ty : IType) (d : Opd) (l : Nat) (x : W64) (g : Group) : OnlyVK g (putInt ty d l x g) := by
  cases d with
  | v n => unfold putInt; cases ty.wide <;> rfl
  | k n => unfold putInt Group.wk; simp only []; split <;> rfl
  | _ => rfl

/-- A result of an integer type changes nothing but v and k registers. -/
theorem onlyVK_lanesTo (m : Mask) (ty : IType) (d : Opd) (val : Nat → W64) (g : Group) :
    OnlyVK g (lanesTo m (putInt ty d) val g) :=
  foldl_inv OnlyVK OnlyVK.refl OnlyVK.trans _ (fun b i => onlyVK_putInt ty d i (val i) b) _ g

end Operands

namespace Issue

/-- The issuing group after an issue that ended in `done`. -/
theorem conclude_done_grp {s t : State} (h : t.cur = s.cur) :
    (conclude s (.done t)).grp = t.grp.advance s.cur.frag (Line.next s.cur.pc) := by
  simp [conclude, State.grp, State.setGrp, State.grpAt, State.setGrpAt, h]

/-- What a finished issue leaves of the state its body left. -/
theorem conclude_done_state (s t : State) :
    conclude s (.done t) = { t with groups := (conclude s (.done t)).groups, cur := { s.cur with status := .issued } } := rfl

end Issue

end Sys2Proof.Machine
end

