-- ==== Sys2Proof/Laws/Memory.lean ====
section
/-! SUPPORT. Laws of HBM: every operation keeps its canonical form, a byte reads as it was written, and a write
leaves every other byte alone. -/

namespace Sys2Proof.Machine

theorem Memory.wf_set {m : List Host.Cell} (p : Nat) (b : Byte) (h : Memory.wf m = true) :
    Memory.wf (Memory.set m p b) = true := SMap.canonical_set p b h

theorem Memory.wf_write {m : List Host.Cell} (p : Nat) (bs : List Byte) (h : Memory.wf m = true) :
    Memory.wf (Memory.write m p bs) = true := by
  induction bs generalizing m p with
  | nil => exact h
  | cons b r ih => exact ih (p + 1) (Memory.wf_set p b h)

theorem Memory.byte_set (m : List Host.Cell) (p q : Nat) (b : Byte) :
    Memory.byte (Memory.set m p b) q = if p = q then b else Memory.byte m q := SMap.get_set 0#8 m p q b

/-- A byte outside those written reads as before. -/
theorem Memory.byte_write_out {m : List Host.Cell} {p q : Nat} {bs : List Byte} (h : q < p ∨ p + bs.length ≤ q) :
    Memory.byte (Memory.write m p bs) q = Memory.byte m q := by
  induction bs generalizing m p with
  | nil => rfl
  | cons b r ih =>
    simp only [List.length_cons] at h
    rw [Memory.write, ih (by omega), Memory.byte_set, if_neg (by omega)]

/-- Byte `i` of those written reads as written. -/
theorem Memory.byte_write_in {m : List Host.Cell} {p i : Nat} {bs : List Byte} (h : i < bs.length) :
    Memory.byte (Memory.write m p bs) (p + i) = bs.getD i 0#8 := by
  induction bs generalizing m p i with
  | nil => simp at h
  | cons b r ih =>
    cases i with
    | zero => rw [Memory.write, Memory.byte_write_out (by omega)]; simp [Memory.byte_set]
    | succ n =>
      have hn : p + (n + 1) = (p + 1) + n := by omega
      rw [Memory.write, hn, ih (by simpa using h)]
      simp

/-! ### Lines that come into their slices (R376) -/

/-- A line that comes in changes what slices hold, and what the channels and the error history know; nothing else. -/
structure Brought (s t : State) : Prop where
  only : t = { s with l2 := t.l2, badUnits := t.badUnits, channels := t.channels, errors := t.errors }

theorem Brought.refl (s : State) : Brought s s := ⟨rfl⟩
theorem Brought.trans {a b c : State} (h : Brought a b) (k : Brought b c) : Brought a c := by
  obtain ⟨h⟩ := h
  obtain ⟨k⟩ := k
  refine ⟨?_⟩
  rw [k, h]

theorem Brought.note (s : State) (a b c d : Nat) : Brought s (Up.note s a b c d) := ⟨rfl⟩

theorem Brought.markFailed (s : State) (c : Nat) : Brought s (Up.markFailed s c) := by
  unfold Up.markFailed
  simp only []
  split
  · exact ⟨rfl⟩
  · exact refl s

theorem Brought.countRebuild (s : State) (line : Nat) : Brought s (Up.countRebuild s line) := by
  unfold Up.countRebuild
  split
  · exact refl s
  · simp only []
    split
    · exact refl s
    · split
      · exact (Brought.mk rfl).trans (markFailed _ _)
      · exact ⟨rfl⟩

theorem Brought.bringIn (s : State) (line : Nat) : Brought s (Up.bringIn s line) := by
  unfold Up.bringIn
  split
  · exact refl s
  · simp only []
    have h : ∀ t : State, t = { s with l2 := t.l2, badUnits := t.badUnits } → Brought s t := by
      intro t h
      refine ⟨?_⟩
      rw [h]
    split
    · exact ((h _ rfl).trans (countRebuild _ _)).trans (note _ _ _ _ _)
    · exact (h _ rfl).trans (countRebuild _ _)

theorem Brought.bringLines (s : State) (p n : Nat) : Brought s (s.bringLines p n) := by
  unfold State.bringLines
  generalize ((wordsOf p n).map (· / 32)).eraseDups = l
  induction l generalizing s with
  | nil => exact refl s
  | cons a r ih => exact (bringIn s a).trans (ih _)

@[simp] theorem State.bringLines_mem (s : State) (p n : Nat) : (s.bringLines p n).mem = s.mem := by
  rw [(Brought.bringLines s p n).only]
@[simp] theorem State.bringLines_groups (s : State) (p n : Nat) : (s.bringLines p n).groups = s.groups := by
  rw [(Brought.bringLines s p n).only]
@[simp] theorem State.bringLines_teams (s : State) (p n : Nat) : (s.bringLines p n).teams = s.teams := by
  rw [(Brought.bringLines s p n).only]
@[simp] theorem State.bringLines_cur (s : State) (p n : Nat) : (s.bringLines p n).cur = s.cur := by
  rw [(Brought.bringLines s p n).only]
@[simp] theorem State.bringLines_gtime (s : State) (p n : Nat) : (s.bringLines p n).gtime = s.gtime := by
  rw [(Brought.bringLines s p n).only]
@[simp] theorem State.bringLines_nextId (s : State) (p n : Nat) : (s.bringLines p n).nextId = s.nextId := by
  rw [(Brought.bringLines s p n).only]
@[simp] theorem State.bringLines_stamps (s : State) (p n : Nat) : (s.bringLines p n).stamps = s.stamps := by
  rw [(Brought.bringLines s p n).only]

/-- What a write at a home slice does to HBM. -/
@[simp] theorem State.writeMem_mem (s : State) (p t : Nat) (bs : List Byte) :
    (s.writeMem p bs t).mem = Memory.write s.mem p bs := by simp [writeMem, keepDram, mendUnits, unmove]
@[simp] theorem State.writeMem_groups (s : State) (p t : Nat) (bs : List Byte) : (s.writeMem p bs t).groups = s.groups := by
  simp [writeMem, keepDram, mendUnits, unmove]
@[simp] theorem State.writeMem_teams (s : State) (p t : Nat) (bs : List Byte) : (s.writeMem p bs t).teams = s.teams := by
  simp [writeMem, keepDram, mendUnits, unmove]
@[simp] theorem State.writeMem_cur (s : State) (p t : Nat) (bs : List Byte) : (s.writeMem p bs t).cur = s.cur := by
  simp [writeMem, keepDram, mendUnits, unmove]
@[simp] theorem State.writeMem_gtime (s : State) (p t : Nat) (bs : List Byte) : (s.writeMem p bs t).gtime = s.gtime := by
  simp [writeMem, keepDram, mendUnits, unmove]
@[simp] theorem State.writeMem_nextId (s : State) (p t : Nat) (bs : List Byte) : (s.writeMem p bs t).nextId = s.nextId := by
  simp [writeMem, keepDram, mendUnits, unmove]

theorem State.wf_writeMem {s : State} (p t : Nat) (bs : List Byte) (h : Memory.wf s.mem = true) :
    Memory.wf (s.writeMem p bs t).mem = true := by rw [writeMem_mem]; exact Memory.wf_write p bs h

theorem Memory.wf_reset : Memory.wf State.reset.mem = true := rfl

end Sys2Proof.Machine
end

