-- ==== Sys2Proof/Laws/Ops.lean ====
section
/-! SUPPORT. The laws of the shared operations: what starting an operation, a store of the module, posting an event, taking
a trap and returning from one, and writing a result change, and what they leave alone. -/

namespace Sys2Proof.Machine

open Sys2Proof (SMap Opds)

namespace State

/-! ### Starting an operation (R34) -/

/-- Only the issuing group and the next number change. -/
theorem startOp_only (s : State) (o : Op) :
    s.startOp o = { s with groups := (s.startOp o).groups, nextId := s.nextId + 1 } := rfl

@[simp] theorem startOp_cur (s : State) (o : Op) : (s.startOp o).cur = s.cur := rfl
@[simp] theorem startOp_mem (s : State) (o : Op) : (s.startOp o).mem = s.mem := rfl
@[simp] theorem startOp_nextId (s : State) (o : Op) : (s.startOp o).nextId = s.nextId + 1 := rfl

/-- The group gains one operation, the last in issue order, and counts it in its class. -/
theorem startOp_grp (s : State) (o : Op) :
    (s.startOp o).grp =
      let n := SMap.get 0 s.grp.seqs (cntCode o.cls)
      { s.grp with
        ops := s.grp.ops ++ [
          { o with
            id := s.nextId, ord := n, hyp := s.grp.orphan.getD s.grp.hcur, time := s.gtime, dropped := s.grp.orphan.isSome
            pc := s.cur.pc.toNat }]
        seqs := SMap.put s.grp.seqs (cntCode o.cls) (n + 1) } :=
  grp_setGrp s _

theorem startOp_others (s : State) (o : Op) {w : Nat} (h : w ≠ s.cur.grp) : (s.startOp o).grpAt w = s.grpAt w :=
  grpAt_setGrpAt_other s _ (Ne.symm h)

/-! ### Stores of the module and events (R210, R352) -/

@[simp] theorem moduleStore_mem (s : State) (p : Nat) (bs : List Byte) : (s.moduleStore p bs).mem = Memory.write s.mem p bs := by
  simp [moduleStore, raiseFrontier]

theorem wf_moduleStore {s : State} (p : Nat) (bs : List Byte) (h : Memory.wf s.mem = true) :
    Memory.wf (s.moduleStore p bs).mem = true := by rw [moduleStore_mem]; exact Memory.wf_write p bs h

@[simp] theorem moduleStore_groups (s : State) (p : Nat) (bs : List Byte) : (s.moduleStore p bs).groups = s.groups := by
  simp [moduleStore, raiseFrontier]
@[simp] theorem moduleStore_teams (s : State) (p : Nat) (bs : List Byte) : (s.moduleStore p bs).teams = s.teams := by
  simp [moduleStore, raiseFrontier]
@[simp] theorem moduleStore_cur (s : State) (p : Nat) (bs : List Byte) : (s.moduleStore p bs).cur = s.cur := by
  simp [moduleStore, raiseFrontier]
@[simp] theorem moduleStore_gtime (s : State) (p : Nat) (bs : List Byte) : (s.moduleStore p bs).gtime = s.gtime := by
  simp [moduleStore, raiseFrontier]
@[simp] theorem moduleStore_nextId (s : State) (p : Nat) (bs : List Byte) : (s.moduleStore p bs).nextId = s.nextId := by
  simp [moduleStore, raiseFrontier]

/-- `t` is `s` but for what an event may change: HBM and the events held on chip. -/
structure Posted (s t : State) : Prop where
  groups : t.groups = s.groups
  teams : t.teams = s.teams
  cur : t.cur = s.cur
  gtime : t.gtime = s.gtime
  nextId : t.nextId = s.nextId
  wf : Memory.wf s.mem = true → Memory.wf t.mem = true

theorem posted_moduleStore (s : State) (p : Nat) (bs : List Byte) : Posted s (s.moduleStore p bs) :=
  ⟨moduleStore_groups s p bs, moduleStore_teams s p bs, moduleStore_cur s p bs, moduleStore_gtime s p bs,
    moduleStore_nextId s p bs, wf_moduleStore p bs⟩

theorem Posted.trans {a b c : State} (h : Posted a b) (k : Posted b c) : Posted a c :=
  ⟨k.groups.trans h.groups, k.teams.trans h.teams, k.cur.trans h.cur, k.gtime.trans h.gtime, k.nextId.trans h.nextId,
    fun w => k.wf (h.wf w)⟩

theorem posted_moduleUpdate (s : State) (p : Nat) (bs : List Byte) : Posted s (s.moduleUpdate p bs) := by
  unfold moduleUpdate
  split
  · exact (posted_moduleStore s p bs).trans ⟨rfl, rfl, rfl, rfl, rfl, id⟩
  · exact posted_moduleStore s p bs

theorem posted_writeEvent {s t : State} {owner : Nat} {e : Event} (h : s.writeEvent owner e = some t) : Posted s t := by
  unfold writeEvent at h
  simp only [] at h
  split at h
  · cases h
  · split at h
    · cases h
    · cases h
      exact (posted_moduleStore s _ _).trans (posted_moduleUpdate _ _ _)

theorem posted_sendEvent (s : State) (owner : Nat) (e : Event) : Posted s (s.sendEvent owner e) := by
  unfold sendEvent
  simp only []
  split
  · exact ⟨rfl, rfl, rfl, rfl, rfl, id⟩
  · split
    · exact posted_writeEvent ‹_›
    · split
      · exact ⟨rfl, rfl, rfl, rfl, rfl, id⟩
      · split
        · exact ⟨rfl, rfl, rfl, rfl, rfl, id⟩
        · exact posted_moduleUpdate s _ _

theorem posted_postTo (s : State) (owner ctx : Nat) (e : Event) : Posted s (s.postTo owner ctx e) := posted_sendEvent s owner _

/-- Posting an event leaves groups, teams and registers alone, and memory canonical. -/
theorem posted_postEvent (s : State) (ctx : Nat) (e : Event) : Posted s (s.postEvent ctx e) := posted_postTo s _ ctx e

/-! ### Taking a trap (R354 to R356) and returning (R362) -/

/-- In handler mode a fragment that holds no lane of HMASK waits (R355). -/
theorem takeTrap_waits {s : State} (cause tval : Nat) (pc : W64) (m : s.grp.hmode = true)
    (h : s.active &&& s.grp.hmask = 0#32) :
    s.takeTrap cause tval pc = { s.setGrp (s.grp.setFrag s.cur.frag { s.grp.frag s.cur.frag with trapWaits := true }) with
      cur := { s.cur with status := .held } } := by
  simp [takeTrap, mustWait, m, h]

/-- Outside handler mode the trap is taken at TRAPVEC, with CAUSE, TPC and TVAL saved and the fragment's lanes in HMASK
(R354). Nothing but the group and the issue's end changes. -/
theorem takeTrap_enters {s : State} (cause tval : Nat) (pc : W64) (m : s.grp.hmode = false)
    (h : s.trapvec s.ctx ≠ 0#64) :
    s.takeTrap cause tval pc =
      let g := { s.grp with
        cause := BitVec.ofNat 32 cause, tpc := pc, tval := BitVec.ofNat 64 tval, hmode := true, hmask := s.active }
      { s.setGrp ((g.advance s.cur.frag (s.trapvec s.ctx)).setFrag s.cur.frag
          { s.grp.frag s.cur.frag with checkedFetch := true }) with
        cur := { s.cur with status := .trapped } } := by
  unfold takeTrap
  have e : ({ s with cur := { s.cur with status := .trapped } } : State).trapvec s.ctx = s.trapvec s.ctx := rfl
  simp [mustWait, m, e, h, setGrp, setGrpAt, Group.frag]

@[simp] theorem returnTrap_mem (s : State) : s.returnTrap.mem = s.mem := rfl
@[simp] theorem returnTrap_cur (s : State) : s.returnTrap.cur = s.cur := rfl

theorem returnTrap_others (s : State) {w : Nat} (h : w ≠ s.cur.grp) : s.returnTrap.grpAt w = s.grpAt w :=
  grpAt_setGrpAt_other s _ (Ne.symm h)

end State

/-! ### A register instruction's result (R104, R107) -/

namespace Operands

theorem write_only (s : State) (o : Opds) (put : Nat → W64 → Group → Group) (val : Group → Nat → W64) :
    write s o put val = s.setGrp (write s o put val).grp := by simp [write]

@[simp] theorem write_cur (s : State) (o : Opds) (put : Nat → W64 → Group → Group) (val : Group → Nat → W64) :
    (write s o put val).cur = s.cur := rfl
@[simp] theorem write_mem (s : State) (o : Opds) (put : Nat → W64 → Group → Group) (val : Group → Nat → W64) :
    (write s o put val).mem = s.mem := rfl

/-- A k destination is written once, with the value of the reference lane. -/
theorem write_k {s : State} {o : Opds} (put : Nat → W64 → Group → Group) (val : Group → Nat → W64) (h : o.d.cls = 2) :
    (write s o put val).grp = put 0 (val s.grp s.refLane) s.grp := by simp [write, h]

/-- Any other is written in the lanes of exec_mask. -/
theorem write_lanes {s : State} {o : Opds} (put : Nat → W64 → Group → Group) (val : Group → Nat → W64) (h : o.d.cls ≠ 2) :
    (write s o put val).grp = lanesTo (s.exec o.guard) put (val s.grp) s.grp := by simp [write, h]

theorem write_others (s : State) (o : Opds) (put : Nat → W64 → Group → Group) (val : Group → Nat → W64) {w : Nat}
    (h : w ≠ s.cur.grp) : (write s o put val).grpAt w = s.grpAt w := State.grpAt_setGrpAt_other s _ (Ne.symm h)

end Operands

end Sys2Proof.Machine
end

