-- ==== Sys2Proof/Laws/PerInstr.lean ====
section
/-! SUPPORT. One law for each constructor: the major opcode and SUB that the encoder gives an instruction are those that the
decoder reads it from (R62, R68). A step of the hardware has neither. -/

namespace Sys2Proof.Laws.OpcodeMap

/-- Opcode and SUB fit their fields, and name the instruction back. -/
def Statement (i : Instr) : Prop :=
  ∀ op sub o, Encode.opSub i = some (op, sub) → Forms.opds i = some o →
    op < 256 ∧ sub < 16 ∧ Decode.build op sub o = some i.canonical

/-- The law of an instruction whose codes and operands are known. -/
theorem of_codes {i : Instr} {op sub : Nat} {o : Opds} (h1 : Encode.opSub i = some (op, sub)) (h2 : Forms.opds i = some o)
    (h3 : op < 256) (h4 : sub < 16) (h5 : Decode.build op sub o = some i.canonical) : Statement i := by
  intro a b c e1 e2
  rw [h1] at e1
  rw [h2] at e2
  cases e1
  cases e2
  exact ⟨h3, h4, h5⟩

/-- The law of a step of the hardware. -/
theorem of_happening {i : Instr} (h : Encode.opSub i = none) : Statement i := by
  intro a b c e1
  rw [h] at e1
  cases e1

theorem mov (ty : IType) (o : Opds) : Statement (.mov ty o) := by
  cases ty <;> exact of_codes rfl rfl (by decide) (by decide) rfl
theorem movi (ty : IType) (form : MoviForm) (o : Opds) : Statement (.movi ty form o) := by
  cases ty <;> cases form <;> exact of_codes rfl rfl (by decide) (by decide) rfl
theorem iadd (ty : IType) (o : Opds) : Statement (.iadd ty o) := by
  cases ty <;> exact of_codes rfl rfl (by decide) (by decide) rfl
theorem isub (ty : IType) (o : Opds) : Statement (.isub ty o) := by
  cases ty <;> exact of_codes rfl rfl (by decide) (by decide) rfl
theorem imul (ty : IType) (o : Opds) : Statement (.imul ty o) := by
  cases ty <;> exact of_codes rfl rfl (by decide) (by decide) rfl
theorem imulh (ty : IType) (o : Opds) : Statement (.imulh ty o) := by
  cases ty <;> exact of_codes rfl rfl (by decide) (by decide) rfl
theorem imad (ty : IType) (o : Opds) : Statement (.imad ty o) := by
  cases ty <;> exact of_codes rfl rfl (by decide) (by decide) rfl
theorem idiv (ty : IType) (o : Opds) : Statement (.idiv ty o) := by
  cases ty <;> exact of_codes rfl rfl (by decide) (by decide) rfl
theorem imin (ty : IType) (o : Opds) : Statement (.imin ty o) := by
  cases ty <;> exact of_codes rfl rfl (by decide) (by decide) rfl
theorem imax (ty : IType) (o : Opds) : Statement (.imax ty o) := by
  cases ty <;> exact of_codes rfl rfl (by decide) (by decide) rfl
theorem iabs (ty : IType) (o : Opds) : Statement (.iabs ty o) := by
  cases ty <;> exact of_codes rfl rfl (by decide) (by decide) rfl
theorem ineg (ty : IType) (o : Opds) : Statement (.ineg ty o) := by
  cases ty <;> exact of_codes rfl rfl (by decide) (by decide) rfl
theorem and (ty : IType) (o : Opds) : Statement (.and ty o) := by
  cases ty <;> exact of_codes rfl rfl (by decide) (by decide) rfl
theorem or (ty : IType) (o : Opds) : Statement (.or ty o) := by
  cases ty <;> exact of_codes rfl rfl (by decide) (by decide) rfl
theorem xor (ty : IType) (o : Opds) : Statement (.xor ty o) := by
  cases ty <;> exact of_codes rfl rfl (by decide) (by decide) rfl
theorem shl (ty : IType) (o : Opds) : Statement (.shl ty o) := by
  cases ty <;> exact of_codes rfl rfl (by decide) (by decide) rfl
theorem shr (ty : IType) (o : Opds) : Statement (.shr ty o) := by
  cases ty <;> exact of_codes rfl rfl (by decide) (by decide) rfl
theorem sar (ty : IType) (o : Opds) : Statement (.sar ty o) := by
  cases ty <;> exact of_codes rfl rfl (by decide) (by decide) rfl
theorem bfx (ty : IType) (o : Opds) : Statement (.bfx ty o) := by
  cases ty <;> exact of_codes rfl rfl (by decide) (by decide) rfl
theorem bfi (ty : IType) (o : Opds) : Statement (.bfi ty o) := by
  cases ty <;> exact of_codes rfl rfl (by decide) (by decide) rfl
theorem popc (ty : IType) (o : Opds) : Statement (.popc ty o) := by
  cases ty <;> exact of_codes rfl rfl (by decide) (by decide) rfl
theorem clz (ty : IType) (o : Opds) : Statement (.clz ty o) := by
  cases ty <;> exact of_codes rfl rfl (by decide) (by decide) rfl
theorem brev (ty : IType) (o : Opds) : Statement (.brev ty o) := by
  cases ty <;> exact of_codes rfl rfl (by decide) (by decide) rfl
theorem icmp (ty : IType) (o : Opds) : Statement (.icmp ty o) := by
  cases ty <;> exact of_codes rfl rfl (by decide) (by decide) rfl
theorem sel (ty : IType) (o : Opds) : Statement (.sel ty o) := by
  cases ty <;> exact of_codes rfl rfl (by decide) (by decide) rfl
theorem lea (ty : IType) (sh : BitVec 2) (o : Opds) : Statement (.lea ty sh o) := by
  have h : sh = 0#2 ∨ sh = 1#2 ∨ sh = 2#2 ∨ sh = 3#2 := by bv_omega
  rcases h with rfl | rfl | rfl | rfl <;> cases ty <;> exact of_codes rfl rfl (by decide) (by decide) rfl
theorem fadd (f : FFmt) (r : Rnd) (o : Opds) : Statement (.fadd f r o) := by
  cases f <;> cases r <;> exact of_codes rfl rfl (by decide) (by decide) rfl
theorem fsub (f : FFmt) (r : Rnd) (o : Opds) : Statement (.fsub f r o) := by
  cases f <;> cases r <;> exact of_codes rfl rfl (by decide) (by decide) rfl
theorem fmul (f : FFmt) (r : Rnd) (o : Opds) : Statement (.fmul f r o) := by
  cases f <;> cases r <;> exact of_codes rfl rfl (by decide) (by decide) rfl
theorem ffma (f : FFmt) (r : Rnd) (o : Opds) : Statement (.ffma f r o) := by
  cases f <;> cases r <;> exact of_codes rfl rfl (by decide) (by decide) rfl
theorem fmin (f : FFmt) (r : Rnd) (o : Opds) : Statement (.fmin f r o) := by
  cases f <;> cases r <;> exact of_codes rfl rfl (by decide) (by decide) rfl
theorem fmax (f : FFmt) (r : Rnd) (o : Opds) : Statement (.fmax f r o) := by
  cases f <;> cases r <;> exact of_codes rfl rfl (by decide) (by decide) rfl
theorem fcmp (f : FFmt) (r : Rnd) (o : Opds) : Statement (.fcmp f r o) := by
  cases f <;> cases r <;> exact of_codes rfl rfl (by decide) (by decide) rfl
theorem frcp (f : FFmt) (r : Rnd) (o : Opds) : Statement (.frcp f r o) := by
  cases f <;> cases r <;> exact of_codes rfl rfl (by decide) (by decide) rfl
theorem frsq (f : FFmt) (r : Rnd) (o : Opds) : Statement (.frsq f r o) := by
  cases f <;> cases r <;> exact of_codes rfl rfl (by decide) (by decide) rfl
theorem fsqrt (f : FFmt) (r : Rnd) (o : Opds) : Statement (.fsqrt f r o) := by
  cases f <;> cases r <;> exact of_codes rfl rfl (by decide) (by decide) rfl
theorem fexp2 (f : FFmt) (r : Rnd) (o : Opds) : Statement (.fexp2 f r o) := by
  cases f <;> cases r <;> exact of_codes rfl rfl (by decide) (by decide) rfl
theorem flog2 (f : FFmt) (r : Rnd) (o : Opds) : Statement (.flog2 f r o) := by
  cases f <;> cases r <;> exact of_codes rfl rfl (by decide) (by decide) rfl
theorem fsin (f : FFmt) (r : Rnd) (o : Opds) : Statement (.fsin f r o) := by
  cases f <;> cases r <;> exact of_codes rfl rfl (by decide) (by decide) rfl
theorem fcos (f : FFmt) (r : Rnd) (o : Opds) : Statement (.fcos f r o) := by
  cases f <;> cases r <;> exact of_codes rfl rfl (by decide) (by decide) rfl
theorem ftanh (f : FFmt) (r : Rnd) (o : Opds) : Statement (.ftanh f r o) := by
  cases f <;> cases r <;> exact of_codes rfl rfl (by decide) (by decide) rfl
theorem hadd2 (f : FFmt) (r : Rnd) (o : Opds) : Statement (.hadd2 f r o) := by
  cases f <;> cases r <;> exact of_codes rfl rfl (by decide) (by decide) rfl
theorem hmul2 (f : FFmt) (r : Rnd) (o : Opds) : Statement (.hmul2 f r o) := by
  cases f <;> cases r <;> exact of_codes rfl rfl (by decide) (by decide) rfl
theorem hfma2 (f : FFmt) (r : Rnd) (o : Opds) : Statement (.hfma2 f r o) := by
  cases f <;> cases r <;> exact of_codes rfl rfl (by decide) (by decide) rfl
theorem cvt (f : FFmt) (r : Rnd) (o : Opds) : Statement (.cvt f r o) := by
  cases f <;> cases r <;> exact of_codes rfl rfl (by decide) (by decide) rfl
theorem cvtBlock (f : FFmt) (r : Rnd) (o : Opds) : Statement (.cvtBlock f r o) := by
  cases f <;> cases r <;> exact of_codes rfl rfl (by decide) (by decide) rfl
theorem frnd (f : FFmt) (r : Rnd) (o : Opds) : Statement (.frnd f r o) := by
  cases f <;> cases r <;> exact of_codes rfl rfl (by decide) (by decide) rfl
theorem qswp (dir : QDir) (o : Opds) : Statement (.qswp dir o) := by
  cases dir <;> exact of_codes rfl rfl (by decide) (by decide) rfl
theorem qbcst (lane : BitVec 2) (o : Opds) : Statement (.qbcst lane o) := by
  have h : lane = 0#2 ∨ lane = 1#2 ∨ lane = 2#2 ∨ lane = 3#2 := by bv_omega
  rcases h with rfl | rfl | rfl | rfl <;> exact of_codes rfl rfl (by decide) (by decide) rfl
theorem xshfl (mode : ShMode) (o : Opds) : Statement (.xshfl mode o) := by
  cases mode <;> exact of_codes rfl rfl (by decide) (by decide) rfl
theorem xscan (op : XOp) (o : Opds) : Statement (.xscan op o) := by
  cases op <;> exact of_codes rfl rfl (by decide) (by decide) rfl
theorem xred (op : XOp) (o : Opds) : Statement (.xred op o) := by
  cases op <;> exact of_codes rfl rfl (by decide) (by decide) rfl
theorem vote (op : VoteOp) (o : Opds) : Statement (.vote op o) := by
  cases op <;> exact of_codes rfl rfl (by decide) (by decide) rfl
theorem elect (o : Opds) : Statement (.elect o) := of_codes rfl rfl (by decide) (by decide) rfl
theorem gsample (o : Opds) : Statement (.gsample o) := of_codes rfl rfl (by decide) (by decide) rfl
theorem mset (o : Opds) : Statement (.mset o) := of_codes rfl rfl (by decide) (by decide) rfl
theorem madd (o : Opds) : Statement (.madd o) := of_codes rfl rfl (by decide) (by decide) rfl
theorem msub (o : Opds) : Statement (.msub o) := of_codes rfl rfl (by decide) (by decide) rfl
theorem mmul (o : Opds) : Statement (.mmul o) := of_codes rfl rfl (by decide) (by decide) rfl
theorem mscl (o : Opds) : Statement (.mscl o) := of_codes rfl rfl (by decide) (by decide) rfl
theorem msqr (o : Opds) : Statement (.msqr o) := of_codes rfl rfl (by decide) (by decide) rfl
theorem mrcp (o : Opds) : Statement (.mrcp o) := of_codes rfl rfl (by decide) (by decide) rfl
theorem mexp (o : Opds) : Statement (.mexp o) := of_codes rfl rfl (by decide) (by decide) rfl
theorem mrelu (o : Opds) : Statement (.mrelu o) := of_codes rfl rfl (by decide) (by decide) rfl
theorem mlog (o : Opds) : Statement (.mlog o) := of_codes rfl rfl (by decide) (by decide) rfl
theorem mcol (kind : MCol) (o : Opds) : Statement (.mcol kind o) := by
  cases kind <;> exact of_codes rfl rfl (by decide) (by decide) rfl
theorem mchk (o : Opds) : Statement (.mchk o) := of_codes rfl rfl (by decide) (by decide) rfl
theorem mmaH (o : Opds) : Statement (.mmaH o) := of_codes rfl rfl (by decide) (by decide) rfl
theorem mmaKb (o : Opds) : Statement (.mmaKb o) := of_codes rfl rfl (by decide) (by decide) rfl
theorem mmaMom (o : Opds) : Statement (.mmaMom o) := of_codes rfl rfl (by decide) (by decide) rfl
theorem mmaMomQn (o : Opds) : Statement (.mmaMomQn o) := of_codes rfl rfl (by decide) (by decide) rfl
theorem thnd (o : Opds) : Statement (.thnd o) := of_codes rfl rfl (by decide) (by decide) rfl
theorem zclr (o : Opds) : Statement (.zclr o) := of_codes rfl rfl (by decide) (by decide) rfl
theorem zrd (o : Opds) : Statement (.zrd o) := of_codes rfl rfl (by decide) (by decide) rfl
theorem zwr (o : Opds) : Statement (.zwr o) := of_codes rfl rfl (by decide) (by decide) rfl
theorem zepi (o : Opds) : Statement (.zepi o) := of_codes rfl rfl (by decide) (by decide) rfl
theorem zepiHeap (o : Opds) : Statement (.zepiHeap o) := of_codes rfl rfl (by decide) (by decide) rfl
theorem zalloc (o : Opds) : Statement (.zalloc o) := of_codes rfl rfl (by decide) (by decide) rfl
theorem zfree (o : Opds) : Statement (.zfree o) := of_codes rfl rfl (by decide) (by decide) rfl
theorem mxfence (o : Opds) : Statement (.mxfence o) := of_codes rfl rfl (by decide) (by decide) rfl
theorem hpinit (o : Opds) : Statement (.hpinit o) := of_codes rfl rfl (by decide) (by decide) rfl
theorem hpread (o : Opds) : Statement (.hpread o) := of_codes rfl rfl (by decide) (by decide) rfl
theorem wkbegin (o : Opds) : Statement (.wkbegin o) := of_codes rfl rfl (by decide) (by decide) rfl
theorem walkSnapshotComplete (cluster : Nat) (slot : Nat) : Statement (.walkSnapshotComplete cluster slot) := of_happening rfl
theorem wknext (o : Opds) : Statement (.wknext o) := of_codes rfl rfl (by decide) (by decide) rfl
theorem wknextMerge (o : Opds) : Statement (.wknextMerge o) := of_codes rfl rfl (by decide) (by decide) rfl
theorem walkBlockFetchComplete (cluster : Nat) (slot : Nat) (node : Nat) : Statement (.walkBlockFetchComplete cluster slot node) := of_happening rfl
theorem wksubs (q : Bool) (o : Opds) : Statement (.wksubs q o) := by
  cases q <;> exact of_codes rfl rfl (by decide) (by decide) rfl
theorem wksubsComplete (grp : Nat) (op : Nat) : Statement (.wksubsComplete grp op) := of_happening rfl
theorem wkpart (o : Opds) : Statement (.wkpart o) := of_codes rfl rfl (by decide) (by decide) rfl
theorem wkpartComplete (grp : Nat) (op : Nat) : Statement (.wkpartComplete grp op) := of_happening rfl
theorem smxmerge (o : Opds) : Statement (.smxmerge o) := of_codes rfl rfl (by decide) (by decide) rfl
theorem smxmergeComplete (grp : Nat) (op : Nat) : Statement (.smxmergeComplete grp op) := of_happening rfl
theorem wkdone (o : Opds) : Statement (.wkdone o) := of_codes rfl rfl (by decide) (by decide) rfl
theorem wkdoneComplete (grp : Nat) (op : Nat) : Statement (.wkdoneComplete grp op) := of_happening rfl
theorem wkend (o : Opds) : Statement (.wkend o) := of_codes rfl rfl (by decide) (by decide) rfl
theorem wkendComplete (grp : Nat) (op : Nat) : Statement (.wkendComplete grp op) := of_happening rfl
theorem wkswap (o : Opds) : Statement (.wkswap o) := of_codes rfl rfl (by decide) (by decide) rfl
theorem ld (sc : Scope) (acq : Bool) (o : Opds) : Statement (.ld sc acq o) := by
  cases sc <;> cases acq <;> exact of_codes rfl rfl (by decide) (by decide) rfl
theorem st (sc : Scope) (rel : Bool) (o : Opds) : Statement (.st sc rel o) := by
  cases sc <;> cases rel <;> exact of_codes rfl rfl (by decide) (by decide) rfl
theorem gather (sc : Scope) (o : Opds) : Statement (.gather sc o) := by
  cases sc <;> exact of_codes rfl rfl (by decide) (by decide) rfl
theorem scatter (sc : Scope) (o : Opds) : Statement (.scatter sc o) := by
  cases sc <;> exact of_codes rfl rfl (by decide) (by decide) rfl
theorem atom (wide : Bool) (op : AtomOp) (o : Opds) : Statement (.atom wide op o) := by
  cases wide <;> cases op <;> exact of_codes rfl rfl (by decide) (by decide) rfl
theorem fenceRel (sc : Scope) (o : Opds) : Statement (.fenceRel sc o) := by
  cases sc <;> exact of_codes rfl rfl (by decide) (by decide) rfl
theorem fenceAcq (sc : Scope) (o : Opds) : Statement (.fenceAcq sc o) := by
  cases sc <;> exact of_codes rfl rfl (by decide) (by decide) rfl
theorem fenceAr (sc : Scope) (o : Opds) : Statement (.fenceAr sc o) := by
  cases sc <;> exact of_codes rfl rfl (by decide) (by decide) rfl
theorem wait (o : Opds) : Statement (.wait o) := of_codes rfl rfl (by decide) (by decide) rfl
theorem cpLin (o : Opds) : Statement (.cpLin o) := of_codes rfl rfl (by decide) (by decide) rfl
theorem cpTile (o : Opds) : Statement (.cpTile o) := of_codes rfl rfl (by decide) (by decide) rfl
theorem cpGather (o : Opds) : Statement (.cpGather o) := of_codes rfl rfl (by decide) (by decide) rfl
theorem copyComplete (grp : Nat) (op : Nat) : Statement (.copyComplete grp op) := of_happening rfl
theorem qpush (o : Opds) : Statement (.qpush o) := of_codes rfl rfl (by decide) (by decide) rfl
theorem queueSlotFill (team : Nat) (queue : Nat) (slot : Nat) : Statement (.queueSlotFill team queue slot) := of_happening rfl
theorem qpop (o : Opds) : Statement (.qpop o) := of_codes rfl rfl (by decide) (by decide) rfl
theorem qallow (o : Opds) : Statement (.qallow o) := of_codes rfl rfl (by decide) (by decide) rfl
theorem pref (o : Opds) : Statement (.pref o) := of_codes rfl rfl (by decide) (by decide) rfl
theorem bmv (o : Opds) : Statement (.bmv o) := of_codes rfl rfl (by decide) (by decide) rfl
theorem bmvComplete (grp : Nat) (op : Nat) : Statement (.bmvComplete grp op) := of_happening rfl
theorem bfenceW (o : Opds) : Statement (.bfenceW o) := of_codes rfl rfl (by decide) (by decide) rfl
theorem bfenceR (o : Opds) : Statement (.bfenceR o) := of_codes rfl rfl (by decide) (by decide) rfl
theorem bfenceWr (o : Opds) : Statement (.bfenceWr o) := of_codes rfl rfl (by decide) (by decide) rfl
theorem bstat (o : Opds) : Statement (.bstat o) := of_codes rfl rfl (by decide) (by decide) rfl
theorem hopen (o : Opds) : Statement (.hopen o) := of_codes rfl rfl (by decide) (by decide) rfl
theorem henter (o : Opds) : Statement (.henter o) := of_codes rfl rfl (by decide) (by decide) rfl
theorem hleave (o : Opds) : Statement (.hleave o) := of_codes rfl rfl (by decide) (by decide) rfl
theorem hresolveCfm (o : Opds) : Statement (.hresolveCfm o) := of_codes rfl rfl (by decide) (by decide) rfl
theorem hresolveCfx (o : Opds) : Statement (.hresolveCfx o) := of_codes rfl rfl (by decide) (by decide) rfl
theorem hresolveRef (o : Opds) : Statement (.hresolveRef o) := of_codes rfl rfl (by decide) (by decide) rfl
theorem hstat (o : Opds) : Statement (.hstat o) := of_codes rfl rfl (by decide) (by decide) rfl
theorem resolveBroadcastArrival (rid : Nat) (core : Nat) : Statement (.resolveBroadcastArrival rid core) := of_happening rfl
theorem resolveCoreDrainReport (rid : Nat) (core : Nat) : Statement (.resolveCoreDrainReport rid core) := of_happening rfl
theorem resolveSlicePerform (rid : Nat) (slice : Nat) : Statement (.resolveSlicePerform rid slice) := of_happening rfl
theorem resolveComplete (rid : Nat) : Statement (.resolveComplete rid) := of_happening rfl
theorem arenaReclaim (ctx : Nat) : Statement (.arenaReclaim ctx) := of_happening rfl
theorem orphanRedirect (grp : Nat) : Statement (.orphanRedirect grp) := of_happening rfl
theorem bra (h : Hint) (o : Opds) : Statement (.bra h o) := by
  cases h <;> exact of_codes rfl rfl (by decide) (by decide) rfl
theorem brx (h : Hint) (o : Opds) : Statement (.brx h o) := by
  cases h <;> exact of_codes rfl rfl (by decide) (by decide) rfl
theorem call (h : Hint) (o : Opds) : Statement (.call h o) := by
  cases h <;> exact of_codes rfl rfl (by decide) (by decide) rfl
theorem ret (o : Opds) : Statement (.ret o) := of_codes rfl rfl (by decide) (by decide) rfl
theorem regang (o : Opds) : Statement (.regang o) := of_codes rfl rfl (by decide) (by decide) rfl
theorem groupStuckRelease (grp : Nat) : Statement (.groupStuckRelease grp) := of_happening rfl
theorem exit (o : Opds) : Statement (.exit o) := of_codes rfl rfl (by decide) (by decide) rfl
theorem groupRetire (grp : Nat) : Statement (.groupRetire grp) := of_happening rfl
theorem bar (o : Opds) : Statement (.bar o) := of_codes rfl rfl (by decide) (by decide) rfl
theorem barx (o : Opds) : Statement (.barx o) := of_codes rfl rfl (by decide) (by decide) rfl
theorem barrierArrive (grp : Nat) : Statement (.barrierArrive grp) := of_happening rfl
theorem cbar (o : Opds) : Statement (.cbar o) := of_codes rfl rfl (by decide) (by decide) rfl
theorem gbar (o : Opds) : Statement (.gbar o) := of_codes rfl rfl (by decide) (by decide) rfl
theorem spawn (o : Opds) : Statement (.spawn o) := of_codes rfl rfl (by decide) (by decide) rfl
theorem launch (o : Opds) : Statement (.launch o) := of_codes rfl rfl (by decide) (by decide) rfl
theorem lqsignal (o : Opds) : Statement (.lqsignal o) := of_codes rfl rfl (by decide) (by decide) rfl
theorem rangeInit (o : Opds) : Statement (.rangeInit o) := of_codes rfl rfl (by decide) (by decide) rfl
theorem rangeTake (o : Opds) : Statement (.rangeTake o) := of_codes rfl rfl (by decide) (by decide) rfl
theorem rangeTakeServe (grp : Nat) (op : Nat) : Statement (.rangeTakeServe grp op) := of_happening rfl
theorem yield (o : Opds) : Statement (.yield o) := of_codes rfl rfl (by decide) (by decide) rfl
theorem life (o : Opds) : Statement (.life o) := of_codes rfl rfl (by decide) (by decide) rfl
theorem rws (o : Opds) : Statement (.rws o) := of_codes rfl rfl (by decide) (by decide) rfl
theorem nop (o : Opds) : Statement (.nop o) := of_codes rfl rfl (by decide) (by decide) rfl
theorem trap (o : Opds) : Statement (.trap o) := of_codes rfl rfl (by decide) (by decide) rfl
theorem rdsys (o : Opds) : Statement (.rdsys o) := of_codes rfl rfl (by decide) (by decide) rfl
theorem wrsys (o : Opds) : Statement (.wrsys o) := of_codes rfl rfl (by decide) (by decide) rfl
theorem tret (o : Opds) : Statement (.tret o) := of_codes rfl rfl (by decide) (by decide) rfl
theorem tlbinvPage (o : Opds) : Statement (.tlbinvPage o) := of_codes rfl rfl (by decide) (by decide) rfl
theorem tlbinvCtx (o : Opds) : Statement (.tlbinvCtx o) := of_codes rfl rfl (by decide) (by decide) rfl
theorem tlbinvAll (o : Opds) : Statement (.tlbinvAll o) := of_codes rfl rfl (by decide) (by decide) rfl
theorem tlbinvComplete (grp : Nat) (op : Nat) : Statement (.tlbinvComplete grp op) := of_happening rfl
theorem cacheopL1inv (o : Opds) : Statement (.cacheopL1inv o) := of_codes rfl rfl (by decide) (by decide) rfl
theorem cacheopIcinv (o : Opds) : Statement (.cacheopIcinv o) := of_codes rfl rfl (by decide) (by decide) rfl
theorem ctxsave (o : Opds) : Statement (.ctxsave o) := of_codes rfl rfl (by decide) (by decide) rfl
theorem teamSave (team : Nat) : Statement (.teamSave team) := of_happening rfl
theorem ctxsaveComplete (grp : Nat) (op : Nat) : Statement (.ctxsaveComplete grp op) := of_happening rfl
theorem ctxload (o : Opds) : Statement (.ctxload o) := of_codes rfl rfl (by decide) (by decide) rfl
theorem groupRestoreResume (grp : Nat) : Statement (.groupRestoreResume grp) := of_happening rfl
theorem cred (op : CredOp) (o : Opds) : Statement (.cred op o) := by
  cases op <;> exact of_codes rfl rfl (by decide) (by decide) rfl
theorem cbcast (o : Opds) : Statement (.cbcast o) := of_codes rfl rfl (by decide) (by decide) rfl
theorem cgather (o : Opds) : Statement (.cgather o) := of_codes rfl rfl (by decide) (by decide) rfl
theorem cwait (o : Opds) : Statement (.cwait o) := of_codes rfl rfl (by decide) (by decide) rfl
theorem collectiveCommit (ctx : Nat) (ticket : Nat) (others : List (Nat × List W32)) : Statement (.collectiveCommit ctx ticket others) := of_happening rfl
theorem collectiveTimeout (ctx : Nat) (ticket : Nat) : Statement (.collectiveTimeout ctx ticket) := of_happening rfl
theorem collectiveMemberFailure (ctx : Nat) (ticket : Nat) (rank : Nat) : Statement (.collectiveMemberFailure ctx ticket rank) := of_happening rfl
theorem skeinStart (core : Nat) : Statement (.skeinStart core) := of_happening rfl
theorem skeinComplete (core : Nat) : Statement (.skeinComplete core) := of_happening rfl
theorem matrixPowerGate (core : Nat) : Statement (.matrixPowerGate core) := of_happening rfl
theorem loadAtHomeSlice (grp : Nat) (op : Nat) (lane : Nat) : Statement (.loadAtHomeSlice grp op lane) := of_happening rfl
theorem loadComplete (grp : Nat) (op : Nat) (lanes : Mask) : Statement (.loadComplete grp op lanes) := of_happening rfl
theorem storeAtHomeSlice (grp : Nat) (op : Nat) (lane : Nat) : Statement (.storeAtHomeSlice grp op lane) := of_happening rfl
theorem storeStampReturn (grp : Nat) (op : Nat) : Statement (.storeStampReturn grp op) := of_happening rfl
theorem l1LeaseExpiry (core : Nat) (line : Nat) : Statement (.l1LeaseExpiry core line) := of_happening rfl
theorem ownershipGrant (grp : Nat) (op : Nat) (lane : Nat) : Statement (.ownershipGrant grp op lane) := of_happening rfl
theorem ownershipExpiry (line : Nat) : Statement (.ownershipExpiry line) := of_happening rfl
theorem ownershipHandbackArrival (line : Nat) : Statement (.ownershipHandbackArrival line) := of_happening rfl
theorem releasePerform (grp : Nat) (op : Nat) : Statement (.releasePerform grp op) := of_happening rfl
theorem acquireWaitEnd (grp : Nat) (op : Nat) : Statement (.acquireWaitEnd grp op) := of_happening rfl
theorem dispatcherRecordRead (queue : Nat) (pos : Nat) : Statement (.dispatcherRecordRead queue pos) := of_happening rfl
theorem teamPlace (launch : Nat) (cores : List Nat) : Statement (.teamPlace launch cores) := of_happening rfl
theorem placementAgeLimit (launch : Nat) : Statement (.placementAgeLimit launch) := of_happening rfl
theorem launchComplete (launch : Nat) : Statement (.launchComplete launch) := of_happening rfl
theorem hostRingDoorbell (fn : Nat) (prod : W32) : Statement (.hostRingDoorbell fn prod) := of_happening rfl
theorem hostRingBaseWrite (fn : Nat) (base : W64) : Statement (.hostRingBaseWrite fn base) := of_happening rfl
theorem hostRingLogWrite (fn : Nat) (log : BitVec 4) : Statement (.hostRingLogWrite fn log) := of_happening rfl
theorem ringEntryConsume (fn : Nat) : Statement (.ringEntryConsume fn) := of_happening rfl
theorem hostBar2Write (fn : Nat) (off : Nat) (bytes : List Byte) : Statement (.hostBar2Write fn off bytes) := of_happening rfl
theorem hostBar2Read (fn : Nat) (off : Nat) (len : Nat) : Statement (.hostBar2Read fn off len) := of_happening rfl
theorem hostLinkTrainDown (width : Nat) : Statement (.hostLinkTrainDown width) := of_happening rfl
theorem peerAccessArrival (port : Nat) (vc : Nat) (ctx : Nat) (va : W64) (kind : AccKind) (bytes : List Byte) : Statement (.peerAccessArrival port vc ctx va kind bytes) := of_happening rfl
theorem peerFlowTimeout (port : Nat) (vc : Nat) : Statement (.peerFlowTimeout port vc) := of_happening rfl
theorem peerAccessTimeout (grp : Nat) (op : Nat) (lane : Nat) : Statement (.peerAccessTimeout grp op lane) := of_happening rfl
theorem acountFlush (cluster : Nat) (entry : Nat) : Statement (.acountFlush cluster entry) := of_happening rfl
theorem eventPostRetry (ctx : Nat) : Statement (.eventPostRetry ctx) := of_happening rfl
theorem uluberFlitRetry (port : Nat) : Statement (.uluberFlitRetry port) := of_happening rfl
theorem uluberLaneSpare (port : Nat) (lane : Nat) : Statement (.uluberLaneSpare port lane) := of_happening rfl
theorem uluberPortHalve (port : Nat) : Statement (.uluberPortHalve port) := of_happening rfl
theorem uluberPortDown (port : Nat) : Statement (.uluberPortDown port) := of_happening rfl
theorem gtimeOutOfSync  : Statement (.gtimeOutOfSync) := of_happening rfl
theorem scrubRead (channel : Nat) (row : Nat) (seen : ReadOutcome) : Statement (.scrubRead channel row seen) := of_happening rfl
theorem scrubPassEnd  : Statement (.scrubPassEnd) := of_happening rfl
theorem rowReplace (channel : Nat) (row : Nat) : Statement (.rowReplace channel row) := of_happening rfl
theorem channelFail (channel : Nat) : Statement (.channelFail channel) := of_happening rfl
theorem channelRetireStart (channel : Nat) : Statement (.channelRetireStart channel) := of_happening rfl
theorem channelLineMove (channel : Nat) : Statement (.channelLineMove channel) := of_happening rfl
theorem refreshForced (channel : Nat) (bank : Nat) : Statement (.refreshForced channel bank) := of_happening rfl
theorem activationAlert (channel : Nat) (bank : Nat) : Statement (.activationAlert channel bank) := of_happening rfl
theorem clusterFailure (cluster : Nat) : Statement (.clusterFailure cluster) := of_happening rfl
theorem sliceRetire (slice : Nat) : Statement (.sliceRetire slice) := of_happening rfl
theorem sliceAbruptFailure (slice : Nat) : Statement (.sliceAbruptFailure slice) := of_happening rfl
theorem powerOnReset  : Statement (.powerOnReset) := of_happening rfl
theorem hostModuleReset  : Statement (.hostModuleReset) := of_happening rfl
theorem powerLimitThrottle (cycles : Nat) : Statement (.powerLimitThrottle cycles) := of_happening rfl
theorem mgmtIdentity  : Statement (.mgmtIdentity) := of_happening rfl
theorem mgmtAttest  : Statement (.mgmtAttest) := of_happening rfl
theorem mgmtErrorRecord  : Statement (.mgmtErrorRecord) := of_happening rfl
theorem mgmtSetScrubber  : Statement (.mgmtSetScrubber) := of_happening rfl
theorem mgmtSetMatrixIdle  : Statement (.mgmtSetMatrixIdle) := of_happening rfl
theorem mgmtPowerReading  : Statement (.mgmtPowerReading) := of_happening rfl
theorem gtimeBackInSync  : Statement (.gtimeBackInSync) := of_happening rfl
theorem collectiveMismatch (ctx : Nat) (ticket : Nat) : Statement (.collectiveMismatch ctx ticket) := of_happening rfl
theorem mgmtCommandRefused (word : W64) : Statement (.mgmtCommandRefused word) := of_happening rfl

end Sys2Proof.Laws.OpcodeMap
end

