-- ==== Sys2Proof/Tests/Slice0.lean ====
section
/-! SUPPORT. Tests: a term that each check of WellFormed refuses, words of the spec with what they decode to, single steps
with results from the spec, and a state that meets the hypotheses of each statement. -/

namespace Sys2Proof.Tests

open Sys2Proof Sys2Proof.Machine Sys2Proof.Claims

set_option Elab.async false

/-! ### Small states -/

/-- A fragment of the system kernel on core 0 is about to issue. -/
def base : State := Iss.pick (Turns.boot State.reset 0xC1#96) 1 0

/-- The same for context 3, whose pages are as in `base`. -/
def user : State :=
  let s := { base with launches := [(1, { ctx := 3, record := Turns.bootRecord, live := 1, nextTeam := 1 })]
                       descs := [(3, { valid := true, trapvec := 0x100#64, qgrant := 0x2#16 })] }
  s.setClusterAt 0 { tlb := [{ Turns.bootLeaf with ctx := 3, w0 := 0x3F#64, w1 := 0x8#64 }] }

def withK (s : State) (n : Nat) (x : W64) : State := s.setGrp (s.grp.wk n x)
def withV (s : State) (n : Nat) (x : W32) : State :=
  s.setGrp ((List.range 32).foldl (fun (g : Group) l => g.wv n l x) s.grp)
def withM (s : State) (n : Nat) (x : W64) : State :=
  s.setGrp ((List.range 32).foldl (fun (g : Group) l => g.wm n l x) s.grp)
def withP (s : State) (n : Nat) (x : Mask) : State := s.setGrp (s.grp.wp n (~~~0#32) x)
def withRecord (s : State) (f : Record → Record) : State :=
  s.setLaunchAt 1 { s.launch with record := f s.launch.record }
def withTeam (s : State) (f : Team → Team) : State := s.setTeamAt 1 (f s.team)
def withGrp (s : State) (f : Group → Group) : State := s.setGrp (f s.grp)
def withOps (s : State) (l : List Op) : State := { s.setGrp { s.grp with ops := l } with nextId := 100 }

/-- Page 0 lies with a peer. -/
def far (s : State) : State := s.setClusterAt 0 { s.clusterAt 0 with tlb := [{ Turns.bootLeaf with w0 := 0x400005F#64 }] }

/-- An operand with a guard. -/
def guarded (p : BitVec 3) (o : Opds) : Opds := { o with guard := { neg := false, pred := p } }

/-- Everything that `Ready` asks. -/
def isReady (i : Instr) (s : State) : Bool :=
  s.cur.on && i.wellFormed && Issue.privOk i s && Issue.allocOk i s && (Issue.spoiledReg i s).isNone

theorem ready_of {i : Instr} {s : State} (h : isReady i s = true) : Ready i s := by
  simp only [isReady, Bool.and_eq_true, Option.isNone_iff_eq_none] at h
  obtain ⟨⟨⟨⟨a, b⟩, c⟩, d⟩, e⟩ := h
  exact ⟨a, b, c, d, e⟩

theorem ready_all {l : List Instr} {s : State} (h : (l.all fun i => isReady i s) = true) : ∀ i ∈ l, Ready i s := fun i hi =>
  ready_of (List.all_eq_true.mp h i hi)

/-- The state that an outcome reaches. -/
def after (r : Host.Outcome State Fault Refusal) : Option State :=
  match r with
  | .next t => some t
  | _ => none

/-- What one instruction leaves, seen through `f`. -/
def result {α : Type} (i : Instr) (s : State) (f : State → α) : Option α := (after (exec i s)).map f

/-- An instruction is held, and the address of the read that it has sent to a peer. -/
def asks (i : Instr) (s : State) : Option Nat := (result i s fun t => if t.cur.status == .held then t.cur.ask else none).join

/-! ### Strict decoding (R57, R59, R61, R63) -/

theorem test_refuses_class : (Instr.iadd .s32 (ops (.v 1) (.m 2) (.v 3) .none 0)).wellFormed = false := by decide
theorem test_refuses_two_immediates : (Instr.iadd .s32 (ops (.v 1) .imm .imm .none 5)).wellFormed = false := by decide
theorem test_refuses_stray_imm : (Instr.iadd .s32 (ops (.v 1) (.v 2) (.v 3) .none 5)).wellFormed = false := by decide
theorem test_refuses_not_p0 :
    (Instr.nop { ops .none .none .none .none 0 with guard := { neg := true, pred := 0#3 } }).wellFormed = false := by decide
theorem test_refuses_guard : (Instr.mxfence (guarded 1 (ops .none .none .none .none 0))).wellFormed = false := by decide
theorem test_refuses_odd_pair : (Instr.iadd .n64 (ops (.v 1) (.v 2) (.v 4) .none 0)).wellFormed = false := by decide
theorem test_refuses_own_rule : (Instr.zrd (ops (.v 250) (.z 1) (.i8 0) (.i8 32) 0)).wellFormed = false := by decide
theorem test_refuses_happening : (Instr.powerOnReset).wellFormed = false := by decide
theorem test_refuses_number : decode (0x00000000#32 ++ 0x01120040#32 ++ 0x40010002#32) = none := by decide

/-! ### Words that the spec prints, IMM first -/

theorem test_words_integer : ([(0x00000000#32 ++ 0x12110A03#32 ++ 0x06040306#32, .imad .n64 (ops (.v 4) (.v 6) (.k 3) (.v 10) 0)),
    (0x00000000#32 ++ 0x881302FD#32 ++ 0x01020017#32, .icmp .s32 (ops (.p 2) (.v 1) (.i8 0xFD) (.i8 2) 0)),
    (0x12345678#32 ++ 0x00920000#32 ++ 0x00050B01#32, .movi .n64 .hi (ops (.k 5) .imm .none .none 0x12345678)),
    (0x00000000#32 ++ 0x02220009#32 ++ 0x08080F19#32, .lea .n64 3 (ops (.k 8) (.k 8) (.k 9) .none 0))] : List (BitVec 96 × Instr)).all
    (fun x => decide (decode x.1 = some x.2) && decide (encode x.2 = some x.1)) = true := by decide +kernel

theorem test_words_float : ([(0x00000000#32 ++ 0x01110003#32 ++ 0x0201B122#32, .fmul .f32 .rz { ops (.v 1) (.v 2) (.v 3) .none 0 with guard := { neg := true, pred := 3#3 } }),
    (0xBF000000#32 ++ 0x91110002#32 ++ 0x07070023#32, .ffma .f32 .rn (ops (.v 7) (.v 7) (.v 2) .imm 0xBF000000)),
    (0x00000000#32 ++ 0x22220605#32 ++ 0x04040931#32, .hfma2 .bf16 .rz (ops (.k 4) (.k 4) (.k 5) (.k 6) 0)),
    (0x00000010#32 ++ 0x82117404#32 ++ 0x06050032#32, .cvt .f32 .rn (ops (.v 5) (.v 6) (.k 4) (.i8 0x74) 0x10))] : List (BitVec 96 × Instr)).all
    (fun x => decide (decode x.1 = some x.2) && decide (encode x.2 = some x.1)) = true := by decide +kernel

theorem test_words_group : ([(0x00000000#32 ++ 0x00110000#32 ++ 0x02020140#32, .qswp .vert (ops (.v 2) (.v 2) .none .none 0)),
    (0x00000000#32 ++ 0x00120000#32 ++ 0x0B060244#32, .xred .addF (ops (.k 6) (.v 11) .none .none 0)),
    (0x00000000#32 ++ 0x00320000#32 ++ 0x03070245#32, .vote .ballot (ops (.k 7) (.p 3) .none .none 0)),
    (0x00000000#32 ++ 0x32110205#32 ++ 0x08140047#32, .gsample (ops (.v 20) (.v 8) (.k 5) (.p 2) 0))] : List (BitVec 96 × Instr)).all
    (fun x => decide (decode x.1 = some x.2) && decide (encode x.2 = some x.1)) = true := by decide +kernel

theorem test_words_matrix : ([(0x00000000#32 ++ 0x86150002#32 ++ 0x00000160#32, .mmaKb (ops (.z 0) (.v 0) (.t 2) (.i8 0) 0)),
    (0x00000000#32 ++ 0x06450003#32 ++ 0x00040260#32, .mmaMom (ops (.z 4) (.m 0) (.t 3) .none 0)),
    (0x00000000#32 ++ 0x0826000A#32 ++ 0x06030061#32, .thnd (ops (.t 3) (.k 6) (.i8 0xA) .none 0)),
    (0x00000000#32 ++ 0x88511008#32 ++ 0x03280063#32, .zrd (ops (.v 40) (.z 3) (.i8 8) (.i8 16) 0)),
    (0x00000F80#32 ++ 0x9258000B#32 ++ 0x05000165#32, .zepiHeap (ops (.i8 0) (.z 5) (.k 11) .imm 0xF80)),
    (0x00000000#32 ++ 0x0221000D#32 ++ 0x0C28006A#32, .hpread (ops (.v 40) (.k 12) (.k 13) .none 0))] : List (BitVec 96 × Instr)).all
    (fun x => decide (decode x.1 = some x.2) && decide (encode x.2 = some x.1)) = true := by decide +kernel

theorem test_words_moment : ([(0x3D800000#32 ++ 0x09140000#32 ++ 0x04020050#32, .mset (ops (.m 2) (.v 4) .imm .none 0x3D800000)),
    (0x00000000#32 ++ 0x0141001E#32 ++ 0x060C045A#32, .mcol .sample (ops (.v 12) (.m 6) (.v 30) .none 0)),
    (0x00000000#32 ++ 0x02430009#32 ++ 0x0602005B#32, .mchk (ops (.p 2) (.m 6) (.k 9) .none 0))] : List (BitVec 96 × Instr)).all
    (fun x => decide (decode x.1 = some x.2) && decide (encode x.2 = some x.1)) = true := by decide +kernel

theorem test_words_walk : ([(0x00000000#32 ++ 0x32220105#32 ++ 0x04140070#32, .wkbegin (ops (.k 20) (.k 4) (.k 5) (.p 1) 0)),
    (0x00000000#32 ++ 0x30220200#32 ++ 0x14080171#32, .wknextMerge (ops (.k 8) (.k 20) .none (.p 2) 0)),
    (0x00010000#32 ++ 0x12292808#32 ++ 0x14000073#32, .wkpart (ops .imm (.k 20) (.k 8) (.v 40) 0x10000)),
    (0x00000000#32 ++ 0x02200008#32 ++ 0x14000074#32, .smxmerge (ops .none (.k 20) (.k 8) .none 0))] : List (BitVec 96 × Instr)).all
    (fun x => decide (decode x.1 = some x.2) && decide (encode x.2 = some x.1)) = true := by decide +kernel

theorem test_words_memory : ([(0x00000020#32 ++ 0x82110203#32 ++ 0x0A070080#32, .ld .team false (ops (.v 7) (.v 10) (.k 3) (.i8 2) 0x20)),
    (0x00000040#32 ++ 0x00220000#32 ++ 0x04050981#32, .st .module true (ops (.k 5) (.k 4) .none .none 0x40)),
    (0x00000100#32 ++ 0x18210804#32 ++ 0x06040082#32, .gather .team (ops (.v 4) (.k 6) (.i8 4) (.v 8) 0x100)),
    (0x00000000#32 ++ 0x8121060C#32 ++ 0x040A0984#32, .atom false .cas (ops (.v 10) (.k 4) (.v 12) (.i8 6) 0)),
    (0x00000008#32 ++ 0x88201001#32 ++ 0x04000084#32, .atom false .add (ops .none (.k 4) (.i8 1) (.i8 0x10) 8)),
    (0x00000000#32 ++ 0x00000000#32 ++ 0x00000B86#32, .fenceAr .module (ops .none .none .none .none 0)),
    (0x3C3FFFFF#32 ++ 0x00900000#32 ++ 0x00000087#32, .wait (ops .none .imm .none .none 0x3C3FFFFF))] : List (BitVec 96 × Instr)).all
    (fun x => decide (decode x.1 = some x.2) && decide (encode x.2 = some x.1)) = true := by decide +kernel

theorem test_words_copies : ([(0x00000000#32 ++ 0x8222430A#32 ++ 0x09080088#32, .cpLin (ops (.k 8) (.k 9) (.k 10) (.i8 0x43) 0)),
    (0x00000000#32 ++ 0x08180004#32 ++ 0x10020089#32, .qpush (ops (.i8 2) (.v 16) (.i8 4) .none 0)),
    (0x00000000#32 ++ 0x0228000D#32 ++ 0x0C02008B#32, .qallow (ops (.i8 2) (.k 12) (.k 13) .none 0)),
    (0x00000200#32 ++ 0x00280000#32 ++ 0x0400008C#32, .pref (ops (.i8 0) (.k 4) .none .none 0x200)),
    (0x00000000#32 ++ 0x82221216#32 ++ 0x151400A0#32, .bmv (ops (.k 20) (.k 21) (.k 22) (.i8 0x12) 0)),
    (0x00000000#32 ++ 0x00000000#32 ++ 0x000003A1#32, .bfenceWr (ops .none .none .none .none 0)),
    (0x00000000#32 ++ 0x00820000#32 ++ 0x000700A2#32, .bstat (ops (.k 7) (.i8 0) .none .none 0))] : List (BitVec 96 × Instr)).all
    (fun x => decide (decode x.1 = some x.2) && decide (encode x.2 = some x.1)) = true := by decide +kernel

theorem test_words_hypotheses : ([(0x00000000#32 ++ 0x30220200#32 ++ 0x0A0C00A8#32, .hopen (ops (.k 12) (.k 10) .none (.p 2) 0)),
    (0x00000000#32 ++ 0x00200000#32 ++ 0x0C0001AB#32, .hresolveCfx (ops .none (.k 12) .none .none 0)),
    (0x00000000#32 ++ 0x00220000#32 ++ 0x0C0E00AC#32, .hstat (ops (.k 14) (.k 12) .none .none 0))] : List (BitVec 96 × Instr)).all
    (fun x => decide (decode x.1 = some x.2) && decide (encode x.2 = some x.1)) = true := by decide +kernel

theorem test_words_control : ([(0xFFFFFFD0#32 ++ 0x07900000#32 ++ 0x000011B0#32, .bra .likely (guarded 1 (ops .none .imm (.j 0) .none 0xFFFFFFD0))),
    (0x00000400#32 ++ 0x07910002#32 ++ 0x001E00B2#32, .call .none (ops (.v 30) .imm (.j 2) .none 0x400)),
    (0x00000000#32 ++ 0x00700000#32 ++ 0x020000B4#32, .regang (ops .none (.j 2) .none .none 0)),
    (0x00000000#32 ++ 0x0280000A#32 ++ 0x030000B7#32, .barx (ops .none (.i8 3) (.k 10) .none 0)),
    (0x000000C0#32 ++ 0x01930010#32 ++ 0x000400BA#32, .spawn (ops (.p 4) .imm (.v 16) .none 0xC0)),
    (0x00000000#32 ++ 0x32220106#32 ++ 0x041400BB#32, .launch (ops (.k 20) (.k 4) (.k 6) (.p 1) 0)),
    (0x0000000F#32 ++ 0x08080003#32 ++ 0x000100BF#32, .life (ops (.i8 1) .none (.i8 3) .none 0xF))] : List (BitVec 96 × Instr)).all
    (fun x => decide (decode x.1 = some x.2) && decide (encode x.2 = some x.1)) = true := by decide +kernel

theorem test_words_system : ([(0x00000000#32 ++ 0x008A0000#32 ++ 0x030500D1#32, .wrsys (ops (.sys 5) (.i8 3) .none .none 0)),
    (0x00000000#32 ++ 0x02200005#32 ++ 0x040000D3#32, .tlbinvPage (ops .none (.k 4) (.k 5) .none 0)),
    (0x00000000#32 ++ 0x00000000#32 ++ 0x000001D4#32, .cacheopIcinv (ops .none .none .none .none 0)),
    (0x00000000#32 ++ 0x02220007#32 ++ 0x060800D5#32, .ctxsave (ops (.k 8) (.k 6) (.k 7) .none 0))] : List (BitVec 96 × Instr)).all
    (fun x => decide (decode x.1 = some x.2) && decide (encode x.2 = some x.1)) = true := by decide +kernel

theorem test_words_collectives : ([(0x00000000#32 ++ 0x22220806#32 ++ 0x041400E0#32, .cred .addF (ops (.k 20) (.k 4) (.k 6) (.k 8) 0)),
    (0x00000000#32 ++ 0x00220000#32 ++ 0x141500E3#32, .cwait (ops (.k 21) (.k 20) .none .none 0))] : List (BitVec 96 × Instr)).all
    (fun x => decide (decode x.1 = some x.2) && decide (encode x.2 = some x.1)) = true := by decide +kernel

/-! ### States that meet the hypotheses of the statements -/

theorem witness_IntegerArithmetic : ∀ i ∈ ([.mov .n64 (ops (.k 2) (.k 0) .none .none 0), .movi .n32 .whole (ops (.v 1) (.i8 0xFF) .none .none 0),
    .iadd .n32 (ops (.v 255) (.v 4) (.i8 0x80) .none 0), .isub .s64 (ops (.v 254) (.v 4) (.k 63) .none 0), .imul .s32 (ops (.k 0) (.k 1) .imm .none 7),
    .imulh .n64 (ops (.v 2) (.v 4) (.v 6) .none 0), .imad .s32 (ops (.v 1) (.v 2) (.v 3) (.v 4) 0), .imin .n32 (ops (.v 1) (.v 2) (.v 3) .none 0),
    .imax .s64 (ops (.k 1) (.k 2) (.k 3) .none 0), .iabs .s32 (ops (.v 1) (.v 2) .none .none 0), .ineg .s64 (ops (.v 2) (.v 4) .none .none 0),
    .lea .n64 3 (ops (.k 8) (.k 8) (.k 9) .none 0)] : List Instr), Ready i base := ready_all (by decide +kernel)

theorem witness_IntegerBits : ∀ i ∈ ([.and .n32 (ops (.v 1) (.v 2) (.v 3) .none 0), .or .n64 (ops (.k 1) (.k 2) (.i8 3) .none 0),
    .xor .s32 (ops (.v 1) (.v 2) .imm .none 9), .shl .n32 (ops (.v 1) (.v 2) (.i8 32) .none 0), .shr .n64 (ops (.v 2) (.v 4) (.v 5) .none 0),
    .sar .s32 (ops (.v 1) (.v 2) (.i8 0xFF) .none 0), .bfx .s32 (ops (.v 1) (.v 2) .imm .none 0x2020), .bfi .n64 (ops (.k 1) (.k 2) (.k 3) .imm 0x103F),
    .popc .n32 (ops (.v 1) (.v 2) .none .none 0), .clz .n64 (ops (.v 2) (.v 4) .none .none 0), .brev .s32 (ops (.v 1) (.v 2) .none .none 0)]
    : List Instr), Ready i base := ready_all (by decide +kernel)

theorem witness_IntegerChoice : ∀ i ∈ ([.icmp .s32 (ops (.p 0) (.v 2) (.v 3) (.i8 0) 0), .icmp .n64 (ops (.p 7) (.k 2) (.k 3) (.i8 5) 0),
    .sel .n32 (ops (.v 1) (.v 2) (.v 3) (.p 1) 0), .movi .n64 .lo (ops (.k 0) .imm .none .none 5), .movi .n64 .hi (ops (.k 5) .imm .none .none 5)]
    : List Instr), Ready i base := ready_all (by decide +kernel)

/-- 0x80000000 divided by -1, a divisor of 0, and an ordinary quotient. -/
theorem witness_DivisionQuotient : Ready (.idiv .s32 (ops (.v 1) (.v 2) (.v 3) .none 0)) (withV (withV base 2 0x80000000#32) 3 0xFFFFFFFF#32)
    ∧ Ready (.idiv .n64 (ops (.k 1) (.k 2) (.k 0) .none 0)) base ∧ Ready (.idiv .s32 (ops (.v 1) (.v 2) (.i8 3) .none 0)) (withV base 2 0xFFFFFFF8#32) :=
  ⟨ready_of (by decide +kernel), ready_of (by decide +kernel), ready_of (by decide +kernel)⟩

/-- An instruction that issues. -/
theorem issues_of {i : Instr} {s : State} (h : ((after (exec i s)).map fun t => t.cur.status) = some .issued) : ∃ t, Issues i s t := by
  cases e : exec i s with
  | next t => rw [e] at h; exact ⟨t, e, by simpa [after] using h⟩
  | fault f => rw [e] at h; simp [after] at h
  | refused r => rw [e] at h; simp [after] at h

theorem witness_RegisterFrame : ∃ t, Issues (.iadd .n32 (ops (.v 1) (.v 2) (.i8 5) .none 0)) base t ∧ onRegisters (.iadd .n32 (ops (.v 1) (.v 2) (.i8 5) .none 0)) = true := by
  obtain ⟨t, h⟩ := issues_of (i := .iadd .n32 (ops (.v 1) (.v 2) (.i8 5) .none 0)) (s := base) (by decide +kernel)
  exact ⟨t, h, rfl⟩

theorem witness_FloatArithmetic : ∀ i ∈ ([.fadd .f32 .rz (ops (.v 1) (.v 2) .imm .none 0x3F800000), .fsub .f16 .rp (ops (.v 1) (.v 2) (.v 3) .none 0),
    .fmul .bf16 .rm (ops (.k 1) (.k 2) (.k 3) .none 0), .ffma .f32 .rn (ops (.v 1) (.v 2) (.v 3) (.v 4) 0), .fmin .f32 .rn (ops (.v 1) (.v 2) (.v 3) .none 0),
    .fmax .f16 .rn (ops (.v 1) (.v 2) (.v 3) .none 0), .frnd .f32 .rm (ops (.v 1) (.v 2) .none .none 0), .fcmp .f32 .rn (ops (.p 1) (.v 2) (.v 3) (.i8 7) 0)]
    : List Instr), Ready i base := ready_all (by decide +kernel)

theorem witness_FloatFunctions : ∀ i ∈ ([.frcp .f32 .rz (ops (.v 1) (.v 2) .none .none 0), .frsq .f32 .rn (ops (.v 1) (.v 2) .none .none 0),
    .fsqrt .f32 .rp (ops (.v 1) (.v 2) .none .none 0), .fexp2 .f32 .rn (ops (.v 1) (.v 2) .none .none 0), .flog2 .f32 .rn (ops (.k 1) (.k 2) .none .none 0),
    .fsin .f32 .rn (ops (.v 1) (.v 2) .none .none 0), .fcos .f32 .rn (ops (.v 1) (.v 2) .none .none 0), .ftanh .f32 .rn (ops (.v 1) (.v 2) .none .none 0),
    .hadd2 .f16 .rn (ops (.v 1) (.v 2) (.v 3) .none 0), .hmul2 .bf16 .rz (ops (.v 1) (.v 2) (.v 3) .none 0),
    .hfma2 .f16 .rm (ops (.k 4) (.k 4) (.k 5) (.k 6) 0)] : List Instr), Ready i base := ready_all (by decide +kernel)

/-- Of each row of R119's table an operand; 4 = 2 squared, 8 = 2 to the 3, and -151, the least exponent. -/
theorem witness_FloatFunctions_values : (∃ x, Float.toFV .f32 0x80000000 = .fin x ∧ x.num = 0) ∧ Float.toFV .f32 0x7F800000 = .inf false
    ∧ Float.toFV .f32 0xFF800000 = .inf true ∧ Float.toFV .f32 0x7FC00000 = .nan
    ∧ (∃ x, Float.toFV .f32 0xBF800000 = .fin x ∧ x.num ≠ 0 ∧ x.neg = true)
    ∧ (∃ x, Float.toFV .f32 0x40800000 = .fin x ∧ x.num ≠ 0 ∧ ratOf x = 2 * 2 ∧ (0 : Rat) < 2)
    ∧ (∃ x, Float.toFV .f32 0x41000000 = .fin x ∧ ratOf x = 2 ^ (3 : Int))
    ∧ ∃ x, Float.toFV .f32 0xC3170000 = .fin x ∧ ratOf x = (-151 : Int) :=
  ⟨⟨_, rfl, rfl⟩, rfl, rfl, rfl, ⟨_, rfl, by decide, rfl⟩, ⟨⟨false, 8388608, 2097152⟩, by decide +kernel, by decide, by decide +kernel, by decide +kernel⟩,
    ⟨⟨false, 8388608, 1048576⟩, by decide +kernel, by decide +kernel⟩,
    ⟨true, 9895936, 65536⟩, by decide +kernel, by decide +kernel⟩

/-- A NaN, infinities of both signs, a zero and a number. -/
theorem witness_FloatSpecialCases : Float.isNaN .f32 0x7FC00001 = true ∧ Float.isNaN .f32 0x3F800000 = false
    ∧ Float.toFV .f32 0x7F800000 = .inf false ∧ Float.toFV .f16 0xFC00 = .inf true ∧ (∃ y, Float.toFV .bf16 0x8000 = .fin y ∧ y.num = 0)
    ∧ (∃ y, Float.toFV .f32 0xBF800000 = .fin y ∧ y.num ≠ 0 ∧ y.neg = true) ∧ false ≠ (true != false) :=
  ⟨by decide +kernel, by decide +kernel, by decide +kernel, by decide +kernel, ⟨_, rfl, by decide +kernel⟩, ⟨_, rfl, by decide +kernel, rfl⟩, by decide⟩

/-- The least subnormal and the largest number of binary16. -/
theorem witness_RoundingIsExact : (∃ x, Float.toFV .f16 1 = .fin x) ∧ ∃ x, Float.toFV .f16 0x7BFF = .fin x := ⟨⟨_, rfl⟩, _, rfl⟩

/-- A slot in use, without and with blocks, in slot 2; slot 3 is not in use. -/
def slots (fmt : Nat) : State := withRecord base fun r => { r with slots := [(2, { fmt := fmt, mant := if fmt = 4 then 4 else 0, scale := 0x3F800000#32 })] }

theorem witness_Conversion :
    (∀ i ∈ ([.cvt .f32 .rn (ops (.v 5) (.v 6) .none (.i8 0x04) 0), .cvt .f32 .rn (ops (.v 5) (.v 6) (.k 4) (.i8 0x74) 0x10)] : List Instr), Ready i (slots 1))
    ∧ (∀ i ∈ ([.cvt .f32 .rn (ops (.v 5) (.v 6) (.k 4) (.i8 0x74) 0x10), .cvtBlock .f32 .rn (ops (.k 5) (.k 6) (.k 4) (.i8 0x74) 0x10),
        .cvtBlock .f32 .rn (ops (.v 5) (.v 6) (.k 4) (.i8 0x07) 0x2)] : List Instr), Ready i (slots 4))
    ∧ (slots 4).slot? 2 ≠ none ∧ (slots 4).slot? 3 = none
    ∧ Ready (.cvt .f32 .rn (ops (.v 5) (.v 6) (.k 4) (.i8 0x74) 0x18)) (slots 4) :=
  ⟨ready_all (by decide +kernel), ready_all (by decide +kernel), by decide +kernel, by decide +kernel, ready_of (by decide +kernel)⟩

theorem witness_Exchanges : ∀ i ∈ ([.qswp .horiz (ops (.v 1) (.v 2) .none .none 0), .qswp .vert (ops (.v 2) (.v 2) .none .none 0),
    .qswp .diag (ops (.v 1) (.v 2) .none .none 0), .qbcst 3 (ops (.v 1) (.v 2) .none .none 0), .xshfl .idx (ops (.v 1) (.v 2) (.i8 0xFF) .none 0),
    .xshfl .up (ops (.v 1) (.v 2) (.i8 31) .none 0), .xshfl .down (ops (.v 1) (.v 2) (.v 3) .none 0), .xshfl .xor (ops (.v 1) (.v 2) (.k 1) .none 0)]
    : List Instr), Ready i base := ready_all (by decide +kernel)

theorem witness_GroupResults : ∀ i ∈ ([.xscan .addF (ops (.v 1) (.v 2) .none .none 0), .xred .minS (ops (.k 6) (.v 11) .none .none 0),
    .vote .all (ops (.p 0) (.p 3) .none .none 0), .vote .any (ops (.p 5) (.p 4) .none .none 0), .vote .ballot (ops (.k 7) (.p 3) .none .none 0),
    .elect (ops (.p 1) .none .none .none 0), .gsample (ops (.v 20) (.v 8) (.k 5) (.p 0) 0)] : List Instr), Ready i base := ready_all (by decide +kernel)

/-- Moments with a negative variance, and a covariance of 2 between variances of 1. -/
theorem witness_MomentResults :
    (∀ i ∈ ([.mset (ops (.m 2) (.v 4) .imm .none 0x3D800000), .madd (ops (.m 4) (.m 2) (.m 3) .imm 0x40000000), .msub (ops (.m 4) (.m 2) (.m 3) .none 0),
        .mmul (ops (.m 4) (.m 2) (.m 3) (.v 1) 0), .mscl (ops (.m 8) (.m 8) .imm .none 0x3F000000), .msqr (ops (.m 1) (.m 2) .none .none 0),
        .mrcp (ops (.m 1) (.m 2) .none .none 0), .mexp (ops (.m 1) (.m 2) .none .none 0), .mrelu (ops (.m 1) (.m 2) .none .none 0),
        .mlog (ops (.m 1) (.m 2) .none .none 0)] : List Instr), Ready i base)
    ∧ Moment.negative (Moment.var 0xBF80000000000000#64) = true ∧ Moment.negative (Moment.var 0x3F80000000000000#64) = false
    ∧ Moment.excess (Float.fval 0x40000000#32) (Moment.plus (Moment.var 0x3F80000000000000#64)) (Moment.plus (Moment.var 0x3F80000000000000#64)) = true :=
  ⟨ready_all (by decide +kernel), by decide +kernel, by decide +kernel, by decide +kernel⟩

theorem witness_IndependentMoments : Float.isNaN .f32 (Bits.lo 0x3F8000003F800000#64).toNat = false
    ∧ Float.isNaN .f32 (Bits.hi 0x3F8000003F800000#64).toNat = false ∧ Moment.negative (Moment.var 0x3F8000003F800000#64) = false := by decide +kernel

theorem witness_MomentCollapse : ∀ i ∈ ([.mcol .mean (ops (.v 1) (.m 2) .none .none 0), .mcol .var (ops (.v 1) (.m 2) .none .none 0),
    .mcol .msd (ops (.v 1) (.m 2) (.v 3) .none 0), .mcol .sample (ops (.v 12) (.m 6) (.v 30) .none 0), .mchk (ops (.p 2) (.m 6) (.k 9) .none 0),
    .mchk (ops (.p 0) (.m 6) .imm .none 0x3F800000)] : List Instr), Ready i base := ready_all (by decide +kernel)

theorem witness_ConversionClamps : (32 = 32 ∨ 32 = 64) ∧ (64 = 32 ∨ 64 = 64) := by decide

/-- Values in every clause of RoundingModes: 1/3, beyond the largest finite value, and the least value that rounds to infinity. -/
theorem witness_RoundingModes :
    (let x (n : Nat) (neg : Bool) : Float.Ex := { neg := neg, num := n, den := 3 }
     (0 < (x 1 true).den) && (x 0 true).num == 0 && Float.round .f32 .rn (x 1 false) == 0x3EAAAAAB && Float.round .f32 .rz (x 1 false) == 0x3EAAAAAA
     && Float.round .f32 .rp (x 1 true) == 0xBEAAAAAA && Float.round .f32 .rm (x 1 true) == 0xBEAAAAAB
     && Float.round .f16 .rn (x 196560 false) == 0x7C00 && Float.round .f16 .rn (x 196559 false) == 0x7BFF && Float.round .f16 .rp (x 196513 false) == 0x7C00
     && Float.round .f16 .rm (x 196513 true) == 0xFC00 && Float.round .f16 .rm (x 196560 false) == 0x7BFF) = true := by decide +kernel

def withMem (s : State) (p : Nat) (bs : List Byte) : State := { s with mem := Memory.write s.mem p bs }
def withT (s : State) (n : Nat) (x : W64) : State := s.setGrp (s.grp.wt n x)
def withWindow (s : State) (n : Nat) (w : Window) : State := withTeam s fun t => { t with windows := SMap.put t.windows n w }
def withCore (s : State) (f : Core → Core) : State := s.setCoreAt 0 (f (s.coreAt 0))
def bytes (l : List (Nat × Nat)) : List Byte := l.flatMap fun x => Bits.bytesOf x.1 x.2

/-- Windows 0 and 5 bound, window 1 with moments, window 2 free; slot 2 in use. -/
def zed : State := withTeam (withRecord base fun r => { r with slots := [(2, { fmt := 2 })], zmom := 2#16 }) fun t =>
  { t with windows := [(0, { mom := false, mean := [], var := [] }), (1, { mom := true, mean := [], var := [] }), (5, { mom := false, mean := [], var := [] })] }

theorem witness_Windows :
    (zed.slot? 3 = none ∧ Ready (.thnd (ops (.t 3) (.k 6) (.i8 3) .none 0)) zed)
    ∧ (zed.slot? 2 ≠ none ∧ Ready (.thnd (ops (.t 3) (.k 6) (.i8 0xA) .none 0)) zed)
    ∧ zed.groupsOf 1 = [(1, zed.grp)] ∧ zed.grp.exposed = []
    ∧ Ready (.zclr (ops (.z 1) .none .none .none 0)) zed ∧ Ready (.zrd (ops (.v 40) (.z 1) (.i8 0x88) (.i8 16) 0)) zed
    ∧ Ready (.zwr (ops (.z 0) (.v 40) (.i8 127) (.i8 1) 0)) zed ∧ hasMoments zed 1 = true ∧ hasMoments zed 0 = false
    ∧ Ready (.zrd (ops (.v 40) (.z 0) (.i8 0x88) (.i8 16) 0)) zed ∧ Ready (.zwr (ops (.z 0) (.v 40) (.i8 0x80) (.i8 1) 0)) zed
    ∧ Ready (.zalloc (ops (.p 1) (.z 2) .none .none 0)) zed ∧ Ready (.zfree (ops (.z 5) .none .none .none 0)) zed
    ∧ Ready (.mxfence (ops .none .none .none .none 0)) zed :=
  ⟨⟨by decide +kernel, ready_of (by decide +kernel)⟩, ⟨by decide +kernel, ready_of (by decide +kernel)⟩, rfl, rfl, ready_of (by decide +kernel),
    ready_of (by decide +kernel), ready_of (by decide +kernel), by decide +kernel, by decide +kernel, ready_of (by decide +kernel),
    ready_of (by decide +kernel), ready_of (by decide +kernel), ready_of (by decide +kernel), ready_of (by decide +kernel)⟩

def heapHeld : State := withCore zed fun c => { c with heap := { owner := some 1, entries := [(0x40000000#32, 7#32)] } }

theorem witness_EpilogueAndHeap :
    (Ready (.zepi (ops (.v 40) (.z 5) (.k 11) .imm 0x60000)) zed ∧ zed.slot? 0 = none)
    ∧ Ready (.zepi (ops (.v 40) (.z 5) (.k 11) .imm 0xF80)) zed
    ∧ (Ready (.zepiHeap (ops (.i8 0) (.z 5) (.k 11) .imm 0xF80)) heapHeld ∧ heapHeld.core.heap.owner = some heapHeld.grp.team)
    ∧ (Ready (.zepiHeap (ops (.i8 0) (.z 5) (.k 11) .imm 0xF80)) zed ∧ zed.core.heap.owner ≠ some zed.grp.team)
    ∧ (∀ n ∈ [0#8, 1#8], Ready (.hpinit (ops (.p 1) (.i8 n) .none .none 0)) zed ∧ Ready (.hpinit (ops (.p 1) (.i8 n) .none .none 0)) heapHeld)
    ∧ Ready (.hpread (ops (.v 40) (.k 12) (.k 13) .none 0)) zed ∧ Ready (.hpread (ops (.v 40) (.k 12) (.k 13) .none 0)) heapHeld
    ∧ Zw.cuts (Bits.hi (heapHeld.grp.rk 13)) = false :=
  ⟨⟨ready_of (by decide +kernel), by decide +kernel⟩, ready_of (by decide +kernel), ⟨ready_of (by decide +kernel), by decide +kernel⟩,
    ⟨ready_of (by decide +kernel), by decide +kernel⟩, fun n hn => by
      rcases List.mem_cons.mp hn with rfl | h
      · exact ⟨ready_of (by decide +kernel), ready_of (by decide +kernel)⟩
      · cases List.mem_singleton.mp h; exact ⟨ready_of (by decide +kernel), ready_of (by decide +kernel)⟩,
    ready_of (by decide +kernel), ready_of (by decide +kernel), by decide +kernel⟩

/-- An entry of the heap that is uncorrectable. -/
def heapSpoiled : State := withCore heapHeld fun c => { c with heap := { c.heap with bad := [0] } }

theorem witness_EpilogueAndHeap_bad :
    (isReady (.zepiHeap (ops (.i8 0) (.z 5) (.k 11) .imm 0xF80)) heapSpoiled && isReady (.hpread (ops (.v 40) (.k 12) (.k 13) .none 0)) heapSpoiled
    && Zw.heapBad heapSpoiled && !Zw.heapBad heapHeld
    && result (.hpread (ops (.v 40) (.k 12) (.k 13) .none 0)) heapSpoiled (fun t => t.grp.cause) == some 0x26#32) = true := by decide +kernel

/-- Three values in the heap; ranks 0 to 31 with temperature 1 and with the cut at half of the weight, and one that the heap cannot decide. -/
def ranked (p z : W32) (ovf : Bool) : State :=
  withK (withK (withCore zed fun c => { c with heap := { owner := some 1, entries := [(0x40000000#32, 7#32), (0x3F800000#32, 8#32), (0#32, 9#32)], ovf := ovf } })
    12 (Bits.join 0x3F800000#32 0#32)) 13 (Bits.join p z)

theorem witness_EpilogueAndHeap_cut :
    (let i : Instr := .hpread (ops (.v 40) (.k 12) (.k 13) .none 0)
     isReady i (ranked 0x3F000000#32 0x40000000#32 true) && !Zw.heapBad (ranked 0x3F000000#32 0x40000000#32 true)
     && result i (ranked 0x3F000000#32 0x40000000#32 true) (fun t => (List.range 4).map fun l => (t.grp.rv 41 l, t.grp.rv 42 l))
        == some [(7#32, 0x3F800000#32), (8#32, 0#32), (9#32, 0#32), (0xFFFFFFFF#32, 0#32)]
     && result i (ranked 0#32 0#32 true) (fun t => (List.range 2).map fun l => t.grp.rv 42 l) == some [0x3F800000#32, 0x3F000000#32]
     && result i (ranked 0x3F000000#32 0x41000000#32 true) (fun t => (t.grp.cause, t.grp.tval)) == some (0x83#32, 3#64)
     && result i (ranked 0x3F000000#32 0x41000000#32 false) (fun t => t.cur.status) == some .issued
     && result (.zepi (ops (.v 40) (.z 5) (.k 11) .imm 0x10F80)) zed (fun t => t.grp.cause) == some 0x81#32) = true := by decide +kernel

/-- Tensor 0: one tile of binary16 elements at 0x10000, tagged; its descriptor at 0x2000. -/
def tiled (h : W64) : State :=
  withT (withMem ({ (zed.setClusterAt 0 { tlb := [Turns.bootLeaf, { Turns.bootLeaf with base := 65536, w0 := 0x1003F#64, w1 := 1#64 }] }) with
    descs := [(0, { valid := true, ttbase := 0x2000, ttcount := 1 })] }) 0x2000 (bytes [(8, 0x10000), (8, 0), (4, 1), (4, 1), (1, 16)])) 2 h

/-- What `MatrixIssue` asks of an MMA whose checks pass. -/
def mmaOk (kind : MmaKind) (o : Opds) (s : State) : Bool :=
  decide (s.core.mbuf.length < 8) && s.roomFor .matrix &&
  match Tensor.check s (s.grp.rt o.b.val) (Mtx.suits kind) (Mtx.deep32 kind) (Mtx.seeDesc s (Tensor.hTensor (s.grp.rt o.b.val))) with
  | .ok d _ =>
    let vas := Tensor.lines d (Tensor.index d (Tensor.storedRow (s.grp.rt o.b.val)) (Tensor.hTcol (s.grp.rt o.b.val)))
    vas.all (fun va => (Tensor.lineOk s (Tensor.hTensor (s.grp.rt o.b.val)) va false).isSome
      && match Mtx.seeLine s va with | .data _ _ => true | _ => false)
    && hasMoments s o.d.val == Mtx.deep32 kind && (!Mtx.deep32 kind || Mtx.negatives s o.a.val == 0#32)
  | _ => false

def mmaH : Instr := .mmaH (ops (.z 0) (.v 0) (.t 2) (.i8 0) 0)
def mmaMom : Instr := .mmaMom (ops (.z 1) (.m 0) (.t 2) .none 0)

theorem witness_MatrixIssue :
    (isReady mmaH (tiled 0x00A0000000000000#64) && mmaOk .h (ops (.z 0) (.v 0) (.t 2) (.i8 0) 0) (At mmaH (tiled 0x00A0000000000000#64))
    && isReady mmaMom (tiled 0x01A0000000000000#64) && mmaOk .mom (ops (.z 1) (.m 0) (.t 2) .none 0) (At mmaMom (tiled 0x01A0000000000000#64))
    && isReady mmaH (withCore zed fun c => { c with mbuf := List.replicate 8 { grp := 1, op := 1 } })
    && isReady mmaH zed && !Tensor.hValid (zed.grp.rt 2)
    && Tensor.hValid ((tiled 0x0080000000000000#64).grp.rt 2) && ((tiled 0x0080000000000000#64).slot? 0).isNone) = true := by decide +kernel

/-- The tile's line is with a peer; with one that cannot be reached; without TYPE 1; then windows and rows that do not suit. -/
theorem witness_MatrixIssue_lines :
    (let s := tiled 0x00A0000000000000#64
     let leaves (s : State) (w0 w1 : W64) := s.setClusterAt 0 { tlb := [Turns.bootLeaf, { Turns.bootLeaf with base := 65536, w0 := w0, w1 := w1 }] }
     let away := leaves s 0x401005F#64 1#64
     let saved (t : State) := (t.grp.cause, t.grp.tval)
     isReady mmaH away && asks mmaH away == some 0x10000 && result mmaH { away with inSync := false } saved == some (0x27#32, 0x10000#64)
     && result mmaH (leaves s 0x1003F#64 0#64) saved == some (0x82#32, 0x10000#64)
     && result (.mmaH (ops (.z 1) (.v 0) (.t 2) (.i8 0) 0)) s (fun t => t.grp.cause) == some 0x81#32
     && result mmaMom (withM (tiled 0x01A0000000000000#64) 0 0xBF80000000000000#64) saved == some (0x08#32, 0xFFFFFFFF#64)) = true := by decide +kernel

/-- One MMA in the merge buffer, overdue. -/
def queued : State :=
  let p : MmaParams :=
    { kind := .h, window := 0, areg := 0, abf := false, lanes := ~~~0#32, tensor := 0, trow := 0, tcol := 0, fmt := 2
      mant := 0, seed := 0#64, cov := 0, mphys := 0x10000, ephys := 0, sharing := false, elem := 16, mva := 0x10000, eva := 0, bytes := [],
      badLine := none, deadline := 0 }
  withCore (withOps zed [{ id := 1, cls := .matrix, kind := .mma p }]) fun c => { c with mbuf := [{ grp := 1, op := 1 }] }

/-- The same while it executes, its time over. -/
def executing : State := withCore { queued with gtime := 64 } fun c => { c with mbuf := [], skein := some { members := [{ grp := 1, op := 1 }], ends := 64 } }

theorem witness_Skeins :
    ((queued.coreAt 0).skein.isNone && ((Mtx.chosen queued 0).map fun l => (Mtx.takeRows 128 l).length) == some 1
    && ((executing.coreAt 0).skein.map fun k => decide (k.ends ≤ executing.gtime) && ((k.members.filterMap (Mtx.memberOf executing)).all
        fun m => m.p.badLine.isNone && m.spoiled == 0#32 && (Mtx.window? executing (executing.grpAt m.grp).team m.p.window).isSome)) == some true
    && Mtx.idle { queued with gtime := 1024 } 0) = true := by decide +kernel

/-- A header at 0x3000 with the node table at 0x4000, the query table at 0x5000, the arena at 0x6000; its second record in use. -/
def walkMem (s : State) : State :=
  withMem s 0x3000 (bytes [(2, 1), (1, 1), (1, 0), (4, 9), (4, 0), (4, 0xFFFFFFFF), (8, 0x5000), (8, 0x6000), (2, 16), (2, 64), (1, 2), (3, 0),
    (16, 0), (8, 0x4000), (4, 1), (4, 0)])

/-- One node, a leaf of sequence 3, whose subscriber is itself. -/
def treeMem (s : State) : State :=
  withMem (withMem s 0x4000 (bytes [(4, 0xFFFFFFFF), (4, 0xFFFFFFFF), (4, 0xFFFFFFFF), (2, 1), (2, 1), (4, 0), (4, 0), (4, 0), (2, 3), (2, 1)]))
    0x5300 (bytes [(4, 7)])

def leaf3 : SNode := { n := 0, parent := 0xFFFFFFFF, tokens := 1, leaf := true, kt := 0, vt := 0, poff := 0, seq := 3, subs := [3] }
def inner : SNode := { n := 1, parent := 0, tokens := 1, leaf := true, kt := 0, vt := 0, poff := 1, seq := 3, subs := [3] }

def walk (st : WNode) : Walk :=
  { ctx := 0, launch := 1, hyp := 0#16, orphan := none, seq := 1, header := .hbm 0x3000, live := 1, gen := 9#32, step := 7, qbase := 0x5000,
    pbase := 0x6000, blen := 16, hdim := 64, nbase := 0x4000, ncount := 1, root := 0, priv := true, read := [], ready := true, fault := none,
    nodes := [leaf3, inner], states := [(0, { st with merged := true }), (1, st)], subsBy := [(1, 0, 0, 0), (1, 0, 0, 1)], horizon := 0, ending := false }

/-- A walk open in slot 0 of cluster 0, named by k20, and node 1 by k8. -/
def walking (w : Walk) : State :=
  withK (withK (walkMem { (base.setClusterAt 0 { base.clusterAt 0 with walks := [(0, w)], walkSeq := [(0, 1)] }) with
    descs := [(0, { valid := true })] }) 20 (Wk.handle 0 0 1 9#32)) 8 1#64

def wkNamed (i : Instr) (s : State) (closing : Bool) : Bool :=
  isReady i s && match Wk.named (At i s) (s.grp.rk 20) closing with | .ok cl sl _ => cl == 0 && sl == 0 | _ => false

def wkOps : Opds := ops (.k 8) (.k 20) .none (.p 2) 0

theorem witness_WalkHandOuts :
    (let s := withK (walkMem base) 4 0x3000#64
     let i : Instr := .wkbegin (ops (.k 20) (.k 4) (.k 5) (.p 1) 0)
     let j : Instr := .wkswap (ops (.k 20) (.k 4) .none .none 0)
     let meets (i : Instr) : Bool := isReady i s && match Wk.meetHeader (At i s) 0x3000 with | .ok (.hbm p) h _ => p == 0x3000 && decide (h.live < 2) | _ => false
     meets i && meets j
     && isReady i (walking (walk {})) && wkNamed (.wknext wkOps) (walking (walk {})) false
     && wkNamed (.wknext wkOps) (walking { walk { given := true } with states := [(0, { given := true }), (1, { given := true })] }) false
     && wkNamed (.wknextMerge wkOps) (walking (walk { done := true })) false
     && isReady (.wknext wkOps) base && (Wk.walk? base 0 0).isNone) = true := by decide +kernel

def subsIn : Instr := .wksubs false (ops (.k 9) (.k 20) (.k 8) (.k 10) 0)
def partIn (c : W32) : Instr := .wkpart (ops .imm (.k 20) (.k 8) (.v 40) c)
def mergeIn : Instr := .smxmerge (ops .none (.k 20) (.k 8) .none 0)
def doneIn : Instr := .wkdone (ops .none (.k 20) (.k 8) .none 0)
def endIn : Instr := .wkend (ops .none (.k 20) .none .none 0)

theorem witness_WalkOperations :
    (wkNamed subsIn (walking (walk {})) false && wkNamed subsIn (walking (walk { given := true })) false
    && wkNamed subsIn (walking (walk { given := true, fetched := true })) false
    && (let r := Wk.readRanks (At subsIn (walking (walk {}))) (walk {}) false inner; r.hold.isNone && r.ranks == [(some false, some [])])
    && wkNamed (partIn 0x10000#32) (walking (walk { given := true, faulted := true })) false
    && wkNamed (partIn 0x10000#32) (walking (walk { given := true, done := true })) false
    && wkNamed (partIn 0x10000#32) (walking (walk { given := true })) false && wkNamed (partIn 0x20000#32) (walking (walk { given := true })) false
    && wkNamed mergeIn (walking (walk {})) false && wkNamed mergeIn (walking (walk { mgiven := true })) false
    && wkNamed doneIn (walking (walk {})) false && wkNamed doneIn (walking (walk { given := true })) false
    && wkNamed endIn (walking (walk {})) true) = true := by decide +kernel

theorem witness_WalkOperations_peer : asks subsIn (far (walking (walk { given := true, fetched := true }))) = some 0x5304 := by decide +kernel

/-- The walk with one operation of the group under way on it. -/
def underWay (w : Walk) (a : WalkAct) (mem : State → State) : State :=
  let k : OpKind := .walk { cluster := 0, slot := 0, seq := 1, priv := true, act := a }
  withOps (mem (walking w)) [{ id := 1, cls := .walk, kind := k, acq := if a == .begin then some .module else none }]

def opening (st : WNode) (nodes : State → State) : State := underWay { walk st with ready := false, nodes := [] } .begin nodes

/-- The snapshot of one leaf; that of an empty record; and a fetch of a node whose tensors have no line. -/
theorem witness_WalkReads :
    ((match Wk.opener (opening {} treeMem) 0 0 ((Wk.walk? (opening {} treeMem) 0 0).getD (walk {})) with
      | some (u, op) => u == 1 && Wk.firstWalk (opening {} treeMem) u op.id && Wk.acquired (opening {} treeMem) u op
          && (match Wk.snapshot (opening {} treeMem) ((Wk.walk? (opening {} treeMem) 0 0).getD (walk {})) (Wk.reader (walk {}) u op) with
            | .ok ns _ => ns == [leaf3] | _ => false)
          && (match Wk.snapshot (opening {} id) ((Wk.walk? (opening {} id) 0 0).getD (walk {})) (Wk.reader (walk {}) u op) with
            | .bad a st => a == 0x4000 && Wk.acquired ((opening {} id).noteStamps u st) u op | _ => false)
      | none => false)) = true := by decide +kernel

/-- A node handed out whose K and V tensors have one tile of 2-bit mantissas at 0x8000 and exponents at 0xC000. -/
def fetching : State :=
  withMem { walking (walk { given := true, by' := 1, priv := true }) with descs := [(0, { valid := true, ttbase := 0x2000, ttcount := 1 })] }
    0x2000 (bytes [(8, 0x8000), (8, 0xC000), (4, 1), (4, 1), (1, 2)])

theorem witness_WalkReads_fetch :
    (let part (s : State) (st : List Taken) : Wk.Fetched := Wk.fetchTensor s ⟨1, true, Wk.view (walk {}), []⟩ 0 0 st
    (match part fetching [] with
      | .all a => (match part fetching a with | .all _ => true | _ => false)
      | _ => false)
    && (match part { fetching with badUnits := [0x1000] } [] with | .bad _ => true | _ => false)
    && (match part { fetching with descs := [(0, { valid := true })] } [] with | .stop _ => true | _ => false)
    && result (.walkBlockFetchComplete 0 0 0) { fetching with badUnits := [0x1000] }
        (fun t => (Wk.walk? t 0 0).map fun w => ((Wk.stOf w 0).fetched, (Wk.stOf w 0).faulted)) == some (some (true, true))
    && result (.walkBlockFetchComplete 0 0 0) fetching
        (fun t => (Wk.walk? t 0 0).map fun w => ((Wk.stOf w 0).fetched, (Wk.stOf w 0).faulted)) == some (some (true, false))) = true := by decide +kernel

/-- The record, or a fetched tensor's descriptor, lies with a peer. -/
theorem witness_WalkReads_peer :
    (result (.walkSnapshotComplete 0 0) (far (opening {} treeMem)) (fun t => ((t.grpAt 1).ops.map fun o => o.asked, (Wk.walk? t 0 0).map fun w => w.ready))
        == some ([[(0x4000, 0)]], some false)
    && result (.walkBlockFetchComplete 0 0 0) (far fetching) (fun t => (Wk.walk? t 0 0).map fun w => (Wk.stOf w 0).asked) == some (some [(0x2000, 0)])) = true := by
  decide +kernel

def isDue (s : State) : Bool := (Wk.due s 1 1).isSome

theorem witness_WalkCompletions :
    (isDue (underWay (walk {}) (.subs 1 0 none [(some true, some [])]) id) && isDue (underWay (walk {}) (.part 1 [(0x6110, 5#32)]) id)
    && isDue (underWay (walk {}) (.merge 0) id) && isDue (underWay (walk {}) (.merge 1) id) && isDue (underWay (walk {}) (.done 1) id)
    && isDue (underWay (walk {}) .fin id)
    && (let s := underWay (walk {}) (.subs 1 0 none [(some true, some [])]) id
        (after (exec (.wksubsComplete 1 1) s)).map (fun t => (t.readMem (0x6110 + 8) 4, t.readMem (0x6110 + 12) 2)) == some (1, 3))
    && (let s := underWay (walk {}) (.part 1 [(0x6110, 5#32)]) id
        (after (exec (.wkpartComplete 1 1) s)).map (fun t => t.readMem 0x6110 4) == some 5)
    && (let s := underWay (walk {}) (.merge 1) id
        (after (exec (.smxmergeComplete 1 1) s)).map (fun t => ((Wk.walk? t 0 0).map fun w => (Wk.stOf w 1).merged)) == some (some true))
    && (let s := underWay (walk {}) .fin id
        (after (exec (.wkendComplete 1 1) s)).map (fun t => (Wk.walk? t 0 0).isNone) == some true)) = true := by decide +kernel

/-- A walk that waits for its last operation is closed with it. -/
theorem witness_WalkCompletions_closing :
    (let s := underWay { walk {} with closing := true } (.done 1) id
     (match Wk.due s 1 1 with | some (_, k, w) => w.closing && decide (k.cluster < 80) && k.act == .done 1 | none => false)
     && result (.wkdoneComplete 1 1) s (fun t => (Wk.walk? t 0 0).isNone) == some true
     && ((walking (walk {})).clusters.all fun c => c.2.walks.all fun x => !x.2.closing)) = true := by decide +kernel

/-! Memory -/

def ldIn : Instr := .ld .team false (ops (.v 7) (.v 10) (.k 3) (.i8 4) 0x20)
def stIn : Instr := .st .module true (ops (.v 7) (.v 10) .none .none 0x40)

/-- Hypothesis 1 entered, on pages that take versions, with or without an arena. -/
def thinking (arena : Nat) : State :=
  let s := { base with trees := [(0, { slots := [(1, { used := true, depth := 1 })], free := [2, 3], arenasz := arena })] }
  (s.setGrp { s.grp with hcur := 1#16 }).setClusterAt 0 { tlb := [{ Turns.bootLeaf with w1 := 8#64 }] }

/-- The cause that the lowest failing lane names for an access. -/
def firstCause (i : Instr) (s : State) : Option (Nat × Nat) :=
  match memForm i (At i s) with
  | some f => (f.lanes.find? fun l => (accessCause (At i s) f.want (f.addr l) f.bytes).isSome).map fun l =>
      (l, (accessCause (At i s) f.want (f.addr l) f.bytes).getD 0)
  | none => none

theorem witness_MemoryIssue :
    (([ldIn, stIn, .gather .team (ops (.v 4) (.k 6) (.i8 4) (.v 8) 0x100), .scatter .team (ops (.v 4) (.k 6) (.i8 4) (.v 8) 0x100),
        .atom false .add (ops (.v 5) (.k 4) (.i8 1) (.i8 1) 8)] : List Instr).all (fun i =>
        isReady i base && (memForm i (At i base)).isSome && (firstCause i base).isNone && base.grp.ops.isEmpty)
    && isReady ldIn (withV base 10 1#32) && firstCause ldIn (withV base 10 1#32) == some (0, 0x28)
    && isReady stIn (withV base 10 0x10000#32) && firstCause stIn (withV base 10 0x10000#32) == some (0, 0x2A)
    && isReady stIn (thinking 0) && (firstCause stIn (thinking 0)).isNone && MemI.arenaLow (At stIn (thinking 0))
    && isReady stIn (thinking 0x1000000) && !MemI.arenaLow (At stIn (thinking 0x1000000))
    && isReady ldIn (withOps base (List.replicate 63 { cls := .loads, kind := .fence }))
    && !(At ldIn (withOps base (List.replicate 63 { cls := .loads, kind := .fence }))).roomFor .loads) = true := by decide +kernel

/-- An atomic that MLOCK keeps at the TLB waits for room in the stores counter. -/
theorem witness_MemoryIssue_locked :
    (let i : Instr := .atom false .add (ops (.v 5) (.k 4) (.i8 1) (.i8 1) 8)
     let s := (withOps base (List.replicate 63 { cls := .stores, kind := .fence })).setClusterAt 0 { tlb := [{ Turns.bootLeaf with w1 := 0x10#64 }] }
     isReady i s && (At i s).roomFor .loads && !(At i s).roomFor .stores && (firstCause i s).isNone
     && (match (At i s).find 1 true .atomic 8 with | .at' _ (some lf) => lf.mlock | _ => false)
     && result i s (fun t => t.cur.status) == some .held) = true := by decide +kernel

def stored : Op := { id := 1, cls := .stores, kind := .store, lanes := [{ lane := 0, va := 0x40, loc := .hbm 0x40, size := 4, value := 9 }] }
def failed : State := withGrp (withGrp base fun g => { g with seqs := [(0, 1)] }) fun g =>
  { g with faults := [{ cls := .loads, ord := 0, id := 1, cause := 0x26, tval := 0x80, pc := 0 }] }

theorem witness_OrderingInstructions :
    (isReady (.wait (ops .none .imm .none .none 0x3FFFFFFF)) base
    && isReady (.wait (ops .none .imm .none .none 0)) (withOps base [stored]) && (withOps base [stored]).grp.counter .stores == 1
    && isReady (.wait (ops .none .imm .none .none 0)) failed && !failed.grp.hmode
    && (after (exec (.wait (ops .none .imm .none .none 0)) failed)).map (fun t => (t.grp.cause, t.grp.tval)) == some (0x26#32, 0x80#64)
    && [Instr.fenceRel .module (ops .none .none .none .none 0), .fenceAcq .system (ops .none .none .none .none 0),
        .fenceAr .team (ops .none .none .none .none 0)].all (fun i => isReady i base)
    && isReady (.pref (guarded 1 (ops (.i8 0) (.k 4) .none .none 0x200))) (withP base 1 1#32)
    && Bits.members ((withP base 1 1#32).exec { neg := false, pred := 1#3 }) == [0]) = true := by decide +kernel

/-- One lane's access of an operation of class `c`, to the word at 0x40. -/
def access : Access := { lane := 0, va := 0x40, loc := .hbm 0x40, size := 4, value := 9 }
def sent (c : Cnt) (k : OpKind) (a : Access) (s : State) : State := withOps s [{ id := 1, cls := c, kind := k, hyp := s.grp.hcur, lanes := [a] }]
def word : Dest := { cls := 1, num := 7, code := 4 }

def arrives (s : State) : Bool :=
  match s.lane? 1 1 0 with
  | some (op, a) => a.loc == .hbm 0x40 && !a.locked && a.size == 4 && Coh.clear s 1 op a 0x40 && s.performAtCore 1 1 0 == s && !s.badAt 0x40 4
  | none => false

theorem witness_SliceArrivals :
    (arrives (sent .loads (.load word) access base) && arrives (sent .loads (.gather word) access base)
    && arrives (sent .loads (.atomic .add false false word) access (thinking 0))
    && (match (sent .loads (.load word) access { base with badUnits := [8] }).lane? 1 1 0 with
      | some (op, a) => Coh.clear (sent .loads (.load word) access { base with badUnits := [8] }) 1 op a 0x40
      | none => false)
    && arrives (sent .stores .store { access with l1At := 1 } base) && arrives (sent .stores .store { access with l1At := 1 } (thinking 0))) = true := by
  decide +kernel

theorem witness_Returns :
    (let done : Access := { access with st := .performed, stamps := [.known 0], value := 0x1FF }
     (match (sent .loads (.load word) done base).lane? 1 1 0 with | some (op, _) => Coh.due op 1#32 | none => false)
     && (match (sent .stores .store done base).lane? 1 1 0 with | some (op, _) => Coh.storeReady op | none => false)
     && result (.loadComplete 1 1 1#32) (sent .loads (.load { word with code := 1 }) done base) (fun t => t.grp.rv 7 0) == some 0xFFFFFFFF#32
     && result (.loadComplete 1 1 1#32) (sent .loads (.load { cls := 2, num := 7, code := 1 }) done base) (fun t => t.grp.rk 7)
        == some 0xFFFFFFFFFFFFFFFF#64) = true := by decide +kernel

/-- A read of a page that takes versions, an atomic on one, and their words. -/
theorem witness_SliceArrivals_versions :
    (let a := { access with hypPage := true }
     let g := sent .loads (.gather word) a (thinking 0)
     let x := sent .loads (.atomic .add false false word) a (thinking 0)
     arrives g && arrives x && (wordsOf 0x40 4).all (fun w => !g.wordBad 0 1#16 w && w / 32 == lineOf 0x40)
     && (match x.lane? 1 1 0 with
        | some (op, a) => op.viewOf a == 1#16 && op.sameWord a == [0] && !op.dropped && !a.readOnly
            && (State.atomNew .add 32 (x.viewBytes 0 1#16 0x40 4) 9 0).isSome
        | none => false)
     && result (.loadAtHomeSlice 1 1 0) x (fun t => t.viewBytes 0 1#16 0x40 4) == some 9) = true := by decide +kernel

/-- No leaf of the TLB leads where the access goes: nothing enters the L1, and the line is not taken. -/
theorem witness_unbacked :
    (let unbacked (s : State) : State := s.setClusterAt 0 {}
     let s := unbacked (sent .loads (.load word) access base)
     let x := unbacked (sent .loads (.atomic .add false false word) access base)
     let there (s : State) := (s.lane? 1 1 0).any fun y => (s.retake 1 y.2).backed 1 y.2
     arrives s && !there s && there (sent .loads (.load word) access base) && !there x
     && result (.loadAtHomeSlice 1 1 0) s (fun t => ((t.lane? 1 1 0).map fun x => x.2.st, (t.coreAt 0).l1)) == some (some .performed, [])
     && result (.ownershipGrant 1 1 0) x (fun t => ((t.ownerOf 0).isSome, t.readMem 0x40 4)) == some (false, 9)) = true := by decide +kernel

/-- The second word of a QPOP in lane 3. -/
theorem witness_Returns_pop :
    (let s := sent .loads (.load { cls := 1, num := 7, code := 18 }) { access with lane := 35, st := .performed, stamps := [.known 0], value := 5 } base
     (match s.lane? 1 1 35 with | some (op, _) => Coh.due op 8#32 | none => false)
     && result (.loadComplete 1 1 8#32) s (fun t => t.grp.rv 8 3) == some 5#32) = true := by decide +kernel

/-- Line 0 owned by core 0, a byte of it written. -/
def ownedLine (hand : Bool) : State :=
  { base with owners := [(0, { core := 0, expiry := 5, groups := [1], hand := hand, bytes := [(0x40, 7#8)], words := [(16, 33)], stores := [33] })], gtime := 5 }

theorem witness_LineOwnership :
    (let s := sent .loads (.atomic .add false false word) access base
     (match s.lane? 1 1 0 with
      | some (op, a) => !Coh.readsAtSlice op a && !a.locked && a.l1At == 0 && Coh.clear s 1 op a 0x40 && !s.l1Store? 0 0 1 && s.frontierOf 0 == 0 && !s.ownBehind 0 0 1
      | none => false)
     && result (.ownershipGrant 1 1 0) s (fun t => (t.ownerOf 0).isSome) == some true
     && result (.ownershipGrant 1 1 0) { s with frontier := [(0, 1)] } (fun t => (t.ownerOf 0).isSome) == some false
     && result (.ownershipExpiry 0) (ownedLine false) (fun t => Memory.byte t.mem 0x40) == some 7#8
     && result (.ownershipExpiry 0) { ownedLine false with gtime := 4 } (fun t => (t.ownerOf 0).isSome) == some true
     && result (.ownershipHandbackArrival 0) (ownedLine true) (fun t => t.stampOf 16) == some 5) = true := by decide +kernel

theorem witness_ReleaseAcquire :
    (let fence : Op := { id := 2, cls := .none, kind := .fence, rel := some .module, acq := none }
     let acq : Op := { id := 2, cls := .none, kind := .fence, acq := some .module }
     (withOps base [fence]).releaseReady 1 .module 2 && !(withOps base [stored, fence]).releaseReady 1 .module 2
     && (match (withOps base [acq]).grp.op? 2 with | some o => Coh.acquireReady (withOps base [acq]) 1 o .module | none => false)
     && (match (withGrp (withOps base [acq]) fun g => { g with horizon := 1 }).grp.op? 2 with
        | some o => !Coh.acquireReady (withGrp (withOps base [acq]) fun g => { g with horizon := 1 }) 1 o .module | none => false)) = true := by
  decide +kernel

theorem witness_AtomicValues : (32 = 32 ∨ 32 = 64) ∧ 0xFFFFFFFF < 2 ^ 32 ∧ 0 < 2 ^ 32 ∧ (64 = 32 ∨ 64 = 64) ∧ 2 ^ 63 < 2 ^ 64 := by decide

/-! Copies, queues, bank units -/

def cpIn (code : BitVec 8) : Instr := .cpLin (ops (.k 8) (.k 9) (.k 10) (.i8 code) 0)
def cpTo (code : BitVec 8) : Instr := .cpLin (ops .none (.k 9) (.k 10) (.i8 code) 0)

/-- A copy of `len` bytes from `src` to `dst`. -/
def copying (src dst len : W64) (s : State) : State := withK (withK (withK s 8 dst) 9 src) 10 len

def queue (free : Nat) (slots : List QSlot) : Queue :=
  { base := 0x400, nslot := 2, slotsz := 128, free := free, head := 0, tail := 0, slots := slots, allow := [(0, 255)] }

def queued2 (q : Queue) (s : State) : State := withTeam s fun t => { t with queues := [(2, q)] }

theorem witness_Copies :
    (isReady (cpIn 0) (copying 0x1000#64 0x2000#64 64#64 base)
    && (match Cpy.planLin (At (cpIn 0) (copying 0x1000#64 0x2000#64 64#64 base)) (ops (.k 8) (.k 9) (.k 10) (.i8 0) 0) with
      | .runs src => src.runs == [(0x1000, 64)] && src.len == 64
          && Cpy.copyTrap (At (cpIn 0) (copying 0x1000#64 0x2000#64 64#64 base)) (ops (.k 8) (.k 9) (.k 10) (.i8 0) 0) .lin src == none
      | _ => false)
    && result (cpIn 0) (copying 0x1002#64 0x2000#64 64#64 base) (fun t => (t.grp.cause, t.grp.tval)) == some (0x28#32, 0x1002#64)
    && result (cpIn 0) (copying 0x1000#64 0x2001#64 64#64 base) (fun t => t.grp.tval) == some 0x2001#64
    && result (cpIn 0) (copying 0x1000#64 0x2000#64 66#64 base) (fun t => t.grp.tval) == some 66#64
    && result (cpTo 0x82) (copying 0x1000#64 0#64 64#64 base) (fun t => (t.grp.cause, t.grp.tval)) == some (0x4A#32, 2#64)
    && result (cpTo 0x82) (copying 0x1000#64 0#64 64#64 (queued2 (queue 0 []) base)) (fun t => t.cur.status) == some .held
    && result (cpTo 0x82) (copying 0x1000#64 0#64 64#64 (queued2 (queue 2 []) base)) (fun t => (t.cur.status, t.grp.counter .copies))
        == some (.issued, 1)) = true := by decide +kernel

def copyJob : CopyJob := { src := [(0x1000, 8)], dst := 0x2000, len := 8, kind := 1, num := 0, priv := true }
def copyOp (j : CopyJob) : Op := { id := 1, cls := .copies, kind := .copy j }

/-- Four of the copy's eight bytes have been read, or all of it has been written. -/
def halfRead : CopyJob := { copyJob with read := [(0, 4)], buf := [(0, 1#8), (1, 2#8), (2, 3#8), (3, 4#8)] }
def allWrote : CopyJob := { copyJob with read := [(0, 8)], wrote := [(4, 4), (0, 4)], stamp := 3 }

theorem witness_Copies_steps :
    (let reads := withMem { withOps base [copyOp copyJob] with turns := [.copyRead 1 1 0 1] } 0x1000 [1#8, 2#8, 3#8, 4#8]
     let writes := { withOps base [copyOp halfRead] with turns := [.copyWrite 1 1 0 4] }
     let job (t : State) : Option CopyJob := (t.grp.op? 1).bind fun o => match o.kind with | .copy j => some j | _ => none
     Cpy.srcAt copyJob.src 0 0 == some (0x1000, 8, 0) && Cpy.limitOf (copyOp copyJob) copyJob == 8
     && (match (Iss.settle { reads with turns := [] }).see 1 1 true 0#16 0x1000 8 with | .data bs _ => bs.length == 8 | _ => false)
     && (after (step reads)).map (fun t => (job t).map fun j => (j.read, SMap.get? j.buf 2)) == some (some ([(0, 8)], some 3#8))
     && Cpy.clearBelow (Iss.settle { writes with turns := [] }) 1 (copyOp halfRead) halfRead 0
     && (match (Iss.settle { writes with turns := [] }).put 1 (copyOp halfRead) true 0x2000 [1#8, 2#8, 3#8, 4#8] with | .ok _ _ => true | _ => false)
     && (after (step writes)).map (fun t => (t.readMem 0x2000 4, (job t).map CopyJob.wrote)) == some (0x04030201, some [(0, 4)])
     && result (.copyComplete 1 1) (withOps base [copyOp allWrote]) (fun t => (t.grp.counter .copies, t.grp.horizon)) == some (0, 3)
     && result (.copyComplete 1 1) (withOps base [copyOp halfRead]) (fun t => t.grp.counter .copies) == some 1) = true := by decide +kernel

def pushIn (n : BitVec 8) : Instr := .qpush (ops (.i8 2) (.v 16) (.i8 n) .none 0)
def popIn : Instr := .qpop (ops (.v 16) (.i8 2) (.i8 1) .none 0)
def allowIn : Instr := .qallow (ops (.i8 2) (.k 12) (.k 13) .none 0)

def filledSlot : QSlot := { slot := 0, filled := true, grp := 1, op := 1, engine := false }
def openSlot : QSlot := { filledSlot with filled := false }

theorem witness_LocalQueues :
    (let s := queued2 (queue 2 []) base
     isReady (pushIn 1) base && isReady (pushIn 1) s && isReady (pushIn 2) s && isReady (pushIn 1) (queued2 (queue 0 []) base)
     && result (pushIn 1) base (fun t => (t.grp.cause, t.grp.tval)) == some (0x4A#32, 2#64)
     && result (pushIn 2) s (fun t => t.grp.cause) == some 0x4A#32
     && result (pushIn 1) (queued2 (queue 0 []) base) (fun t => t.cur.status) == some .held
     && result (pushIn 1) (withV s 16 0x01020304#32) (fun t => (t.locByte 1 0x400, t.locByte 1 0x47F)) == some (4#8, 1#8)
     && isReady popIn base && isReady popIn (queued2 (queue 1 [filledSlot]) base)
     && result popIn (queued2 (queue 1 [filledSlot]) base) (fun t => t.grp.counter .loads) == some 1
     && result popIn (queued2 (queue 1 [openSlot]) base) (fun t => t.cur.status) == some .held
     && (queued2 (queue 1 [openSlot]) base).releaseReady 1 .team 1
     && isReady allowIn base && isReady (.qallow (ops (.i8 2) .none .none .none 0)) s
     && result allowIn (withK base 12 0x40#64) (fun t => (Cpy.queue? t 1 2).isSome) == some false
     && result allowIn (withK (withK base 12 0x100000400#64) 13 0x300000001#64)
        (fun t => (Cpy.queue? t 1 2).map fun q => (q.base, q.nslot, SMap.get 0 q.allow 0, SMap.get 0 q.allow 1)) == some (some (0x400, 2, 3, 0))) = true := by
  decide +kernel

/-- A push after a fence that has not ended keeps its bytes, and its slot waits with it. -/
theorem witness_LocalQueues_waits :
    (let fence : Op := { id := 1, cls := .none, kind := .fence, acq := some .module }
     let s := withV (withOps (withTeam (queued2 (queue 2 []) base) fun t => { t with lmem := [(0x400, 9#8)] }) [fence]) 16 0x01020304#32
     let kept : QSlot := { openSlot with op := 2, data := List.replicate 128 5#8 }
     let ready := withOps (queued2 (queue 1 [kept]) base) []
     isReady (pushIn 1) s && Cpy.pushWaits (At (pushIn 1) s) 1 s.nextId 1 0x400 128
     && result (pushIn 1) s (fun t => ((Cpy.queue? t 1 2).map fun q => q.slots.map fun e => (e.filled, e.data.length), t.locByte 1 0x400))
        == some (some [(false, 128)], 9#8)
     && ready.releaseReady 1 .team 2 && !ready.blocked 1 { id := 2, cls := .stores, kind := .store }
     && result (.queueSlotFill 1 2 0) ready (fun t => ((Cpy.queue? t 1 2).map fun q => q.slots.map fun e => (e.filled, e.data.length), t.locByte 1 0x47F))
        == some (some [(true, 0)], 5#8)
     && result popIn (withOps (queued2 (queue 1 [filledSlot]) base) [fence]) (fun t => t.cur.status) == some .held) = true := by decide +kernel

def bmvIn : Instr := .bmv (ops (.k 20) (.k 21) (.k 22) (.i8 2) 0)

/-- A BANK tensor of 2-bit mantissas at 0x10000, one tile; x at 128, y at 0. -/
def banked (layout : W64) (ncol : W64) : State :=
  let s := (withMem (slots 4) 0x2000 (bytes [(8, 0x10000), (8, 0x11000), (4, 1), (4, 1), (1, 4)])).setClusterAt 0
    { tlb := [Turns.bootLeaf, { Turns.bootLeaf with base := 65536, w0 := 0x1003F#64, w1 := layout }] }
  withK (withK { s with descs := [(0, { valid := true, ttbase := 0x2000, ttcount := 1 })] } 20 0x4000000000#64) 22 ncol

def bmvJob : BmvJob :=
  { xoff := 64, yoff := 0, col0 := 0, ncol := 1, bf := false, acc := false, mant := 4, mbase := 0x10000, ebase := 0x11000, ktiles := 1, ntiles := 1 }
def bmvOp : Op := { id := 1, cls := .bank, kind := .bmv bmvJob }

theorem witness_BankUnits :
    (isReady bmvIn (banked 2 1) && (match Bnk.check (At bmvIn (banked 2 1)) (ops (.k 20) (.k 21) (.k 22) (.i8 2) 0) with | .ok j _ _ => j == bmvJob | _ => false)
    && result bmvIn (banked 1 1) (fun t => t.grp.cause) == some 0x25#32 && result bmvIn (banked 2 129) (fun t => (t.grp.cause, t.grp.tval)) == some (0x29#32, 129#64)
    && isReady bmvIn base && (base.slot? 2).isNone && isReady bmvIn (slots 1)
    && Bnk.ready (withOps (banked 2 1) [bmvOp]) 1 bmvOp bmvJob && !Bnk.ready (withOps (banked 2 1) [bmvOp]) 1 { bmvOp with done := true } bmvJob
    && [Instr.bfenceW (ops .none .none .none .none 0), .bfenceR (ops .none .none .none .none 0), .bfenceWr (ops .none .none .none .none 0),
        .bstat (ops (.k 7) (.i8 0) .none .none 0), .bstat (ops (.k 7) (.i8 1) .none .none 0)].all (fun i => isReady i (withOps (banked 2 1) [bmvOp]) && isReady i base))
      = true := by decide +kernel

/-- The descriptor lies with a peer; and a BMV that ends behind one under way reports nothing yet. -/
theorem witness_BankUnits_peer :
    (asks bmvIn ((banked 2 1).setClusterAt 0 { tlb := [{ Turns.bootLeaf with w0 := 0x400005F#64 }] }) == some 0x2000
    && asks (.cpTile (ops (.k 8) (.t 2) .none (.i8 0) 0)) (far (tiled 0x00A0000000000000#64)) == some 0x2000
    && (let s := withOps (banked 2 1) [{ bmvOp with id := 2 }, bmvOp]
        Bnk.ready s 1 bmvOp bmvJob && (s.grp.opsOf .bank).map Op.id == [2, 1]
        && result (.bmvComplete 1 1) s (fun t => (t.grp.op? 1).map fun o => o.done) == some (some true))) = true := by decide +kernel

/-- The word at offset 64 of local memory, which the BMV multiplies, is read ahead of the rest. -/
theorem witness_BankUnits_words :
    (let s := { withOps (banked 2 1) [bmvOp] with turns := [.bankRead 1 1 (State.localVa 64)] }
     let b := Iss.settle { s with turns := [] }
     let n := State.localVa 64 / 8
     Bnk.ready b 1 bmvOp bmvJob && (Bnk.inputWords bmvJob ++ Bnk.tensorWords bmvJob).contains n && !Bnk.bankWaits b 1 n
     && (Bnk.tensorWords bmvJob).all (fun n => decide (8 * n < State.windowBase) && !Bnk.bankWaits b 1 n)
     && (after (step s)).map (fun t => (t.grp.op? 1).map fun o => match o.kind with | .bmv j => j.seen.map Prod.fst | _ => []) == some (some [n]))
      = true := by decide +kernel

/-- The only column of a BMV is stored ahead of its completion. -/
theorem witness_BankUnits_columns :
    (let s := { withOps (banked 2 1) [bmvOp] with turns := [.bankWrite 1 1 0] }
     let b := Iss.settle { s with turns := [] }
     (b.grp.op? 1) == some bmvOp && Bnk.ready b 1 bmvOp bmvJob && (Bnk.columnWords bmvJob 0).all (fun n => !Bnk.bankWaits b 1 n)
     && (after (step s)).map (fun t => (t.grp.op? 1).map fun o => match o.kind with | .bmv j => j.cols.map Prod.fst | _ => []) == some (some [0]))
      = true := by decide +kernel

/-! Hypotheses -/

def openIn : Instr := .hopen (ops (.k 12) (.k 10) .none (.p 2) 0)
def confirmIn : Instr := .hresolveCfm (ops .none (.k 12) .none .none 0)

theorem witness_HypothesisInstructions :
    (let s := withK (thinking 0) 12 1#64
     isReady openIn s && s.live 0 0#16 && s.live 0 1#16 && !s.live 0 5#16
     && result openIn (withK s 10 5#64) (fun t => t.grp.cause) == some 0x60#32
     && result openIn s (fun t => t.grp.rk 12) == some 0x10002#64
     && result openIn { s with trees := [(0, { slots := [(1, { used := true, depth := 16 })] })] } (fun t => t.grp.rk 12) == some 0x10001#64
     && result openIn (withK { s with trees := [(0, { slots := [(1, { used := true, depth := 16 })] })] } 10 1#64) (fun t => t.grp.rk 12) == some 0x400000#64
     && result openIn { s with trees := [(0, { free := [] })] } (fun t => t.grp.rk 12) == some 0x200000#64
     && [Instr.henter (ops .none (.k 12) .none .none 0), .hleave (ops .none .none .none .none 0)].all (fun i => isReady i s && isReady i (withOps s [stored])
        && result i (withOps s [stored]) (fun t => t.cur.status) == some .held && result i s (fun t => t.cur.status) == some .issued)
     && result (.hleave (ops .none .none .none .none 0)) s (fun t => t.grp.hcur) == some 0#16
     && [Instr.hresolveCfm (ops .none (.k 12) .none .none 0), .hresolveCfx (ops .none (.k 12) .none .none 0), .hresolveRef (ops .none (.k 12) .none .none 0)].all (fun i =>
        isReady i s && result i (withK s 12 0#64) (fun t => t.grp.cause) == some 0x64#32 && result i (withK s 12 5#64) (fun t => t.grp.cause) == some 0x60#32
        && result i s (fun t => (t.resolves.length, t.live 0 1#16)) == some (1, false))
     && result (.hstat (ops (.k 14) (.k 12) .none .none 0)) s (fun t => t.grp.rk 14) == some 0x0002200000010000#64) = true := by decide +kernel

/-- A confirm of hypothesis 1 accepted as resolve 50. -/
def resolving (reached reported slices : List Nat) : State :=
  let s := thinking 0
  { s with
    trees := [(0, { slots := [(1, { used := true, depth := 1, stale := true })], free := [2, 3] })]
    resolves := [(50, { ctx := 0, h := 1#16, parent := 0#16, confirm := true, refuted := [], grp := 1, op := 50, reached := reached,
                        reported := reported, slices := slices, moved := [], time := 0 })]
    versions := [(State.verKey 0 1#16 16, { val := 9#32, stamp := 0 })] }

def all320 : List Nat := List.range 320
def anOrphan : State := withGrp (withRecord { thinking 0 with cur := {} } fun r => { r with orphanpc := 0x200#64 }) id

/-- R371: a store of a whole unit leaves it correct in the L1, a store of part of it does not. -/
theorem test_uncorrectable_unit_in_l1 :
    (let s := { base with badUnits := [8] }
     let tag (va : Nat) : State.Tag := { ctx := 0, va := va, tile := none }
     let bad (s : State) (va n : Nat) := (s.l1Words 0 (tag va) va n 0#16).map fun ws => ws.any fun x => x.2.bad
     let whole := s.l1Store 0 (tag 0x40) 0x40 (List.replicate 8 1#8) 0#16 1
     let part := s.l1Store 0 (tag 0x40) 0x40 (List.replicate 4 1#8) 0#16 1
     s.badAt 0x40 8 && bad whole 0x40 8 == some false && bad part 0x40 4 != some false
       && bad (s.l1Store 0 (tag 0x48) 0x48 (List.replicate 4 1#8) 0#16 1) 0x48 4 == some false) = true := by decide +kernel

theorem witness_Resolves :
    (result (.resolveBroadcastArrival 50 0) (resolving [] [] []) (fun t => (t.grpAt 1).hcur) == some 0#16
    && result (.resolveCoreDrainReport 50 0) (resolving [0] [] []) (fun t => (t.resolves.map fun e => e.2.reported)) == some [[0]]
    && result (.resolveCoreDrainReport 50 0) (resolving [] [] []) (fun t => (t.resolves.map fun e => e.2.reported)) == some [[]]
    && Hyp.drained (resolving [0] [] []) { ctx := 0, h := 1#16, parent := 0#16, confirm := true, refuted := [], grp := 1, op := 50, reached := [0], reported := [], slices := [], moved := [], time := 0 } 0
    && result (.resolveSlicePerform 50 5) { resolving all320 all320 [] with versions := [] } (fun t => t.resolves.map fun e => e.2.slices) == some [[5]]
    && result (.resolveComplete 50) (resolving all320 all320 (List.range 384)) (fun t => (t.resolves.length, (t.hslot 0 1).gen)) == some (0, 1)
    && (let s := resolving all320 all320 (List.range 384)
        let s := { s with resolves := s.resolves.map fun e => (e.1, { e.2 with time := s.gtime + 1 }) }
        result (.resolveComplete 50) s (fun t => t.resolves.length) == some 1)
    && (let s := { anOrphan with groups := [(1, { anOrphan.grpAt 1 with orphan := some 0#16 })] }
        (s.grpAt 1).orphan == some 0#16 && !s.cur.on && result (.orphanRedirect 1) s (fun t => ((t.grpAt 1).cause, (t.grpAt 1).hcur)) == some (0x63#32, 0#16)))
      = true := by decide +kernel

/-- A second resolve of the context waits for the first. -/
theorem witness_Resolves_order :
    (let r : Resolve := { ctx := 0, h := 2#16, parent := 0#16, confirm := false, refuted := [2#16], grp := 1, op := 51, reached := all320,
                          reported := all320, slices := [], moved := [], time := 0 }
     let s := resolving all320 all320 []
     let both := { s with resolves := s.resolves ++ [(51, r)] }
     result (.resolveSlicePerform 51 5) both (fun t => t.resolves.map fun e => e.2.slices) == some [[], []]
     && result (.resolveSlicePerform 50 5) { both with versions := [] } (fun t => t.resolves.map fun e => e.2.slices) == some [[5], []]
     && result (.resolveComplete 51) both (fun t => t.resolves.length) == some 2) = true := by decide +kernel

/-! Control -/

/-- `base` with a second line of code at 0x40. -/
def lined : State := withMem base 0x40 (Bits.bytesOf 64 (Line.ofWord 0xC1#96))
def next : W64 := Line.next base.cur.pc
def braIn (o : Opds) : Instr := .bra .likely o

/-- The branch's target is legal and mapped, in the line at 0x40. -/
def lands (i : Instr) (s : State) (dest : W64) : Bool := isReady i s && match (At i s).land dest with | .ok _ => true | _ => false

/-- Lanes 0 to 3 on p1, and lanes 0 to 4. -/
def oneQuad : State := withP lined 1 0xF#32
def splitQuad : State := withP lined 1 0x1F#32
def fullJoin : State := withGrp splitQuad fun g => g.wj 2 { active := true, entries := List.replicate 3 { pc := 0#64, lanes := 1#32 } }

theorem witness_Branches :
    (lands (braIn (ops .none .imm .none .none 0x40)) lined (lined.cur.pc + 0x40#64)
    && result (braIn (ops .none .imm .none .none 0x40)) lined (fun t => (t.grp.quad 0).pc) == some 0x40#64
    && result (braIn (guarded 1 (ops .none .imm (.j 2) .none 0x40))) lined (fun t => (t.grp.quad 0).pc) == some next
    && isReady (braIn (ops .none .imm .none .none 0x41)) base
    && (match (At (braIn (ops .none .imm .none .none 0x7C)) base).land (lined.cur.pc + 0x7C#64) with | .fail _ => true | _ => false)
    && lands (braIn (guarded 1 (ops .none .imm .none .none 0x40))) oneQuad 0x40#64
    && result (braIn (guarded 1 (ops .none .imm .none .none 0x40))) oneQuad (fun t => (t.grp.cause, t.grp.tval)) == some (0x45#32, 0x200#64)
    && result (braIn (guarded 1 (ops .none .imm (.j 2) .none 0x40))) oneQuad
        (fun t => ((t.grp.quad 0).pc, (t.grp.quad 1).pc, (t.grp.rj 2).entries.length)) == some (0x40#64, next, 0)
    && result (braIn (guarded 1 (ops .none .imm (.j 2) .none 0x40))) splitQuad
        (fun t => ((t.grp.quad 0).pc, (t.grp.quad 1).pc, (t.grp.rj 2).entries)) == some (0x40#64, next, [{ pc := 0x40#64, lanes := 0x10#32 }])
    && result (braIn (guarded 1 (ops .none .imm (.j 2) .none 0x40))) fullJoin (fun t => (t.grp.cause, t.grp.tval)) == some (0x45#32, 0x102#64)
    && lands (.call .none (ops (.v 30) .imm (.j 2) .none 0x40)) lined 0x40#64
    && result (.call .none (ops (.v 30) .imm (.j 2) .none 0x40)) lined (fun t => (t.grp.rv2 30 5, (t.grp.quad 7).pc)) == some (next, 0x40#64)
    && isReady (.brx .none (ops .none (.v 30) (.j 2) .none 0)) lined && isReady (.ret (ops .none (.v 30) (.j 2) .none 0)) base
    && (match Ctl.landAll (At (.ret (ops .none (.v 30) (.j 2) .none 0)) base) (fun l => Operands.get64 false (ops .none (.v 30) (.j 2) .none 0) base.grp (.v 30) l) (List.range 32) with
        | .ok s1 => (match s1.land 0#64 with | .ok _ => true | _ => false) | _ => false)) = true := by decide +kernel

/-- The lanes of quad 0 go to 0x40, the others to 0. -/
def apart : State := lined.setGrp ((List.range 32).foldl (fun (g : Group) l => g.wv2 30 l (if l < 4 then 0x40#64 else 0#64)) lined.grp)

/-- The register of a BRX and a RET parts a fragment, or sends it all to one place; only BRX has a hint. -/
theorem witness_Branches_register :
    (let brx : Instr := .brx .uniform (ops .none (.v 30) (.j 2) .none 0)
     let ret : Instr := .ret (ops .none (.v 30) (.j 2) .none 0)
     let dest (l : Nat) : W64 := Operands.get64 false (ops .none (.v 30) (.j 2) .none 0) apart.grp (.v 30) l
     let where' (t : State) := ((t.grp.quad 0).pc, (t.grp.quad 1).pc, t.grp.uhmiss)
     isReady brx apart && isReady ret apart
     && [brx, ret].all (fun i => match Ctl.landAll (At i apart) dest (List.range 32) with
        | .ok s1 => (match s1.land 0x40#64 with | .ok _ => true | _ => false)
        | _ => false)
     && result brx apart where' == some (0x40#64, 0#64, 1#32) && result ret apart where' == some (0x40#64, 0#64, 0#32)
     && result ret lined where' == some (0#64, 0#64, 0#32)
     && result (.ret (ops .none (.v 30) .none .none 0)) apart (fun t => (t.grp.cause, t.grp.tval)) == some (0x45#32, 0x200#64)) = true := by
  decide +kernel

theorem test_uniform_miss :
    (result (.bra .uniform (guarded 1 (ops .none .imm (.j 2) .none 0x40))) oneQuad (fun t => t.grp.uhmiss) == some 1#32
    && result (.bra .uniform (ops .none .imm .none .none 0x40)) lined (fun t => t.grp.uhmiss) == some 0#32) = true := by decide +kernel

def gangIn : Instr := .regang (ops .none (.j 2) .none .none 0)
def region (expect : Mask) (es : List JEntry) : State := withGrp base fun g => g.wj 2 { active := true, expect := expect, entries := es }

/-- All quads of the group parked at j3 with some lanes arrived, others exited. -/
def stuckGroup : State := withGrp base fun g =>
  let q : Quad := { pc := 0#64, frag := 0, lanes := 0#4, st := .parkedGang, waitno := 3 }
  { g.wj 3 { active := true, expect := ~~~0#32, arrive := 0xFFFFFFF7#32 } with quads := (List.range 8).map fun n => (n, q) }

def exitedGroup : State :=
  let gone : Quad := { pc := 0#64, frag := 0, lanes := 0#4, st := .exited, waitno := 0 }
  { base with cur := {}, groups := [(1, { base.grp with exited := true, quads := (List.range 8).map fun n => (n, gone) })] }

theorem witness_RegionsAndExit :
    (isReady gangIn base && result gangIn base (fun t => (t.grp.quad 0).pc) == some next
    && isReady gangIn (region (~~~0#32) []) && result gangIn (region (~~~0#32) []) (fun t => ((t.grp.quad 0).pc, (t.grp.rj 2).active)) == some (next, false)
    && result gangIn (withGrp (region (~~~0#32) []) fun g => { g with quads := SMap.put g.quads 0 { g.quad 0 with frag := 1 } }) (fun t => (t.grp.quad 1).st)
        == some .parkedGang
    && result gangIn (region (~~~0#32) [{ pc := 0x80#64, lanes := ~~~0#32 }]) (fun t => (t.grp.quad 3).pc) == some 0x80#64
    && isReady (.exit (guarded 1 (ops .none .none .none .none 0))) splitQuad
    && result (.exit (guarded 1 (ops .none .none .none .none 0))) splitQuad
        (fun t => ((t.grp.quad 0).st, (t.grp.quad 1).lanes, (t.grp.quad 1).pc)) == some (.exited, 0xE#4, next)
    && stuckGroup.grp.stuck && stuckGroup.grp.parkedAt 3 == List.range 8 && (stuckGroup.grp.parkedAt 2).isEmpty
    && !base.grp.stuck && result (.groupStuckRelease 1) stuckGroup (fun t => (t.grp.quad 0).lanes) == some 7#4
    && !Dsp.fetching exitedGroup 1 && !Dsp.collecting exitedGroup 1
    && result (.groupRetire 1) exitedGroup (fun t => t.groups.length) == some 0 && !base.grp.exited) = true := by decide +kernel

def barIn : Instr := .bar (ops .none (.i8 3) .none .none 0)
def barxIn : Instr := .barx (ops .none (.i8 3) (.k 10) .none 0)

/-- A second group of the team. -/
def pair : State := { base with groups := [(1, base.grp), (2, { base.grp with gid := 1 })] }

theorem witness_Barriers :
    (isReady barIn pair && result barIn pair (fun t => ((t.grp.quad 0).st, (t.barrierAt 1 3).phase)) == some (.parkedBar, false)
    && isReady barIn base && (base.partners 1 3).map Prod.fst == [1] && base.wholeSet 1 3 && (At barIn base).releaseReady 1 .team base.nextId
    && result barIn base (fun t => ((t.grp.quad 0).pc, (t.barrierAt 1 3).phase)) == some (next, true)
    && result barxIn (withK base 10 0x1000000#64) (fun t => (t.grp.cause, t.grp.tval)) == some (0x4B#32, 0x303#64)
    && result (.gbar (ops .none .none .none .none 0)) base (fun t => t.grp.cause) == some 0x44#32
    && result (.cbar (ops .none .none .none .none 0)) base (fun t => t.grp.tval) == some 0x200#64
    && isReady (.gbar (ops .none .none .none .none 0)) (withRecord base fun r => { r with gridbar := true })
    && isReady (.cbar (ops .none .none .none .none 0)) (withRecord base fun r => { r with cluster := true })
    && (let s := withGrp base fun g => { g with quads := (List.range 8).map fun n => (n, { pc := 0#64, frag := 0, lanes := 0xF#4, st := .parkedBar, waitno := 3 }) }
        s.grp.barrierOf == some 3 && Ctl.mayArrive s 1 3 && result (.barrierArrive 1) s (fun t => (t.barrierAt 1 3).phase) == some true)) = true := by
  decide +kernel

def spawnIn : Instr := .spawn (ops (.p 4) .imm (.v 16) .none 0xC0)
def smaller : State := withGrp base fun g => { g with nv := 64, nk := 16, nm := 0 }

/-- k4, k5 name a record at 0x1000 and a status word at 0x2000; k6, k7 a grid of 2 by 1 by 1 for queue 1. -/
def launching (count : W64) : State :=
  withK (withK (withK (withK { base with descs := [(0, { valid := true, qgrant := 2#16 })] } 4 0x1000#64) 5 0x2000#64) 6 0x100000002#64) 7
    (0x0001000000000001#64 ||| (count <<< 32))
def launchIn : Instr := .launch (ops (.k 20) (.k 4) (.k 6) (.p 1) 0)
def signalIn : Instr := .lqsignal (ops (.p 1) (.k 20) .none .none 0)

def entry (st : EntrySt) (count ctx : Nat) : QEntry :=
  { ctx := ctx, record := 0x1000, status := 0x2000, gx := 2, gy := 1, gz := 1, count := count, under := false, st := st, since := 0, launch := 0 }
def signalling (e : QEntry) : State := withK { base with queues := [(64, e)], queueSeq := [(64, 1)] } 20 0x10001#64

theorem witness_SpawnAndLaunch :
    (isReady spawnIn smaller && (Ctl.spawnRoom (At spawnIn smaller)).isSome && smaller.nextId != smaller.cur.grp
    && result spawnIn smaller (fun t => (t.groups.length, Bits.has (t.grp.rp 4) 31)) == some (2, true)
    && isReady (.spawn (guarded 1 (ops (.p 4) .imm (.v 16) .none 0xC0))) base
    && result (.spawn (guarded 1 (ops (.p 4) .imm (.v 16) .none 0xC0))) base (fun t => (t.groups.length, Bits.has (t.grp.rp 4) 31)) == some (1, false)
    && isReady launchIn (launching 0) && isReady launchIn (launching 3)
    && result launchIn base (fun t => (t.grp.cause, t.grp.tval)) == some (0x4C#32, 0x100#64)
    && result launchIn (withK (launching 0) 6 0x2#64) (fun t => t.grp.tval) == some 0x200#64
    && result launchIn (withK (launching 0) 7 0x0011000000000001#64) (fun t => t.grp.tval) == some 0x300#64
    && result launchIn (withK (launching 0) 4 0x1080#64) (fun t => (t.grp.cause, t.grp.tval)) == some (0x28#32, 0x1080#64)
    && result launchIn (withK (launching 0) 5 0x2002#64) (fun t => (t.grp.cause, t.grp.tval)) == some (0x28#32, 0x2002#64)
    && (At launchIn (launching 0)).releaseReady 1 .module (launching 0).nextId
    && result launchIn (withOps (launching 0) [stored]) (fun t => t.cur.status) == some .held
    && result launchIn (launching 0) (fun t => (t.grp.rk 20, t.queues.length)) == some (0x10001#64, 1)
    && result launchIn { launching 0 with queues := (List.range 64).map fun n => (64 + n, entry .ready 0 0) } (fun t => (t.grp.rk 20, Bits.has (t.grp.rp 1) 0))
        == some (0#64, false)
    && isReady signalIn base && result signalIn base (fun t => Bits.has (t.grp.rp 1) 0) == some false
    && result signalIn (signalling (entry .waiting 1 0)) (fun t => (Bits.has (t.grp.rp 1) 0, t.queues.map fun e => e.2.st)) == some (true, [.ready])
    && result signalIn (signalling (entry .running 0 0)) (fun t => t.queues.map fun e => e.2.under) == some [true]
    && result signalIn (signalling (entry .waiting 1 3)) (fun t => Bits.has (t.grp.rp 1) 0) == some false
    && result signalIn (withOps (signalling (entry .waiting 1 0)) [stored]) (fun t => t.cur.status) == some .held) = true := by decide +kernel

/-- STATUS in the team's own local memory, where an entry starts and where LQSIGNAL ends its overrun. -/
theorem witness_SpawnAndLaunch_local :
    (let s := withK (launching 0) 5 (BitVec.ofNat 64 (State.localVa 0x80))
     let e : QEntry := { entry .running 0 0 with statusAt := some ⟨1, 0, 0x80⟩ }
     isReady launchIn s && (match (At launchIn s).find 1 true .store (State.localVa 0x80) with | .at' (.loc 1 0x80) _ => true | _ => false)
     && (s.findAs 0 true .store (State.localVa 0x80) matches .fault _)
     && result launchIn s (fun t => t.readLoc 1 0x80 4) == some 1
     && (signalling e).nookTeam ⟨1, 0, 0x80⟩ == some 1 && result signalIn (signalling e) (fun t => t.readLoc 1 0x80 4) == some 0x102) = true := by decide +kernel

def initIn : Instr := .rangeInit (ops (.k 20) (.k 4) (.k 5) (.p 1) 0)
def takeIn : Instr := .rangeTake (ops (.v 20) (.k 20) .none .none 0)
def aRange : Range := { total := 100, next := 96, min := 8, d := 2, ctx := 0, launch := 1 }
def ranged : State := withK (base.setClusterAt 0 { base.clusterAt 0 with ranges := [(0, aRange)], rangeSeq := [(0, 1)] }) 20 0x10000#64
def taking (lanes : List Nat) : State :=
  withOps ranged [{ id := 1, cls := .loads, kind := .take 20 0x10000#32, lanes := lanes.map fun l => { lane := l, va := 0, loc := .host 0, size := 8, st := .finished } }]

theorem witness_RangesAndHints :
    (isReady initIn base && result initIn base (fun t => (t.grp.cause, t.grp.tval)) == some (0x4D#32, 0#64)
    && result initIn (withK base 4 0x800000064#64) (fun t => (t.grp.cause, t.grp.tval)) == some (0x4D#32, 0#64)
    && result initIn (withK (withK base 4 0x800000064#64) 5 0x10002#64) (fun t => t.grp.tval) == some 0x10002#64
    && result initIn (withK (withK base 4 0x800000064#64) 5 2#64) (fun t => (t.grp.rk 20, Bits.has (t.grp.rp 1) 9)) == some (0x10000#64, true)
    && result initIn (withK (withK (base.setClusterAt 0 { base.clusterAt 0 with ranges := (List.range 16).map fun n => (n, aRange) }) 4 0x800000064#64) 5 2#64)
        (fun t => (t.grp.rk 20, Bits.has (t.grp.rp 1) 9)) == some (0#64, false)
    && isReady takeIn base && result takeIn base (fun t => t.grp.cause) == some 0x4D#32
    && isReady takeIn ranged && result takeIn ranged (fun t => t.grp.counter .loads) == some 1
    && (Ctl.rangeOf (taking [3]) 0 0x10000#32).isSome
    && result (.rangeTakeServe 1 1) (taking [3]) (fun t => (t.grp.rv 20 3, t.grp.rv 21 3)) == some (96#32, 4#32)
    && result (.rangeTakeServe 1 1) (taking [3, 9]) (fun t => (t.grp.rv 20 9, t.grp.rv 21 9)) == some (100#32, 0#32)
    && isReady (.yield (ops .none (.i8 0) .none .none 0)) base && isReady (.yield (ops .none (.i8 5) .none .none 0)) base
    && isReady (.life (ops (.i8 1) .none (.i8 3) .none 0xF)) base && isReady (.life (ops (.i8 1) .none (.i8 3) .none 0xF)) (withTeam base fun t => { t with preempt := true })
    && isReady (.nop (ops .none .none .none .none 0)) base && isReady (.rws (ops .none .none .none .none 0)) base
    && isReady (.trap (ops .none (.i8 5) .none .none 0)) base && isReady (.trap (guarded 1 (ops .none (.i8 5) .none .none 0))) base) = true := by
  decide +kernel

/-- A helper lane takes nothing. -/
theorem witness_RangesAndHints_helper :
    (let s := withGrp (taking [3, 9]) fun g => { g with helpers := 8#32 }
     s.grp.isHelper 3 && !s.grp.isHelper 9
     && result (.rangeTakeServe 1 1) s (fun t => (t.grp.rv 20 3, t.grp.rv 21 3, t.grp.rv 20 9, t.grp.rv 21 9)) == some (100#32, 0#32, 96#32, 4#32)) = true := by
  decide +kernel

theorem witness_SystemRegisters :
    (([0x00#8, 0x01#8, 0x02#8, 0x03#8, 0x04#8, 0x05#8, 0x06#8, 0x07#8, 0x08#8, 0x10#8, 0x11#8, 0x12#8, 0x13#8, 0x14#8, 0x15#8, 0x16#8, 0x17#8, 0x18#8,
        0x40#8, 0x41#8, 0x42#8, 0x43#8, 0x44#8, 0x45#8, 0x46#8] : List (BitVec 8)).all (fun n => isReady (.rdsys (ops (.v 2) (.sys n) .none .none 0)) user)
    && [0x01#8, 0x02#8, 0x03#8, 0x04#8, 0x05#8].all (fun n => isReady (.wrsys (ops (.sys n) (.k 3) .none .none 0)) base)
    && isReady (.wrsys (ops (.sys 5) (.i8 3) .none .none 0)) user && isReady (.tret (ops .none .none .none .none 0)) base
    && isReady (.tret (ops .none .none .none .none 0)) (withGrp user fun g => { g with hmode := true, hmask := 1#32 })) = true := by decide +kernel

def tlbIn : Instr := .tlbinvPage (ops .none (.k 4) (.k 5) .none 0)
def tlbOp : Op := { id := 1, cls := .stores, kind := .tlbinv (some 0x100) (some 0) }

theorem witness_Invalidation :
    ([tlbIn, .tlbinvCtx (ops .none (.k 4) .none .none 0), .tlbinvAll (ops .none .none .none .none 0), .cacheopL1inv (ops .none .none .none .none 0),
        .cacheopIcinv (ops .none .none .none .none 0)].all (fun i => isReady i base)
    && result tlbIn base (fun t => t.grp.counter .stores) == some 1 && result tlbIn (withOps base [stored]) (fun t => t.cur.status) == some .held
    && result (.tlbinvComplete 1 1) (withOps base [tlbOp]) (fun t => ((t.clusterAt 0).tlb.length, t.grp.counter .stores)) == some (0, 0)
    && ((withOps base [{ tlbOp with done := true }]).grp.op? 1).map (fun o => o.done) == some true) = true := by decide +kernel

def saveIn : Instr := .ctxsave (ops (.k 8) (.k 6) (.k 7) .none 0)
def loadIn : Instr := .ctxload (ops (.k 8) (.k 6) .none .none 0)
def saveOp (code : Nat) : Op := { id := 1, cls := .loads, kind := .ctxsave 8 3 0x8000 code 0 }
/-- Page tables at 0x100000 that map the first GiB onto HBM, for contexts 0 and 3. -/
def paged (s : State) : State :=
  withMem (withMem (withMem { s with descs := [(0, { valid := true, ptroot := 0x100000 }), (3, { valid := true, ptroot := 0x100000 })] }
    0x100000 (bytes [(8, 0x102001)])) 0x102000 (bytes [(8, 0x104001)])) 0x104000 (bytes [(8, 0x3F)])

def resident3 : State :=
  let s := paged base
  let t : State :=
    { s with launches := s.launches ++ [(2, { ctx := 3, record := Turns.bootRecord, live := 1, nextTeam := 1 })]
             teams := s.teams ++ [(5, { Turns.bootTeam with launch := 2, preempt := true })]
             groups := s.groups ++ [(6, { Turns.bootGroup with team := 5 })] }
  withK (withK t 6 3#64) 7 0x8000#64

theorem witness_ContextSwitch :
    (isReady saveIn base && Ctx.saveCode (At saveIn base) 0 0 == 0x94 && isReady saveIn resident3
    && result saveIn resident3 (fun t => (t.grp.counter .loads, t.heldCtx)) == some (1, [3])
    && result (.ctxsaveComplete 1 1) (withOps base [saveOp 0x94]) (fun t => t.grp.rk 8) == some 0x94#64
    && result (.ctxsaveComplete 1 1) (withOps base [saveOp 0]) (fun t => t.grp.rk 8) == some 0#64
    && result (.ctxsaveComplete 1 1) (withOps resident3 [saveOp 0]) (fun t => t.grp.counter .loads) == some 1
    && result saveIn { resident3 with descs := [(3, { valid := true })] } (fun t => t.heldCtx) == some []
    && isReady loadIn base && result loadIn base (fun t => t.grp.counter .loads) == some 1
    && (match Ctx.loadManifest (At loadIn base) 0 with | .bad => true | _ => false)
    && result (.groupRestoreResume 1) (withGrp base fun g => { g with restoring := true }) (fun t => t.grp.restoring) == some false
    && result (.groupRestoreResume 1) (withGrp base fun g => { g with restoring := true, horizon := 1 }) (fun t => t.grp.restoring) == some true) = true := by
  decide +kernel

/-- A group with k1 to k7 live, as its record holds it. -/
def smallGroup : Group := { State.freshGroup 5 0 0 0 8 0 (~~~0#32) 0#32 0x40#64 0#64 0#64 with
  frags := [(0, { stopped := true, life := { k := 1#8 } })], k := [(3, 77#64)], hcur := 5#16, horizon := 9 }

theorem test_group_record :
    (let r := Area.packGroup 0 smallGroup (Area.live smallGroup)
     let g := Area.unpackGroup 0 5 2 0 0#16 r
     r.length == 0x440 && Area.recordOk r && g.rk 3 == 77#64 && g.horizon == 9 && (g.quad 7).pc == 0x40#64 && g.partition == 2) = true := by
  decide +kernel

/-- A manifest of context 3 without a launch. -/
theorem witness_ContextSwitch_load :
    (let s := withK (withMem { paged base with heldCtx := [3] } 0x8000 (bytes [(2, 1), (2, 3), (4, 0), (8, 64), (48, 0)])) 6 0x8000#64
     isReady loadIn s && (At loadIn s).roomFor .loads && (s.descAt 3).valid && (Ctx.teamsOf (At loadIn s) 3).isEmpty
     && (match Ctx.loadManifest (At loadIn s) 0x8000 with
        | .ok c l => c == 3 && (match Ctx.loadTeams (Ctx.recalled (At loadIn s) c 0x8000 l) c l with
          | some x => (Ctx.placeAll (Ctx.recalled (At loadIn s) c 0x8000 l) c x).isSome
          | none => false)
        | _ => false)
     && decide (s.cur.grp < s.nextId) && s.groups.all (fun e => decide (e.1 < s.nextId)) && s.teams.all (fun e => decide (e.1 < s.nextId))
     && s.launches.map Prod.fst == [1]
     && result loadIn s (fun t => (t.heldCtx, t.grp.ops.map fun o => o.lanes.map Access.value)) == some ([], [[0]])) = true := by decide +kernel

theorem witness_ContextSwitch_peer : asks loadIn (withK (far { base with heldCtx := [3] }) 6 0x8000#64) = some 0x8000 := by decide +kernel

/-- A team of context 3 whose one group has stopped for pre-emption. -/
def stoppedTeam : State :=
  { resident3 with groups := base.groups ++ [(6, { Turns.bootGroup with team := 5, frags := [(0, { stopped := true })] })] }

theorem witness_ContextSwitch_save :
    ((stoppedTeam.groupsOf 5).all (fun e => e.2.ops.isEmpty && Ctx.drained stoppedTeam e.1) && (stoppedTeam.teamAt 5).preempt
      && !(base.teamAt 1).preempt) = true := by decide +kernel

/-- The kernel with a vector; in handler mode; and in handler mode with other lanes. -/
def vectored : State := { base with trapvec0 := 0x300#64 }
def handling (m : Mask) : State := withGrp vectored fun g => { g with hmode := true, hmask := m }

theorem witness_TrapEntry :
    (!vectored.grp.hmode && ((vectored.takeTrap 0x40 0 0#64).grp.quad 0).pc == 0x300#64 && !base.grp.hmode && base.trapvec0 == 0#64
    && ((base.takeTrap 0x40 0 0#64).grp.quad 0).st == .exited
    && ((handling 1#32).takeTrap 0x40 0 0#64).grp.cause == 0x46#32
    && ((withGrp (handling 0#32) fun g => { g with hmask := 0#32 }).takeTrap 0x40 0 0#64).cur.status == .held) = true := by decide +kernel

theorem witness_TrapInstructions :
    (isReady (.trap (ops .none (.i8 5) .none .none 0)) vectored && isReady (.trap (ops .none (.i8 5) .none .none 0)) (handling 1#32)
    && isReady (.trap (ops .none (.i8 5) .none .none 0)) (handling 0#32) && isReady (.trap (guarded 1 (ops .none (.i8 5) .none .none 0))) base
    && user.cur.on && user.ctx == 3 && !user.grp.hmode && (Instr.tret (ops .none .none .none .none 0)).wellFormed
    && isReady (.tret (ops .none .none .none .none 0)) (handling (~~~0#32))) = true := by decide +kernel

/-- Each of the five outcomes of the checks. -/
theorem witness_IssueChecks :
    (user.cur.on && !(Instr.powerOnReset).isWord
    && (Instr.iadd .s32 (ops (.v 1) (.m 2) (.v 3) .none 0)).isWord && !(Instr.iadd .s32 (ops (.v 1) (.m 2) (.v 3) .none 0)).wellFormed
    && result (.iadd .s32 (ops (.v 1) (.m 2) (.v 3) .none 0)) user (fun t => t.grp.cause) == some 0x40#32
    && result (.tlbinvAll (ops .none .none .none .none 0)) user (fun t => t.grp.cause) == some 0xC0#32
    && result (.wrsys (ops (.sys 2) (.k 3) .none .none 0)) user (fun t => t.grp.cause) == some 0xC0#32
    && result (.mov .n32 (ops (.v 64) (.v 0) .none .none 0)) (withGrp user fun g => { g with nv := 64 }) (fun t => t.grp.cause) == some 0x47#32
    && result (.mov .n32 (ops (.v 63) (.v 0) .none .none 0)) (withGrp user fun g => { g with nv := 64 }) (fun t => t.cur.status) == some .issued
    && result (.mov .n32 (ops (.v 1) (.v 0) .none .none 0)) (withGrp user fun g => { g with bad := [(1, 0)] }) (fun t => t.grp.cause) == some 0x26#32) = true := by
  decide +kernel

/-- An instruction that traps counts, but for one whose trap waits for handler mode to end. -/
theorem witness_IssueChecks_count :
    (let bad : Instr := .iadd .s32 (ops (.v 1) (.m 2) (.v 3) .none 0)
     !user.grp.hmode && result bad user (fun t => (t.grp.frag 0).count) == some 1
     && (handling 0#32).grp.hmode && (handling 0#32).active &&& (handling 0#32).grp.hmask == 0#32
     && result bad (handling 0#32) (fun t => (t.cur.status, (t.grp.frag 0).count)) == some (.held, 0)
     && result bad (handling 1#32) (fun t => t.grp.cause) == some 0x46#32) = true := by decide +kernel

/-! The module around the cores -/

/-- A communicator of two ranks at 0x1000, this module rank 0; source 0x2000, destination 0x3000, `k` the shape. -/
def comm (s : State) : State :=
  withMem s 0x1000 (bytes [(2, 1), (2, 2), (2, 0), (2, 0), (8, 0), (4, 65536), (4, 5), (40, 0)])
def reducing (k : W64) : State := withK (withK (withK (withK (comm { base with gtime := 16 }) 4 0x1000#64) 6 0x2000#64) 7 0x3000#64) 8 k
def credIn : Instr := .cred .addF (ops (.k 20) (.k 4) (.k 6) (.k 8) 0)
def waitIn : Instr := .cwait (ops (.k 21) (.k 20) .none .none 0)
def ticket (code : Option Nat) : Ticket :=
  { kind := .cred .addS, commid := 5, turn := 0, ranks := 2, rank := 0, dst := 0x3000, count := 1, root := 0, grp := 1, launch := 1, priv := true,
    code := code, doneAt := 0, mine := [7#32], src := 0x2000, first := 0, timeout := 65536 }
def ticketed (code : Option Nat) (gtime : Nat) : State :=
  withK { base with tickets := [(0, ticket code)], ticketSeq := [(0, 1)], collCount := [(5, 1)], gtime := gtime } 20 0x10000#64

theorem witness_Collectives :
    ([credIn, .cbcast (ops (.k 20) (.k 4) (.k 6) (.k 8) 0), .cgather (ops (.k 20) (.k 4) (.k 6) (.k 8) 0)].all (fun i =>
        isReady i (reducing 1#64) && result i (reducing 1#64) (fun t => (t.grp.rk 20, t.tickets.length)) == some (0x10000#64, 1))
    && result credIn (withK (thinking 0) 4 0x1000#64) (fun t => (t.grp.cause, t.grp.tval)) == some (0x64#32, 1#64)
    && result credIn (withK (reducing 1#64) 4 0x1020#64) (fun t => (t.grp.cause, t.grp.tval)) == some (0x28#32, 0x1020#64)
    && result credIn (withK base 4 0x1000#64) (fun t => (t.grp.cause, t.grp.tval)) == some (0x29#32, 0x1000#64)
    && result credIn (reducing 0#64) (fun t => (t.grp.cause, t.grp.tval)) == some (0x29#32, 0#64)
    && result credIn (withK (reducing 1#64) 6 0x2002#64) (fun t => (t.grp.cause, t.grp.tval)) == some (0x28#32, 0x2002#64)
    && result credIn (withK (reducing 1#64) 7 0x3001#64) (fun t => (t.grp.cause, t.grp.tval)) == some (0x28#32, 0x3001#64)
    && result credIn { reducing 1#64 with tickets := (List.range 64).map fun n => (n, ticket none) } (fun t => t.cur.status) == some .held
    && result credIn (withOps (reducing 1#64) [stored]) (fun t => t.cur.status) == some .held
    && isReady waitIn base && result waitIn base (fun t => t.grp.rk 21) == some 3#64
    && result waitIn (ticketed none 0) (fun t => t.cur.status) == some .held
    && result waitIn (ticketed (some 2) 0) (fun t => (t.grp.rk 21, t.tickets.length)) == some (2#64, 0)
    && result waitIn (ticketed (some 0) 15) (fun t => t.cur.status) == some .held
    && result waitIn (ticketed (some 0) 16) (fun t => (t.cur.status, t.grp.rk 21)) == some (.issued, 0#64)
    && (Coll.pendingAt (ticketed none 0) 0 0).isSome
    && result (.collectiveTimeout 0 0) (ticketed none 65536) (fun t => t.tickets.map fun e => e.2.code) == some [some 1]
    && result (.collectiveTimeout 0 0) (ticketed none 65535) (fun t => t.tickets.map fun e => e.2.code) == some [none]
    && result (.collectiveTimeout 0 0) { ticketed none 65536 with tickets := [(0, { ticket none with result := some [9#32] })] }
        (fun t => t.tickets.map fun e => e.2.code) == some [none]
    && result (.collectiveMismatch 0 0) (ticketed none 0) (fun t => t.tickets.map fun e => e.2.code) == some [some 2]
    && result (.collectiveMemberFailure 0 0 1) (ticketed none 0) (fun t => t.tickets.map fun e => e.2.code) == some [some 1]
    && result (.collectiveCommit 0 0 []) (ticketed none 0) (fun t => t.tickets.map fun e => e.2.code) == some [none]
    && result (.collectiveCommit 0 0 [(1, [8#32])]) (paged (ticketed none 0)) (fun t => (t.readMem 0x3000 4, t.tickets.map fun e => e.2.code))
        == some (15, [some 0])) = true := by decide +kernel

/-- A collective whose root node is complete. -/
theorem witness_Collectives_result :
    (let s := paged { ticketed none 0 with tickets := [(0, { ticket none with result := some [9#32] })] }
     ((Coll.pendingAt s 0 0).map fun y => y.result) == some (some [9#32])
     && result (.collectiveCommit 0 0 []) s (fun t => (t.readMem 0x3000 4, t.tickets.map fun e => e.2.code)) == some (9, [some 0])
     && result (.collectiveMismatch 0 0) s (fun t => t.tickets.map fun e => e.2.code) == some [none]) = true := by decide +kernel

/-- The region checks of R405, causes 0x20, 0x22, 0x25 and 0x29; and a collective that is held with its ticket, then goes on. -/
theorem witness_Collectives_regions :
    (let two (src dst : W64) (s : State) := withK (withK s 6 src) 7 dst
     let paint (w0 w1 : W64) (s : State) := s.setClusterAt 0 { tlb := [Turns.bootLeaf, { Turns.bootLeaf with base := 65536, w0 := w0, w1 := w1 }] }
     let r := reducing 1#64
     isReady credIn r && r.grp.hcur == 0#16
     && (match (At credIn r).see 1 r.nextId true 0#16 0x1000 64 with | .data bs _ => (Coll.parse bs).isSome | _ => false)
     && result credIn (two 0x0100000000000000#64 0x3000#64 r) (fun t => (t.grp.cause, t.grp.tval)) == some (0x20#32, 0x0100000000000000#64)
     && result credIn (two 0x2000#64 0x10000#64 (paint 0x1003B#64 0#64 r)) (fun t => (t.grp.cause, t.grp.tval)) == some (0x22#32, 0x10000#64)
     && result credIn (two 0x10000#64 0x3000#64 (paint 0x1003F#64 1#64 r)) (fun t => (t.grp.cause, t.grp.tval)) == some (0x25#32, 0x10000#64)
     && result credIn (two 0x2000#64 0x10000#64 (paint 0x1003F#64 1#64 r)) (fun t => (t.grp.cause, t.grp.tval)) == some (0x25#32, 0x10000#64)
     && result credIn (two 0x2000#64 0x2004#64 (withK r 8 2#64)) (fun t => t.grp.cause) == some 0x29#32) = true := by decide +kernel

/-- The communicator lies with a peer, or the source by the time that its ticket can go on. -/
theorem witness_Collectives_peer :
    (let t := withOps (reducing 1#64) [stored]
     let held : State := { (after (exec credIn t)).getD base with cur := t.cur }
     asks credIn (far (reducing 1#64)) == some 0x1000 && isReady credIn held
     && asks credIn (withOps (far held) []) == some 0x2000) = true := by decide +kernel

theorem witness_Collectives_held :
    (let s := withOps (reducing 1#64) [stored]
     let held := (after (exec credIn s)).getD base
     result credIn s (fun t => (t.cur.status, t.grp.rk 20, (t.grp.frag 0).ticket, t.tickets.map fun e => e.2.entered))
        == some (.held, 0x10000#64, some 0, [false])
     && isReady credIn { held with cur := s.cur }
     && result credIn { held with cur := s.cur } (fun t => (t.cur.status, t.tickets.length)) == some (.held, 1)
     && result credIn (withOps { held with cur := s.cur } []) (fun t => (t.cur.status, (t.grp.frag 0).ticket, t.tickets.map fun e => e.2.entered))
        == some (.issued, none, [true])
     && (Coll.deliver (ticketed none 0) 0 (ticket none) [5#32]).isNone
     && (Coll.deliver (paged (ticketed none 0)) 0 (ticket none) [5#32]).isSome) = true := by decide +kernel

/-- A launch record of one role of one group, and an entry for it. -/
def recordBytes (version : Nat) : List Byte :=
  bytes [(2, version), (2, 0), (4, 0), (8, 0), (8, 0), (8, 0x10000), (4, 1024), (1, 0), (1, 0), (1, 1), (1, 0), (2, 0), (22, 0), (8, 0x40), (2, 32),
    (2, 16), (1, 4), (1, 0), (2, 0)]
def recorded (version : Nat) : State :=
  { withMem (paged State.reset) 0x1000 (recordBytes version) with queues := [(64, entry .ready 0 0), (65, entry .ready 0 0)], running := true }

/-- That launch started, with both teams still to place. -/
def started (r : Record) : State :=
  { recorded 1 with launches := [(2, { gx := 2, record := r, status := 0x2000, pos := 64 })], queues := [(64, entry .running 0 0)], nextId := 3 }
def oneRole : Record := Dsp.recordOf (recordBytes 1)

theorem witness_Dispatcher :
    (result (.dispatcherRecordRead 1 0) (recorded 1) (fun t => (t.launches.length, t.readMem 0x2000 4)) == some (1, 2)
    && result (.dispatcherRecordRead 1 0) (recorded 2) (fun t => (t.launches.length, t.queues.length, t.readMem 0x2000 4)) == some (0, 1, 0x80)
    && result (.dispatcherRecordRead 1 0) { recorded 1 with badUnits := [0x200] } (fun t => t.readMem 0x2000 4) == some 0x8C
    && result (.dispatcherRecordRead 1 1) (recorded 1) (fun t => t.launches.length) == some 0
    && result (.dispatcherRecordRead 1 2) (recorded 1) (fun t => t.launches.length) == some 0
    && (match SMap.get? (started oneRole).launches 2 with
        | some l => Dsp.turnOf (started oneRole) 2 l && !l.record.cluster && !l.record.gridbar && l.nextTeam == 0
        | none => false)
    && Dsp.fits (started oneRole) 2 5 && !Dsp.fits (started { oneRole with localsz := 524289 }) 2 5
    && result (.teamPlace 2 [5]) (started oneRole) (fun t => (t.teams.map fun e => e.2.core, t.groups.map fun e => (e.2.quad 0).pc)) == some ([5], [0x40#64])
    && (Dsp.place (started { oneRole with cluster := true, clteams := 2 }) 2 [4, 5]).isSome
    && (Dsp.place (started { oneRole with gridbar := true }) 2 [0, 1]).isSome
    && result (.placementAgeLimit 2) { started oneRole with gtime := 65536 } (fun t => t.launches.map fun e => e.2.aged) == some [true]
    && result (.placementAgeLimit 2) { started oneRole with gtime := 65535 } (fun t => t.launches.map fun e => e.2.aged) == some [false]
    && result (.launchComplete 2) { started oneRole with launches := [(2, { gx := 2, nextTeam := 2, record := oneRole, status := 0x2000, pos := 64 })] }
        (fun t => (t.launches.length, t.queues.length, t.readMem 0x2000 4)) == some (0, 0, 3)
    && result (.launchComplete 2) (started oneRole) (fun t => t.launches.length) == some 1) = true := by decide +kernel

/-- A launch with a team that is missing stays; a status word in local memory. -/
theorem witness_Dispatcher_local :
    (let l : Launch := { gx := 2, nextTeam := 2, record := oneRole, status := 0x2000, pos := 64 }
     let s (l : Launch) : State := { started oneRole with launches := [(2, l)], teams := [(9, { launch := 1, localsz := 1024 })], cores := [] }
     result (.launchComplete 2) (s { l with missing := [1] }) (fun t => t.launches.length) == some 1
     && (s l).nookTeam ⟨1, 0, 0x80⟩ == some 9
     && result (.launchComplete 2) (s { l with statusAt := some ⟨1, 0, 0x80⟩ }) (fun t => (t.launches.length, t.readLoc 9 0x80 4)) == some (0, 3)) = true := by
  decide +kernel

/-- Function 0's ring of 16 entries at 0x4000; its next entry has these fields. -/
def ringed (status pad gx : Nat) : State :=
  { withMem (paged State.reset) 0x4000 (bytes [(8, 0x1000), (8, status), (4, gx), (4, 1), (4, 1), (2, 0), (34, pad)]) with
    rings := [(0, { base := 0x4000, prod := 1#32 })], running := true, gtime := 16 }

theorem witness_HostInterface :
    (result (.hostRingDoorbell 0 17#32) State.reset (fun t => t.rings.map fun e => e.2.stopped) == some [true]
    && result (.hostRingDoorbell 64 16#32) State.reset (fun t => t.rings.map fun e => e.2.stopped) == some [false]
    && result (.hostRingDoorbell 65 16#32) State.reset (fun t => t.rings.length) == some 0
    && result (.hostRingBaseWrite 3 0x4000#64) State.reset (fun t => t.rings.map fun e => e.2.base) == some [0x4000]
    && result (.hostRingLogWrite 3 11#4) State.reset (fun t => t.rings.length) == some 1 && result (.hostRingLogWrite 3 12#4) State.reset (fun t => t.rings.length) == some 0
    && result (.ringEntryConsume 0) (ringed 0x2000 0 2) (fun t => (t.queues.length, t.readMem 0x2004 4)) == some (1, 0x10000)
    && result (.ringEntryConsume 0) (ringed 0x2004 0 2) (fun t => (t.queues.length, t.rings.map fun e => e.2.cons)) == some (0, [1#32])
    && result (.ringEntryConsume 0) (ringed 0x2000 1 2) (fun t => t.readMem 0x2000 4) == some 0x81
    && result (.ringEntryConsume 0) (ringed 0x2000 0 0) (fun t => t.readMem 0x2000 4) == some 0x8D
    && result (.ringEntryConsume 1) (ringed 0x2000 0 2) (fun t => t.queues.length) == some 0
    && (Hst.reach (ringed 0 0 0) 0 .store 0x5000 2).map (fun l => l.length) == some 1 && (Hst.reach State.reset 0 .store 0x5000 2).isNone
    && result (.hostBar2Write 0 0x5000 [1#8, 2#8]) (ringed 0 0 0) (fun t => t.readMem 0x5000 2) == some 0x201
    && result (.hostBar2Write 0 0x5000 [1#8, 2#8]) { ringed 0 0 0 with hostAt := [(0, 17)] } (fun t => t.readMem 0x5000 2) == some 0
    && result (.hostBar2Read 0 0x4000 2) (ringed 0 0 0) (fun t => t.bar2Answer) == some (some [0#8, 0x10#8])
    && result (.hostBar2Read 0 0x4000 2) State.reset (fun t => t.bar2Answer) == some none
    && result (.hostLinkTrainDown 8) State.reset (fun t => t.hostLink) == some 8 && result (.hostLinkTrainDown 3) State.reset (fun t => t.hostLink) == some 16) = true := by
  decide +kernel

/-- Context 3's first GiB seen from a peer, its leaf's low word and the next one chosen. -/
def shared (w0 w1 : Nat) : State :=
  { withMem (withMem (paged State.reset) 0x104000 (bytes [(8, w0), (8, w1)])) 0x5000 (bytes [(4, 5)]) with running := true }
def arrival (kind : AccKind) (bs : List Byte) : Instr := .peerAccessArrival 17 0 3 0x5000#64 kind bs
def pausedFlow : Flow := { since := 0, held := [(3, 0x5000#64, .read, [0#8])], posted := true }

def farAccess : Access := { lane := 0, va := 0x40, loc := .peer 1 0 0x40, size := 4, sent := some 0 }

/-- What a peer has been answered: port and channel, the value, and the cause. -/
def told (t : State) : List (Nat × Nat × Nat × Option Nat) := t.peerAnswers.map fun x => (x.1, x.2.1, x.2.2.value, x.2.2.cause)

theorem witness_PeersAndFabric :
    (result (arrival .read [0#8, 0#8, 0#8, 0#8]) (shared 0x3F 0) told == some [(17, 1, 5, none)]
    && result (arrival .write [9#8]) (shared 0x3F 0) (fun t => (told t, t.readMem 0x5000 1)) == some ([(17, 1, 0, none)], 9)
    && result (arrival (.atomic .add) [1#8, 0#8, 0#8, 0#8]) (shared 0x3F 0) (fun t => (told t, t.readMem 0x5000 4)) == some ([(17, 1, 5, none)], 6)
    && result (arrival (.atomic .add) [1#8, 0#8, 0#8, 0#8]) { shared 0x3F 0 with badUnits := [0xA00] } told == some [(17, 1, 0, some 0x26)]
    && result (arrival .read [0#8]) { shared 0x3F 0 with badUnits := [0xA00] } told == some [(17, 1, 0, some 0x26)]
    && result (arrival .read [0#8]) { shared 0x3F 0 with badUnits := [0x20800] } told == some [(17, 1, 0, some 0x26)]
    && result (arrival .write [9#8]) (shared 0x3B 0) told == some [(17, 1, 0, some 0x22)]
    && result (arrival .write [9#8]) (shared 0x3F 0x10) (fun t => (t.peerAnswers.length, t.flows.map fun f => f.2.locked)) == some (0, [true])
    && result (arrival .write [9#8]) (shared 0 0) (fun t => (t.peerAnswers.length, t.flows.map fun f => f.2.locked)) == some (0, [false])
    && result (arrival .write [9#8]) (shared 0x5F 0) (fun t => (t.peerAnswers.length, t.flows.length)) == some (0, 1)
    && result (arrival .write []) (shared 0x3F 0) (fun t => t.peerAnswers.length) == some 0
    && result (arrival .read [0#8]) { shared 0x3F 0 with flows := [(136, pausedFlow)] } (fun t => t.flows.map fun e => e.2.held.length) == some [2]
    && result (.peerFlowTimeout 17 0) { shared 0x3F 0 with flows := [(136, pausedFlow)], gtime := 16777216 } (fun t => (told t, t.flows.length))
        == some ([(17, 1, 0, some 0x27)], 0)
    && result (.peerFlowTimeout 17 0) { shared 0x3F 0 with flows := [(136, pausedFlow)], gtime := 16777215 } (fun t => t.flows.length) == some 1
    && ((result (.peerAccessTimeout 1 1 0) { sent .loads (.load word) farAccess base with gtime := 16777216 } (fun t => (t.lane? 1 1 0).map fun x => x.2.fault)))
        == some (some (some 0x27))
    && ((result (.peerAccessTimeout 1 1 0) { sent .loads (.load word) farAccess base with gtime := 16777215 } (fun t => (t.lane? 1 1 0).map fun x => x.2.fault)))
        == some (some none)
    && result (.acountFlush 0 0) (base.setClusterAt 0 { tlb := [{ Turns.bootLeaf with at' := 0x6000, count := 3 }] }) (fun t => t.readMem 0x600C 2) == some 3
    && (let s := { shared 0x3F 0 with descs := [(0, { valid := true, evbase := 0x8000 })], heldEvents := [(0, [{ kind := 4 }])] }
        (s.descAt 0).valid && s.flows.isEmpty && (after (exec (.eventPostRetry 0) s)).isSome)
    && [Instr.uluberFlitRetry 17, .uluberPortDown 0].all (fun i => result i base (fun t => t.ports.length) == some 1)
    && result (.uluberLaneSpare 2 7) base (fun t => t.ports.map fun e => e.2.spared) == some [true]
    && result (.uluberPortHalve 2) { base with ports := [(2, { spared := true })] } (fun t => t.ports.map fun e => e.2.lanes) == some [4]
    && result (.uluberPortHalve 2) base (fun t => t.ports.length) == some 0) = true := by decide +kernel

/-- A copy whose source lies with a peer, and has not answered in time. -/
theorem witness_PeersAndFabric_copy :
    (let leaf : Cluster := { tlb := [{ Turns.bootLeaf with w0 := 0x400005F#64 }] }
     let asked (at' : SMap Nat) (now : Nat) := { (withOps base [{ copyOp copyJob with asked := at' }]).setClusterAt 0 leaf with gtime := now }
     let stop (t : State) := (t.grp.op? 1).bind fun o => match o.kind with | .copy j => j.stop | _ => none
     let s := asked [(0x1000, 0)] 16777216
     Peer.unread copyJob == 0 && (match s.find 1 true .load 0x1000 with | .at' (.peer ..) _ => true | _ => false)
     && result (.peerAccessTimeout 1 1 0) s stop == some (some (0, 0x27, 0x1000))
     && result (.peerAccessTimeout 1 1 0) (asked [(0x1000, 0)] 16777215) stop == some none
     && result (.peerAccessTimeout 1 1 0) (asked [] 16777216) stop == some none
     && result (.peerAccessTimeout 1 1 0) { asked [] 0 with inSync := false } stop == some (some (0, 0x27, 0x1000))) = true := by decide +kernel

/-- A line whose unit 80 DRAM holds as uncorrectable is read by its slice, while the slice holds no newer data, and while it does. -/
theorem witness_UpkeepAndFailures_read :
    ((after (step { base with turns := [.dramRead 5], dramBad := [80] })).map (fun t => t.badUnits) == some [80]
    && (after (step { base with turns := [.dramRead 5], dramBad := [80], dramAt := [(5, 0)] })).map (fun t => t.badUnits) == some []
    && SMap.get? base.dramAt 5 == none && !Up.lostLine base 5) = true := by decide +kernel

theorem witness_UpkeepAndFailures :
    (result (.channelFail 0) base (fun t => t.channels.map fun e => e.2.failed) == some [true] && result (.channelFail 384) base (fun t => t.channels.length) == some 0
    && result (.rowReplace 383 7) { base with channels := [(383, { errors := [(7, 1)] })] } (fun t => t.channels.map fun e => e.2.rows) == some [[]]
    && result (.refreshForced 0 1024) { base with postponed := [(1024, 1)] } (fun t => t.refreshAt.length) == some 0
    && result (.activationAlert 0 1024) base (fun t => t.rfmAt.length) == some 0 && result (.activationAlert 0 1023) base (fun t => t.rfmAt.length) == some 1
    && result (.clusterFailure 0) base (fun t => (t.teams.length, t.groups.length, t.sparesUsed, t.lostClusters)) == some (0, 0, [0], [])
    && result (.clusterFailure 19) { base with sparesUsed := [0] } (fun t => (t.teams.length, t.lostClusters)) == some (1, [19])
    && result (.clusterFailure 80) base (fun t => t.sparesUsed) == some []
    && result (.sliceRetire 383) base (fun t => t.sliceSpares) == some [(3, 1)] && result (.sliceRetire 383) { base with sliceSpares := [(3, 4)] } (fun t => t.errors.length) == some 0
    && result (.sliceAbruptFailure 5) base (fun t => (t.running, t.slicesLost)) == some (false, [5])
    && result (.scrubRead 384 0 .clean) base (fun t => t.channels.length) == some 0
    && result (.channelRetireStart 3) base (fun t => t.channels.length) == some 0 && result (.channelLineMove 3) base (fun t => t.channels.length) == some 0) = true := by
  decide +kernel

/-- The numbers of rows and banks, whatever a row's size and the number of banks. -/
theorem rows_and_banks : 0 < Config.dataRows ∧ 128 ≤ Config.reserveRows ∧ Config.banks ≤ 128 ∧ Config.dataRows % Config.banks = 0 := by
  have h : ∀ j < 13, 0 < Config.channelLines / 2 ^ j ∧ 128 ≤ Config.reserveLines / 2 ^ j
      ∧ ∀ b < 6, 2 ^ (2 + b) ≤ 128 ∧ Config.channelLines / 2 ^ j % 2 ^ (2 + b) = 0 := by decide +kernel
  obtain ⟨a, b, c⟩ := h (Config.rowLog % 13) (Nat.mod_lt _ (by decide))
  obtain ⟨d, e⟩ := c (Config.bankLog % 6) (Nat.mod_lt _ (by decide))
  exact ⟨a, b, d, e⟩

/-- A channel in service whose row 0 has had two errors, with `n` rows replaced. -/
def rowWorn (n : Nat) : State := { base with channels := [(0, { errors := [(0, 2)], rows := List.replicate n (1, 0) })] }

/-- Row 0 can be read; the reserve has a row to give for it, with none used and with all but one used; no bank is at its limit. -/
theorem witness_UpkeepAndFailures_rows : 0 < Config.dataRows ∧ 0 / 4 / 2 ^ 25 = 0 ∧ 0 / 4 % 2 ^ 25 / Config.rowLines = 0
    ∧ (∀ n, ∃ r, Up.freeRow (rowWorn n) 0 0 = some r) ∧ ¬ Config.reserveRows ≤ 4 * 1 ∧ Config.reserveRows ≤ 4 * (Config.reserveRows - 1)
    ∧ (∀ k, Up.refreshDue base k = false) ∧ Up.refreshDue { base with postponed := [(0, Config.refreshLimit)] } 0 = true := by
  obtain ⟨a, b, c, d⟩ := rows_and_banks
  have never : decide (Config.sparePostpones + 1 ≤ 0) = false := by simp
  refine ⟨a, by simp, by simp, fun n => Option.isSome_iff_exists.mp (List.find?_isSome.mpr ⟨Config.dataRows, ?_, ?_⟩), by omega, by omega,
    fun _ => never, by simp [Up.refreshDue, SMap.get, SMap.get?]⟩
  · exact List.mem_map.mpr ⟨0, List.mem_range.mpr (by omega), rfl⟩
  · have e : Up.channel (rowWorn n) 0 = { errors := [(0, 2)], rows := List.replicate n (1, 0) } := rfl
    have m : Up.movedRows (rowWorn n) 0 = [] := rfl
    simp [e, m, d, Nat.zero_mod]
    omega

/-- A failed channel with room for its data in other channels' reserve, and one without. -/
def failing (more : List Nat) : State :=
  { base with channels := (3, { failed := true }) :: more.map fun c => (c, { retired := true }) }

theorem rows_none : ∀ (m : SMap Channel) (d : Nat), (m.all fun e => e.2.rows.isEmpty) = true → (SMap.get {} m d).rows = []
  | [], _, _ => rfl
  | (k, x) :: r, d, h => by
    simp only [List.all_cons, Bool.and_eq_true, List.isEmpty_iff] at h
    unfold SMap.get SMap.get?
    split
    · exact h.1
    · exact rows_none r d h.2

theorem witness_UpkeepAndFailures_reserve : 1984 * 65536 ≤ Up.reserve (failing []) 3 ∧ ¬ 1984 * 65536 ≤ Up.reserve (failing [20, 21, 22]) 3
    ∧ Up.holdsParity base (Config.parityChannel 0) = true := by
  have rows (m : List Nat) (hm : m = [] ∨ m = [20, 21, 22]) (d : Nat) : (Up.channel (failing m) d).rows = [] :=
    rows_none _ d (by rcases hm with rfl | rfl <;> rfl)
  have p : Up.groupOf (Config.parityChannel 0) = 0 := by
    simp only [Up.groupOf, Config.parityChannel]; omega
  refine ⟨?_, ?_, ?_⟩
  · simp only [Up.reserve, rows [] (.inl rfl), List.length_nil, Nat.mul_zero, Nat.zero_div]
    decide +kernel
  · simp only [Up.reserve, rows _ (.inr rfl), List.length_nil, Nat.mul_zero, Nat.zero_div]
    decide +kernel
  · have c : (Up.channel base (Config.parityChannel 0)).heir = none := rfl
    simp [Up.holdsParity, Up.parityAt, Up.heirAt, p, c]

/-- Channel 3 is retiring, line 5 lies at its first offset. -/
def moving : State := { base with channels := [(3, { failed := true, retiring := true })], places := [(5, ⟨3, 0⟩)] }

theorem parity_of_base (s : State) (h : ∀ c, (Up.channel s c).heir = none) (c off : Nat) : Up.parityAt s c off = Config.parityChannel (c / 16) := by
  simp [Up.parityAt, Up.heirAt, h, Up.groupOf]

/-- A channel with an empty reserve has room there in the bank of its first place. -/
theorem freePlace_some (s : State) (d : Nat) (bank : Option Nat) (rows : (Up.channel s d).rows = [])
    (b : ∀ n, bank = some n → Up.bankOf Config.channelLines = n) (none' : Up.occupant s d Config.channelLines = none) :
    (Up.freePlace s d bank).isSome = true := by
  refine List.findSome?_isSome_iff.mpr ⟨Config.channelLines, List.mem_map.mpr ⟨0, List.mem_range.mpr (by decide), rfl⟩, ?_⟩
  have hb : (bank.all fun n => Up.bankOf Config.channelLines == n) = true := by
    cases bank with
    | none => rfl
    | some n => simpa using b n rfl
  simp [rows, none', hb]

theorem moving_heir (p : SMap Place) (l : SMap Nat) (c : Nat) : (Up.channel { moving with places := p, leads := l } c).heir = none := by
  unfold Up.channel moving SMap.get SMap.get?
  split <;> rfl

/-- A channel of the next group that holds no parity can take a line of channel 3. -/
theorem moving_homes (p : SMap Place) (l : SMap Nat) (d : Nat) (h : d = 16 ∨ d = 17) (n : d ≠ Config.parityChannel 1) :
    d ∈ Up.homes { moving with places := p, leads := l } 3 := by
  have q : Up.holdsParity { moving with places := p, leads := l } d = false := by
    have g : d / 16 = 1 := by omega
    simp [Up.holdsParity, parity_of_base _ (moving_heir p l), g, n]
  have c : Up.channel { moving with places := p, leads := l } d = {} := by rcases h with rfl | rfl <;> rfl
  refine List.mem_filter.mpr ⟨List.mem_range.mpr (by omega), ?_⟩
  rcases h with rfl | rfl <;> simp [Up.dieOf, Up.groupOf, q, c]

theorem some_home : ∃ d, (d = 16 ∨ d = 17) ∧ d ≠ Config.parityChannel 1 := by
  by_cases h : 16 = Config.parityChannel 1
  · exact ⟨17, .inr rfl, by omega⟩
  · exact ⟨16, .inl rfl, h⟩

theorem witness_UpkeepAndFailures_move : Up.occupant moving 3 0 = some 5 ∧ Up.kinPlace moving 3 5 = none
    ∧ ∃ p, Up.anyPlace moving 3 5 = some p := by
  refine ⟨rfl, rfl, Option.isSome_iff_exists.mp ?_⟩
  obtain ⟨d, hd, n⟩ := some_home
  have free : (Up.freePlace moving d none).isSome = true := by
    refine freePlace_some moving d none (rows_none _ d rfl) (fun _ h => nomatch h) ?_
    simp [Up.occupant, moving, Config.lineAt, show ¬ 0 = Config.channelLines by decide]
  have hm := moving_homes moving.places moving.leads d hd n
  unfold Up.anyPlace
  simp only []
  generalize Config.freeNat moving.choice 5 % (Up.homes moving 3).length = k
  refine List.findSome?_isSome_iff.mpr ⟨d, ?_, free⟩
  rw [← List.take_append_drop k (Up.homes moving 3)] at hm
  exact List.mem_append.mpr (List.mem_append.mp hm).symm

/-- The same with another line of that one's tensor column moved already, to a bank with room. -/
def movingKin (d : Nat) : State := { moving with places := [(5, ⟨3, 0⟩), (6, ⟨d, Config.channelLines + Config.rowLines * Config.banks⟩)], leads := [(5, 9), (6, 9)] }

theorem witness_UpkeepAndFailures_kin : ∃ d p, Up.occupant (movingKin d) 3 0 = some 5
    ∧ Up.kinPlace (movingKin d) 3 5 = some ⟨d, Config.channelLines + Config.rowLines * Config.banks⟩
    ∧ Up.freePlace (movingKin d) d (some (Up.bankOf (Config.channelLines + Config.rowLines * Config.banks))) = some p := by
  obtain ⟨d, hd, n⟩ := some_home
  have free : (Up.freePlace (movingKin d) d (some (Up.bankOf (Config.channelLines + Config.rowLines * Config.banks)))).isSome = true := by
    refine freePlace_some _ d _ (rows_none _ d rfl) (fun m h => ?_) ?_
    · cases h
      rw [Up.bankOf, Up.bankOf, Nat.add_mul_div_left _ _ (show 0 < Config.rowLines from Nat.two_pow_pos _), Nat.add_mod_right]
    · have z : Config.rowLines * Config.banks ≠ 0 := Nat.mul_ne_zero (Nat.ne_of_gt (Nat.two_pow_pos _)) (Nat.ne_of_gt (Nat.two_pow_pos _))
      rcases hd with rfl | rfl <;>
        simp [Up.occupant, movingKin, moving, Config.lineAt, z, show ¬ 0 = Config.channelLines by decide]
  obtain ⟨p, hp⟩ := Option.isSome_iff_exists.mp free
  have kin : ((movingKin d).leads.filter fun e => e.1 != 5 && some e.2 == SMap.get? (movingKin d).leads 5).map (fun e => Up.place (movingKin d) e.1)
      = [⟨d, Config.channelLines + Config.rowLines * Config.banks⟩] := rfl
  refine ⟨d, p, ?_, ?_, hp⟩
  · rcases hd with rfl | rfl <;> rfl
  · have hm := moving_homes (movingKin d).places (movingKin d).leads d hd n
    unfold Up.kinPlace
    rw [kin]
    simpa [movingKin] using hm

/-- A line at place 40 of channel 3 that the stack reports uncorrectable, in a channel where three other banks have had one. -/
def sickLine : State := { base with turns := [.dramRead 5], places := [(5, ⟨3, 40⟩)], badSectors := [4 * Up.spot 3 40], channels := [(3, { banks := [128, 129, 130] })] }

theorem witness_UpkeepAndFailures_banks :
    (Up.sick sickLine 5 && !Up.refreshWaits sickLine 5 && (SMap.get? sickLine.dramAt 5).isNone) = true
    ∧ 40 / Config.rowLines % Config.banks ∉ [128, 129, 130] := by
  refine ⟨by decide +kernel, ?_⟩
  have h : 40 / Config.rowLines % Config.banks < 128 := Nat.lt_of_lt_of_le (Nat.mod_lt _ (Nat.two_pow_pos _)) rows_and_banks.2.2.1
  simp
  omega

/-- One walk, or one range, on the cluster that fails, and none elsewhere. -/
theorem witness_UpkeepAndFailures_lost :
    (((walking (walk {})).clusterAt 0).walks.map Prod.fst == [0] && ((walking (walk {})).clusterAt 0).ranges.isEmpty
    && (walking (walk {})).clusters.map Prod.fst == [0]
    && result (.clusterFailure 0) (walking (walk {})) (fun t => (t.readMem 0x300C 4, (t.clusterAt 0).walks.length)) == some (0xFFFFFFFE, 0)
    && (ranged.clusterAt 0).ranges.map Prod.fst == [0] && (ranged.clusterAt 0).walks.isEmpty && ranged.clusters.map Prod.fst == [0]
    && result (.clusterFailure 0) ranged (fun t => (t.launches.map fun e => (e.2.live, e.2.missing), t.errors.length)) == some ([(0, [0])], 1)) = true := by
  decide +kernel

def managed (cmd arg : Nat) (data : List (Nat × Byte)) : State := { State.reset with mgmt := { busy := true, cmd := cmd, arg := arg, boot := 0, input := data } }

theorem witness_BringUpAndManagement :
    (result (.powerLimitThrottle 4) State.reset (fun t => (t.gtime, t.withheld)) == some (4, 4)
    && [1, 2, 6].all (fun n => (managed n 0 []).mgmt.busy && (managed n 0 []).mgmt.cmd == n)
    && result .mgmtErrorRecord (managed 3 0 []) (fun t => t.mgmt.result) == some 3
    && result .mgmtErrorRecord { managed 3 0 [] with errors := [{ kind := 3, unit := 6, at' := 1, resets := 2, time := 9, value := 7 }] }
        (fun t => (t.mgmt.result, SMap.get 0#8 t.mgmt.data 0, SMap.get 0#8 t.mgmt.data 8, SMap.get 0#8 t.mgmt.data 16)) == some (0, 9#8, 3#8, 7#8)
    && result .mgmtSetScrubber (managed 4 0 []) (fun t => t.mgmt.result) == some 2
    && result .mgmtSetScrubber (managed 4 0 [(0, 1#8), (1, 100#8), (4, 0x0F#8), (5, 0x0E#8)]) (fun t => (t.mgmt.result, t.scrubctl)) == some (2, State.reset.scrubctl)
    && result .mgmtSetScrubber (managed 4 0 [(0, 1#8), (1, 100#8), (4, 0x10#8), (5, 0x0E#8)]) (fun t => t.mgmt.result) == some 0
    && result .mgmtSetScrubber (managed 4 0 [(0, 1#8), (1, 100#8), (4, 0x10#8), (5, 0x2E#8)]) (fun t => (t.mgmt.result, t.scrubctl)) == some (0, 0x00002E1000006401#64)
    && result .mgmtSetMatrixIdle (managed 5 63 []) (fun t => (t.mgmt.result, t.mxIdle)) == some (2, 1024)
    && result .mgmtSetMatrixIdle (managed 5 64 []) (fun t => (t.mgmt.result, t.mxIdle)) == some (0, 64)
    && result (.mgmtCommandRefused 7#64) State.reset (fun t => t.mgmt.result) == some 1
    && result (.mgmtCommandRefused 1#64) (managed 1 0 []) (fun t => t.mgmt.ovr) == some true
    && result (.mgmtCommandRefused 1#64) State.reset (fun t => (t.mgmt.ovr, t.mgmt.result)) == some (false, 0)
    && result .mgmtIdentity State.reset (fun t => t.mgmt.result) == some 0) = true := by decide +kernel

/-- A pass in which no channel is left to read; a partition that has issued; words of the management window. -/
theorem witness_BringUpAndManagement_window :
    (result .scrubPassEnd { base with channels := (List.range 384).map fun c => (c, { retired := true }) } (fun t => t.errors.length) == some 1
    && result (.powerLimitThrottle 4) { base with cores := [(0, { issuedAt := [(0, 1)] })] } (fun t => (t.gtime, t.withheld)) == some (5, 4)
    && (let s := { State.reset with turns := [.hostMgmt 0 0x500000002#64], mgmt := { boot := 1, data := [(0, 7#8)] } }
        (after (step s)).map (fun t => (t.mgmt.busy, t.mgmt.cmd, t.mgmt.arg, t.mgmt.input)) == some (true, 2, 5, [(0, 7#8)])
        && (after (step { s with turns := [.hostMgmt 1 2#64] })).map (fun t => t.mgmt.busy) == some false
        && (after (step { s with turns := [.hostMgmtRead 0 8] })).map (fun t => t.mgmt.answer) == some 0x100#64
        && (after (step { s with turns := [.hostMgmtRead 0 0x100] })).map (fun t => t.mgmt.answer) == some 7#64
        && (after (step { s with turns := [.hostMgmtRead 1 0x100] })).map (fun t => t.mgmt.answer) == some 0#64)) = true := by decide +kernel

/-! What every step keeps, and what a step runs -/

theorem witness_MemoryStaysFormed : State.reset.Formed ∧ ∃ t, step { State.reset with turns := [.tick 1] } = .next t := ⟨rfl, _, rfl⟩

theorem witness_NumbersStayFresh : Numbered (withOps base [stored]) ∧ ∃ t, step { withOps base [stored] with turns := [.tick 1] } = .next t := by
  refine ⟨?_, _, rfl⟩
  have h : (withOps base [stored]).groups.all (fun g => g.2.ops.all fun o => decide (o.id < (withOps base [stored]).nextId)) = true := by decide +kernel
  intro g hg o ho
  simpa using List.all_eq_true.mp (List.all_eq_true.mp h g hg) o ho

theorem witness_DecodeEncodeAgree : (Instr.iadd .s32 (ops (.v 12) (.v 4) (.i8 0x10) .none 0)).wellFormed = true
    ∧ ∃ i, decode (0x00000000#32 ++ 0x08110010#32 ++ 0x040C0002#32) = some i := ⟨by decide, _, rfl⟩

/-- A NOP, an illegal word and a pair in the line at 0. -/
def fetchingState (w : BitVec 96) : State := Turns.boot State.reset w

theorem witness_StepRunsDecoded :
    (let s := fetchingState 0xC1#96
     s.turns == [.partition 0 0] && s.running && SMap.get 0 (s.coreAt 0).issuedAt 0 != s.gtime + 1
     && (Iss.tries { s with turns := [] } 0 0).map (fun x => (x.1, x.2.2.1, x.2.2.2)) == [(1, 1, 0)]
     && (s.grpAt 1).fragPc 0 == 0#64 && Line.slotOf 0#64 == some 0 && !((s.grpAt 1).frag 0).skip && !(s.teamOf 1).preempt && (s.grpAt 1).orphan.isNone
     && (match (Iss.pick { s with turns := [] } 1 0).fetchLine 1 true 0 with
        | .line n => Line.slot n 0 == 0xC1#96 && !Line.paired n 0 && decode (Line.slot n 0) == some (.nop (ops .none .none .none .none 0))
        | _ => false)
     && ((after (step s)).map fun t => ((t.grpAt 1).quad 0).pc) == some next
     && (let t := fetchingState 0#96
         (decode 0#96).isNone && ((after (step t)).map fun t => (t.grpAt 1).cause) == some 0x40#32)
     && ((after (step { State.reset with turns := [.happen (.powerLimitThrottle 4)], running := true })).map fun t => t.gtime) == some 4
     && ((after (step { State.reset with turns := [.tick 4] })).map fun t => t.gtime) == some 4) = true := by decide +kernel

/-- A line that the core keeps for fetching has lost its parity, and what HBM holds is no line either. -/
theorem witness_StepRunsDecoded_refetch :
    (let s := withMem { fetchingState 0xC1#96 with cores := [(0, { kernels := [1], fetch := [⟨0, 0, 1⟩] })] } 0 [0#8]
     (match (Iss.pick { s with turns := [] } 1 0).fetchLine 1 true 0 with | .fault c => c == 0x43 | _ => false)
     && (Iss.pick { s with turns := [] } 1 0).keptBad 1 0
     && ((after (step s)).map fun t => ((t.grpAt 1).cause, t.errors.map fun e => (e.kind, e.unit))) == some (0x43#32, [(2, 5)])) = true := by decide +kernel

/-! ### Results that the spec works out -/

/-- Lane `l` of v`n` holds `f l`. -/
def withLanes (s : State) (n : Nat) (f : Nat → W32) : State :=
  s.setGrp ((List.range 32).foldl (fun (g : Group) l => g.wv n l (f l)) s.grp)

/-- 04, worked conversions: 65,520, 2^-25, 1 + 2^-8 and a NaN. -/
theorem test_conversions :
    ([(.f16, .rn, 0x477FF000, 0x7C00), (.f16, .rz, 0x477FF000, 0x7BFF), (.f16, .rn, 0x33000000, 0x0000), (.f16, .rp, 0x33000000, 0x0001),
      (.bf16, .rn, 0x3F808000, 0x3F80), (.bf16, .rp, 0x3F808000, 0x3F81), (.bf16, .rm, 0x7F800001, 0x7FC0)] : List (FFmt × Rnd × Nat × Nat)).all
      (fun x => Float.roundFV x.1 x.2.1 (Float.toFV .f32 x.2.2.1) == x.2.2.2) = true := by decide +kernel

/-- The same table's integers: -2.5, -1.0, 3.0e9, 16,777,217 and 70,000. -/
theorem test_conversions_integer :
    (result (.cvt .f32 .rn (ops (.v 5) (.v 6) .none (.i8 0x14) 0)) (withV base 6 0xC0200000#32) (fun t => t.grp.rv 5 0) == some 0xFFFFFFFE#32
    && result (.cvt .f32 .rz (ops (.v 5) (.v 6) .none (.i8 0x24) 0)) (withV base 6 0xBF800000#32) (fun t => t.grp.rv 5 0) == some 0#32
    && result (.cvt .f32 .rn (ops (.v 5) (.v 6) .none (.i8 0x14) 0)) (withV base 6 0x4F32D05E#32) (fun t => t.grp.rv 5 0) == some 0x7FFFFFFF#32
    && result (.cvt .f32 .rn (ops (.v 5) (.v 6) .none (.i8 0x00) 0)) (withV base 6 16777217#32) (fun t => t.grp.rv 5 0) == some 0x4B800000#32
    && result (.cvt .f16 .rm (ops (.v 5) (.v 6) .none (.i8 0x00) 0)) (withV base 6 70000#32) (fun t => t.grp.rv 5 0) == some 0x7BFF#32) = true := by
  decide +kernel

/-- 04, one KB4 block: SCALE 0.5, elements 3.0, -1.25, 0.4 and -2.9. -/
def half4 : State := withRecord base fun r => { r with slots := [(2, { fmt := 4, mant := 4, scale := 0x3F000000#32 })] }

theorem test_block : result (.cvtBlock .f32 .rn (ops (.v 10) (.v 6) .none (.i8 0x74) 0x10))
    (withLanes half4 6 fun l => ([0x40400000#32, 0xBFA00000#32, 0x3ECCCCCD#32, 0xC039999A#32] : List W32).getD l 0#32)
    (fun t => (List.range 5).map fun l => t.grp.rv 10 l) = some [0x4#32, 0xB#32, 0x3#32, 0xA#32, 0x82#32] := by decide +kernel

/-- The block out of the slot again: 3.0, -1.0, 0.5 and -3.0. -/
theorem test_block_out : result (.cvtBlock .f32 .rn (ops (.v 10) (.v 6) .none (.i8 0x07) 0x2))
    (withLanes half4 6 fun l => ([0x4#32, 0xB#32, 0x3#32, 0xA#32, 0x82#32] : List W32).getD l 0#32)
    (fun t => (List.range 5).map fun l => t.grp.rv 10 l) = some [0x40400000#32, 0xBF800000#32, 0x3F000000#32, 0xC0400000#32, 0#32] := by decide +kernel

/-- 05, choosing from eight tokens. -/
def weights (u : W64) : State :=
  withK (withLanes base 8 fun l => ([0x3F000000#32, 0x3E800000#32, 0#32, 0x3F800000#32, 0x3E000000#32, 0x3E000000#32, 0#32, 0x40000000#32] : List W32).getD l 0#32) 5 u

theorem test_gsample : ([(0x3EE00000#64, 4#32), (0x3F000000#64, 7#32), (0#64, 0#32), (0x3F800000#64, 7#32), (0x7FC00000#64, 0#32)] : List (W64 × W32)).all
    (fun x => result (.gsample (ops (.v 20) (.v 8) (.k 5) (.p 2) 0)) (weights x.1) (fun t => (t.grp.rv 20 31, Bits.has (t.grp.rp 2) 0)) == some (x.2, true)) = true := by
  decide +kernel

/-- 06, the truncation point: 1.0 + 2^-24 + 2^-48 gives 1.0. -/
theorem test_truncation :
    let a := [0x3F800000, 0x33800000, 0x33800000].map (Float.toFV .f32) ++ List.replicate 61 (.fin Float.Ex.zero)
    let b := [0x3C00, 0x3C00, 0x0001].map (Float.toFV .f16) ++ List.replicate 61 (.fin Float.Ex.zero)
    Dot.dot 0 a b = 0x3F800000 := by decide +kernel

/-- 06, a KB4 row: 0.25 + 6 - 1 + 2 - 1.5, and its epilogue with SCALE 0.5. -/
theorem test_kb4_row :
    let a := [0x3C00, 0x3800, 0x4000, 0x3400].map (Float.toFV .f16) ++ List.replicate 60 (.fin Float.Ex.zero)
    let b := Dot.blockElems 4 (Bits.bytesOf 4 0x4 ++ Bits.bytesOf 4 0xB ++ Bits.bytesOf 4 0x3 ++ Bits.bytesOf 4 0xA) 0x82
      ++ Dot.blockElems 4 (List.replicate 16 0#8) 0
    Dot.dot 0x3E800000 a b = 0x40B80000 := by decide +kernel

theorem test_epilogue : result (.zepi (ops (.v 40) (.z 0) (.k 10) .imm 0xA0180))
    (withWindow (withK half4 10 0x3F800000#64) 0 { mom := false, mean := [(0, 0x40B80000#32)], var := [] }) (fun t => t.grp.rv 40 0)
    = some 0x40380000#32 := by decide +kernel

/-- 07, four covariance assumptions: a = (2, 1), b = (3, 4). -/
def moments (cov : W32) (c : W32) : State :=
  withV (withM (withM (withGrp base fun g => { g with mcr := cov }) 2 0x3F80000040000000#64) 3 0x4080000040400000#64) 6 c

theorem test_moments_sum : ([(2#32, 0#32, 0x3F80000040A00000#64), (3#32, 0x3F800000#32, 0x40E0000040A00000#64)] : List (W32 × W32 × W64)).all
    (fun x => result (.madd (ops (.m 4) (.m 2) (.m 3) (.v 6) 0)) (moments x.1 x.2.1) (fun t => t.grp.rm 4 0) == some x.2.2) = true := by decide +kernel

theorem test_moments_product : ([(1#32, 0#32, 0x4264000041000000#64), (3#32, 0x3F800000#32, 0x4228000040E00000#64)] : List (W32 × W32 × W64)).all
    (fun x => result (.mmul (ops (.m 6) (.m 2) (.m 3) (.v 6) 0)) (moments x.1 x.2.1) (fun t => t.grp.rm 6 0) == some x.2.2) = true := by decide +kernel

theorem test_moments_trap : result (.msub (ops (.m 5) (.m 2) (.m 3) (.v 6) 0)) (moments 3#32 0x40400000#32)
    (fun t => (t.grp.cause, t.grp.tval, t.grp.rm 5 0)) = some (0x09#32, 0xFFFFFFFF#64, 0#64) := by decide +kernel

/-- `msqr m7, m2` gives (5, 18). -/
theorem test_moments_square : result (.msqr (ops (.m 7) (.m 2) .none .none 0)) (moments 0#32 0#32) (fun t => t.grp.rm 7 0) = some 0x4190000040A00000#64 := by
  decide +kernel

/-- 08, one fold. -/
theorem test_fold :
    let r := Wk.merge { m := 0x3F800000#32, l := 0x3F800000#32, status := 0, o := [0x40000000#32] } { m := 0#32, l := 0x40000000#32, status := 0, o := [0x3F800000#32] }
    (r.m, r.l, r.o) = (0x3F800000#32, 0x3FDE2D59#32, [0x40178B56#32]) := by decide +kernel

/-- 14, the bytes of a phase: the declared 6,144 bytes and the copy A of 4,096. -/
theorem test_pending : result (.barx (ops .none (.i8 3) (.k 12) .none 0))
    (withTeam (withK pair 12 6144#64) fun t => { t with barriers := [(3, { pend := 0xFFF000 })] }) (fun t => (t.barrierAt 1 3).pend) = some 0x800 := by decide +kernel

/-- 15, the leaf of a 2 MiB tile page of tensor 7: a load may pass, a store may not. -/
theorem test_leaf :
    let l : Leaf := ⟨0x4000200000, 0x200000, 0x0000001234400033#64, 0x705#64, 0⟩
    (l.tensor, l.layout, l.shw, l.deny false .load, l.deny false .store, l.target 0x4000200010)
      = (7, 1, true, none, some 0x22, .hbm 0x0000001234400010) := by decide +kernel

/-- 17, five ranks: 1.0, 2^-24, 2^-24, 0 and 0 give 1.0. -/
theorem test_five_ranks : Coll.tree .addF (fun r => ([0x3F800000#32, 0x33800000#32, 0x33800000#32, 0#32, 0#32] : List W32).getD r 0#32) 12 0 5 = 0x3F800000#32 := by
  decide +kernel

/-- R110: the two fixed results, and truncation toward zero. -/
theorem test_idiv :
    (result (.idiv .s32 (ops (.v 1) (.v 2) (.v 3) .none 0)) (withV (withV base 2 0x80000000#32) 3 0xFFFFFFFF#32) (fun t => t.grp.rv 1 0) == some 0x80000000#32
    && result (.idiv .n64 (ops (.k 1) (.k 2) (.k 3) .none 0)) (withK base 2 5#64) (fun t => t.grp.rk 1) == some 0xFFFFFFFFFFFFFFFF#64
    && result (.idiv .s32 (ops (.v 1) (.v 2) (.i8 2) .none 0)) (withV base 2 0xFFFFFFF9#32) (fun t => t.grp.rv 1 0) == some 0xFFFFFFFD#32) = true := by decide +kernel

/-- R111: shifts by the width and more. -/
theorem test_shifts :
    (result (.shl .n32 (ops (.v 1) (.v 2) (.i8 32) .none 0)) (withV base 2 5#32) (fun t => t.grp.rv 1 0) == some 0#32
    && result (.sar .s64 (ops (.k 1) (.k 2) (.i8 64) .none 0)) (withK base 2 0x8000000000000000#64) (fun t => t.grp.rk 1) == some 0xFFFFFFFFFFFFFFFF#64
    && result (.shr .n64 (ops (.k 1) (.k 2) (.i8 63) .none 0)) (withK base 2 0x8000000000000000#64) (fun t => t.grp.rk 1) == some 1#64) = true := by decide +kernel

end Sys2Proof.Tests
end

/-! Results of the integer instructions that fill a v or k register: the value of a quotient (R110), operands and results
as patterns of the type's width, and the rule by which such an instruction issues. -/

namespace Sys2Proof.IntegerResults

open Sys2Proof Sys2Proof.Machine Sys2Proof.Machine.Operands Sys2Proof.Claims

/-! ### Signed patterns and the quotient -/

theorem signedOf_toNat {w : Nat} (x : BitVec w) : signedOf w x.toNat = x.toInt := by
  cases w with
  | zero => simp [BitVec.of_length_zero, signedOf]
  | succ n =>
    simp only [BitVec.toInt_eq_toNat_cond, signedOf, Nat.add_sub_cancel, pow_succ, Nat.cast_mul, Nat.cast_pow, Nat.cast_ofNat]
    split <;> split <;> omega

theorem wrap_eq_toNat_ofInt (w : Nat) (x : Int) : wrap w x = (BitVec.ofInt w x).toNat := by
  simp [wrap, BitVec.toNat_ofInt]

theorem sdiv_eq_ofInt_tdiv {w : Nat} (a b : BitVec w) : a.sdiv b = BitVec.ofInt w (a.toInt.tdiv b.toInt) :=
  BitVec.eq_of_toInt_eq (by rw [BitVec.toInt_sdiv, BitVec.toInt_ofInt])

theorem udiv_eq_ofInt_tdiv {w : Nat} (a b : BitVec w) : a.udiv b = BitVec.ofInt w ((a.toNat : Int).tdiv b.toNat) := by
  apply BitVec.eq_of_toNat_eq
  have hlt : a.toNat / b.toNat < 2 ^ w := lt_of_le_of_lt (Nat.div_le_self _ _) a.isLt
  rw [← Int.ofNat_tdiv, BitVec.ofInt_natCast, BitVec.toNat_ofNat, Nat.mod_eq_of_lt hlt]
  exact BitVec.toNat_udiv

/-- The most negative value by -1 wraps to itself (R110). -/
theorem toNat_intMin_sdiv_allOnes {w : Nat} (hw : 0 < w) {a b : BitVec w} (ha : a.toNat = 2 ^ (w - 1))
    (hb : b.toNat = 2 ^ w - 1) : (a.sdiv b).toNat = 2 ^ (w - 1) := by
  have hmin : a = BitVec.intMin w := BitVec.eq_of_toNat_eq (by
    rw [ha, BitVec.toNat_intMin, Nat.mod_eq_of_lt (Nat.pow_lt_pow_right (by decide) (by omega))])
  have hneg : b = -1#w := BitVec.eq_of_toNat_eq (by rw [hb, BitVec.neg_one_eq_allOnes, BitVec.toNat_allOnes])
  rw [hmin, hneg, BitVec.intMin_sdiv_neg_one, ← hmin, ha]

/-- R110 at every width. -/
theorem toNat_div {w : Nat} (hw : 0 < w) (sg : Bool) (a b : BitVec w) :
    (Alu.div w sg a b).toNat =
      if b.toNat = 0 then 2 ^ w - 1
      else if sg ∧ a.toNat = 2 ^ (w - 1) ∧ b.toNat = 2 ^ w - 1 then 2 ^ (w - 1)
      else wrap w ((valueOf w sg a.toNat).tdiv (valueOf w sg b.toNat)) := by
  by_cases hzero : b = 0
  · simp [Alu.div, hzero]
  have hb : b.toNat ≠ 0 := fun h => hzero (BitVec.eq_of_toNat_eq h)
  rw [if_neg hb, Alu.div, if_neg hzero, wrap_eq_toNat_ofInt]
  cases sg with
  | false => simp only [Bool.false_eq_true, if_false, false_and, valueOf, ← udiv_eq_ofInt_tdiv]
  | true =>
    simp only [if_true, true_and, valueOf, signedOf_toNat, ← sdiv_eq_ofInt_tdiv]
    split
    case isTrue hover => exact toNat_intMin_sdiv_allOnes hw hover.1 hover.2
    case isFalse => rfl

/-! ### Operands as patterns (R58, R105, R106) -/

theorem toNat_lo (x : W64) : (Bits.lo x).toNat = x.toNat % 2 ^ 32 := by simp [Bits.lo]

theorem toNat_zext64 (x : W32) : (Bits.zext64 x).toNat = x.toNat := by
  simp only [Bits.zext64, BitVec.truncate_eq_setWidth, BitVec.toNat_setWidth]
  omega

/-- What `getInt` reads is the pattern that `intArg` names. -/
theorem toNat_getInt (ty : IType) (o : Opds) (s : State) (x : Opd) (l : Nat) :
    (getInt ty o s.grp x l).toNat = intArg ty o s x l := by
  cases ty <;> simp [getInt, intArg, IType.wide, toNat_zext64]

/-- The accounting of an issue changes no operand. -/
theorem intArg_account (i : Instr) (ty : IType) (o : Opds) (s : State) (x : Opd) (l : Nat) :
    intArg ty o (Issue.account i s) x l = intArg ty o s x l := by
  cases x <;> simp [intArg, get32, get64, Group.rv2]

/-- An operation on two operands works on their patterns at the type's width. -/
theorem toNat_at2 (ty : IType) (f : Op2) (a b : W64) :
    (at2 ty f a b).toNat = (f ty.bits ty.signed (BitVec.ofNat _ a.toNat) (BitVec.ofNat _ b.toNat)).toNat := by
  cases ty <;> simp [at2, IType.wide, IType.bits, Bits.lo, toNat_zext64]

/-- An operand fits the type's width. -/
theorem intArg_lt (ty : IType) (o : Opds) (s : State) (x : Opd) (l : Nat) : intArg ty o s x l < 2 ^ ty.bits := by
  cases ty <;> exact BitVec.isLt _

theorem bits_pos (ty : IType) : 0 < ty.bits := by cases ty <;> decide

/-! ### A result in its destination (R104 to R107) -/

/-- A 32-bit result in a k register: extended by the type's signedness; a 64-bit one whole. -/
theorem extended_eq_of_pattern (ty : IType) (x : W64) :
    (if ty.wide then x else if ty.signed then Bits.sext64 (Bits.lo x) else Bits.zext64 (Bits.lo x))
      = if ty.signed && !ty.wide then BitVec.ofInt 64 (signedOf 32 (x.toNat % 2 ^ ty.bits))
        else BitVec.ofNat 64 (x.toNat % 2 ^ ty.bits) := by
  cases ty with
  | s32 => exact congrArg (BitVec.ofInt 64) (by rw [← signedOf_toNat, toNat_lo]; rfl)
  | n32 => exact BitVec.eq_of_toNat_eq (by simp [IType.wide, IType.signed, IType.bits, toNat_zext64, toNat_lo]; omega)
  | s64 | n64 => simp [IType.wide, IType.bits, Nat.mod_eq_of_lt x.isLt]

/-- A written result stands in its destination, for the lanes and the reference lane of `s`. -/
theorem fills_write {ty : IType} {o : Opds} {s a : State} {val : Nat → Nat} {f : Group → Nat → W64}
    (hexec : a.exec o.guard = s.exec o.guard) (href : a.refLane = s.refLane) (hd : o.d.cls = 1 ∨ o.d.cls = 2)
    (hval : ∀ l, (f a.grp l).toNat % 2 ^ ty.bits = val l) : Fills ty o s (write a o (putInt ty o.d) f) val := by
  cases h : o.d with
  | v n =>
    simp only [Fills, h]
    rintro l ⟨hl, hrun⟩
    rw [write_lanes _ _ (by simp [h, Opd.cls]), hexec, ← hval l]
    cases hw : ty.wide with
    | true =>
      have hput : putInt ty (.v n) = fun i x g => g.wv2 n.toNat i x := by funext; simp [putInt, hw]
      simp [hput, lanesTo_rv2 _ _ _ _ _ hl, hrun, IType.bits, hw, Nat.mod_eq_of_lt (BitVec.isLt _)]
    | false =>
      have hput : putInt ty (.v n) = fun i x g => g.wv n.toNat i (Bits.lo x) := by funext; simp [putInt, hw]
      simp [hput, lanesTo_rv _ _ _ _ _ _ _ hl, hrun, IType.bits, hw, toNat_lo]
  | k n =>
    simp only [Fills, h]
    rw [write_k _ _ (by simp [h, Opd.cls]), putInt, Group.rk_wk, href, extended_eq_of_pattern, hval]
    by_cases hn : n = 0#6
    · simp [hn]
    · have hpos : n.toNat ≠ 0 := fun e => hn (BitVec.eq_of_toNat_eq e)
      simp [hn, hpos]
  | _ => simp [h, Opd.cls] at hd

/-- Filling is a matter of the v and k registers alone. -/
theorem fills_congr {ty : IType} {o : Opds} {s t u : State} {val : Nat → Nat} (hv : u.grp.v = t.grp.v) (hk : u.grp.k = t.grp.k)
    (h : Fills ty o s t val) : Fills ty o s u val := by
  have hrv : u.grp.rv = t.grp.rv := funext₂ (Group.rv_congr hv)
  have hrk : u.grp.rk = t.grp.rk := funext (Group.rk_congr hk)
  have hrv2 : u.grp.rv2 = t.grp.rv2 := funext₂ fun n l => by simp [Group.rv2, hrv]
  unfold Fills at *
  rwa [hrv, hrk, hrv2]

/-- A result of an integer type leaves the quads where they stand. -/
theorem quads_write (s : State) (ty : IType) (o : Opds) (f : Group → Nat → W64) :
    (write s o (putInt ty o.d) f).grp.quads = s.grp.quads := by
  by_cases hk : o.d.cls = 2
  · rw [write_k _ _ hk, onlyVK_putInt ty o.d 0 (f s.grp s.refLane) s.grp]
  · rw [write_lanes _ _ hk, onlyVK_lanesTo (s.exec o.guard) ty o.d (f s.grp) s.grp]

/-! ### The issue of an instruction that fills a register -/

theorem precheck_of_ready {i : Instr} {s : State} (h : Ready i s) : Issue.precheck i s = none := by
  simp [Issue.precheck, h.legal, h.mode, h.allocated, h.correct]

/-- A finished issue moves the quads of the fragment to the next PC. -/
theorem advances_conclude_done {s t : State} (hcur : t.cur = s.cur) (hquads : t.grp.quads = s.grp.quads) :
    Advances s (Issue.conclude s (.done t)) := by
  intro q
  have hquad : t.grp.quad q = s.grp.quad q := by simp [Group.quad, hquads]
  rw [Issue.conclude_done_grp hcur, Group.quad_advance, Group.fragQuads_congr hquads, hquad]

/-- The rule of an instruction whose body writes one result of an integer type. -/
theorem does_write {i : Instr} {ty : IType} {o : Opds} {s : State} {val : Nat → Nat} {f : Group → Nat → W64}
    (hr : Ready i s) (hd : o.d.cls = 1 ∨ o.d.cls = 2)
    (hi : exec i s = issue i s fun a => .done (write a o (putInt ty o.d) f))
    (hval : ∀ l, (f (Issue.account i s).grp l).toNat % 2 ^ ty.bits = val l) :
    Does i s fun t => Fills ty o s t val := by
  have hquads : (Issue.account i s).grp.quads = s.grp.quads := by
    rw [Issue.account_grp]; exact (Issue.account_booked i s).quads
  have hcur : (write (Issue.account i s) o (putInt ty o.d) f).cur = s.cur := by simp
  refine ⟨_, ⟨hi.trans (issue_ready hr.on (precheck_of_ready hr) _), rfl⟩,
    advances_conclude_done hcur ((quads_write _ ty o f).trans hquads), ?_⟩
  refine fills_congr ?_ ?_ (fills_write (by simp) (by simp) hd hval)
  all_goals rw [Issue.conclude_done_grp hcur, Group.advance_only]

/-- The rule of an instruction of two integer operands, its value being that of `f` on their patterns. -/
theorem does_int2 {i : Instr} {ty : IType} {o : Opds} {s : State} (f : Op2) (hr : Ready i s) (hd : o.d.cls = 1 ∨ o.d.cls = 2)
    (hi : exec i s = issue i s (int2 ty f o)) :
    Does i s fun t => Fills ty o s t fun l =>
      (f ty.bits ty.signed (BitVec.ofNat _ (intArg ty o s o.a l)) (BitVec.ofNat _ (intArg ty o s o.b l))).toNat := by
  refine does_write hr hd hi fun l => ?_
  rw [toNat_at2, toNat_getInt, toNat_getInt, intArg_account, intArg_account, Nat.mod_eq_of_lt (BitVec.isLt _)]

/-- A legal instruction's field D has a class of its table (R57, R103). -/
theorem destination_mem_of_legal {i : Instr} {g : Forms.Sig} {o : Opds} (hsig : Forms.sig i = some g) (hopds : Forms.opds i = some o)
    (h : i.wellFormed = true) : o.d.cls ∈ g.d := by
  simp only [Instr.wellFormed, Instr.classesOk, hsig, hopds, Bool.and_eq_true, List.contains_iff_mem] at h
  obtain ⟨⟨⟨⟨⟨⟨hd, -⟩, -⟩, -⟩, -⟩, -⟩, -⟩ := h
  exact hd

/-- Settles O4: IDIV issues as an instruction of two integer operands, and `toNat_div` gives its quotient (R110). -/
theorem divisionQuotient : Obligations.DivisionQuotient := by
  unfold Obligations.DivisionQuotient
  intro ty o s a b w hr
  have hpattern (x : Opd) (l : Nat) : (BitVec.ofNat ty.bits (intArg ty o s x l)).toNat = intArg ty o s x l := by
    rw [BitVec.toNat_ofNat, Nat.mod_eq_of_lt (intArg_lt ty o s x l)]
  have hd : o.d.cls = 1 ∨ o.d.cls = 2 := by simpa [Forms.t2] using destination_mem_of_legal rfl rfl hr.legal
  have h := does_int2 Alu.div hr hd rfl
  simpa only [toNat_div (bits_pos ty), hpattern] using h

end Sys2Proof.IntegerResults

/-! Taking a trap and returning from one (R334, R354 to R356, R362): what an issue that only counts leaves alone, what the end
of a fragment's lanes changes, and the trap registers after a trap and after TRET. -/

namespace Sys2Proof.TrapResults

open Sys2Proof Sys2Proof.Machine Sys2Proof.Claims Sys2Proof.IntegerResults

/-! ### An instruction whose only effect is its issue (R306) -/

/-- No register stands in quads, fragment records, operations or the last issue. -/
theorem sameGroup_of_books {g h : Group}
    (e : h = { g with quads := h.quads, frags := h.frags, ops := h.ops, lastIssue := h.lastIssue, lastFrag := h.lastFrag }) :
    SameGroup g h := by
  rw [e]
  exact { v := fun _ _ => rfl, k := fun _ => rfl, p := fun _ => rfl, m := fun _ _ => rfl, t := fun _ => rfl, j := fun _ => rfl,
          mcr := rfl, hcur := rfl, cause := rfl, tpc := rfl, tval := rfl, hmode := rfl, hmask := rfl, uhmiss := rfl, horizon := rfl }

theorem sameMemory_of_teams {s t : State} (hmem : t.mem = s.mem) (hloc : ∀ w, (t.teamAt w).lmem = (s.teamAt w).lmem) :
    SameMemory s t :=
  ⟨fun p => by rw [hmem], fun team off => by rw [State.locByte, State.locByte, hloc]⟩

theorem grp_of_booked {s t : State} (h : Booked s.cur.grp s t) :
    t.grp = { s.grp with frags := t.grp.frags, ops := t.grp.ops, lastIssue := t.grp.lastIssue, lastFrag := t.grp.lastFrag } := by
  rw [State.grp, h.cur]
  exact h.grp

/-- An instruction whose body does nothing issues, and no register and no byte of memory changes. -/
theorem does_nothing {i : Instr} {s : State} {body : State → Res} (hr : Ready i s) (hi : exec i s = issue i s body)
    (hb : body (Issue.account i s) = .done (Issue.account i s)) :
    Does i s fun t => SameRegisters s t ∧ SameMemory s t := by
  have hexec := issue_ready hr.on (precheck_of_ready hr) body
  rw [hb, ← hi] at hexec
  have hbook := Issue.account_booked i s
  generalize Issue.account i s = b at hexec hbook
  have hgrp : (Issue.conclude s (.done b)).grp = b.grp.advance s.cur.frag (Line.next s.cur.pc) :=
    Issue.conclude_done_grp hbook.cur
  refine ⟨Issue.conclude s (.done b), ⟨hexec, rfl⟩, ?_, ⟨?_, fun w hw => ?_, hbook.gtime⟩,
    sameMemory_of_teams hbook.mem fun w => ?_⟩
  · exact advances_conclude_done hbook.cur (by rw [grp_of_booked hbook])
  · exact sameGroup_of_books (by rw [hgrp, Group.advance_only, grp_of_booked hbook])
  · rw [← hbook.others w hw]
    exact State.grpAt_setGrpAt_other b _ (by rw [hbook.cur]; exact hw.symm)
  · rw [← show (b.teamAt w).lmem = (s.teamAt w).lmem by rw [hbook.team w]]
    rfl

/-! ### Ending a fragment's lanes (R288, R319, R356) -/

/-- `h` is `g` but for the join registers, quads, fragment records and handler lanes: all that the end of lanes changes. -/
def LanesOnly (g h : Group) : Prop :=
  h = { g with j := h.j, quads := h.quads, frags := h.frags, hmode := h.hmode, hmask := h.hmask, bad := h.bad, exited := h.exited }

namespace LanesOnly

theorem refl (g : Group) : LanesOnly g g := rfl

theorem trans {a b c : Group} (h : LanesOnly a b) (k : LanesOnly b c) : LanesOnly a c := by
  unfold LanesOnly at *
  rw [k, h]

/-- A fold whose every step changes only that. -/
theorem foldl {α : Type} {f : Group → α → Group} {a g : Group} {l : List α} (hf : ∀ g x, LanesOnly g (f g x))
    (h : LanesOnly a g) : LanesOnly a (l.foldl f g) :=
  h.trans (Operands.foldl_inv LanesOnly refl (fun _ _ _ => trans) f hf l g)

theorem setQuad (g : Group) (q : Nat) (x : Quad) : LanesOnly g (g.setQuad q x) := rfl
theorem setFrag (g : Group) (f : Nat) (x : FragRec) : LanesOnly g (g.setFrag f x) := rfl
theorem wj (g : Group) (n : Nat) (x : JReg) : LanesOnly g (g.wj n x) := rfl
theorem bad {a g : Group} (h : LanesOnly a g) (x : List (Nat × Nat)) : LanesOnly a { g with bad := x } := h.trans rfl
theorem exited {a g : Group} (h : LanesOnly a g) (x : Bool) : LanesOnly a { g with exited := x } := h.trans rfl

theorem takeEntry (g : Group) (n q : Nat) (e : JEntry) : LanesOnly g (g.takeEntry n q e) := (wj _ _ _).trans (setQuad _ _ _)

theorem regroup (g : Group) (qs : List Nat) (f : Nat) : LanesOnly g (g.regroup qs f) := by
  unfold Group.regroup
  exact foldl (fun g q => setQuad g q _) (refl g)

theorem freeParked (g : Group) (n : Nat) : LanesOnly g (g.freeParked n) := by
  unfold Group.freeParked
  exact foldl (fun g _ => (foldl (fun g q => setQuad g q _) (refl g)).trans (setFrag _ _ _)) (refl g)

theorem release (g : Group) (n : Nat) : LanesOnly g (g.release n) := (freeParked g n).trans (wj _ _ _)

theorem dropHandler (g : Group) (x : Mask) : LanesOnly g (g.dropHandler x) := by
  unfold Group.dropHandler
  dsimp only
  split <;> rfl

theorem unparkBar (g : Group) (b : Nat) : LanesOnly g (g.unparkBar b) := by
  unfold Group.unparkBar
  refine foldl (fun g q => ?_) (refl g)
  dsimp only
  split
  · exact setQuad g q _
  · exact refl g

theorem advance (g : Group) (f : Nat) (pc : W64) : LanesOnly g (g.advance f pc) := by
  rw [Group.advance_only]
  rfl

theorem setFrag_advance (g : Group) (f : Nat) (pc : W64) (x : FragRec) : LanesOnly g ((g.advance f pc).setFrag f x) :=
  (advance g f pc).trans (setFrag _ f x)

theorem exitLanes (g : Group) (f : Nat) (x : Mask) (pc : W64) : LanesOnly g (g.exitLanes f x pc) := by
  unfold Group.exitLanes
  -- from the last update to the first: fragments released, deferred entries resumed, quads ended and moved, join registers
  refine exited (trans (foldl (fun g n => ?released) (foldl (fun g q => ?resumed) (foldl (fun g q => setQuad g q _)
    (foldl (fun g q => setQuad g q _) (bad (foldl (fun g n => wj g n _) (refl g)) _))))) (dropHandler _ _)) _
  case released =>
    split
    · exact release g n
    · exact refl g
  case resumed =>
    split
    · exact (takeEntry _ _ _ _).trans ((regroup _ _ _).trans (setFrag _ _ _))
    · exact refl g

variable {g h : Group}

theorem cause (e : LanesOnly g h) : h.cause = g.cause := by unfold LanesOnly at e; rw [e]
theorem tpc (e : LanesOnly g h) : h.tpc = g.tpc := by unfold LanesOnly at e; rw [e]
theorem tval (e : LanesOnly g h) : h.tval = g.tval := by unfold LanesOnly at e; rw [e]

end LanesOnly

/-- `t` is `s` but for what the end of lanes may change: of every group as above, barriers of teams and launches, and what an
L1 holds after an acquire. -/
structure Ended (s t : State) : Prop where
  state : t = { s with groups := t.groups, teams := t.teams, launches := t.launches, cores := t.cores }
  groups : ∀ w, LanesOnly (s.grpAt w) (t.grpAt w)

namespace Ended

theorem refl (s : State) : Ended s s := ⟨rfl, fun _ => rfl⟩

theorem trans {a b c : State} (h : Ended a b) (k : Ended b c) : Ended a c :=
  ⟨by rw [k.state, h.state], fun w => (h.groups w).trans (k.groups w)⟩

theorem foldl {α : Type} {f : State → α → State} {r s : State} {l : List α} (hf : ∀ s x, Ended s (f s x)) (h : Ended r s) :
    Ended r (l.foldl f s) :=
  h.trans (Operands.foldl_inv Ended refl (fun _ _ _ => trans) f hf l s)

theorem modGrp {f : Group → Group} (hf : ∀ g, LanesOnly g (f g)) (s : State) (u : Nat) : Ended s (s.modGrp u f) := by
  refine ⟨?_, fun w => ?_⟩
  · unfold State.modGrp
    split <;> rfl
  · rw [State.grpAt_modGrp]
    split
    · exact hf _
    · rfl

theorem setBarrierAt (s : State) (u b : Nat) (x : Barrier) : Ended s (s.setBarrierAt u b x) := by
  unfold State.setBarrierAt
  dsimp only
  split
  · exact ⟨rfl, fun _ => rfl⟩
  · split <;> exact ⟨rfl, fun _ => rfl⟩

theorem discardL1 (s : State) (core : Nat) : Ended s (s.discardL1 core) := ⟨rfl, fun _ => rfl⟩

theorem completeBarrier (s : State) (u b : Nat) : Ended s (s.completeBarrier u b) := by
  have freed {r : State} (ps : List (Nat × Group)) (h : Ended s r) :
      Ended s (ps.foldl (fun s e => s.modGrp e.1 fun g => g.unparkBar b) r) :=
    foldl (fun s e => modGrp (fun g => LanesOnly.unparkBar g b) s e.1) h
  unfold State.completeBarrier
  dsimp only
  split
  · split
    · exact freed _ (setBarrierAt s u b _)
    · exact foldl (fun s e => discardL1 s _) (freed _ (setBarrierAt s u b _))
  · exact refl s

theorem judgeBarriers (s : State) (u : Nat) : Ended s (s.judgeBarriers u) := by
  unfold State.judgeBarriers
  exact foldl (fun s b => completeBarrier s u b) (refl s)

theorem setGrp {s : State} {g : Group} (h : LanesOnly s.grp g) : Ended s (s.setGrp g) := by
  refine ⟨rfl, fun w => ?_⟩
  by_cases e : s.cur.grp = w
  · subst e
    rw [State.setGrp, State.grpAt_setGrpAt_same]
    exact h
  · rw [State.setGrp, State.grpAt_setGrpAt_other s g e]
    exact LanesOnly.refl _

theorem endLanes (s : State) (x : Mask) (pc : W64) : Ended s (s.endLanes x pc) := by
  have h : Ended s (s.setGrp (s.grp.exitLanes s.cur.frag x pc)) := setGrp (LanesOnly.exitLanes _ _ _ _)
  unfold State.endLanes
  dsimp only
  split
  · exact h.trans (judgeBarriers _ _)
  · exact h

theorem cur {s t : State} (h : Ended s t) : t.cur = s.cur := by rw [h.state]

end Ended

/-! ### Taking a trap (R334, R354 to R356) -/

/-- The end of the fragment's lanes and the event about it. -/
theorem postEvent_endLanes (s : State) (x : Mask) (pc : W64) (ctx : Nat) (e : Event) :
    let t := (s.endLanes x pc).postEvent ctx e
    t.cur = s.cur ∧ LanesOnly s.grp t.grp := by
  have hend := Ended.endLanes s x pc
  have hpost := State.posted_postEvent (s.endLanes x pc) ctx e
  have hcur := hpost.cur.trans hend.cur
  refine ⟨hcur, ?_⟩
  have hgrp : ((s.endLanes x pc).postEvent ctx e).grp = (s.endLanes x pc).grpAt s.cur.grp := by
    rw [State.grp, State.grpAt, hcur, hpost.groups, State.grpAt]
  rw [hgrp]
  exact hend.groups s.cur.grp

theorem grp_setGrp_status (s : State) (g : Group) (st : IssueSt) :
    ({ s.setGrp g with cur := { s.cur with status := st } } : State).grp = g := State.grp_setGrp s g

/-- Without a handler the trap's values are saved and the fragment's lanes end, with an event of kind 1 (R354). -/
theorem takeTrap_eq_of_no_handler {s : State} (cause tval : Nat) (pc : W64) (m : s.grp.hmode = false) (h : s.trapvec s.ctx = 0#64) :
    s.takeTrap cause tval pc =
      ((({ s with cur := { s.cur with status := .trapped } } : State).setGrp
        { s.grp with cause := BitVec.ofNat 32 cause, tpc := pc, tval := BitVec.ofNat 64 tval }).endLanes s.active pc).postEvent s.ctx
        { kind := 1, cause := cause, team := s.team.id, value := tval, pc := pc.toNat } := by
  unfold State.takeTrap
  have e : ({ s with cur := { s.cur with status := .trapped } } : State).trapvec s.ctx = s.trapvec s.ctx := rfl
  simp [State.mustWait, m, e, h]

/-- A trap of a lane of HMASK sets CAUSE to 0x46, and the fragment's lanes end, with an event of kind 2 (R356). -/
theorem takeTrap_eq_of_double {s : State} (cause tval : Nat) (pc : W64) (m : s.grp.hmode = true)
    (h : s.active &&& s.grp.hmask ≠ 0#32) :
    s.takeTrap cause tval pc =
      ((({ s with cur := { s.cur with status := .trapped } } : State).setGrp { s.grp with cause := 0x46#32 }).endLanes
        s.active pc).postEvent s.ctx { kind := 2, cause := cause, team := s.team.id, value := tval, pc := pc.toNat } := by
  simp [State.takeTrap, State.mustWait, m, h]

/-- Outside handler mode CAUSE, TPC and TVAL hold the trap's values, whether or not the context has a handler (R354). -/
theorem takeTrap_saves {s : State} (cause tval : Nat) (pc : W64) (m : s.grp.hmode = false) :
    let t := s.takeTrap cause tval pc
    t.grp.cause = BitVec.ofNat 32 cause ∧ t.grp.tpc = pc ∧ t.grp.tval = BitVec.ofNat 64 tval := by
  dsimp only
  by_cases hvec : s.trapvec s.ctx = 0#64
  case pos =>
    rw [takeTrap_eq_of_no_handler cause tval pc m hvec]
    obtain ⟨-, hgrp⟩ := postEvent_endLanes _ s.active pc s.ctx _
    rw [State.grp_setGrp] at hgrp
    exact ⟨hgrp.cause, hgrp.tpc, hgrp.tval⟩
  case neg =>
    rw [State.takeTrap_enters cause tval pc m hvec, grp_setGrp_status]
    exact ⟨(LanesOnly.setFrag_advance _ _ _ _).cause, (LanesOnly.setFrag_advance _ _ _ _).tpc,
      (LanesOnly.setFrag_advance _ _ _ _).tval⟩

/-- In a double fault TPC and TVAL keep their values (R356). -/
theorem takeTrap_double {s : State} (cause tval : Nat) (pc : W64) (m : s.grp.hmode = true) (h : s.active &&& s.grp.hmask ≠ 0#32) :
    let t := s.takeTrap cause tval pc
    t.cur.status = .trapped ∧ t.grp.cause = 0x46#32 ∧ t.grp.tpc = s.grp.tpc ∧ t.grp.tval = s.grp.tval := by
  dsimp only
  rw [takeTrap_eq_of_double cause tval pc m h]
  obtain ⟨hcur, hgrp⟩ := postEvent_endLanes _ s.active pc s.ctx _
  rw [State.grp_setGrp] at hgrp
  exact ⟨by rw [hcur]; rfl, hgrp.cause, hgrp.tpc, hgrp.tval⟩

/-- A trap that waits for handler mode to end changes no register and no byte of memory (R355). -/
theorem takeTrap_held {s : State} (cause tval : Nat) (pc : W64) (m : s.grp.hmode = true) (h : s.active &&& s.grp.hmask = 0#32) :
    let t := s.takeTrap cause tval pc
    t.cur.status = .held ∧ SameRegisters s t ∧ SameMemory s t := by
  dsimp only
  rw [State.takeTrap_waits cause tval pc m h]
  refine ⟨rfl, ⟨?_, fun u hu => State.grpAt_setGrpAt_other s _ hu.symm, rfl⟩, sameMemory_of_teams rfl fun _ => rfl⟩
  rw [grp_setGrp_status]
  exact sameGroup_of_books rfl

/-! ### The trap of an instruction that issues (R334, R355) -/

/-- The issue count touches no trap register and no quad. -/
theorem tally_grp (n : Nat) (s : State) :
    (Issue.tally n s).grp = { s.grp with
      frags := (Issue.tally n s).grp.frags, ops := (Issue.tally n s).grp.ops
      lastIssue := (Issue.tally n s).grp.lastIssue, lastFrag := (Issue.tally n s).grp.lastFrag } :=
  grp_of_booked (Booked.tally n s)

@[simp] theorem tally_cause (n : Nat) (s : State) : (Issue.tally n s).grp.cause = s.grp.cause := by rw [tally_grp]
@[simp] theorem tally_tpc (n : Nat) (s : State) : (Issue.tally n s).grp.tpc = s.grp.tpc := by rw [tally_grp]
@[simp] theorem tally_tval (n : Nat) (s : State) : (Issue.tally n s).grp.tval = s.grp.tval := by rw [tally_grp]
@[simp] theorem tally_hmode (n : Nat) (s : State) : (Issue.tally n s).grp.hmode = s.grp.hmode := by rw [tally_grp]
@[simp] theorem tally_hmask (n : Nat) (s : State) : (Issue.tally n s).grp.hmask = s.grp.hmask := by rw [tally_grp]
@[simp] theorem tally_quads (n : Nat) (s : State) : (Issue.tally n s).grp.quads = s.grp.quads := by rw [tally_grp]

@[simp] theorem tally_active (n : Nat) (s : State) : (Issue.tally n s).active = s.active := by
  simp [State.active, Group.active, Group.fragQuads, Group.quad]

theorem tally_checkedFetch (n : Nat) (s : State) :
    ((Issue.tally n s).grp.frag s.cur.frag).checkedFetch = (s.grp.frag s.cur.frag).checkedFetch := by
  simp [Issue.tally, Group.frag, Group.setFrag]

theorem trap_saves {s : State} (c v : Nat) (pc : W64) (m : s.grp.hmode = false) :
    let t := Issue.trap s c v pc
    t.grp.cause = BitVec.ofNat 32 c ∧ t.grp.tpc = pc ∧ t.grp.tval = BitVec.ofNat 64 v := by
  dsimp only
  rw [Issue.trap_issues (by simp [State.mustWait, m])]
  exact takeTrap_saves c v pc (by simpa using m)

theorem trap_double {s : State} (c v : Nat) (pc : W64) (m : s.grp.hmode = true) (h : s.active &&& s.grp.hmask ≠ 0#32) :
    let t := Issue.trap s c v pc
    t.cur.status = .trapped ∧ t.grp.cause = 0x46#32 ∧ t.grp.tpc = s.grp.tpc ∧ t.grp.tval = s.grp.tval := by
  dsimp only
  rw [Issue.trap_issues (by simp [State.mustWait, h]), ← tally_tpc 1 s, ← tally_tval 1 s]
  exact takeTrap_double c v pc (by simpa using m) (by simpa using h)

theorem trap_held {s : State} (c v : Nat) (pc : W64) (m : s.grp.hmode = true) (h : s.active &&& s.grp.hmask = 0#32) :
    let t := Issue.trap s c v pc
    t.cur.status = .held ∧ SameRegisters s t ∧ SameMemory s t := by
  dsimp only
  rw [Issue.trap_waits (by simp [State.mustWait, m, h])]
  exact takeTrap_held c v pc m h

theorem exec_trap_eq (o : Opds) (s : State) :
    exec (.trap o) s = issue (.trap o) s fun b =>
      if b.exec o.guard == 0#32 then .done b
      else .trapAt (Line.next b.cur.pc) (0xE0 + Forms.code o.a) (b.exec o.guard).toNat := rfl

/-- With a lane of exec_mask it traps, TPC being the next PC (R334). -/
theorem exec_trap {o : Opds} {s : State} (hr : Ready (.trap o) s) (hx : s.exec o.guard ≠ 0#32) :
    exec (.trap o) s = .next (Issue.trap s (0xE0 + Forms.code o.a) (s.exec o.guard).toNat (Line.next s.cur.pc)) := by
  rw [exec_trap_eq, issue_ready hr.on (precheck_of_ready hr)]
  simp [hx, Issue.conclude]

/-- Without one it acts as NOP (R334). -/
theorem does_trap_nothing {o : Opds} {s : State} (hr : Ready (.trap o) s) (hx : s.exec o.guard = 0#32) :
    Does (.trap o) s fun t => SameRegisters s t ∧ SameMemory s t :=
  does_nothing hr (exec_trap_eq o s) (by simp [hx])

/-! ### The lanes that leave handler mode (R355) -/

theorem get?_map_values {α : Type} (m : SMap α) (f : α → α) (i : Nat) :
    SMap.get? (m.map fun e => (e.1, f e.2)) i = (SMap.get? m i).map f := by
  induction m with
  | nil => rfl
  | cons e r ih =>
    simp only [List.map_cons, SMap.get?]
    split
    · rfl
    · exact ih

theorem dropHandler_quad (g : Group) (x : Mask) (q : Nat) : (g.dropHandler x).quad q = g.quad q := by
  unfold Group.dropHandler
  dsimp only
  split <;> rfl

theorem dropHandler_hmask (g : Group) (x : Mask) : (g.dropHandler x).hmask = g.hmask &&& ~~~x := by
  unfold Group.dropHandler
  dsimp only
  split
  case isTrue h =>
    obtain ⟨-, hempty⟩ : g.hmode = true ∧ g.hmask &&& ~~~x = 0#32 := by simpa using h
    exact hempty.symm
  case isFalse => rfl

/-- Handler mode lasts while HMASK holds a lane. -/
theorem dropHandler_hmode (g : Group) (x : Mask) : (g.dropHandler x).hmode = (g.hmode && g.hmask &&& ~~~x != 0#32) := by
  unfold Group.dropHandler
  dsimp only
  cases hm : g.hmode <;> by_cases hempty : g.hmask &&& ~~~x = 0#32 <;> simp [hempty]

theorem dropHandler_checkedFetch (g : Group) (x : Mask) (f : Nat) :
    ((g.dropHandler x).frag f).checkedFetch = (g.frag f).checkedFetch := by
  unfold Group.dropHandler
  dsimp only
  split
  case isTrue =>
    rw [Group.frag, Group.frag, SMap.get, SMap.get, get?_map_values g.frags fun r => { r with trapWaits := false }]
    cases SMap.get? g.frags f <;> rfl
  case isFalse => rfl

/-! ### Returning from a trap (R362) -/

theorem exec_tret_eq (o : Opds) (s : State) : exec (.tret o) s = issue (.tret o) s fun b => .moved b.returnTrap := rfl

/-- Outside the system kernel and handler mode TRET is barred (R69). -/
theorem traps_tret {o : Opds} {s : State} (on : s.cur.on = true) (legal : (Instr.tret o).wellFormed = true) (hctx : s.ctx ≠ 0)
    (hout : ¬ (s.grp.hmode = true ∧ s.active &&& s.grp.hmask ≠ 0#32)) : Traps (.tret o) s 0xC0 0 := by
  have hbar : Issue.privOk (.tret o) s = false := by
    simpa [Issue.privOk, State.isKernel, State.inHandler, hctx] using hout
  have hcheck : Issue.precheck (.tret o) s = some (0xC0, 0) := by simp [Issue.precheck, legal, hbar]
  exact (exec_tret_eq o s).trans (issue_trap on hcheck _)

/-- TRET writes no register, so that its issue only counts. -/
theorem account_tret {o : Opds} {s : State} (legal : (Instr.tret o).wellFormed = true) :
    Issue.account (.tret o) s = Issue.tally 1 s := by
  have hd : o.d.cls = 0 := by simpa [Forms.nil] using destination_mem_of_legal rfl rfl legal
  have hw : Forms.writes (.tret o) = [] := by simp [Forms.writes, Forms.opds, Forms.regs, hd]
  simp [Issue.account, Issue.relive, Issue.counts, hw]

/-- The state that TRET leaves. -/
def returned (s : State) : State := { (Issue.tally 1 s).returnTrap with cur := { s.cur with status := .issued } }

theorem exec_tret {o : Opds} {s : State} (hr : Ready (.tret o) s) : exec (.tret o) s = .next (returned s) := by
  rw [exec_tret_eq, issue_ready hr.on (precheck_of_ready hr), account_tret hr.legal]
  rfl

theorem returned_grp (s : State) :
    (returned s).grp = ((Issue.tally 1 s).grp.advance s.cur.frag s.grp.tpc).dropHandler s.active := by
  rw [← tally_active 1 s, ← tally_tpc 1 s]
  exact State.grp_setGrp (Issue.tally 1 s) _

/-- The active lanes go to TPC as one fragment. -/
theorem allAt_returned (s : State) : AllAt s (returned s) s.grp.tpc := by
  intro q
  rw [returned_grp, dropHandler_quad, Group.quad_advance, Group.fragQuads_congr (tally_quads 1 s), Group.quad, Group.quad,
    tally_quads]

theorem quad_of_allAt {s t : State} {pc : W64} {q : Nat} (h : AllAt s t pc) (hq : q ∈ s.grp.fragQuads s.cur.frag) :
    (t.grp.quad q).frag = s.cur.frag ∧ (t.grp.quad q).lanes = (s.grp.quad q).lanes := by
  have hfrag : (s.grp.quad q).frag = s.cur.frag := by
    simp only [Group.fragQuads, List.mem_filter, Bool.and_eq_true, beq_iff_eq] at hq
    obtain ⟨-, ⟨hfrag, -⟩, -⟩ := hq
    exact hfrag
  rw [h q, if_pos hq]
  exact ⟨hfrag, rfl⟩

theorem sameMemory_returned (s : State) : SameMemory s (returned s) := sameMemory_of_teams rfl fun _ => rfl

theorem returned_saved (s : State) :
    (returned s).grp.cause = s.grp.cause ∧ (returned s).grp.tpc = s.grp.tpc ∧ (returned s).grp.tval = s.grp.tval := by
  have hgrp : LanesOnly (Issue.tally 1 s).grp (returned s).grp := by
    rw [returned_grp]
    exact (LanesOnly.advance _ _ _).trans (LanesOnly.dropHandler _ _)
  exact ⟨hgrp.cause.trans (tally_cause 1 s), hgrp.tpc.trans (tally_tpc 1 s), hgrp.tval.trans (tally_tval 1 s)⟩

/-- The first fetch at TPC is an unchecked transfer's (R54). -/
theorem returned_checkedFetch (s : State) :
    ((returned s).grp.frag s.cur.frag).checkedFetch = (s.grp.frag s.cur.frag).checkedFetch := by
  rw [returned_grp, dropHandler_checkedFetch, Group.advance_only]
  exact tally_checkedFetch 1 s

theorem returned_hmask (s : State) : (returned s).grp.hmask = s.grp.hmask &&& ~~~s.active := by
  rw [returned_grp, dropHandler_hmask, Group.advance_only, tally_hmask]

theorem returned_hmode (s : State) : (returned s).grp.hmode = (s.grp.hmode && s.grp.hmask &&& ~~~s.active != 0#32) := by
  rw [returned_grp, dropHandler_hmode, Group.advance_only, tally_hmode, tally_hmask]

/-! ### The statement -/

/-- The word that R334 prints. -/
theorem decode_trap_five : decode (0x00000000#32 ++ 0x00800000#32 ++ 0x050000C2#32) = some (.trap
    { guard := { neg := false, pred := 0#3 }, d := .none, a := .i8 5#8, b := .none, c := .none, imm := 0#32 }) := by decide

/-- Settles O46: TRAP takes its trap or waits as the mode of its lanes says, and TRET returns or is barred. -/
theorem trapInstructions : Obligations.TrapInstructions := by
  unfold Obligations.TrapInstructions
  intro o s
  dsimp only
  refine ⟨⟨decode_trap_five, fun hr => ⟨does_trap_nothing hr, fun hx =>
      ⟨exec_trap hr hx, fun m => ?saves, ?double, fun m hout => ?held⟩⟩⟩,
    fun on legal hctx hout => traps_tret on legal hctx hout, fun hr => ⟨returned s, ⟨exec_tret hr, rfl⟩, allAt_returned s,
      sameMemory_returned s, ?returns⟩⟩
  case saves =>
    obtain ⟨hcause, htpc, htval⟩ := trap_saves (0xE0 + Forms.code o.a) (s.exec o.guard).toNat (Line.next s.cur.pc) m
    exact ⟨hcause, htpc, htval.trans (by simp [Bits.zext64])⟩
  case double =>
    rintro ⟨m, hlane⟩
    exact trap_double _ _ _ m hlane
  case held => exact trap_held _ _ _ m (by simpa [m] using hout)
  case returns =>
    obtain ⟨hcause, htpc, htval⟩ := returned_saved s
    refine ⟨hcause, htpc, htval, fun q hq => quad_of_allAt (allAt_returned s) hq, fun _ _ => returned_checkedFetch s,
      returned_hmask s, fun ⟨m, _⟩ => ?_⟩
    rw [returned_hmode, m]
    simp

end Sys2Proof.TrapResults

/-! Taking a trap in every mode (R354 to R356): what the quads, join registers and handler lanes of a group are after the end of a
fragment's lanes, and from it the whole of trap entry. -/

namespace Sys2Proof.TrapEntryResults

open Sys2Proof Sys2Proof.Machine Sys2Proof.Claims Sys2Proof.TrapResults

/-! ### The lanes of a quad in a mask of the group (R19, R284) -/

theorem getLsbD_foldl_or (l : List Nat) (f : Nat → Mask) (m : Mask) (k : Nat) :
    (l.foldl (fun a q => a ||| f q) m).getLsbD k = (m.getLsbD k || l.any fun q => (f q).getLsbD k) := by
  induction l generalizing m with
  | nil => simp
  | cons a l ih => simp [ih, Bool.or_assoc]

theorem quadLanes_and (a b : Mask) (q : Nat) : Bits.quadLanes (a &&& b) q = Bits.quadLanes a q &&& Bits.quadLanes b q := by
  ext i hi
  simp [Bits.quadLanes]

theorem getLsbD_quadMask {q i : Nat} (hq : q < 8) (hi : i < 4) (l : BitVec 4) :
    (Bits.quadMask q l).getLsbD (4 * q + i) = l.getLsbD i := by
  have hlane : 4 * q + i < 32 := by omega
  simp [Bits.quadMask, hlane]

theorem mem_fragQuads_lt {g : Group} {f q : Nat} (hq : q ∈ g.fragQuads f) : q < 8 := by
  simp only [Group.fragQuads, List.mem_filter, List.mem_range] at hq
  exact hq.1

theorem nodup_fragQuads (g : Group) (f : Nat) : (g.fragQuads f).Nodup := List.nodup_range.filter _

/-- The active mask holds every lane of the fragment's quads. -/
theorem lanes_and_not_active {g : Group} {f q : Nat} (hq : q ∈ g.fragQuads f) :
    (g.quad q).lanes &&& ~~~Bits.quadLanes (g.active f) q = 0#4 := by
  ext i hi
  have hactive : (g.quad q).lanes.getLsbD i = true → (g.active f).getLsbD (4 * q + i) = true := fun hlane => by
    rw [Group.active, getLsbD_foldl_or, Bool.or_eq_true, List.any_eq_true]
    exact .inr ⟨q, hq, by rw [getLsbD_quadMask (mem_fragQuads_lt hq) hi, hlane]⟩
  simpa [Bits.quadLanes, hi] using hactive

/-! ### EXIT of lanes in its stages (R288, R319) -/

/-- Quads of a list change, each by itself. -/
def setQuads (g : Group) (l : List Nat) (up : Nat → Quad → Quad) : Group :=
  l.foldl (fun g q => g.setQuad q (up q (g.quad q))) g

theorem setQuads_only (g : Group) (l : List Nat) (up : Nat → Quad → Quad) :
    setQuads g l up = { g with quads := (setQuads g l up).quads } := by
  unfold setQuads
  induction l generalizing g with
  | nil => rfl
  | cons a l ih => rw [List.foldl_cons, ih]; rfl

@[simp] theorem setQuads_j (g : Group) (l : List Nat) (up : Nat → Quad → Quad) : (setQuads g l up).j = g.j := by
  rw [setQuads_only]
@[simp] theorem setQuads_hmode (g : Group) (l : List Nat) (up : Nat → Quad → Quad) : (setQuads g l up).hmode = g.hmode := by
  rw [setQuads_only]
@[simp] theorem setQuads_hmask (g : Group) (l : List Nat) (up : Nat → Quad → Quad) : (setQuads g l up).hmask = g.hmask := by
  rw [setQuads_only]

theorem quad_setQuads {l : List Nat} (hl : l.Nodup) (g : Group) (up : Nat → Quad → Quad) (q : Nat) :
    (setQuads g l up).quad q = if q ∈ l then up q (g.quad q) else g.quad q := by
  induction l generalizing g with
  | nil => rfl
  | cons a l ih =>
    obtain ⟨ha, hl⟩ := List.nodup_cons.1 hl
    rw [show setQuads g (a :: l) up = setQuads (g.setQuad a (up a (g.quad a))) l up from rfl, ih hl]
    by_cases hqa : q = a
    case pos => simp [hqa, ha, Group.quad_setQuad]
    case neg => simp [hqa, Ne.symm hqa, Group.quad_setQuad]

/-- No join register expects the lanes of `x`, or holds them as arrived. -/
def unexpect (g : Group) (x : Mask) : Group :=
  (List.range 8).foldl (fun g n => g.wj n { g.rj n with expect := (g.rj n).expect &&& ~~~x, arrive := (g.rj n).arrive &&& ~~~x }) g

/-- No join register waits for the lanes of `x`, the quads of fragment `f` are without them, and what they keep stands at `pc`. -/
def emptied (g : Group) (f : Nat) (x : Mask) (pc : W64) : Group :=
  setQuads { unexpect g x with bad := g.bad } (g.fragQuads f)
    fun q y => { y with lanes := y.lanes &&& ~~~Bits.quadLanes x q, pc := pc }

/-- The quads left with no active lane. -/
def gone (g : Group) (f : Nat) (x : Mask) (pc : W64) : List Nat :=
  (g.fragQuads f).filter fun q => ((emptied g f x pc).quad q).lanes == 0#4

/-- The quads left with no active lane have exited. -/
def marked (g : Group) (f : Nat) (x : Mask) (pc : W64) : Group :=
  setQuads (emptied g f x pc) (gone g f x pc) fun _ y => { y with st := .exited, waitno := 0 }

/-- A quad takes up its deferred entry, where it has one (R288). -/
def resume (old : FragRec) (g : Group) (q : Nat) : Group :=
  match (List.range 8).findSome? fun n => (Group.entryFor (g.rj n) q).map fun e => (n, e) with
  | some (n, e) => ((g.takeEntry n q e).regroup [q] g.freeFrag).setFrag g.freeFrag old
  | none => g

/-- A join register at which the last expected lane has now arrived releases its quads (R290). -/
def releaseGathered (g : Group) (n : Nat) : Group :=
  if (g.rj n).active && (g.rj n).entries.isEmpty && !(g.parkedAt n).isEmpty && g.gathered n then g.release n else g

/-- The group after every stage but the last, which is that of handler mode. -/
def vacated (g : Group) (f : Nat) (x : Mask) (pc : W64) : Group :=
  (List.range 8).foldl releaseGathered
    ((gone g f x pc).foldl (resume { g.frag f with checkedFetch := false }) (marked g f x pc))

theorem exitLanes_eq (g : Group) (f : Nat) (x : Mask) (pc : W64) :
    g.exitLanes f x pc =
      let x := x &&& g.active f
      let h := (vacated g f x pc).dropHandler x
      { h with exited := !h.anyLane } := rfl

/-! ### Quads that stay exited -/

/-- No join register holds deferred lanes of quad `q`. -/
def NothingDeferred (g : Group) (q : Nat) : Prop := ∀ n < 8, ∀ e ∈ (g.rj n).entries, Bits.quadLanes e.lanes q = 0#4

/-- The group has handler mode `m` and HMASK `k`, and the quads of `Q` have exited with nothing deferred. -/
structure Ending (m : Bool) (k : Mask) (Q : Nat → Prop) (g : Group) : Prop where
  hmode : g.hmode = m
  hmask : g.hmask = k
  exited : ∀ q, Q q → (g.quad q).st = .exited
  nothing : ∀ q, Q q → NothingDeferred g q

namespace Ending

variable {m : Bool} {k : Mask} {Q : Nat → Prop} {g : Group}

theorem setFrag (h : Ending m k Q g) (f : Nat) (x : FragRec) : Ending m k Q (g.setFrag f x) :=
  ⟨h.hmode, h.hmask, h.exited, h.nothing⟩

theorem setExited (h : Ending m k Q g) (x : Bool) : Ending m k Q { g with exited := x } :=
  ⟨h.hmode, h.hmask, h.exited, h.nothing⟩

/-- A quad of `Q` may change as long as it stays exited. -/
theorem setQuad (h : Ending m k Q g) {r : Nat} {x : Quad} (hx : Q r → x.st = .exited) : Ending m k Q (g.setQuad r x) := by
  refine ⟨h.hmode, h.hmask, fun q hq => ?_, h.nothing⟩
  rw [Group.quad_setQuad]
  split
  case isTrue e => exact hx (e ▸ hq)
  case isFalse => exact h.exited q hq

/-- A join register may change as long as it defers no lane of `Q`. -/
theorem wj (h : Ending m k Q g) (n : Nat) {x : JReg} (hx : ∀ q, Q q → ∀ e ∈ x.entries, Bits.quadLanes e.lanes q = 0#4) :
    Ending m k Q (g.wj n x) := by
  refine ⟨h.hmode, h.hmask, h.exited, fun q hq i hi => ?_⟩
  rw [Group.rj_wj]
  split
  case isTrue => exact hx q hq
  case isFalse => exact h.nothing q hq i hi

/-- Taking lanes out of an entry defers none anew. -/
theorem takeEntry (h : Ending m k Q g) {n r : Nat} (hn : n < 8) (hr : ¬ Q r) (e : JEntry) : Ending m k Q (g.takeEntry n r e) := by
  unfold Group.takeEntry
  refine (h.wj n fun q hq x hx => ?_).setQuad fun hQ => absurd hQ hr
  obtain ⟨y, hy, rfl⟩ := List.mem_map.1 (List.mem_filter.1 hx).1
  have hnone := h.nothing q hq n hn y hy
  split
  · rw [quadLanes_and, hnone, BitVec.zero_and]
  · exact hnone

theorem regroup (h : Ending m k Q g) (qs : List Nat) (f : Nat) : Ending m k Q (g.regroup qs f) :=
  List.foldlRecOn qs _ h fun _ hb q _ => hb.setQuad fun hQ => hb.exited q hQ

/-- A quad of `Q` has no entry to resume at, and another's leaves `Q` alone. -/
theorem resume (h : Ending m k Q g) (old : FragRec) (r : Nat) : Ending m k Q (resume old g r) := by
  unfold TrapEntryResults.resume
  split
  case h_1 n e he =>
    obtain ⟨i, hi, hentry⟩ := List.exists_of_findSome?_eq_some he
    obtain ⟨e', hfound, heq⟩ := Option.map_eq_some_iff.1 hentry
    obtain ⟨rfl, rfl⟩ : i = n ∧ e' = e := by simpa using heq
    have hn : i < 8 := List.mem_range.1 hi
    have hr : ¬ Q r := fun hQ => by
      have hlanes := List.find?_some hfound
      rw [h.nothing r hQ i hn e' (List.mem_of_find?_eq_some hfound)] at hlanes
      simp at hlanes
    exact ((h.takeEntry hn hr e').regroup _ _).setFrag _ _
  case h_2 => exact h

/-- Only parked quads are freed. -/
theorem freeParked (h : Ending m k Q g) (n : Nat) : Ending m k Q (g.freeParked n) := by
  unfold Group.freeParked
  refine List.foldlRecOn _ _ h fun b hb x _ => Ending.setFrag (List.foldlRecOn _ _ hb fun c hc q hq => hc.setQuad fun hQ => ?_) _ _
  have hparked := (List.mem_filter.1 hq).2
  simp [hb.exited q hQ] at hparked

theorem releaseGathered (h : Ending m k Q g) (n : Nat) : Ending m k Q (releaseGathered g n) := by
  unfold TrapEntryResults.releaseGathered
  split
  · exact (h.freeParked n).wj n fun _ _ _ he => absurd he List.not_mem_nil
  · exact h

theorem unparkBar (h : Ending m k Q g) (b : Nat) : Ending m k Q (g.unparkBar b) := by
  refine List.foldlRecOn _ _ h fun c hc q _ => ?_
  dsimp only
  split
  case isTrue hparked => exact hc.setQuad fun hQ => by simp [hc.exited q hQ] at hparked
  case isFalse => exact hc

/-- Handler mode lasts while a lane of HMASK remains (R355). -/
theorem dropHandler (h : Ending m k Q g) (x : Mask) : Ending (m && k &&& ~~~x != 0#32) (k &&& ~~~x) Q (g.dropHandler x) := by
  refine ⟨?_, ?_, fun q hq => ?_, fun q hq n hn => ?_⟩
  · rw [dropHandler_hmode, h.hmode, h.hmask]
  · rw [dropHandler_hmask, h.hmask]
  · rw [dropHandler_quad, h.exited q hq]
  · rw [show (g.dropHandler x).rj n = g.rj n by unfold Group.dropHandler; dsimp only; split <;> rfl]
    exact h.nothing q hq n hn

end Ending

/-! ### The end of all lanes of a fragment (R356) -/

/-- The quads of fragment `f` that have nothing deferred. -/
def Ends (g : Group) (f q : Nat) : Prop := q ∈ g.fragQuads f ∧ NothingDeferred g q

/-- What a join register expects is apart from its entries, and from everything that is no join register. -/
theorem unexpect_keeps (g : Group) (x : Mask) :
    (unexpect g x).quads = g.quads ∧ (unexpect g x).hmode = g.hmode ∧ (unexpect g x).hmask = g.hmask
      ∧ ∀ n, ((unexpect g x).rj n).entries = (g.rj n).entries := by
  unfold unexpect
  refine List.foldlRecOn (motive := fun h : Group => h.quads = g.quads ∧ h.hmode = g.hmode ∧ h.hmask = g.hmask
    ∧ ∀ n, (h.rj n).entries = (g.rj n).entries) _ _ ⟨rfl, rfl, rfl, fun _ => rfl⟩ ?_
  intro h ⟨hquads, hmode, hmask, hentries⟩ i _
  refine ⟨hquads, hmode, hmask, fun n => ?_⟩
  rw [Group.rj_wj, ← hentries]
  split
  case isTrue hi => rw [hi]
  case isFalse => rfl

/-- A quad all of whose lanes end is left with none. -/
theorem mem_gone {g : Group} {f q : Nat} (hq : q ∈ g.fragQuads f) (pc : W64) : q ∈ gone g f (g.active f) pc := by
  have hquad : ({ unexpect g (g.active f) with bad := g.bad } : Group).quad q = g.quad q := by
    rw [Group.quad, (unexpect_keeps g _).1, Group.quad]
  refine List.mem_filter.2 ⟨hq, ?_⟩
  rw [emptied, quad_setQuads (nodup_fragQuads g f), if_pos hq, hquad]
  simpa using lanes_and_not_active hq

theorem ending_marked (g : Group) (f : Nat) (pc : W64) : Ending g.hmode g.hmask (Ends g f) (marked g f (g.active f) pc) := by
  obtain ⟨-, hmode, hmask, hentries⟩ := unexpect_keeps g (g.active f)
  have hrj (n : Nat) : (marked g f (g.active f) pc).rj n = (unexpect g (g.active f)).rj n := by
    rw [marked, emptied]
    exact Group.rj_congr (by simp) n
  have hgone : (gone g f (g.active f) pc).Nodup := (nodup_fragQuads g f).filter _
  refine ⟨?_, ?_, fun q ⟨hq, _⟩ => ?_, fun q ⟨_, hnone⟩ n hn => ?_⟩
  · rw [marked, emptied, setQuads_hmode, setQuads_hmode, hmode]
  · rw [marked, emptied, setQuads_hmask, setQuads_hmask, hmask]
  · rw [marked, quad_setQuads hgone, if_pos (mem_gone hq pc)]
  · rw [hrj, hentries]
    exact hnone n hn

/-- The quads with nothing deferred exit, and handler mode lasts while a lane of HMASK remains (R319, R355). -/
theorem ending_exitLanes (g : Group) (f : Nat) (pc : W64) :
    Ending (g.hmode && g.hmask &&& ~~~g.active f != 0#32) (g.hmask &&& ~~~g.active f) (Ends g f)
      (g.exitLanes f (g.active f) pc) := by
  have hvacated : Ending g.hmode g.hmask (Ends g f) (vacated g f (g.active f) pc) := by
    unfold vacated
    refine List.foldlRecOn _ _ (List.foldlRecOn _ _ (ending_marked g f pc) ?resumed) ?released
    case resumed => exact fun _ h q _ => h.resume _ q
    case released => exact fun _ h n _ => h.releaseGathered n
  have h := hvacated.dropHandler (g.active f)
  rw [exitLanes_eq, BitVec.and_self]
  exact h.setExited _

section Barriers

variable {m : Bool} {k : Mask} {Q : Nat → Prop} {s : State} {u : Nat}

/-- A barrier that completes frees parked quads alone (R321). -/
theorem ending_completeBarrier (h : Ending m k Q (s.grpAt u)) (w b : Nat) :
    Ending m k Q ((s.completeBarrier w b).grpAt u) := by
  have freed {r : State} (ps : List (Nat × Group)) (hr : Ending m k Q (r.grpAt u)) :
      Ending m k Q ((ps.foldl (fun s e => s.modGrp e.1 fun g => g.unparkBar b) r).grpAt u) := by
    refine List.foldlRecOn (motive := fun t : State => Ending m k Q (t.grpAt u)) _ _ hr fun t ht e _ => ?_
    rw [State.grpAt_modGrp]
    split
    · exact ht.unparkBar b
    · exact ht
  have hset (x : Barrier) : (s.setBarrierAt w b x).grpAt u = s.grpAt u := by
    unfold State.setBarrierAt
    dsimp only
    split
    · rfl
    · split <;> rfl
  unfold State.completeBarrier
  dsimp only
  split
  · split
    · exact freed _ (by rwa [hset])
    · exact List.foldlRecOn (motive := fun t : State => Ending m k Q (t.grpAt u)) _ _ (freed _ (by rwa [hset])) fun _ ht _ _ => ht
  · exact h

theorem ending_judgeBarriers (h : Ending m k Q (s.grpAt u)) (w : Nat) :
    Ending m k Q ((s.judgeBarriers w).grpAt u) :=
  List.foldlRecOn (motive := fun t : State => Ending m k Q (t.grpAt u)) _ _ h fun _ ht b _ => ending_completeBarrier ht w b

end Barriers

theorem grp_eq_grpAt (s : State) : s.grp = s.grpAt s.cur.grp := rfl

/-- The end of all lanes of the issuing fragment, whether or not the group exits with it. -/
theorem ending_endLanes (s : State) (pc : W64) :
    Ending (s.grp.hmode && s.grp.hmask &&& ~~~s.active != 0#32) (s.grp.hmask &&& ~~~s.active) (Ends s.grp s.cur.frag)
      (s.endLanes s.active pc).grp := by
  have hexit := ending_exitLanes s.grp s.cur.frag pc
  unfold State.endLanes
  dsimp only
  split
  · have hcur := (Ended.judgeBarriers (s.setGrp (s.grp.exitLanes s.cur.frag s.active pc)) s.cur.grp).cur
    rw [State.setGrp_cur, grp_eq_grpAt (State.judgeBarriers _ _), hcur]
    refine ending_judgeBarriers ?_ _
    rwa [State.setGrp_cur, State.setGrp, State.grpAt_setGrpAt_same]
  · rwa [State.grp_setGrp]

/-! ### The registers that a trap keeps -/

/-- Where the trap registers are set and lanes end, the registers of every other file but the join registers keep their values,
and so does the hypothesis. -/
theorem registers_of_lanesOnly {g h : Group} {cause : W32} {tpc tval : W64}
    (e : LanesOnly { g with cause := cause, tpc := tpc, tval := tval } h) :
    (h.cause = cause ∧ h.tpc = tpc ∧ h.tval = tval)
      ∧ (∀ n l, h.rv n l = g.rv n l) ∧ (∀ n, h.rk n = g.rk n) ∧ (∀ n, h.rp n = g.rp n) ∧ (∀ n l, h.rm n l = g.rm n l)
      ∧ (∀ n, h.rt n = g.rt n) ∧ h.hcur = g.hcur ∧ h.mcr = g.mcr := by
  unfold LanesOnly at e
  rw [e]
  exact ⟨⟨rfl, rfl, rfl⟩, fun _ _ => rfl, fun _ => rfl, fun _ => rfl, fun _ _ => rfl, fun _ => rfl, rfl, rfl⟩

/-! ### Trap entry by mode (R354 to R356) -/

/-- Outside handler mode and with a handler, the fragment stands at TRAPVEC in handler mode, its next fetch checked (R354). -/
theorem takeTrap_handler {s : State} (cause tval : Nat) (pc : W64) (m : s.grp.hmode = false) (hvec : s.trapvec s.ctx ≠ 0#64) :
    let t := s.takeTrap cause tval pc
    t.cur.status = .trapped
      ∧ LanesOnly { s.grp with cause := BitVec.ofNat 32 cause, tpc := pc, tval := BitVec.ofNat 64 tval } t.grp
      ∧ t.grp.hmode = true ∧ t.grp.hmask = s.active ∧ AllAt s t (s.trapvec s.ctx)
      ∧ (t.grp.frag s.cur.frag).checkedFetch = true ∧ (∀ n, t.grp.rj n = s.grp.rj n) ∧ SameMemory s t
      ∧ ∀ u, u ≠ s.cur.grp → t.grpAt u = s.grpAt u := by
  dsimp only
  rw [State.takeTrap_enters cause tval pc m hvec, AllAt, grp_setGrp_status, Group.advance_only]
  exact ⟨rfl, rfl, rfl, rfl, Group.quad_advance _ _ _, by rw [Group.frag_setFrag, if_pos rfl], fun _ => rfl,
    sameMemory_of_teams rfl fun _ => rfl, fun u hu => State.grpAt_setGrpAt_other s _ hu.symm⟩

/-- The state whose lanes end: the issue has trapped, with the trap registers as given. -/
def trapping (s : State) (cause : W32) (tpc tval : W64) : State :=
  ({ s with cur := { s.cur with status := .trapped } } : State).setGrp { s.grp with cause := cause, tpc := tpc, tval := tval }

theorem grp_trapping (s : State) (cause : W32) (tpc tval : W64) :
    (trapping s cause tpc tval).grp = { s.grp with cause := cause, tpc := tpc, tval := tval } := State.grp_setGrp _ _

/-- The end of the lanes of a fragment that traps, before the event about it (R354, R356). -/
theorem endLanes_trapping (s : State) (cause : W32) (tpc tval pc : W64) :
    let u := (trapping s cause tpc tval).endLanes s.active pc
    LanesOnly { s.grp with cause := cause, tpc := tpc, tval := tval } u.grp
      ∧ Ending (s.grp.hmode && s.grp.hmask &&& ~~~s.active != 0#32) (s.grp.hmask &&& ~~~s.active) (Ends s.grp s.cur.frag) u.grp
      ∧ u.mem = s.mem := by
  have hactive : (trapping s cause tpc tval).active = s.active := by rw [State.active, grp_trapping]; rfl
  have hended := Ended.endLanes (trapping s cause tpc tval) s.active pc
  have hlanes := hended.groups s.cur.grp
  have hending := ending_endLanes (trapping s cause tpc tval) pc
  rw [hactive, grp_trapping] at hending
  refine ⟨?_, hending, by rw [hended.state]; rfl⟩
  rw [← grp_trapping, grp_eq_grpAt (State.endLanes _ _ _), hended.cur]
  exact hlanes

/-! ### The statement -/

/-- Settles O45: trap entry by the mode of the group and the lanes that trap. -/
theorem trapEntry : Obligations.TrapEntry := by
  unfold Obligations.TrapEntry
  intro s cause tval pc
  dsimp only
  refine ⟨fun m hvec => ?handler, fun m hvec => ?none, fun ⟨m, hlane⟩ => ?double, fun m hout => ?held⟩
  case handler =>
    obtain ⟨hstatus, hlanes, henters⟩ := takeTrap_handler cause tval pc m hvec
    obtain ⟨hsaved, hkeeps⟩ := registers_of_lanesOnly hlanes
    exact ⟨hstatus, hsaved, hkeeps, henters⟩
  case none =>
    obtain ⟨hlanes, hending, hmem⟩ := endLanes_trapping s (BitVec.ofNat 32 cause) pc (BitVec.ofNat 64 tval) pc
    obtain ⟨hsaved, hkeeps⟩ := registers_of_lanesOnly hlanes
    have htaken := takeTrap_eq_of_no_handler cause tval pc m hvec
    have hstatus : (s.takeTrap cause tval pc).cur.status = .trapped := by rw [htaken, (postEvent_endLanes _ _ _ _ _).1]; rfl
    exact ⟨hstatus, _, htaken, hsaved, hkeeps, fun q hq hnone => hending.exited q ⟨hq, hnone⟩, hmem⟩
  case double =>
    obtain ⟨hlanes, hending, hmem⟩ := endLanes_trapping s 0x46#32 s.grp.tpc s.grp.tval pc
    obtain ⟨⟨hcause, htpc, htval⟩, hkeeps⟩ := registers_of_lanesOnly hlanes
    have htaken := takeTrap_eq_of_double cause tval pc m hlane
    obtain ⟨hstatus, -⟩ := takeTrap_double cause tval pc m hlane
    exact ⟨hstatus, _, htaken, hcause, htpc, htval, hkeeps, fun q hq hnone => hending.exited q ⟨hq, hnone⟩, hmem,
      fun hleft => hending.hmode.trans (by simp [hleft]), hending.hmask⟩
  case held =>
    have hnone : s.active &&& s.grp.hmask = 0#32 := by simpa [m] using hout
    obtain ⟨hstatus, hregs, hmem⟩ := takeTrap_held cause tval pc m hnone
    refine ⟨hstatus, hregs, hmem, ?_⟩
    rw [State.takeTrap_waits cause tval pc m hnone, grp_setGrp_status]
    exact ⟨fun _ => rfl, by rw [Group.frag_setFrag, if_pos rfl]⟩

end Sys2Proof.TrapEntryResults
